-- ==== Sys2Proof/Word.lean ====
section
/-! DEFINITION. The word types of the part: the byte of the host link and of the panel lines, and
the opaque tokens. Campus times, counts and indexes are natural numbers, not words: the manual
never shifts or masks them. -/

namespace Sys2Proof

/-- One link character or one byte of a panel-line frame (R168, R184). -/
abbrev Byte := BitVec 8

/-- A 32-bit opaque value: an organizer token or a badge token (R25, R152). -/
abbrev Token := BitVec 32

/-- The 16-bit opaque label token of a room (R11). -/
abbrev Label := BitVec 16

end Sys2Proof
end

