-- ==== Sys2Proof/Config.lean ====
section
/-! DEFINITION. What one implementation fixes: the capacities the manual states (R179) and the free
values the manual leaves open. -/

namespace Sys2Proof.Config

/-- Rooms of the Room Table (R11, R179). -/
def rooms : Nat := 512
/-- Buildings, numbered 0 to 23 (R11, R179). -/
def buildings : Nat := 24
/-- Kitchens, numbered 0 to 7 (R14, R179). -/
def kitchens : Nat := 8
/-- Panel lines, numbered 0 to 3 (R117, R179). -/
def panelLines : Nat := 4
/-- Positions of one panel line, numbered 1 to 48 (R118, R179). -/
def positions : Nat := 48
/-- Booking records (R20, R179). -/
def bookingRecords : Nat := 2048
/-- Entries of the Hold List (R31, R179). -/
def holdEntries : Nat := 64
/-- Order records (R80, R179). -/
def orderRecords : Nat := 768
/-- Records of the Event Queue (R175, R179). -/
def eventQueue : Nat := 256
/-- Records of the Exception Queue (R175, R179). -/
def exceptionQueue : Nat := 32
/-- Entries of the owed-BUSY list (R171). -/
def owedBusy : Nat := 8
/-- Quanta of one day (R1). -/
def quanta : Nat := 288
/-- Quanta of the horizon: 8 days (R1). -/
def horizon : Nat := 2304
/-- Milliseconds of one quantum (R2). -/
def quantumMs : Nat := 300000

/-- The revision letter that Identify returns (R179). The manual names the field and states no
letter: a FREE VALUE, which nothing in Lean can evaluate. DESIGN CHOICE, safe: log entry 10. -/
opaque revision : Byte

/-- The code of the reason LINES in a reply: R94 names the reason, the list of R92 that numbers the reasons
has no place for it. A FREE VALUE (DESIGN CHOICE, safe: log entry 8). -/
opaque linesCode : Byte

/-- The codes of the order outcomes CLOSED and CANCELLED in a reply: R51 and R110 send them, and R101 keeps
them apart from the six states it numbers. FREE VALUES (DESIGN CHOICE, safe: log entry 8). -/
opaque closedCode : Byte
/-- See `closedCode`. -/
opaque cancelledCode : Byte

end Sys2Proof.Config
end

