-- ==== Sys2Proof/Syntax.lean ====
section
/-! DEFINITION. The commands of the part: one constructor of `Instr` for each row of
spec/opcode_table.json, with the row's operands, and the plain data those operands are made of. -/

namespace Sys2Proof

/-- A campus time: a day number (0 to 65535) and a quantum of day (0 to 287) (§1.1). -/
structure CTime where
  day : Nat
  quantum : Nat
deriving DecidableEq, Repr

/-- A booking handle or an order handle: the pair (index, generation) (R21, R80). -/
structure Handle where
  index : Nat
  gen : Nat
deriving DecidableEq, Repr

/-- One quantum-boundary event: the new now and the rollover flag (R4). -/
structure Boundary where
  now : CTime
  rollover : Bool
deriving DecidableEq, Repr

/-- The position a panel request came from, and its request number (R155). -/
structure PanelSrc where
  line : Fin 4
  pos : Nat
  reqno : Nat
deriving DecidableEq, Repr

/-- The result codes of §10.8. -/
inductive Result where
  | ok | clamped | busy | badKind | badField | noSuchRoom | roomOutOfService | roomBusy
  | clockNotSet | clockStep | outOfHorizon | overCapacity | conflict | poolEmpty | holdsFull
  | staleHandle | wrongState | orderExists | orderTooLarge | noKitchenCapacity
  | cateringCommitted | chainState | noneFree
deriving DecidableEq, Repr

/-- The panel reply codes of R153. -/
inductive PanelCode where
  | accepted | conflict | tooLongClamped | notNow | closed | refused | full
deriving DecidableEq, Repr

/-- The outcome kinds handed to the Catering Planner with a freed booking's order (R36). -/
inductive HandoffKind where
  | cancelled | released | ended
deriving DecidableEq, Repr

/-- The six states of an order record, and the two outcomes it leaves them with (R101). An order
record never holds `closed` or `cancelled`: they stand in answers only. -/
inductive OrderState where
  | planned | inProduction | wasted | dispatched | delivered | unconfirmed | closed | cancelled
deriving DecidableEq, Repr

/-- The reasons a kitchen gave no placement (R92), with LINES of R94 and NONE. -/
inductive Reason where
  | unreachable | tooLate | closed | carts | prep | lines | none
deriving DecidableEq, Repr

/-- The reasons and deficits of the primary and the alternate kitchen (R92, R93). -/
structure Reasons where
  primary : Reason
  primaryDeficit : Nat
  alternate : Reason
  alternateDeficit : Nat
deriving DecidableEq, Repr

/-- The Catering Planner's answer to an admission (R90, R91). -/
inductive AdmissionAnswer where
  | admitted (order : Handle) (kitchen shift : Nat) (window departure : CTime) (load len : Nat)
  | refused (code : Result) (reasons : Option Reasons)
deriving DecidableEq, Repr

/-- The Catering Planner's answer to a refit (R51, R94). -/
inductive RefitAnswer where
  | fit (kitchen shift : Nat) (window departure : CTime)
  | noFit (reasons : Reasons)
  | committed
  | dropped (state : OrderState)
deriving DecidableEq, Repr

/-- One line of a catering order: a menu class and its covers (R82). -/
structure OrderLine where
  cls : Nat
  covers : Nat
deriving DecidableEq, Repr

/-- The whole new entry a LoadRoom carries, as it was sent (R12). `alternate` and `binding` are
absent when every byte of the field is 0xFF (R184). -/
structure RoomSpec where
  building : Nat
  seats : Nat
  turnaround : Nat
  primary : Nat
  alternate : Option Nat
  binding : Option (Nat × Nat)
  service : Nat
  label : Label
deriving DecidableEq, Repr

/-- The whole new entry a LoadKitchen carries (R14). -/
structure KitchenSpec where
  capacity : Nat
  carts : Nat
  openFrom : Nat
  openTo : Nat
deriving DecidableEq, Repr

/-- The policy identifier and value of a SetPolicy, in the order of the table of R17. -/
inductive PolicyReq where
  | grace (n : Nat) | holdLimit (n : Nat) | absentAction (code : Nat) | absentReport (code : Nat)
  | autoCheckIn (code : Nat) | walkupMax (n : Nat) | scanRange (first last : Nat)
  | scanStep (ms : Nat) | deglitch (n : Nat) | pollInterval (n : Nat) | quietPoll (n : Nat)
  | quietWindow (w : Option (Nat × Nat)) | supervision (n : Nat)
  | attentionMask (m : BitVec 8) | eventMask (m : BitVec 16)
  | unreadable
deriving DecidableEq, Repr

/-- The fields of a Hold (R42); `holdTime` is not read by Book. -/
structure BookReq where
  room : Nat
  start : CTime
  fin : CTime
  attendees : Nat
  organizer : Token
deriving DecidableEq, Repr

/-- The fields of a Move (R48). -/
structure MoveReq where
  booking : Handle
  room : Nat
  start : CTime
  fin : CTime
  attendees : Nat
  flags : Nat
deriving DecidableEq, Repr

/-- The fields of a FindRoom (R52). `building` is absent for ANY. -/
structure FindReq where
  building : Option Nat
  start : CTime
  fin : CTime
  attendees : Nat
  organizer : Token
  holdTime : Nat
  flags : Nat
deriving DecidableEq, Repr

/-- A host request as the owner reads it from the body of its frame (§10.8). -/
inductive HostRequest where
  | identify | getStatus (flags : Nat) | readReports (queue count : Nat) | readCounters (flags : Nat)
  | reset (scope confirm : Nat) | setClock (day quantum ms : Nat) | setPolicy (p : PolicyReq)
  | readPolicy
  | loadRoom (room : Nat) (e : RoomSpec) | readRoom (room : Nat)
  | loadKitchen (kitchen : Nat) (e : KitchenSpec) | readKitchen (kitchen : Nat)
  | loadDistance (kitchen building : Nat) (transit : Option Nat) | readDistance (kitchen : Nat)
  | loadMenuClass (cls weight lead holdLimit : Nat) | readMenuClass (cls : Nat)
  | hold (q : BookReq) (holdTime : Nat) | book (q : BookReq) | confirm (h : Handle)
  | cancel (h : Handle) (flags : Nat) | endBooking (h : Handle) | checkIn (h : Handle) (badge : Token)
  | move (q : MoveReq) | findRoom (q : FindReq)
  | queryRoom (room day : Nat) (continuation : Option CTime) | queryBooking (h : Handle)
  | acceptProvisional (h : Handle)
  | placeOrder (h : Handle) (count : Nat) (lines : List OrderLine)
  | queryOrder (h : Handle) | cancelOrder (h : Handle) | confirmDelivery (h : Handle)
  | readLoad (kitchen : Nat) (first : CTime) (count : Nat)
  | readProduction (kitchen : Nat) (continuation : Option (CTime × Nat)) (count : Nat)
  | startChain (line : Nat) | stopChain (line : Nat) | chainMode (line mode : Nat)
  | clearPanelFault (line : Nat) (pos : Option Nat) | readChain (line : Nat)
  | readPosition (line pos : Nat) | readLineHealth (line : Nat)
deriving DecidableEq, Repr

/-- A host frame that passed its CRC: kind, tag and body (R168, R170). -/
structure Frame where
  kind : Nat
  tag : Nat
  body : List Byte
deriving DecidableEq, Repr

/-- An answer of the Reservation Engine or of the Catering Planner to a panel request: the request
kind, the panel code and the time carried (R153, R155). -/
structure PanelAnswer where
  kind : Nat
  code : PanelCode
  time : Option CTime
deriving DecidableEq, Repr

/-- The commands of the part, one for each row of spec/opcode_table.json, in the table's order.

A command names one whole step of the part (95_what_each_step_holds.md). The rows that are host
requests carry the request's fields; the rows in which an owner takes work carry that work; the
rows that are events at a pin carry what the pin brings. -/
inductive Instr where
  | powerOn
  | supplyLowReset
  | crystalStable (straps : Fin 4)
  | timebaseTick
  | quantumEntry
  | heldQuantumReached
  | interByteGapExpiry
  | hostByteReceived (b : Byte) (stopBit : Bool)
  | validFrame (f : Frame)
  | resetTakesEffect
  | identify
  | getStatus (flags : Nat)
  | readReports (queue count : Nat)
  | readCounters (flags : Nat)
  | reset (scope confirm : Nat)
  | setClock (day quantum ms : Nat)
  | setPolicy (p : PolicyReq)
  | readPolicy
  | loadRoom (room : Nat) (e : RoomSpec)
  | loadRoomEngineCheck (room : Nat) (e : RoomSpec)
  | readRoom (room : Nat)
  | loadKitchen (kitchen : Nat) (e : KitchenSpec)
  | readKitchen (kitchen : Nat)
  | loadDistance (kitchen building : Nat) (transit : Option Nat)
  | readDistance (kitchen : Nat)
  | loadMenuClass (cls weight lead holdLimit : Nat)
  | readMenuClass (cls : Nat)
  | hold (q : BookReq) (holdTime : Nat)
  | book (q : BookReq)
  | confirm (h : Handle)
  | cancel (h : Handle) (flags : Nat)
  | endBooking (h : Handle)
  | checkIn (h : Handle) (badge : Token)
  | move (q : MoveReq)
  | roomNotice (order : Handle) (room : Nat)
  | findRoom (q : FindReq)
  | queryRoom (room day : Nat) (continuation : Option CTime)
  | queryBooking (h : Handle)
  | acceptProvisional (h : Handle)
  | placeOrder (h : Handle) (count : Nat) (lines : List OrderLine)
  | admissionComputation (booking : Handle) (serving : CTime) (room count : Nat) (lines : List OrderLine)
  | admissionCompletion
  | engineTakesAdmissionAnswer (booking : Handle) (a : AdmissionAnswer)
  | refitComputation (booking order : Handle) (serving : CTime) (room : Nat) (drop : Bool)
  | refitCompletion
  | engineTakesRefitAnswer (booking : Handle) (a : RefitAnswer)
  | queryOrder (h : Handle)
  | cancelOrder (h : Handle)
  | confirmDelivery (h : Handle)
  | readLoad (kitchen : Nat) (first : CTime) (count : Nat)
  | readProduction (kitchen : Nat) (continuation : Option (CTime × Nat)) (count : Nat)
  | kitchenChange (kitchen capacity carts : Nat)
  | bookingHandoff (order booking : Handle) (kind : HandoffKind)
  | linkNotice (booking order : Handle)
  | displayNotice (booking order : Handle)
  | engineBoundaryWork (b : Boundary)
  | plannerBoundaryWork (b : Boundary)
  | controllerBoundaryWork (line : Fin 4) (b : Boundary)
  | scanStepExpiry
  | roomVisit (room : Nat)
  | occupancyNotice (room : Nat)
  | walkup (src : PanelSrc) (room len : Nat) (badge : Token)
  | panelCheckin (src : PanelSrc) (room : Nat) (badge : Token)
  | extend (src : PanelSrc) (room k : Nat)
  | panelEnd (src : PanelSrc) (room : Nat)
  | cateringReceived (src : PanelSrc) (room : Nat) (badge : Token)
  | startChain (line : Nat)
  | stopChain (line : Nat)
  | chainMode (line mode : Nat)
  | clearPanelFault (line : Nat) (pos : Option Nat)
  | readChain (line : Nat)
  | readPosition (line pos : Nat)
  | readLineHealth (line : Nat)
  | pollTimerExpiry (line : Fin 4)
  | attentionWirePulled (line : Fin 4)
  | cycleReturn (line : Fin 4) (frame : List Byte)
  | cycleTimeout (line : Fin 4)
  | panelAnswer (line : Fin 4) (pos reqno : Nat) (a : PanelAnswer)
  | displayUpdateRequest (line : Fin 4) (room : Nat)
  | bindingChange (line : Fin 4) (pos : Nat) (room : Option Nat)
  | supervisionTimerExpiry
  | attentionWireReleased (line : Fin 4)
  | supplyRestored
deriving DecidableEq, Repr

end Sys2Proof
end

