-- ==== Sys2Proof/WellFormed.lean ====
section
/-! DEFINITION. The well-formed commands: every operand fits the field that carries it. A host request's
fields fit the encodings of R184, so a value the part must refuse is still well formed; work that the
part's blocks hand one another, and events at its pins, carry values in the ranges the manual gives. -/

namespace Sys2Proof

/-- A one-byte number (R184). -/
def byteOk (n : Nat) : Bool := decide (n < 256)

/-- A two-byte number (R184). -/
def halfOk (n : Nat) : Bool := decide (n < 65536)

/-- A campus time as its four bytes can spell it (R184). -/
def timeFieldOk (t : CTime) : Bool := halfOk t.day && halfOk t.quantum

/-- A handle as its three bytes can spell it (R184). -/
def handleFieldOk (h : Handle) : Bool := halfOk h.index && byteOk h.gen

/-- A campus time (§1.1). -/
def timeOk (t : CTime) : Bool := halfOk t.day && decide (t.quantum < 288)

/-- A booking handle in range (R20). -/
def bookingOk (h : Handle) : Bool := decide (h.index < 2048 ∧ h.gen < 64)

/-- An order handle in range (R80). -/
def orderOk (h : Handle) : Bool := decide (h.index < 768 ∧ h.gen < 64)

/-- A room number in range (R11). -/
def roomOk (n : Nat) : Bool := decide (n < 512)

/-- A position number in range (R118). -/
def posOk (n : Nat) : Bool := decide (1 ≤ n ∧ n ≤ 48)

/-- A boundary event: the rollover flag is set at quantum 0 (R4). -/
def boundaryOk (b : Boundary) : Bool := timeOk b.now && decide (b.rollover = decide (b.now.quantum = 0))

/-- A panel request's source (R155). -/
def srcOk (p : PanelSrc) : Bool := posOk p.pos && byteOk p.reqno

/-- The lines of an order as their bytes can spell them (R184). -/
def linesFieldOk (ls : List OrderLine) : Bool :=
  decide (ls.length ≤ 118) && ls.all (fun l => byteOk l.cls && byteOk l.covers)

/-- A room entry as its bytes can spell it (R184). -/
def roomSpecOk (e : RoomSpec) : Bool :=
  byteOk e.building && halfOk e.seats && byteOk e.turnaround && byteOk e.primary &&
  e.alternate.all (fun k => decide (k < 255)) &&
  e.binding.all (fun b => byteOk b.1 && byteOk b.2 && decide (b ≠ (255, 255))) && byteOk e.service

/-- A kitchen entry as its bytes can spell it (R184). -/
def kitchenSpecOk (e : KitchenSpec) : Bool :=
  byteOk e.capacity && byteOk e.carts && halfOk e.openFrom && halfOk e.openTo

/-- A policy value as its bytes can spell it (R184). -/
def policyReqOk (p : PolicyReq) : Bool :=
  match p with
  | .grace n | .holdLimit n | .absentAction n | .absentReport n | .autoCheckIn n | .walkupMax n
  | .deglitch n | .pollInterval n | .quietPoll n | .supervision n => byteOk n
  | .scanRange f l => halfOk f && halfOk l
  | .scanStep n => halfOk n
  | .quietWindow w => w.all (fun p => halfOk p.1 && halfOk p.2 && decide (p ≠ (65535, 65535)))
  | .attentionMask _ | .eventMask _ | .unreadable => true

/-- The fields of a Hold or a Book (R184). -/
def bookReqOk (q : BookReq) : Bool :=
  halfOk q.room && timeFieldOk q.start && timeFieldOk q.fin && halfOk q.attendees

/-- The fields of a Move (R184). -/
def moveReqOk (q : MoveReq) : Bool :=
  handleFieldOk q.booking && halfOk q.room && timeFieldOk q.start && timeFieldOk q.fin &&
  halfOk q.attendees && byteOk q.flags

/-- The fields of a FindRoom (R184). -/
def findReqOk (q : FindReq) : Bool :=
  q.building.all (fun b => decide (b < 255)) && timeFieldOk q.start && timeFieldOk q.fin &&
  halfOk q.attendees && byteOk q.holdTime && byteOk q.flags

/-- A frame (R168): kind and tag one byte, at most 240 body bytes. -/
def frameOk (f : Frame) : Bool := byteOk f.kind && byteOk f.tag && decide (f.body.length ≤ 240)

/-- The planner's answer to an admission (R90, R91). -/
def admissionOk (a : AdmissionAnswer) : Bool :=
  match a with
  | .admitted o k sh w d p n =>
    orderOk o && decide (k < 8 ∧ sh ≤ 8) && timeOk w && timeOk d &&
    decide (1 ≤ p ∧ p ≤ 4095 ∧ 1 ≤ n ∧ n ≤ 24)
  | .refused code _ =>
    decide (code = .badField ∨ code = .poolEmpty ∨ code = .orderTooLarge ∨ code = .noKitchenCapacity)

/-- The planner's answer to a refit (R94). -/
def refitOk (a : RefitAnswer) : Bool :=
  match a with
  | .fit k sh w d => decide (k < 8 ∧ sh ≤ 8) && timeOk w && timeOk d
  | .noFit _ | .committed | .dropped _ => true

/-- The well-formed commands. -/
def Instr.wf (i : Instr) : Bool :=
  match i with
  | .powerOn | .supplyLowReset | .crystalStable _ | .timebaseTick | .quantumEntry
  | .heldQuantumReached | .interByteGapExpiry | .hostByteReceived _ _ | .resetTakesEffect
  | .identify | .readPolicy | .admissionCompletion | .refitCompletion | .scanStepExpiry
  | .pollTimerExpiry _ | .attentionWirePulled _ | .cycleTimeout _ | .supervisionTimerExpiry
  | .attentionWireReleased _ | .supplyRestored => true
  | .validFrame f => frameOk f
  | .getStatus n | .readCounters n => byteOk n
  | .readReports q n => byteOk q && byteOk n
  | .reset a b => byteOk a && byteOk b
  | .setClock d q m => halfOk d && halfOk q && decide (m < 16777216)
  | .setPolicy p => policyReqOk p
  | .loadRoom r e | .loadRoomEngineCheck r e => halfOk r && roomSpecOk e
  | .readRoom r => halfOk r
  | .loadKitchen k e => byteOk k && kitchenSpecOk e
  | .readKitchen k | .readDistance k | .readMenuClass k => byteOk k
  | .loadDistance k b t => byteOk k && byteOk b && t.all (fun n => decide (n < 255))
  | .loadMenuClass c w l n => byteOk c && byteOk w && byteOk l && byteOk n
  | .hold q n => bookReqOk q && byteOk n
  | .book q => bookReqOk q
  | .confirm h | .endBooking h | .queryBooking h | .acceptProvisional h | .queryOrder h
  | .cancelOrder h | .confirmDelivery h => handleFieldOk h
  | .cancel h n => handleFieldOk h && byteOk n
  | .checkIn h _ => handleFieldOk h
  | .move q => moveReqOk q
  | .roomNotice o r => orderOk o && roomOk r
  | .findRoom q => findReqOk q
  | .queryRoom r d c => halfOk r && halfOk d && c.all (fun t => timeFieldOk t && decide (t ≠ ⟨65535, 65535⟩))
  | .placeOrder h n ls => handleFieldOk h && byteOk n && linesFieldOk ls
  | .admissionComputation h t r n ls =>
    bookingOk h && timeOk t && roomOk r && byteOk n && linesFieldOk ls
  | .engineTakesAdmissionAnswer h a => bookingOk h && admissionOk a
  | .refitComputation h o t r _ => bookingOk h && orderOk o && timeOk t && roomOk r
  | .engineTakesRefitAnswer h a => bookingOk h && refitOk a
  | .readLoad k t n => byteOk k && timeFieldOk t && byteOk n
  | .readProduction k c n => byteOk k &&
    c.all (fun p => timeFieldOk p.1 && halfOk p.2 && decide (p ≠ (⟨65535, 65535⟩, 65535))) && byteOk n
  | .kitchenChange k c n => decide (k < 8 ∧ c ≤ 255 ∧ n ≤ 8)
  | .bookingHandoff o h _ | .linkNotice h o | .displayNotice h o => bookingOk h && orderOk o
  | .engineBoundaryWork b | .plannerBoundaryWork b | .controllerBoundaryWork _ b => boundaryOk b
  | .roomVisit r | .occupancyNotice r => roomOk r
  | .walkup p r n _ | .extend p r n => srcOk p && roomOk r && byteOk n
  | .panelCheckin p r _ | .panelEnd p r | .cateringReceived p r _ => srcOk p && roomOk r
  | .startChain n | .stopChain n | .readChain n | .readLineHealth n => byteOk n
  | .chainMode n m => byteOk n && byteOk m
  | .clearPanelFault n p => byteOk n && p.all (fun p => decide (p < 255))
  | .readPosition n p => byteOk n && byteOk p
  | .cycleReturn _ f => decide (f.length ≤ 65535)
  | .panelAnswer _ p n a => posOk p && byteOk n && byteOk a.kind && a.time.all timeOk
  | .displayUpdateRequest _ r => roomOk r
  | .bindingChange _ p r => posOk p && r.all roomOk

end Sys2Proof
end

