-- ==== Sys2Proof/Decode.lean ====
section
/-! DEFINITION. The words of spec/opcode_table.json. A row there is a step of the part and has no bits: the
part decodes no instruction word. (The frames of the host link are read by Machine/Operands.lean.) -/

namespace Sys2Proof

/-- A row of the table that gives bits: the width, the mask and the pattern of its word, and its
command. -/
structure TableRow where
  nbits : Nat
  mask : Nat
  pattern : Nat
  command : Instr
deriving DecidableEq, Repr

/-- The rows that give bits: none does. -/
def tableRows : List TableRow := []

/-- The command a word spells by the table's bits. -/
def decodeTableWord (nbits w : Nat) : Option Instr :=
  (tableRows.find? (fun r => decide (r.nbits = nbits ∧ w &&& r.mask = r.pattern))).map
    TableRow.command

end Sys2Proof
end

