-- ==== Sys2Proof/Machine/State.lean ====
section
/-! DEFINITION. The state of the part as plain data: everything the manual gives each of its nine
blocks, the queue of waiting commands, and the machine right after reset. -/

namespace Sys2Proof.Machine

/-- The reasons a step can stop the machine: none. Every refusal of the manual is a reply, a counter,
a record or a summary bit, which are effects on State, so no command raises a fault (safe). -/
inductive Fault where
deriving DecidableEq, Repr

/-- The reasons a command can have no meaning. -/
inductive Refusal where
  /-- Raised by an arm of `exec` whose command has no meaning yet; every command has one, so no arm
  raises it. Safe: a refusal proves nothing about the hardware. -/
  | notModelled (mnemonic : String)
deriving DecidableEq, Repr

/-- A table of the part, keyed by number, in ONE canonical form: keys strictly rising, and no entry
equal to the value that an unlisted key reads as. -/
structure Table (α : Type) where
  entries : List (Nat × α)
deriving DecidableEq, Repr

/-- One thing for each of the four panel lines. -/
structure Quad (α : Type) where
  l0 : α
  l1 : α
  l2 : α
  l3 : α
deriving DecidableEq, Repr

/-! ### The timebase and the campus clock -/

/-- The clock states of R3. -/
inductive ClockState where
  | unset | running | held
deriving DecidableEq, Repr

/-- The counting time: a campus time and a millisecond-in-quantum, 0 to 299,999 (R2). -/
structure Counting where
  time : CTime
  ms : Nat
deriving DecidableEq, Repr

/-- The Campus Clock (R2, R3, R8). -/
structure Clock where
  state : ClockState
  count : Option Counting
  now : Option CTime
  held : Option CTime
deriving DecidableEq, Repr

/-! ### The Campus Model Store -/

/-- A panel binding: a line and a position (R11). -/
structure Binding where
  line : Fin 4
  pos : Nat
deriving DecidableEq, Repr

/-- An in-use entry of the Room Table; an unused entry is an unlisted key (R11). -/
structure RoomEntry where
  building : Nat
  seats : Nat
  turnaround : Nat
  primary : Nat
  alternate : Option Nat
  binding : Option Binding
  inService : Bool
  label : Label
deriving DecidableEq, Repr

/-- An entry of the Menu Class Table; weight 0 marks the class undefined (R16). -/
structure MenuClass where
  weight : Nat
  lead : Nat
  holdLimit : Nat
deriving DecidableEq, Repr

/-- The absent actions of R17. -/
inductive AbsentAction where
  | hold | suspend | close
deriving DecidableEq, Repr

/-- The Policy Set (R17). Poll interval in units of 10 ms, quiet poll and supervision in seconds. -/
structure Policy where
  grace : Nat
  holdLimit : Nat
  absentAction : AbsentAction
  absentReport : Bool
  autoCheckIn : Bool
  walkupMax : Nat
  scanFirst : Nat
  scanLast : Nat
  scanStep : Nat
  deglitch : Nat
  pollInterval : Nat
  quietPoll : Nat
  quietWindow : Option (Nat × Nat)
  supervision : Nat
  attentionMask : BitVec 8
  eventMask : BitVec 13
deriving DecidableEq, Repr

/-! ### The Booking Store and the Reservation Engine -/

/-- The states of a live booking (R34). -/
inductive BookState where
  | tentative | confirmed | checkedIn
deriving DecidableEq, Repr

/-- Where a booking came from (R25). -/
inductive Origin where
  | host | panel
deriving DecidableEq, Repr

/-- The pending marks of R27. -/
inductive PendingMark where
  | movePending | orderPending
deriving DecidableEq, Repr

/-- The fields of a live booking record (R25); the handle is the record's index and generation. -/
structure Booking where
  room : Nat
  start : CTime
  fin : CTime
  state : BookState
  attendees : Nat
  organizer : Token
  origin : Origin
  provisional : Bool
  order : Option Handle
  expiry : Option CTime
  checkedIn : Option CTime
  pending : Option PendingMark
deriving DecidableEq, Repr

/-- A pool record: its generation, and what it holds when it is not free (R20, R80). -/
structure Record (α : Type) where
  gen : Nat
  body : Option α
deriving DecidableEq, Repr

/-- The Booking Store (R20, R22, R24, R29, R31). A room list holds record indexes in start order. -/
structure Store where
  records : Table (Record Booking)
  free : List Nat
  lists : Table (List Nat)
  holds : List Handle
  episode : Bool
deriving DecidableEq, Repr

/-- The staged span of a move in progress (R50); `attendees` 0 keeps the present count. -/
structure Staged where
  booking : Handle
  room : Nat
  start : CTime
  fin : CTime
  attendees : Nat
deriving DecidableEq, Repr

/-- The shown states of R56. -/
inductive Shown where
  | free | due | inUse | turnaround | outOfService | blank
deriving DecidableEq, Repr

/-- The display facts of a room (R57). -/
structure Facts where
  shown : Shown
  currentEnd : Option CTime
  nextStart : Option CTime
  token : Option Token
deriving DecidableEq, Repr

/-- The work that reaches the Reservation Engine (chapter 3). -/
inductive EngineWork where
  | host (r : HostRequest)
  | loadRoomCheck (room : Nat) (e : RoomSpec)
  | admissionAnswer (booking : Handle) (a : AdmissionAnswer)
  | refitAnswer (booking : Handle) (a : RefitAnswer)
  | linkNotice (booking order : Handle)
  | displayNotice (booking order : Handle)
  | boundary (b : Boundary)
  | visit (room : Nat)
  | occupancy (room : Nat)
  | walkup (src : PanelSrc) (room len : Nat) (badge : Token)
  | checkin (src : PanelSrc) (room : Nat) (badge : Token)
  | extend (src : PanelSrc) (room k : Nat)
  | panelEnd (src : PanelSrc) (room : Nat)
deriving DecidableEq, Repr

/-- The Reservation Engine's own state (R60), with the now of the last boundary it took (log 4). -/
structure Engine where
  intake : List EngineWork
  now : Option CTime
  staged : Option Staged
  lastEnd : Table (Option CTime)
  kept : Table (Option Facts)
deriving DecidableEq, Repr

/-! ### The Room Scanner -/

/-- A counting step timer: the step length it was started with and the ms left (§4.2). -/
structure StepTimer where
  len : Nat
  left : Nat
deriving DecidableEq, Repr

/-- The Room Scanner; `timer` is none while STOPPED (R62, R63). `due` counts the expiries of the step timer
whose step has not been made yet (log 20). -/
structure Scanner where
  position : Nat
  timer : Option StepTimer
  due : Nat
deriving DecidableEq, Repr

/-! ### The Catering Planner -/

/-- One entry of the Load Table (R75). -/
structure LoadCell where
  prep : Nat
  carts : Nat
  mark : Bool
deriving DecidableEq, Repr

/-- The capacity and cart count the planner has taken for a kitchen (R97, log 5). -/
structure Limits where
  capacity : Nat
  carts : Nat
deriving DecidableEq, Repr

/-- The fields of an order record (R82) and its delivery room (R107). -/
structure Order where
  booking : Option Handle
  serving : CTime
  kitchen : Nat
  transit : Nat
  lines : List OrderLine
  load : Nat
  len : Nat
  shift : Nat
  window : CTime
  departure : CTime
  state : OrderState
  confirmed : Bool
  placing : Nat
  room : Nat
deriving DecidableEq, Repr

/-- What a computation in flight is for (R76). -/
inductive JobKind where
  | admission
  | refit (order : Handle) (drop : Bool)
deriving DecidableEq, Repr

/-- The computation in flight at the planner, its checks passed: the load, the window length and the
largest shift of R85 (R76, R89, R94). -/
structure Job where
  kind : JobKind
  booking : Handle
  serving : CTime
  room : Nat
  lines : List OrderLine
  load : Nat
  len : Nat
  smax : Nat
deriving DecidableEq, Repr

/-- The work that reaches the Catering Planner (R76). -/
inductive PlannerWork where
  | host (r : HostRequest)
  | admission (booking : Handle) (serving : CTime) (room count : Nat) (lines : List OrderLine)
  | refit (booking order : Handle) (serving : CTime) (room : Nat) (drop : Bool)
  | handoff (order booking : Handle) (kind : HandoffKind)
  | roomNotice (order : Handle) (room : Nat)
  | kitchenChange (kitchen capacity carts : Nat)
  | receipt (src : PanelSrc) (room : Nat) (badge : Token)
  | boundary (b : Boundary)
deriving DecidableEq, Repr

/-- The Catering Planner (R75 to R83). A production list holds record indexes. -/
structure Planner where
  intake : List PlannerWork
  now : Option CTime
  load : Table LoadCell
  limits : Table Limits
  records : Table (Record Order)
  free : List Nat
  lists : Table (List Nat)
  episode : Bool
  placing : Nat
  job : Option Job
deriving DecidableEq, Repr

/-! ### The Panel Line Controllers -/

/-- The chain states of R117. -/
inductive Chain where
  | offline | census | running | quiet | draining | faulted
deriving DecidableEq, Repr

/-- The kinds of a cycle (R117). -/
inductive CycleKind where
  | census | ordinary
deriving DecidableEq, Repr

/-- The fault causes of R131. -/
inductive FaultCause where
  | echo | empty
deriving DecidableEq, Repr

/-- What `entered from` holds: a chain state for DRAINING, a fault cause for FAULTED (R117). -/
inductive Entered where
  | chain (c : Chain)
  | fault (c : FaultCause)
deriving DecidableEq, Repr

/-- The five healths of R138. -/
inductive Health where
  | unknown | present | suspect | absent | returned
deriving DecidableEq, Repr

/-- The absence causes of R143. -/
inductive Cause where
  | census | misses | chain
deriving DecidableEq, Repr

/-- A panel reply record (R153): the code, the request kind and the toggle it answers, the time. -/
structure PanelReply where
  code : PanelCode
  kind : Nat
  toggle : Bool
  time : Option CTime
deriving DecidableEq, Repr

/-- The last reply of a position: none, a pending marker with its request number, or a reply record
that is owed or not (R154, R155). -/
inductive LastReply where
  | none
  | pending (reqno : Nat)
  | reply (r : PanelReply) (owed : Bool)
deriving DecidableEq, Repr

/-- An entry of the position table (R118), with the unacknowledged count of R166, none while the
count is stopped. -/
structure Position where
  bound : Option Nat
  health : Health
  cause : Option Cause
  misses : Nat
  toggle : Option Bool
  last : LastReply
  genSent : Nat
  genAck : Nat
  unack : Option Nat
  litUntil : Option CTime
deriving DecidableEq, Repr

/-- The work held until the cycle in flight ends (R119). `clear none` is a clear of ALL. -/
inductive Deferred where
  | binding (pos : Nat) (room : Option Nat)
  | display (room : Nat)
  | clear (target : Option Nat)
deriving DecidableEq, Repr

/-- The work that reaches a Panel Line Controller (R119). -/
inductive LineWork where
  | host (r : HostRequest)
  | frame (bytes : List Byte)
  | cycleExpiry
  | pollExpiry
  | wirePulled
  | boundary (b : Boundary)
  | binding (pos : Nat) (room : Option Nat)
  | display (room : Nat)
  | answer (pos reqno : Nat) (a : PanelAnswer)
deriving DecidableEq, Repr

/-- The catering indicators of R101. -/
inductive Indicator where
  | none | planned | inProduction | onItsWay | delivered
deriving DecidableEq, Repr

/-- The contents of a DISPLAY record (R163). -/
structure Display where
  shown : Shown
  indicator : Indicator
  generation : Nat
  label : Label
  token : Option Token
  currentEnd : Option CTime
  nextStart : Option CTime
deriving DecidableEq, Repr

/-- The records of a downlink slot (R120). -/
inductive Downlink where
  | empty
  | blank
  | display (d : Display)
  | reply (r : PanelReply)
deriving DecidableEq, Repr

/-- A frame sent on data-out (R120); an unlisted slot is EMPTY, every uplink slot is UNANSWERED. -/
structure OutFrame where
  tag : Nat
  census : Bool
  quiet : Bool
  clearAll : Bool
  downlinks : Table Downlink
deriving DecidableEq, Repr

/-- One Panel Line Controller (R117, R118), with its intake, its now, the level of the line's
attention wire and the frame it last sent. -/
structure Line where
  chain : Chain
  tag : Nat
  inFlight : Option (Nat × CycleKind)
  cycleTimer : Option Nat
  pollTimer : Option Nat
  startDue : Bool
  census : Option Nat
  lastHop : Option Nat
  echoFails : Nat
  window : Bool
  deferred : List Deferred
  clearAll : Bool
  entered : Option Entered
  positions : Table Position
  queue : List Nat
  reqno : Nat
  intake : List LineWork
  now : Option CTime
  wire : Bool
  out : Option OutFrame
deriving DecidableEq, Repr

/-! ### Reports and counters -/

/-- The event kinds, in the order of §10.8. -/
inductive EventKind where
  | bookingConfirmed | bookingCheckedIn | bookingExtended | bookingEnded | bookingReleased
  | bookingExpired | orderInProduction | orderDispatched | orderDelivered | deliveryUnconfirmed
  | orderClosed | orderWasted | orderCancelled
deriving DecidableEq, Repr

/-- The detail or the extra of an event record (§10.8). -/
inductive Datum where
  | none
  | num (n : Nat)
  | pair (b0 b1 : Nat)
  | time (t : CTime)
  | token (t : Token)
  | handle (h : Handle)
deriving DecidableEq, Repr

/-- An event record (R175, §10.8). -/
structure EventRecord where
  kind : EventKind
  now : CTime
  room : Nat
  subject : Handle
  detail : Datum
  extra : Datum
deriving DecidableEq, Repr

/-- An exception and its arguments (§10.8). -/
inductive ExcKind where
  | chainFault (line : Fin 4) (cause : FaultCause) (lastHop : Option Nat) (tag : Nat)
  | panelAbsent (line : Fin 4) (pos room : Nat) (cause : Cause) (misses : Nat)
  | panelReturned (line : Fin 4) (pos room : Nat) (cause : Option Cause)
  | panelUnbound (line : Fin 4) (pos kind : Nat) (badge : Token)
  | problem (line : Fin 4) (pos room code : Nat) (badge : Token)
  | overcommit (kitchen : Nat) (earliest : CTime) (count : Nat)
  | bookingPoolEmpty (room : Nat) (source : Option (Fin 4 × Nat))
  | orderPoolEmpty (room : Nat)
  | hostLost (seconds : Nat)
  | hostReturned (provisional : Nat)
  | clockHeld (held : CTime) (requested : Counting)
deriving DecidableEq, Repr

/-- An exception record (R175). -/
structure ExcRecord where
  kind : ExcKind
  now : Option CTime
deriving DecidableEq, Repr

/-- The Report Queues (R175). -/
structure Reports where
  events : List EventRecord
  exceptions : List ExcRecord
  ovf : Bool
deriving DecidableEq, Repr

/-- The fifteen statistics counters (R177). -/
structure Counters where
  linkErrors : Nat
  busyReplies : Nat
  unknownRoom : Nat
  bookingRefusals : Nat
  cateringRefusals : Nat
  releases : Nat
  echoFailures : Quad Nat
  misses : Quad Nat
  dropped : Nat
deriving DecidableEq, Repr

/-! ### The host link -/

/-- One field of a reply body, of the kinds of R184; `absent w` is w bytes of 0xFF. -/
inductive Field where
  | u8 (n : Nat)
  | u16 (n : Nat)
  | u24 (n : Nat)
  | mask8 (m : BitVec 8)
  | mask13 (m : BitVec 13)
  | token (t : Token)
  | time (t : CTime)
  | handle (h : Handle)
  | absent (width : Nat)
  | event (r : EventRecord)
  | exception (r : ExcRecord)
deriving DecidableEq, Repr

/-- A built reply: the request's kind and tag, the summary byte, the result, the body (R172). -/
structure Reply where
  kind : Nat
  tag : Nat
  summary : BitVec 8
  result : Result
  body : List Field
deriving DecidableEq, Repr

/-- The receiver: hunting, or in frame with the bytes taken after the start byte and the ticks since
the last of them (R168). -/
inductive Receiver where
  | hunting
  | inFrame (got : List Byte) (gap : Nat)
deriving DecidableEq, Repr

/-- How far the request in service has come: handed to its owner, taken by it, or (CancelOrder)
answered once the engine has taken the link notice of the named order (R110, R170). -/
inductive Stage where
  | handed
  | taken
  | afterLink (order : Handle) (body : List Field)
deriving DecidableEq, Repr

/-- The request slot while full (R170). -/
structure Slot where
  kind : Nat
  tag : Nat
  req : HostRequest
  stage : Stage
deriving DecidableEq, Repr

/-- The two scopes of a Reset (R181). -/
inductive Scope where
  | full | warm
deriving DecidableEq, Repr

/-- The Link Interface (R168 to R172, R181); `trimmed` is the last boundary that a forward trim has produced, until the
next frame is taken (R7, log 41). -/
structure Link where
  rx : Receiver
  frames : List Frame
  slot : Option Slot
  owed : List (Nat × Nat)
  tx : List Reply
  resetWait : Option Scope
  trimmed : Option Boundary
deriving DecidableEq, Repr

/-- The link states of R185. -/
inductive LinkState where
  | linked | hostLost
deriving DecidableEq, Repr

/-- Link Supervision (R185); `timer` is the ms left of the interval in progress, and `due` counts the expiries
of the free-running timer that have not been taken yet (log 20). -/
structure Supervision where
  counter : Nat
  link : LinkState
  timer : Nat
  provisional : Nat
  due : Nat
deriving DecidableEq, Repr

/-! ### The whole part -/

/-- The reset causes of R180. -/
inductive ResetCause where
  | power | supplyLow | full | warm
deriving DecidableEq, Repr

/-- The phases of R182: no supply, held in reset while the supply is low, waiting for the crystal
(both with the cause to be recorded), running. -/
inductive Power where
  | off
  | heldLow (cause : ResetCause)
  | waiting (cause : ResetCause)
  | running
deriving DecidableEq, Repr

/-- The state of the part. `pending` is the queue of commands that wait, first in, first out. -/
structure State where
  pending : List Instr
  power : Power
  cause : ResetCause
  rst : Bool
  rate : Fin 4
  clock : Clock
  rooms : Table (Option RoomEntry)
  kitchens : Table KitchenSpec
  distances : Table (Option Nat)
  menu : Table MenuClass
  policy : Policy
  store : Store
  engine : Engine
  scanner : Scanner
  planner : Planner
  lines : Quad Line
  link : Link
  superv : Supervision
  reports : Reports
  counters : Counters
deriving DecidableEq, Repr

/-! ### Reset values -/

/-- A table with nothing listed. -/
def Table.empty {α : Type} : Table α := ⟨[]⟩

/-- The clock after POWER, SUPPLY_LOW and FULL (R3). -/
def Clock.reset : Clock := ⟨.unset, none, none, none⟩

/-- The defaults of R17. -/
def Policy.default : Policy where
  grace := 2
  holdLimit := 3
  absentAction := .suspend
  absentReport := true
  autoCheckIn := false
  walkupMax := 12
  scanFirst := 0
  scanLast := 511
  scanStep := 64
  deglitch := 3
  pollInterval := 25
  quietPoll := 8
  quietWindow := none
  supervision := 10
  attentionMask := 0
  eventMask := 0x1FFF

/-- The Booking Store after POWER, SUPPLY_LOW and FULL (§2.11). -/
def Store.reset : Store := ⟨.empty, List.range Config.bookingRecords, .empty, [], false⟩

/-- The Reservation Engine after POWER, SUPPLY_LOW and FULL (R60). -/
def Engine.reset : Engine := ⟨[], none, none, .empty, .empty⟩

/-- The Room Scanner after POWER, SUPPLY_LOW and FULL (R74). -/
def Scanner.reset : Scanner := ⟨0, none, 0⟩

/-- The Catering Planner after POWER, SUPPLY_LOW and FULL (§5.12). -/
def Planner.reset : Planner where
  intake := []
  now := none
  load := .empty
  limits := .empty
  records := .empty
  free := List.range Config.orderRecords
  lists := .empty
  episode := false
  placing := 0
  job := none

/-- A position after every reset, unbound (R137). -/
def Position.reset : Position where
  bound := none
  health := .unknown
  cause := none
  misses := 0
  toggle := none
  last := .none
  genSent := 0
  genAck := 0
  unack := none
  litUntil := none

/-- A line after POWER, SUPPLY_LOW and FULL (R137); its wire released (log 21). -/
def Line.reset : Line where
  chain := .offline
  tag := 0
  inFlight := none
  cycleTimer := none
  pollTimer := none
  startDue := false
  census := none
  lastHop := none
  echoFails := 0
  window := false
  deferred := []
  clearAll := false
  entered := none
  positions := .empty
  queue := []
  reqno := 0
  intake := []
  now := none
  wire := false
  out := none

/-- The Report Queues after every reset (R183). -/
def Reports.reset : Reports := ⟨[], [], false⟩

/-- The counters after every reset (R177). -/
def Counters.reset : Counters := ⟨0, 0, 0, 0, 0, 0, ⟨0, 0, 0, 0⟩, ⟨0, 0, 0, 0⟩, 0⟩

/-- The Link Interface after every reset (R183). -/
def Link.reset : Link := ⟨.hunting, [], none, [], [], none, none⟩

/-- Link Supervision when its timer is started with an interval of `seconds`, nothing provisional
(R185). -/
def Supervision.reset (seconds : Nat) : Supervision := ⟨0, .linked, seconds * 1000, 0, 0⟩

/-- The part right after the POWER start-up: the crystal has just reported stable (R182). The strap
pins select rate 0 (DESIGN CHOICE, log 3). -/
def State.reset : State where
  pending := []
  power := .running
  cause := .power
  rst := true
  rate := 0
  clock := .reset
  rooms := .empty
  kitchens := .empty
  distances := .empty
  menu := .empty
  policy := .default
  store := .reset
  engine := .reset
  scanner := .reset
  planner := .reset
  lines := ⟨.reset, .reset, .reset, .reset⟩
  link := .reset
  superv := .reset 10
  reports := .reset
  counters := .reset

end Sys2Proof.Machine
end

