-- ==== Sys2Proof/Machine/Tables.lean ====
section
/-! DEFINITION. Reading and writing the part's tables, and the four-line record. -/

namespace Sys2Proof.Machine

/-- Key `k` of the entries, or `d` where it is not listed. -/
def Table.lookup {α : Type} (d : α) : List (Nat × α) → Nat → α
  | [], _ => d
  | (k', v) :: rest, k => if k' = k then v else Table.lookup d rest k

/-- What the table reads at `k`; an unlisted key reads as `d`. -/
def Table.get {α : Type} (t : Table α) (d : α) (k : Nat) : α :=
  Table.lookup d t.entries k

/-- The entries with `v` at `k`, in the canonical form: nothing is listed for the value `d`. -/
def Table.insert {α : Type} [DecidableEq α] (d : α) : List (Nat × α) → Nat → α → List (Nat × α)
  | [], k, v => if v = d then [] else [(k, v)]
  | (k', v') :: rest, k, v =>
    if k < k' then
      if v = d then (k', v') :: rest else (k, v) :: (k', v') :: rest
    else if k = k' then
      if v = d then rest else (k, v) :: rest
    else (k', v') :: Table.insert d rest k v

/-- The table with `v` at `k`. -/
def Table.set {α : Type} [DecidableEq α] (t : Table α) (d : α) (k : Nat) (v : α) : Table α :=
  ⟨Table.insert d t.entries k v⟩

/-- The table with the entry at `k` changed by `f`. -/
def Table.modify {α : Type} [DecidableEq α] (t : Table α) (d : α) (k : Nat) (f : α → α) : Table α :=
  t.set d k (f (t.get d k))

/-- The table whose listed keys that `p` names read as `d` again. -/
def Table.clear {α : Type} (t : Table α) (p : Nat → Bool) : Table α :=
  ⟨t.entries.filter (fun e => !p e.1)⟩

/-- The canonical form: keys strictly rising, nothing listed at the value an unlisted key reads as. -/
abbrev Table.wf {α : Type} [DecidableEq α] (t : Table α) (d : α) : Prop :=
  (t.entries.map Prod.fst).Pairwise (· < ·) ∧ ∀ e ∈ t.entries, e.2 ≠ d

/-- The component of line `l`. -/
def Quad.get {α : Type} (q : Quad α) (l : Fin 4) : α :=
  match l with
  | 0 => q.l0
  | 1 => q.l1
  | 2 => q.l2
  | 3 => q.l3

/-- The record with the component of line `l` replaced. -/
def Quad.set {α : Type} (q : Quad α) (l : Fin 4) (v : α) : Quad α :=
  match l with
  | 0 => { q with l0 := v }
  | 1 => { q with l1 := v }
  | 2 => { q with l2 := v }
  | 3 => { q with l3 := v }

/-- The record with every component changed by `f`. -/
def Quad.map {α β : Type} (f : α → β) (q : Quad α) : Quad β := ⟨f q.l0, f q.l1, f q.l2, f q.l3⟩

/-- The component of a line number as a request names it. -/
def lineOf? (n : Nat) : Option (Fin 4) := if h : n < 4 then some ⟨n, h⟩ else none

end Sys2Proof.Machine
end

