-- ==== Sys2Proof/Machine/Time.lean ====
section
/-! DEFINITION. Campus time, the horizon index and the reckoning of the counting time (R1, R2, R6). -/

namespace Sys2Proof.Machine

/-- A day difference modulo 65536 read as a signed number, -32768 to 32767 (R6). -/
def dayDiff (a b : Nat) : Int :=
  let d : Nat := (a % 65536 + 65536 - b % 65536) % 65536
  if d < 32768 then (d : Int) else (d : Int) - 65536

/-- The horizon index of a campus time, `c` being the day of now (R1): days count forward from `c`
modulo 65536, and the day before `c` has the indices -288 to -1. -/
def horizonIndex (c : Nat) (t : CTime) : Int :=
  let d : Nat := (t.day % 65536 + 65536 - c % 65536) % 65536
  if d = 65535 then (t.quantum : Int) - 288 else (d : Int) * 288 + t.quantum

/-- A campus time moved by `n` quanta; the day is taken modulo 65536 (R1, R2). -/
def shiftTime (t : CTime) (n : Int) : CTime :=
  let q : Int := t.quantum + n
  { day := (((t.day : Int) + q / 288) % 65536).toNat
    quantum := (q % 288).toNat }

/-- Quanta from `b` to `a`, the day difference read signed (R6, R9). -/
def quantaFrom (a b : CTime) : Int :=
  dayDiff a.day b.day * 288 + ((a.quantum : Int) - b.quantum)

/-- Milliseconds from `b` to `a` (R6): each time is day × 86,400,000 + quantum × 300,000 + ms. -/
def msFrom (a b : Counting) : Int :=
  quantaFrom a.time b.time * 300000 + ((a.ms : Int) - b.ms)

/-- The counting time one tick later (R2). -/
def Counting.tick (c : Counting) : Counting :=
  if c.ms < 299999 then { c with ms := c.ms + 1 } else ⟨shiftTime c.time 1, 0⟩

/-- Whether a quantum of day lies in a window from `f` to `t` (R132). -/
def inWindow (w : Option (Nat × Nat)) (q : Nat) : Bool :=
  match w with
  | none => false
  | some (f, t) => if f < t then decide (f ≤ q ∧ q < t) else decide (f > t ∧ (q ≥ f ∨ q < t))

end Sys2Proof.Machine
end

