-- ==== Sys2Proof/Machine/Operands.lean ====
section
/-! DEFINITION. Every operand form: how the body of a host frame is read into a request (R170, R184,
§10.8), the owner of each request, and the uplink record of a returned cycle frame (R152, R184). -/

namespace Sys2Proof.Machine

/-- The byte at offset `i`, as a number. -/
def byteAt (bs : List Byte) (i : Nat) : Nat := (bs.getD i 0).toNat

/-- A number of 2 bytes, most significant first (R184). -/
def u16At (bs : List Byte) (i : Nat) : Nat := byteAt bs i * 256 + byteAt bs (i + 1)

/-- A number of 3 bytes, most significant first (R184). -/
def u24At (bs : List Byte) (i : Nat) : Nat := u16At bs i * 256 + byteAt bs (i + 2)

/-- An opaque token of 4 bytes (R184). -/
def tokenAt (bs : List Byte) (i : Nat) : Token :=
  BitVec.ofNat 32 (u16At bs i * 65536 + u16At bs (i + 2))

/-- A campus time of 4 bytes: day, then quantum of day (R184). -/
def timeAt (bs : List Byte) (i : Nat) : CTime := ⟨u16At bs i, u16At bs (i + 2)⟩

/-- A handle of 3 bytes: index, then generation (R184). -/
def handleAt (bs : List Byte) (i : Nat) : Handle := ⟨u16At bs i, byteAt bs (i + 2)⟩

/-- Whether the `w` bytes from offset `i` are all 0xFF: absent, none, ANY (R184). -/
def absentAt (bs : List Byte) (i w : Nat) : Bool :=
  (List.range w).all (fun j => byteAt bs (i + j) = 255)

/-- An optional field of `w` bytes. -/
def optAt {α : Type} (bs : List Byte) (i w : Nat) (v : α) : Option α :=
  if absentAt bs i w then none else some v

/-- The value of a SetPolicy, by its identifier: the identifiers are numbered from 0 in the order of
the table of R17 (R184). A length that does not fit the policy, or an unknown identifier, leaves the
value unreadable (log 12). A quiet window of four bytes 0xFF is off, a spelling R184 does not give (log 8). -/
def policyAt (bs : List Byte) : PolicyReq :=
  let n := bs.length
  match byteAt bs 0 with
  | 0 => if n = 2 then .grace (byteAt bs 1) else .unreadable
  | 1 => if n = 2 then .holdLimit (byteAt bs 1) else .unreadable
  | 2 => if n = 2 then .absentAction (byteAt bs 1) else .unreadable
  | 3 => if n = 2 then .absentReport (byteAt bs 1) else .unreadable
  | 4 => if n = 2 then .autoCheckIn (byteAt bs 1) else .unreadable
  | 5 => if n = 2 then .walkupMax (byteAt bs 1) else .unreadable
  | 6 => if n = 5 then .scanRange (u16At bs 1) (u16At bs 3) else .unreadable
  | 7 => if n = 3 then .scanStep (u16At bs 1) else .unreadable
  | 8 => if n = 2 then .deglitch (byteAt bs 1) else .unreadable
  | 9 => if n = 2 then .pollInterval (byteAt bs 1) else .unreadable
  | 10 => if n = 2 then .quietPoll (byteAt bs 1) else .unreadable
  | 11 => if n = 5 then .quietWindow (optAt bs 1 4 (u16At bs 1, u16At bs 3)) else .unreadable
  | 12 => if n = 2 then .supervision (byteAt bs 1) else .unreadable
  | 13 => if n = 2 then .attentionMask (bs.getD 1 0) else .unreadable
  | 14 => if n = 3 then .eventMask (BitVec.ofNat 16 (u16At bs 1)) else .unreadable
  | _ => .unreadable

/-- The entry a LoadRoom carries, after its room number. -/
def roomSpecAt (bs : List Byte) : RoomSpec where
  building := byteAt bs 2
  seats := u16At bs 3
  turnaround := byteAt bs 5
  primary := byteAt bs 6
  alternate := optAt bs 7 1 (byteAt bs 7)
  binding := optAt bs 8 2 (byteAt bs 8, byteAt bs 9)
  service := byteAt bs 10
  label := BitVec.ofNat 16 (u16At bs 11)

/-- The lines of a PlaceOrder, two bytes each. -/
def orderLinesAt : List Byte → List OrderLine
  | c :: n :: rest => ⟨c.toNat, n.toNat⟩ :: orderLinesAt rest
  | _ => []

/-- What the Link Interface reads from a valid frame (R170). -/
inductive Decoded where
  | unknownKind
  | badLength
  | request (r : HostRequest)
deriving DecidableEq, Repr

/-- A request of one fixed body length (R170). -/
def ofLength (bs : List Byte) (n : Nat) (r : HostRequest) : Decoded :=
  if bs.length = n then .request r else .badLength

/-- The request a frame spells, by its kind and body length (R170, R184, the kinds table of §10.8). -/
def decodeRequest (f : Frame) : Decoded :=
  let bs := f.body
  match f.kind with
  | 0x01 => ofLength bs 0 .identify
  | 0x02 => ofLength bs 1 (.getStatus (byteAt bs 0))
  | 0x03 => ofLength bs 2 (.readReports (byteAt bs 0) (byteAt bs 1))
  | 0x04 => ofLength bs 1 (.readCounters (byteAt bs 0))
  | 0x05 => ofLength bs 2 (.reset (byteAt bs 0) (byteAt bs 1))
  | 0x06 => ofLength bs 7 (.setClock (u16At bs 0) (u16At bs 2) (u24At bs 4))
  | 0x07 =>
    if bs.length = 2 ∨ bs.length = 3 ∨ bs.length = 5 then .request (.setPolicy (policyAt bs))
    else .badLength
  | 0x08 => ofLength bs 0 .readPolicy
  | 0x10 => ofLength bs 13 (.loadRoom (u16At bs 0) (roomSpecAt bs))
  | 0x11 => ofLength bs 2 (.readRoom (u16At bs 0))
  | 0x12 =>
    ofLength bs 7 (.loadKitchen (byteAt bs 0) ⟨byteAt bs 1, byteAt bs 2, u16At bs 3, u16At bs 5⟩)
  | 0x13 => ofLength bs 1 (.readKitchen (byteAt bs 0))
  | 0x14 => ofLength bs 3 (.loadDistance (byteAt bs 0) (byteAt bs 1) (optAt bs 2 1 (byteAt bs 2)))
  | 0x15 => ofLength bs 1 (.readDistance (byteAt bs 0))
  | 0x16 => ofLength bs 4 (.loadMenuClass (byteAt bs 0) (byteAt bs 1) (byteAt bs 2) (byteAt bs 3))
  | 0x17 => ofLength bs 1 (.readMenuClass (byteAt bs 0))
  | 0x20 =>
    ofLength bs 17 (.hold ⟨u16At bs 0, timeAt bs 2, timeAt bs 6, u16At bs 10, tokenAt bs 12⟩
      (byteAt bs 16))
  | 0x21 => ofLength bs 16 (.book ⟨u16At bs 0, timeAt bs 2, timeAt bs 6, u16At bs 10, tokenAt bs 12⟩)
  | 0x22 => ofLength bs 3 (.confirm (handleAt bs 0))
  | 0x23 => ofLength bs 4 (.cancel (handleAt bs 0) (byteAt bs 3))
  | 0x24 => ofLength bs 3 (.endBooking (handleAt bs 0))
  | 0x25 => ofLength bs 7 (.checkIn (handleAt bs 0) (tokenAt bs 3))
  | 0x26 =>
    ofLength bs 16 (.move ⟨handleAt bs 0, u16At bs 3, timeAt bs 5, timeAt bs 9, u16At bs 13,
      byteAt bs 15⟩)
  | 0x27 =>
    ofLength bs 17 (.findRoom ⟨optAt bs 0 1 (byteAt bs 0), timeAt bs 1, timeAt bs 5, u16At bs 9,
      tokenAt bs 11, byteAt bs 15, byteAt bs 16⟩)
  | 0x28 => ofLength bs 8 (.queryRoom (u16At bs 0) (u16At bs 2) (optAt bs 4 4 (timeAt bs 4)))
  | 0x29 => ofLength bs 3 (.queryBooking (handleAt bs 0))
  | 0x2A => ofLength bs 3 (.acceptProvisional (handleAt bs 0))
  | 0x30 =>
    if 4 ≤ bs.length ∧ bs.length % 2 = 0 then
      .request (.placeOrder (handleAt bs 0) (byteAt bs 3) (orderLinesAt (bs.drop 4)))
    else .badLength
  | 0x31 => ofLength bs 3 (.queryOrder (handleAt bs 0))
  | 0x32 => ofLength bs 3 (.cancelOrder (handleAt bs 0))
  | 0x33 => ofLength bs 3 (.confirmDelivery (handleAt bs 0))
  | 0x34 => ofLength bs 6 (.readLoad (byteAt bs 0) (timeAt bs 1) (byteAt bs 5))
  | 0x35 =>
    ofLength bs 8 (.readProduction (byteAt bs 0) (optAt bs 1 6 (timeAt bs 1, u16At bs 5))
      (byteAt bs 7))
  | 0x40 => ofLength bs 1 (.startChain (byteAt bs 0))
  | 0x41 => ofLength bs 1 (.stopChain (byteAt bs 0))
  | 0x42 => ofLength bs 2 (.chainMode (byteAt bs 0) (byteAt bs 1))
  | 0x43 => ofLength bs 2 (.clearPanelFault (byteAt bs 0) (optAt bs 1 1 (byteAt bs 1)))
  | 0x44 => ofLength bs 1 (.readChain (byteAt bs 0))
  | 0x45 => ofLength bs 2 (.readPosition (byteAt bs 0) (byteAt bs 1))
  | 0x46 => ofLength bs 1 (.readLineHealth (byteAt bs 0))
  | _ => .unknownKind

/-- The owner a request is handed to: the blocks that answer at once (Link Interface, Report Queues,
Campus Clock, Policy Set, Campus Model Store), or a block with an intake. -/
inductive Owner where
  | part
  | engine
  | planner
  | line (l : Fin 4)
deriving DecidableEq, Repr

/-- The owner of a request for a line: its controller. A line above 3 has none, and the request is
answered BAD_FIELD. -/
def lineOwner (n : Nat) : Owner :=
  match lineOf? n with
  | some l => .line l
  | none => .part

/-- The owner of each request (the kinds table of §10.8). -/
def ownerOf : HostRequest → Owner
  | .identify | .getStatus _ | .readReports _ _ | .readCounters _ | .reset _ _ | .setClock _ _ _
  | .setPolicy _ | .readPolicy | .loadRoom _ _ | .readRoom _ | .loadKitchen _ _ | .readKitchen _
  | .loadDistance _ _ _ | .readDistance _ | .loadMenuClass _ _ _ _ | .readMenuClass _ => .part
  | .hold _ _ | .book _ | .confirm _ | .cancel _ _ | .endBooking _ | .checkIn _ _ | .move _
  | .findRoom _ | .queryRoom _ _ _ | .queryBooking _ | .acceptProvisional _
  | .placeOrder _ _ _ => .engine
  | .queryOrder _ | .cancelOrder _ | .confirmDelivery _ | .readLoad _ _ _
  | .readProduction _ _ _ => .planner
  | .startChain n | .stopChain n | .chainMode n _ | .clearPanelFault n _ | .readChain n
  | .readPosition n _ | .readLineHealth n => lineOwner n

/-- The command in which the owner of a host request takes it. -/
def commandOf : HostRequest → Instr
  | .identify => .identify
  | .getStatus n => .getStatus n
  | .readReports q n => .readReports q n
  | .readCounters n => .readCounters n
  | .reset a b => .reset a b
  | .setClock d q m => .setClock d q m
  | .setPolicy p => .setPolicy p
  | .readPolicy => .readPolicy
  | .loadRoom r e => .loadRoom r e
  | .readRoom r => .readRoom r
  | .loadKitchen k e => .loadKitchen k e
  | .readKitchen k => .readKitchen k
  | .loadDistance k b t => .loadDistance k b t
  | .readDistance k => .readDistance k
  | .loadMenuClass c w l n => .loadMenuClass c w l n
  | .readMenuClass c => .readMenuClass c
  | .hold q n => .hold q n
  | .book q => .book q
  | .confirm h => .confirm h
  | .cancel h n => .cancel h n
  | .endBooking h => .endBooking h
  | .checkIn h t => .checkIn h t
  | .move q => .move q
  | .findRoom q => .findRoom q
  | .queryRoom r d c => .queryRoom r d c
  | .queryBooking h => .queryBooking h
  | .acceptProvisional h => .acceptProvisional h
  | .placeOrder h n ls => .placeOrder h n ls
  | .queryOrder h => .queryOrder h
  | .cancelOrder h => .cancelOrder h
  | .confirmDelivery h => .confirmDelivery h
  | .readLoad k t n => .readLoad k t n
  | .readProduction k c n => .readProduction k c n
  | .startChain n => .startChain n
  | .stopChain n => .stopChain n
  | .chainMode n m => .chainMode n m
  | .clearPanelFault n p => .clearPanelFault n p
  | .readChain n => .readChain n
  | .readPosition n p => .readPosition n p
  | .readLineHealth n => .readLineHealth n

/-- The host request a command takes, for the commands that are host requests. -/
def requestOf : Instr → Option HostRequest
  | .identify => some .identify
  | .getStatus n => some (.getStatus n)
  | .readReports q n => some (.readReports q n)
  | .readCounters n => some (.readCounters n)
  | .reset a b => some (.reset a b)
  | .setClock d q m => some (.setClock d q m)
  | .setPolicy p => some (.setPolicy p)
  | .readPolicy => some .readPolicy
  | .loadRoom r e => some (.loadRoom r e)
  | .readRoom r => some (.readRoom r)
  | .loadKitchen k e => some (.loadKitchen k e)
  | .readKitchen k => some (.readKitchen k)
  | .loadDistance k b t => some (.loadDistance k b t)
  | .readDistance k => some (.readDistance k)
  | .loadMenuClass c w l n => some (.loadMenuClass c w l n)
  | .readMenuClass c => some (.readMenuClass c)
  | .hold q n => some (.hold q n)
  | .book q => some (.book q)
  | .confirm h => some (.confirm h)
  | .cancel h n => some (.cancel h n)
  | .endBooking h => some (.endBooking h)
  | .checkIn h t => some (.checkIn h t)
  | .move q => some (.move q)
  | .findRoom q => some (.findRoom q)
  | .queryRoom r d c => some (.queryRoom r d c)
  | .queryBooking h => some (.queryBooking h)
  | .acceptProvisional h => some (.acceptProvisional h)
  | .placeOrder h n ls => some (.placeOrder h n ls)
  | .queryOrder h => some (.queryOrder h)
  | .cancelOrder h => some (.cancelOrder h)
  | .confirmDelivery h => some (.confirmDelivery h)
  | .readLoad k t n => some (.readLoad k t n)
  | .readProduction k c n => some (.readProduction k c n)
  | .startChain n => some (.startChain n)
  | .stopChain n => some (.stopChain n)
  | .chainMode n m => some (.chainMode n m)
  | .clearPanelFault n p => some (.clearPanelFault n p)
  | .readChain n => some (.readChain n)
  | .readPosition n p => some (.readPosition n p)
  | .readLineHealth n => some (.readLineHealth n)
  | _ => none

/-- An uplink record (R152). -/
structure Uplink where
  touch : Bool
  occupancy : Bool
  kind : Nat
  toggle : Bool
  argument : Nat
  badge : Token
  shown : Nat
deriving DecidableEq, Repr

/-- The bytes of a cycle frame: a 3-byte header, 48 downlink slots of 18, 48 uplink slots of 8. -/
def frameLength : Nat := 1251

/-- The uplink slot of position `p` in a returned frame; none when presence is clear, which is the
UNANSWERED marker (R152, R184). -/
def uplinkAt (bs : List Byte) (p : Nat) : Option Uplink :=
  let u := bs.drop (3 + 48 * 18 + (p - 1) * 8)
  let b0 := u.getD 0 0
  if b0.getLsbD 7 then
    some { touch := b0.getLsbD 6, occupancy := b0.getLsbD 5, kind := byteAt u 1,
           toggle := b0.getLsbD 0, argument := byteAt u 2, badge := tokenAt u 3, shown := byteAt u 7 }
  else none

/-- The hop count of a returned frame that carries the start mark and the tag `tag` whole; none for
an echo failure by mismatch (R123, R184). -/
def returnedHops (bs : List Byte) (tag : Nat) : Option Nat :=
  if frameLength ≤ bs.length ∧ byteAt bs 0 = 0xE7 ∧ byteAt bs 1 / 8 = tag then some (byteAt bs 2)
  else none

end Sys2Proof.Machine
end

