-- ==== Sys2Proof/Machine/Flags.lean ====
section
/-! DEFINITION. The summary conditions, the summary byte and the attention line (R78, R149, R173,
R174), computed from the state as it stands. -/

namespace Sys2Proof.Machine

/-- The summary bit PANEL: some bound position of some line is not PRESENT (R149). -/
def Line.panelOut (ln : Line) : Bool :=
  ln.positions.entries.any (fun e => e.2.bound.isSome && decide (e.2.health ≠ .present))

/-- The marked quanta of one kitchen, or of all (R78): the Load Table keeps kitchen `k` at the keys
from `k * 2304`. -/
def Planner.marked (p : Planner) : List Nat :=
  (p.load.entries.filter (fun e => e.2.mark)).map Prod.fst

/-- The condition CLOCK: the clock is UNSET or HELD (R3). -/
def Clock.flag (c : Clock) : Bool := decide (c.state ≠ .running)

/-- One summary bit at its place. -/
def bit8 (n : Nat) (b : Bool) : BitVec 8 := if b then BitVec.ofNat 8 (2 ^ n) else 0

/-- The summary byte: EV, EX, OVF, PANEL, KITCHEN, CLOCK, RST, PROV from bit 7 down (R173, §10.8). -/
def State.summary (s : State) : BitVec 8 :=
  bit8 7 (!s.reports.events.isEmpty) |||
  bit8 6 (!s.reports.exceptions.isEmpty) |||
  bit8 5 s.reports.ovf |||
  bit8 4 (s.lines.l0.panelOut || s.lines.l1.panelOut || s.lines.l2.panelOut || s.lines.l3.panelOut) |||
  bit8 3 (!s.planner.marked.isEmpty) |||
  bit8 2 s.clock.flag |||
  bit8 1 s.rst |||
  bit8 0 (decide (0 < s.superv.provisional))

/-- The attention line: asserted while a summary condition holds whose mask bit is clear; released
while the part does not run (R174, R182). -/
def State.attention (s : State) : Bool :=
  decide (s.power = .running) && decide (s.summary &&& ~~~s.policy.attentionMask ≠ 0)

end Sys2Proof.Machine
end

