-- ==== Sys2Proof/Machine/Wire.lean ====
section
/-! DEFINITION. The wire and record layouts of §10.8: codes, CRC-16, report records, reply frames and
the cycle frame sent on data-out. -/

namespace Sys2Proof.Machine

/-! ### Codes: numbered from 0 in the order of the list that defines them (R184) -/

/-- The result codes of §10.8. -/
def resultCode : Result → Nat
  | .ok => 0x00 | .clamped => 0x01 | .busy => 0x02 | .badKind => 0x03 | .badField => 0x04
  | .noSuchRoom => 0x05 | .roomOutOfService => 0x06 | .roomBusy => 0x07 | .clockNotSet => 0x08
  | .clockStep => 0x09 | .outOfHorizon => 0x0A | .overCapacity => 0x0B | .conflict => 0x0C
  | .poolEmpty => 0x0D | .holdsFull => 0x0E | .staleHandle => 0x0F | .wrongState => 0x10
  | .orderExists => 0x11 | .orderTooLarge => 0x12 | .noKitchenCapacity => 0x13
  | .cateringCommitted => 0x14 | .chainState => 0x15 | .noneFree => 0x16

/-- The panel reply codes of §10.8. -/
def panelCode : PanelCode → Nat
  | .accepted => 0 | .conflict => 1 | .tooLongClamped => 2 | .notNow => 3 | .closed => 4
  | .refused => 5 | .full => 6

def clockCode : ClockState → Nat
  | .unset => 0 | .running => 1 | .held => 2

def causeCode : ResetCause → Nat
  | .power => 0 | .supplyLow => 1 | .full => 2 | .warm => 3

def linkCode : LinkState → Nat
  | .linked => 0 | .hostLost => 1

def absentCode : AbsentAction → Nat
  | .hold => 0 | .suspend => 1 | .close => 2

def absentOf : Nat → Option AbsentAction
  | 0 => some .hold | 1 => some .suspend | 2 => some .close | _ => none

/-- on/off, numbered in the order "on, off" of the table of R17 (R184, log 9). -/
def onOffCode (b : Bool) : Nat := if b then 0 else 1

def onOffOf : Nat → Option Bool
  | 0 => some true | 1 => some false | _ => none

def serviceCode (b : Bool) : Nat := if b then 0 else 1

def bookStateCode : BookState → Nat
  | .tentative => 0 | .confirmed => 1 | .checkedIn => 2

def originCode : Origin → Nat
  | .host => 0 | .panel => 1

def markCode : PendingMark → Nat
  | .movePending => 0 | .orderPending => 1

/-- The order states in the order of R82; CLOSED and CANCELLED have no code there and are free values
(log 8). -/
def orderStateCode : OrderState → Nat
  | .planned => 0 | .inProduction => 1 | .wasted => 2 | .dispatched => 3 | .delivered => 4
  | .unconfirmed => 5 | .closed => Config.closedCode.toNat
  | .cancelled => Config.cancelledCode.toNat

/-- The reasons in the order of R92; LINES has no place there and is a free value (log 8), NONE is absent. -/
def reasonCode : Reason → Nat
  | .unreachable => 0 | .tooLate => 1 | .closed => 2 | .carts => 3 | .prep => 4
  | .lines => Config.linesCode.toNat
  | .none => 0xFF

/-- The catering results of a Move, in the order R48 to R51 give them. -/
inductive CateringResult where
  | none | kept | refitted | dropped
deriving DecidableEq, Repr

def cateringCode : CateringResult → Nat
  | .none => 0 | .kept => 1 | .refitted => 2 | .dropped => 3

def chainCode : Chain → Nat
  | .offline => 0 | .census => 1 | .running => 2 | .quiet => 3 | .draining => 4 | .faulted => 5

def cycleCode : CycleKind → Nat
  | .census => 0 | .ordinary => 1

def faultCode : FaultCause → Nat
  | .echo => 0 | .empty => 1

def healthCode : Health → Nat
  | .unknown => 0 | .present => 1 | .suspect => 2 | .absent => 3 | .returned => 4

/-- The absence causes of §10.8. -/
def absenceCode : Cause → Nat
  | .census => 0 | .misses => 1 | .chain => 2

def shownCode : Shown → Nat
  | .free => 0 | .due => 1 | .inUse => 2 | .turnaround => 3 | .outOfService => 4 | .blank => 5

def indicatorCode : Indicator → Nat
  | .none => 0 | .planned => 1 | .inProduction => 2 | .onItsWay => 3 | .delivered => 4

/-- The event kinds of §10.8, 0x01 to 0x0D. -/
def eventCode : EventKind → Nat
  | .bookingConfirmed => 1 | .bookingCheckedIn => 2 | .bookingExtended => 3 | .bookingEnded => 4
  | .bookingReleased => 5 | .bookingExpired => 6 | .orderInProduction => 7 | .orderDispatched => 8
  | .orderDelivered => 9 | .deliveryUnconfirmed => 10 | .orderClosed => 11 | .orderWasted => 12
  | .orderCancelled => 13

/-! ### Bytes, most significant first -/

/-- `n` as one byte. -/
def enc8 (n : Nat) : List Byte := [BitVec.ofNat 8 n]
/-- `n` as two bytes. -/
def enc16 (n : Nat) : List Byte := [BitVec.ofNat 8 (n / 256), BitVec.ofNat 8 n]
/-- `n` as three bytes. -/
def enc24 (n : Nat) : List Byte := BitVec.ofNat 8 (n / 65536) :: enc16 n
/-- `n` as four bytes. -/
def enc32 (n : Nat) : List Byte := enc16 (n / 65536) ++ enc16 n
/-- An absent field of `w` bytes. -/
def encAbsent (w : Nat) : List Byte := List.replicate w 0xFF
/-- A campus time. -/
def encTime (t : CTime) : List Byte := enc16 t.day ++ enc16 t.quantum
/-- A handle. -/
def encHandle (h : Handle) : List Byte := enc16 h.index ++ enc8 h.gen
/-- A campus time, or none. -/
def encTime? (t : Option CTime) : List Byte := (t.map encTime).getD (encAbsent 4)
/-- A one-byte value, or none. -/
def enc8? (n : Option Nat) : List Byte := (n.map enc8).getD (encAbsent 1)
/-- A two-byte value, or none. -/
def enc16? (n : Option Nat) : List Byte := (n.map enc16).getD (encAbsent 2)

/-- One bit of the CRC-16 register (R169): polynomial 0x1021. -/
def crcBit (r : BitVec 16) : BitVec 16 :=
  if r.getLsbD 15 then (r <<< 1) ^^^ 0x1021 else r <<< 1

/-- One byte through the CRC-16 register, most significant bit first (R169). -/
def crcByte (r : BitVec 16) (b : Byte) : BitVec 16 :=
  (List.range 8).foldl (fun r _ => crcBit r) (r ^^^ (b.zeroExtend 16 <<< 8))

/-- The CRC-16 of a run of bytes, the register starting at 0xFFFF (R169). -/
def crc16 (bs : List Byte) : BitVec 16 := bs.foldl crcByte 0xFFFF

/-! ### Report records, 16 bytes each (§10.8) -/

/-- The 4 bytes of a detail or an extra: a handle takes the first three, a narrower value the low
bytes, a pair the first two (§10.8). -/
def Datum.wire : Datum → List Byte
  | .none => encAbsent 4
  | .num n => enc32 n
  | .pair a b => enc8 a ++ enc8 b ++ [0, 0]
  | .time t => encTime t
  | .token t => enc32 t.toNat
  | .handle h => encHandle h ++ [0]

/-- An event record on the wire. Bits 23–15 quantum, 14–6 room, 5–0 generation. -/
def EventRecord.wire (r : EventRecord) : List Byte :=
  enc8 (eventCode r.kind) ++ enc16 r.now.day ++
  enc24 (r.now.quantum % 512 * 32768 + r.room % 512 * 64 + r.subject.gen % 64) ++
  enc16 r.subject.index ++ r.detail.wire ++ r.extra.wire

/-- The kind byte of an exception, 0x01 to 0x0A. -/
def ExcKind.code : ExcKind → Nat
  | .chainFault .. => 1 | .panelAbsent .. => 2 | .panelReturned .. => 3 | .panelUnbound .. => 4
  | .problem .. => 5 | .overcommit .. => 6 | .bookingPoolEmpty .. => 7 | .orderPoolEmpty .. => 7
  | .hostLost .. => 8 | .hostReturned .. => 9 | .clockHeld .. => 10

/-- The arguments of an exception, in the order of §10.8. -/
def ExcKind.args : ExcKind → List Byte
  | .chainFault l c h t => enc8 l.val ++ enc8 (faultCode c) ++ enc16? h ++ enc8 t
  | .panelAbsent l p r c m => enc8 l.val ++ enc8 p ++ enc16 r ++ enc8 (absenceCode c) ++ enc8 m
  | .panelReturned l p r c => enc8 l.val ++ enc8 p ++ enc16 r ++ enc8? (c.map absenceCode)
  | .panelUnbound l p k b => enc8 l.val ++ enc8 p ++ enc8 k ++ enc32 b.toNat
  | .problem l p r c b => enc8 l.val ++ enc8 p ++ enc16 r ++ enc8 c ++ enc32 b.toNat
  | .overcommit k t n => enc8 k ++ encTime t ++ enc16 n
  | .bookingPoolEmpty r src =>
    enc8 0 ++ enc16 r ++
    (match src with
     | none => enc8 0 ++ encAbsent 2
     | some (l, p) => enc8 1 ++ enc8 l.val ++ enc8 p)
  | .orderPoolEmpty r => enc8 1 ++ enc16 r ++ enc8 0 ++ encAbsent 2
  | .hostLost n => enc8 n
  | .hostReturned n => enc16 n
  | .clockHeld h c => encTime h ++ encTime c.time ++ enc24 c.ms

/-- An exception record on the wire; the rest of its 16 bytes is zero. -/
def ExcRecord.wire (r : ExcRecord) : List Byte :=
  let bs := enc8 r.kind.code ++ encTime? r.now ++ r.kind.args
  bs ++ List.replicate (16 - bs.length) 0

/-! ### Replies (R172, R184) -/

/-- The bytes of one field. -/
def Field.wire : Field → List Byte
  | .u8 n => enc8 n
  | .u16 n => enc16 n
  | .u24 n => enc24 n
  | .mask8 m => [m]
  | .mask13 m => enc16 m.toNat
  | .token t => enc32 t.toNat
  | .time t => encTime t
  | .handle h => encHandle h
  | .absent w => encAbsent w
  | .event r => r.wire
  | .exception r => r.wire

/-- A campus time field, or absent. -/
def timeField (t : Option CTime) : Field := (t.map Field.time).getD (.absent 4)
/-- A handle field, or absent. -/
def handleField (h : Option Handle) : Field := (h.map Field.handle).getD (.absent 3)
/-- A one-byte field, or absent. -/
def u8Field (n : Option Nat) : Field := (n.map Field.u8).getD (.absent 1)
/-- A two-byte field, or absent. -/
def u16Field (n : Option Nat) : Field := (n.map Field.u16).getD (.absent 2)
/-- A flag. -/
def flagField (b : Bool) : Field := .u8 (if b then 1 else 0)

/-- A reply frame: start byte, length, kind + 0x80, tag, summary, result, body, CRC-16 (R172). The kind byte of
the reply to a frame of kind 0x80 or above is taken modulo 256 (log 8). -/
def Reply.wire (r : Reply) : List Byte :=
  let body := r.body.flatMap Field.wire
  let inner := enc8 (body.length + 2) ++ enc8 (r.kind + 0x80) ++ enc8 r.tag ++ [r.summary] ++
    enc8 (resultCode r.result) ++ body
  0xA5 :: inner ++ enc16 (crc16 inner).toNat

/-! ### Host frames, as the host sends them (R168, R169, R184) -/

/-- A request frame: start byte, length, kind, tag, body, CRC-16. -/
def frameWire (f : Frame) : List Byte :=
  let inner := enc8 f.body.length ++ enc8 f.kind ++ enc8 f.tag ++ f.body
  0xA5 :: inner ++ enc16 (crc16 inner).toNat

/-- The body of a SetPolicy: the identifier, numbered from 0 in the order of R17, and the value. -/
def encPolicy : PolicyReq → List Byte
  | .grace n => enc8 0 ++ enc8 n
  | .holdLimit n => enc8 1 ++ enc8 n
  | .absentAction n => enc8 2 ++ enc8 n
  | .absentReport n => enc8 3 ++ enc8 n
  | .autoCheckIn n => enc8 4 ++ enc8 n
  | .walkupMax n => enc8 5 ++ enc8 n
  | .scanRange f l => enc8 6 ++ enc16 f ++ enc16 l
  | .scanStep n => enc8 7 ++ enc16 n
  | .deglitch n => enc8 8 ++ enc8 n
  | .pollInterval n => enc8 9 ++ enc8 n
  | .quietPoll n => enc8 10 ++ enc8 n
  | .quietWindow none => enc8 11 ++ encAbsent 4
  | .quietWindow (some (f, t)) => enc8 11 ++ enc16 f ++ enc16 t
  | .supervision n => enc8 12 ++ enc8 n
  | .attentionMask m => enc8 13 ++ [m]
  | .eventMask m => enc8 14 ++ enc16 m.toNat
  | .unreadable => enc8 255 ++ enc8 0

/-- The bytes of a room entry. -/
def encRoomSpec (e : RoomSpec) : List Byte :=
  enc8 e.building ++ enc16 e.seats ++ enc8 e.turnaround ++ enc8 e.primary ++ enc8? e.alternate ++
  ((e.binding.map (fun b => enc8 b.1 ++ enc8 b.2)).getD (encAbsent 2)) ++ enc8 e.service ++
  enc16 e.label.toNat

/-- The bytes that a Hold and a Book share. -/
def encBookReq (q : BookReq) : List Byte :=
  enc16 q.room ++ encTime q.start ++ encTime q.fin ++ enc16 q.attendees ++ enc32 q.organizer.toNat

/-- The bytes of a Move. -/
def encMoveReq (q : MoveReq) : List Byte :=
  encHandle q.booking ++ enc16 q.room ++ encTime q.start ++ encTime q.fin ++ enc16 q.attendees ++
  enc8 q.flags

/-- The bytes of a FindRoom. -/
def encFindReq (q : FindReq) : List Byte :=
  enc8? q.building ++ encTime q.start ++ encTime q.fin ++ enc16 q.attendees ++
  enc32 q.organizer.toNat ++ enc8 q.holdTime ++ enc8 q.flags

/-- The kind and the body of each request (R184, the kinds table of §10.8). -/
def encRequest : HostRequest → Nat × List Byte
  | .identify => (0x01, [])
  | .getStatus n => (0x02, enc8 n)
  | .readReports q n => (0x03, enc8 q ++ enc8 n)
  | .readCounters n => (0x04, enc8 n)
  | .reset a b => (0x05, enc8 a ++ enc8 b)
  | .setClock d q m => (0x06, enc16 d ++ enc16 q ++ enc24 m)
  | .setPolicy p => (0x07, encPolicy p)
  | .readPolicy => (0x08, [])
  | .loadRoom r e => (0x10, enc16 r ++ encRoomSpec e)
  | .readRoom r => (0x11, enc16 r)
  | .loadKitchen k e =>
    (0x12, enc8 k ++ enc8 e.capacity ++ enc8 e.carts ++ enc16 e.openFrom ++ enc16 e.openTo)
  | .readKitchen k => (0x13, enc8 k)
  | .loadDistance k b t => (0x14, enc8 k ++ enc8 b ++ enc8? t)
  | .readDistance k => (0x15, enc8 k)
  | .loadMenuClass c w l n => (0x16, enc8 c ++ enc8 w ++ enc8 l ++ enc8 n)
  | .readMenuClass c => (0x17, enc8 c)
  | .hold q n => (0x20, encBookReq q ++ enc8 n)
  | .book q => (0x21, encBookReq q)
  | .confirm h => (0x22, encHandle h)
  | .cancel h n => (0x23, encHandle h ++ enc8 n)
  | .endBooking h => (0x24, encHandle h)
  | .checkIn h t => (0x25, encHandle h ++ enc32 t.toNat)
  | .move q => (0x26, encMoveReq q)
  | .findRoom q => (0x27, encFindReq q)
  | .queryRoom r d c => (0x28, enc16 r ++ enc16 d ++ encTime? c)
  | .queryBooking h => (0x29, encHandle h)
  | .acceptProvisional h => (0x2A, encHandle h)
  | .placeOrder h n ls => (0x30, encHandle h ++ enc8 n ++ ls.flatMap (fun l => enc8 l.cls ++ enc8 l.covers))
  | .queryOrder h => (0x31, encHandle h)
  | .cancelOrder h => (0x32, encHandle h)
  | .confirmDelivery h => (0x33, encHandle h)
  | .readLoad k t n => (0x34, enc8 k ++ encTime t ++ enc8 n)
  | .readProduction k c n =>
    (0x35, enc8 k ++ ((c.map (fun p => encTime p.1 ++ enc16 p.2)).getD (encAbsent 6)) ++ enc8 n)
  | .startChain n => (0x40, enc8 n)
  | .stopChain n => (0x41, enc8 n)
  | .chainMode n m => (0x42, enc8 n ++ enc8 m)
  | .clearPanelFault n p => (0x43, enc8 n ++ enc8? p)
  | .readChain n => (0x44, enc8 n)
  | .readPosition n p => (0x45, enc8 n ++ enc8 p)
  | .readLineHealth n => (0x46, enc8 n)

/-- The frame that carries a request. -/
def requestFrame (r : HostRequest) (tag : Nat) : Frame := ⟨(encRequest r).1, tag, (encRequest r).2⟩

/-! ### The cycle frame (R120, §10.8) -/

/-- The 18 bytes of a downlink slot. -/
def Downlink.wire : Downlink → List Byte
  | .empty => List.replicate 18 0
  | .blank => 1 :: List.replicate 17 0
  | .display d =>
    enc8 2 ++ enc8 (shownCode d.shown) ++ enc8 (indicatorCode d.indicator) ++ enc8 d.generation ++
    enc16 d.label.toNat ++ ((d.token.map (fun t => enc32 t.toNat)).getD (encAbsent 4)) ++
    encTime? d.currentEnd ++ encTime? d.nextStart
  | .reply r =>
    enc8 3 ++ enc8 (panelCode r.code) ++ enc8 r.kind ++ enc8 (if r.toggle then 1 else 0) ++
    encTime? r.time ++ List.replicate 10 0

/-- The 1251 bytes of a frame sent on data-out: hop count 0, every uplink slot zero. -/
def OutFrame.wire (f : OutFrame) : List Byte :=
  [0xE7] ++
  enc8 (f.tag * 8 + (if f.census then 4 else 0) + (if f.quiet then 2 else 0) +
    (if f.clearAll then 1 else 0)) ++ [0] ++
  (List.range Config.positions).flatMap (fun i => (f.downlinks.get .empty (i + 1)).wire) ++
  List.replicate (Config.positions * 8) 0

end Sys2Proof.Machine
end

