-- ==== Sys2Proof/Machine/Ops.lean ====
section
/-! DEFINITION. The operations all blocks share: intakes, counters, report posting, building replies,
and taking the work at the head of an intake. -/

namespace Sys2Proof.Machine

/-! ### Intakes: each first in, first out -/

/-- Work joins the Reservation Engine's intake behind whatever arrived before it. -/
def sendEngine (w : EngineWork) (s : State) : State :=
  { s with engine := { s.engine with intake := s.engine.intake ++ [w] } }

/-- Work joins the Catering Planner's intake (R76). -/
def sendPlanner (w : PlannerWork) (s : State) : State :=
  { s with planner := { s.planner with intake := s.planner.intake ++ [w] } }

/-- The controller of line `l` changed by `f`. -/
def updLine (l : Fin 4) (f : Line → Line) (s : State) : State :=
  { s with lines := s.lines.set l (f (s.lines.get l)) }

/-- Work joins a controller's own intake (R119). -/
def Line.arrive (w : LineWork) (ln : Line) : Line := { ln with intake := ln.intake ++ [w] }

/-- Work joins the intake of the controller of line `l`. -/
def sendLine (l : Fin 4) (w : LineWork) (s : State) : State := updLine l (Line.arrive w) s

/-- The Reservation Engine takes `w`, if `w` stands at the head of its intake (log 2). -/
def takeEngine (w : EngineWork) (s : State) : Option State :=
  if s.power = .running then
    match s.engine.intake with
    | w' :: rest => if w' = w then some { s with engine := { s.engine with intake := rest } } else none
    | [] => none
  else none

/-- The Catering Planner takes `w`, if `w` stands at the head of its intake and no computation is in
flight (R76, log 2). -/
def takePlanner (w : PlannerWork) (s : State) : Option State :=
  if s.power = .running ∧ s.planner.job = none then
    match s.planner.intake with
    | w' :: rest =>
      if w' = w then some { s with planner := { s.planner with intake := rest } } else none
    | [] => none
  else none

/-- The controller of line `l` takes `w`, if `w` stands at the head of its intake (R119, log 2). -/
def takeLine (l : Fin 4) (w : LineWork) (s : State) : Option State :=
  if s.power = .running then
    match (s.lines.get l).intake with
    | w' :: rest => if w' = w then some (updLine l (fun ln => { ln with intake := rest }) s) else none
    | [] => none
  else none

/-- A step that takes work: its effect when the work is there to take, and otherwise nothing, the
step not being one the part can make now (log 2). -/
def whenTaken (taken : Option State) (run : State → State) (s : State) :
    Host.Outcome State Fault Refusal :=
  match taken with
  | some t => .next (run t)
  | none => .next s

/-! ### The now of each block (R5, R76, log 4) -/

/-- The engine's now: the last boundary it took, or what SetClock set. -/
def engineNow (s : State) : Option CTime := if s.clock.state = .unset then none else s.engine.now

/-- The planner's now (R76). -/
def plannerNow (s : State) : Option CTime := if s.clock.state = .unset then none else s.planner.now

/-- The now of the controller of line `l`. -/
def lineNow (l : Fin 4) (s : State) : Option CTime :=
  if s.clock.state = .unset then none else (s.lines.get l).now

/-- The day from which the engine reckons horizon indices (R1). -/
def engineDay (s : State) : Nat := ((engineNow s).map CTime.day).getD 0

/-- The day from which the planner reckons horizon indices (R1, R75). -/
def plannerDay (s : State) : Nat := ((plannerNow s).map CTime.day).getD 0

/-! ### Counters (R177) -/

/-- A counter one higher, saturating at 65535. -/
def saturate (n : Nat) : Nat := if n < 65535 then n + 1 else 65535

/-- The counters changed by `f`. -/
def count (f : Counters → Counters) (s : State) : State := { s with counters := f s.counters }

def Counters.linkError (c : Counters) : Counters := { c with linkErrors := saturate c.linkErrors }
def Counters.busyReply (c : Counters) : Counters := { c with busyReplies := saturate c.busyReplies }
def Counters.noRoom (c : Counters) : Counters := { c with unknownRoom := saturate c.unknownRoom }
def Counters.bookingRefusal (c : Counters) : Counters :=
  { c with bookingRefusals := saturate c.bookingRefusals }
def Counters.cateringRefusal (c : Counters) : Counters :=
  { c with cateringRefusals := saturate c.cateringRefusals }
def Counters.release (c : Counters) : Counters := { c with releases := saturate c.releases }
def Counters.echo (l : Fin 4) (c : Counters) : Counters :=
  { c with echoFailures := c.echoFailures.set l (saturate (c.echoFailures.get l)) }
def Counters.miss (l : Fin 4) (c : Counters) : Counters :=
  { c with misses := c.misses.set l (saturate (c.misses.get l)) }
def Counters.drop (c : Counters) : Counters := { c with dropped := saturate c.dropped }

/-! ### Posting reports (R175) -/

/-- A record dropped at a full queue: OVF is set and the dropped-reports counter increments. -/
def dropReport (s : State) : State :=
  count Counters.drop { s with reports := { s.reports with ovf := true } }

/-- A post to the Event Queue: skipped when its kind is disabled, dropped when the queue is full. -/
def postEvent (r : EventRecord) (s : State) : State :=
  if s.policy.eventMask.getLsbD (eventCode r.kind - 1) then
    if s.reports.events.length < Config.eventQueue then
      { s with reports := { s.reports with events := s.reports.events ++ [r] } }
    else dropReport s
  else s

/-- A post to the Exception Queue, with the now the posting block gives. -/
def postException (k : ExcKind) (now : Option CTime) (s : State) : State :=
  if s.reports.exceptions.length < Config.exceptionQueue then
    { s with reports := { s.reports with exceptions := s.reports.exceptions ++ [⟨k, now⟩] } }
  else dropReport s

/-! ### Replies (R171, R172) -/

/-- One built reply handed to the transmitter, its summary byte evaluated now. -/
def buildReply (kind tag : Nat) (r : Result) (body : List Field) (s : State) : State :=
  { s with link := { s.link with tx := s.link.tx ++ [⟨kind, tag, s.summary, r, body⟩] } }

/-- One BUSY reply for each entry of the owed-BUSY list, in list order, and the list empty (R171). -/
def flushBusy (s : State) : State :=
  { s with link := { s.link with
      owed := []
      tx := s.link.tx ++ s.link.owed.map (fun e => ⟨e.1, e.2, s.summary, .busy, []⟩) } }

/-- The request slot empties. -/
def clearSlot (s : State) : State := { s with link := { s.link with slot := none } }

/-- The owner's result has come back: the reply is built, then `after` is done, then the BUSY replies
are built, and the slot is empty (R170, R171, R172). Nothing is built when no request is in service. -/
def finishThen (r : Result) (body : List Field) (after : State → State) (s : State) : State :=
  match s.link.slot with
  | none => s
  | some sl => flushBusy (after (buildReply sl.kind sl.tag r body (clearSlot s)))

/-- The reply to the request in service. -/
def finish (r : Result) (body : List Field) (s : State) : State := finishThen r body id s

/-- The slot's stage. -/
def setStage (st : Stage) (s : State) : State :=
  { s with link := { s.link with slot := s.link.slot.map (fun sl => { sl with stage := st }) } }

/-! ### Host requests -/

/-- Whether the slot holds `r`, handed to its owner and not yet taken. -/
def handed (r : HostRequest) (s : State) : Bool :=
  match s.link.slot with
  | some sl => decide (sl.req = r ∧ sl.stage = .handed)
  | none => false

/-- The work `r` stands at the head of its owner's intake, and is removed from there; an owner that
keeps no intake finds it in the slot. -/
def takeFromOwner (r : HostRequest) (s : State) : Option State :=
  match ownerOf r with
  | .part => if s.power = .running ∧ handed r s then some s else none
  | .engine => takeEngine (.host r) s
  | .planner => takePlanner (.host r) s
  | .line l => takeLine l (.host r) s

/-- The owner takes the host request `r`, if `r` is in service and stands at the head of the owner's
work (R170, log 2). -/
def takeHost (r : HostRequest) (s : State) : Option State :=
  (takeFromOwner r s).map (setStage .taken)

/-- The step of the host request `r`. -/
def hostStep (r : HostRequest) (run : State → State) (s : State) :
    Host.Outcome State Fault Refusal :=
  whenTaken (takeHost r s) run s

/-- A request handed to its owner (R170). -/
def handTo (r : HostRequest) (s : State) : State :=
  match ownerOf r with
  | .part => s
  | .engine => sendEngine (.host r) s
  | .planner => sendPlanner (.host r) s
  | .line l => sendLine l (.host r) s

/-- A host request that the Reservation Engine refuses: the booking-refusal counter increments, and
the unknown-room counter with a NO_SUCH_ROOM (R41, R11). -/
def countRefusal (r : Result) (s : State) : State :=
  let s := count Counters.bookingRefusal s
  if r = .noSuchRoom then count Counters.noRoom s else s

/-- The engine refuses the host request in service. -/
def refuseHost (r : Result) (body : List Field) (s : State) : State :=
  finish r body (countRefusal r s)

end Sys2Proof.Machine
end

