-- ==== Sys2Proof/Machine/Bookings.lean ====
section
/-! DEFINITION. The Booking Store and the operations the Reservation Engine does its work with: handles,
room lists, the conflict test, the admission checks, allocation and freeing, display facts. -/

namespace Sys2Proof.Machine

/-! ### Rooms and panel health -/

/-- The in-use entry of room `r`, or none while it is unused (R11). -/
def roomAt (s : State) (r : Nat) : Option RoomEntry := s.rooms.get none r

/-- The turnaround of room `r` in the Room Table (R37). -/
def turnaround (s : State) (r : Nat) : Nat := ((roomAt s r).map RoomEntry.turnaround).getD 0

/-- The panel binding of room `r` (R11). -/
def bindingOf (s : State) (r : Nat) : Option Binding := (roomAt s r).bind RoomEntry.binding

/-- The entry of position `p` in a line's position table (R118). -/
def Line.at (ln : Line) (p : Nat) : Position := ln.positions.get .reset p

/-- Whether the panel of room `r`, if it has one, is PRESENT as its controller holds it (R66, R150). -/
def panelPresent (s : State) (r : Nat) : Bool :=
  match bindingOf s r with
  | none => true
  | some b => decide (((s.lines.get b.line).at b.pos).health = .present)

/-- A room closed by panel policy (R40). -/
def closedByPolicy (s : State) (r : Nat) : Bool :=
  decide (s.policy.absentAction = .close) && !panelPresent s r

/-! ### Records, handles and lists -/

/-- Booking record `i` (R20). -/
def recordAt (s : State) (i : Nat) : Record Booking := s.store.records.get ⟨0, none⟩ i

/-- The live booking of record `i`, if any. -/
def bookingAt (s : State) (i : Nat) : Option Booking := (recordAt s i).body

/-- The present handle of record `i` (R21). -/
def handleOf (s : State) (i : Nat) : Handle := ⟨i, (recordAt s i).gen⟩

/-- The live booking a handle names (R21). -/
def liveBooking (s : State) (h : Handle) : Option Booking :=
  if (recordAt s h.index).gen = h.gen then bookingAt s h.index else none

/-- The handle check (R21): the refusal, or none when the handle names a live booking. -/
def handleFault (s : State) (h : Handle) : Option Result :=
  if 2047 < h.index ∨ 63 < h.gen then some .badField
  else if (liveBooking s h).isNone then some .staleHandle
  else none

/-- The live booking of record `i` replaced; the generation is kept. -/
def setBooking (i : Nat) (b : Booking) (s : State) : State :=
  { s with store := { s.store with
      records := s.store.records.set ⟨0, none⟩ i ⟨(recordAt s i).gen, some b⟩ } }

/-- The booking list of room `r`, as record indexes in start order (R29). -/
def roomList (s : State) (r : Nat) : List Nat := s.store.lists.get [] r

/-- The booking list of room `r` with the bookings. -/
def roomBookings (s : State) (r : Nat) : List (Nat × Booking) :=
  (roomList s r).filterMap (fun i => (bookingAt s i).map (fun b => (i, b)))

/-- The booking list of room `r` replaced. -/
def setRoomList (r : Nat) (l : List Nat) (s : State) : State :=
  { s with store := { s.store with lists := s.store.lists.set [] r l } }

/-- `x` placed before the first element with a later key, so after every earlier or equal one. -/
def insertBy {α : Type} (key : α → Int) (x : α) : List α → List α
  | [] => [x]
  | y :: rest => if key x < key y then x :: y :: rest else y :: insertBy key x rest

/-- The horizon index of a campus time against the engine's day (R1). -/
def idx (s : State) (t : CTime) : Int := horizonIndex (engineDay s) t

/-- The horizon index of the start of record `i`. -/
def startIdx (s : State) (i : Nat) : Int := ((bookingAt s i).map (fun b => idx s b.start)).getD 0

/-- The horizon index of the hold expiry a handle's booking has. -/
def expiryIdx (s : State) (h : Handle) : Int :=
  (((bookingAt s h.index).bind Booking.expiry).map (idx s)).getD 0

/-- Record `i` inserted into the list of room `r` at the place its start gives (R29). -/
def enterRoomList (r i : Nat) (s : State) : State :=
  setRoomList r (insertBy (startIdx s) i (roomList s r)) s

/-- Record `i` removed from the list of room `r`. -/
def leaveRoomList (r i : Nat) (s : State) : State :=
  setRoomList r ((roomList s r).filter (· ≠ i)) s

/-- The Hold List replaced. -/
def setHolds (l : List Handle) (s : State) : State := { s with store := { s.store with holds := l } }

/-- A handle entered in the Hold List at the place its expiry gives (R31). -/
def enterHolds (h : Handle) (s : State) : State := setHolds (insertBy (expiryIdx s) h s.store.holds) s

/-- A handle removed from the Hold List. -/
def leaveHolds (h : Handle) (s : State) : State := setHolds (s.store.holds.filter (· ≠ h)) s

/-- The provisional count changed by `f` (R26). -/
def provisional (f : Nat → Nat) (s : State) : State :=
  { s with superv := { s.superv with provisional := f s.superv.provisional } }

/-- The current booking of a room: the first in its list whose start ≤ now (R30). -/
def currentBooking (s : State) (r : Nat) : Option (Nat × Booking) :=
  (engineNow s).bind (fun now => (roomBookings s r).find? (fun e => decide (idx s e.2.start ≤ idx s now)))

/-- The next booking of a room: the first in its list whose start > now (R30). -/
def nextBooking (s : State) (r : Nat) : Option (Nat × Booking) :=
  (engineNow s).bind (fun now => (roomBookings s r).find? (fun e => decide (idx s now < idx s e.2.start)))

/-! ### The conflict test (R37) -/

/-- A span: its start and its end. -/
structure Span where
  start : CTime
  fin : CTime
deriving DecidableEq, Repr

/-- The reservations of room `r` in start order, less those of record `excl`: the live bookings of its
list, and the staged span of a move whose new room is `r` (R37, R50). -/
def reservations (s : State) (r : Nat) (excl : Option Nat) : List Span :=
  let live := ((roomBookings s r).filter (fun e => decide (some e.1 ≠ excl))).map
    (fun e => Span.mk e.2.start e.2.fin)
  match s.engine.staged with
  | some g =>
    if g.room = r ∧ some g.booking.index ≠ excl then
      insertBy (fun sp : Span => idx s sp.start) ⟨g.start, g.fin⟩ live
    else live
  | none => live

/-- Whether a reservation conflicts with a candidate span under a turnaround (R37). -/
def conflicts (s : State) (turn : Nat) (cand b : Span) : Bool :=
  decide (idx s b.start < idx s cand.fin + turn ∧ idx s cand.start < idx s b.fin + turn)

/-- The start of the first conflicting reservation in start order (R37). -/
def firstConflict (s : State) (r : Nat) (cand : Span) (excl : Option Nat) : Option CTime :=
  ((reservations s r excl).find? (conflicts s (turnaround s r) cand)).map Span.start

/-! ### Admission (R38 to R40) -/

/-- A refusal of the engine: its code, and the start a CONFLICT names. -/
structure Turned where
  code : Result
  time : Option CTime
deriving DecidableEq, Repr

/-- The reply body of a refusal. -/
def Turned.body (t : Turned) : List Field := (t.time.map (fun c => [Field.time c])).getD []

/-- A check: the refusal `r` unless `p` holds. -/
def require (p : Bool) (r : Result) : Option Turned := if p then none else some ⟨r, none⟩

/-- Check 1: the room named is in use. -/
def checkInUse (s : State) (r : Nat) : Option Turned := require (roomAt s r).isSome .noSuchRoom

/-- Check 2: the room is IN_SERVICE and not closed by panel policy (R40). -/
def checkService (s : State) (r : Nat) : Option Turned :=
  require (((roomAt s r).map RoomEntry.inService).getD false && !closedByPolicy s r) .roomOutOfService

/-- Check 3: the clock is RUNNING or HELD. -/
def checkClock (s : State) : Option Turned := require (engineNow s).isSome .clockNotSet

/-- Check 4: the span is 3 to 144 quanta long (R39). -/
def checkLength (s : State) (sp : Span) : Option Turned :=
  require (decide (3 ≤ idx s sp.fin - idx s sp.start ∧ idx s sp.fin - idx s sp.start ≤ 144)) .badField

/-- The start half of check 5: no earlier than now (R39). -/
def checkStart (s : State) (t : CTime) : Option Turned :=
  require (decide (((engineNow s).map (idx s)).getD 0 ≤ idx s t)) .outOfHorizon

/-- The end half of check 5: at most horizon index 2304 (R39). -/
def checkHorizon (s : State) (t : CTime) : Option Turned :=
  require (decide (idx s t ≤ 2304)) .outOfHorizon

/-- Check 6: attendees ≤ seats. -/
def checkSeats (s : State) (r n : Nat) : Option Turned :=
  require (decide (n ≤ ((roomAt s r).map RoomEntry.seats).getD 0)) .overCapacity

/-- Check 7: the span passes the conflict test (R37). -/
def checkConflict (s : State) (r : Nat) (sp : Span) (excl : Option Nat) : Option Turned :=
  (firstConflict s r sp excl).map (fun c => ⟨.conflict, some c⟩)

/-- Check 8: the Hold List has room for an entry (R32). -/
def checkHolds (s : State) : Option Turned :=
  require (decide (s.store.holds.length < Config.holdEntries)) .holdsFull

/-- Check 9: the free list is not empty (R22). -/
def checkPool (s : State) : Option Turned := require (!s.store.free.isEmpty) .poolEmpty

/-- The checks 3, 4 and 5 of a span that creates a booking. -/
def checkSpan (s : State) (sp : Span) : Option Turned :=
  (checkClock s).or ((checkLength s sp).or ((checkStart s sp.start).or (checkHorizon s sp.fin)))

/-- The admission checks 1 to 7 of a request that creates a booking (R38). -/
def checkCreate (s : State) (r : Nat) (sp : Span) (attendees : Nat) : Option Turned :=
  (checkInUse s r).or ((checkService s r).or ((checkSpan s sp).or
    ((checkSeats s r attendees).or (checkConflict s r sp none))))

/-- The field checks of a span and of a count of attendees (R38). -/
def fieldsOk (room : Nat) (sp : Span) (attendees : Nat) : Bool :=
  decide (room ≤ 511 ∧ sp.start.quantum ≤ 287 ∧ sp.fin.quantum ≤ 287 ∧ 1 ≤ attendees ∧ attendees ≤ 500)

/-- A refused allocation opens a closed pool-empty episode and posts one record (R24). -/
def openEpisode (room : Nat) (source : Option (Fin 4 × Nat)) (s : State) : State :=
  if s.store.episode then s
  else postException (.bookingPoolEmpty room source) (engineNow s)
    { s with store := { s.store with episode := true } }

/-- The head record of the free list made live with `b`, entered in its room's list, in the Hold List
when TENTATIVE, and counted when provisional (R22, R26, R29, R31, R42). The answer is the record's
index and the state; none on an empty free list. -/
def allocate (b : Booking) (s : State) : Option (Nat × State) :=
  match s.store.free with
  | [] => none
  | i :: rest =>
    let s := setBooking i b { s with store := { s.store with free := rest } }
    let s := enterRoomList b.room i s
    let s := if b.state = .tentative then enterHolds (handleOf s i) s else s
    some (i, if b.provisional then provisional (· + 1) s else s)

/-! ### Freeing (R23, R35, R36) -/

/-- The terminal outcomes (R35). -/
inductive Terminal where
  | ended
  | released (deadline : CTime)
  | cancelled
  | expired
deriving DecidableEq, Repr

/-- The kind an outcome hands the linked order over under (R36). -/
def Terminal.kind : Terminal → HandoffKind
  | .cancelled => .cancelled
  | .released _ => .released
  | .expired => .released
  | .ended => .ended

/-- Step 5 and 6 of R23: the generation advances, the fields are discarded, the record is appended at
the tail of the free list, and an open episode ends. -/
def releaseRecord (i : Nat) (s : State) : State :=
  { s with store := { s.store with
      records := s.store.records.set ⟨0, none⟩ i ⟨((recordAt s i).gen + 1) % 64, none⟩
      free := s.store.free ++ [i]
      episode := false } }

/-- The event of an outcome (R35): none for CANCELLED. -/
def outcomeEvent (h : Handle) (b : Booking) (out : Terminal) (now : CTime) : Option EventRecord :=
  match out with
  | .ended =>
    some ⟨.bookingEnded, now, b.room, h, .num (if b.state = .checkedIn then 0 else 1), .none⟩
  | .released d => some ⟨.bookingReleased, now, b.room, h, .time d, .none⟩
  | .expired => some ⟨.bookingExpired, now, b.room, h, ((b.expiry.map Datum.time).getD .none), .none⟩
  | .cancelled => none

/-- A time the engine stamps on a record: its now (R35). -/
def engineStamp (s : State) : CTime := (engineNow s).getD ⟨0, 0⟩

/-- Step 2 of R23: a present order link is handed to the planner. -/
def handOver (h : Handle) (b : Booking) (out : Terminal) (s : State) : State :=
  match b.order with
  | some o => sendPlanner (.handoff o h out.kind) s
  | none => s

/-- The last end of a room (R56). -/
def setLastEnd (r : Nat) (t : Option CTime) (s : State) : State :=
  { s with engine := { s.engine with lastEnd := s.engine.lastEnd.set none r t } }

/-- Record `i`, holding `b`, freed with a terminal outcome: steps 1 to 7 of R23, and the last end that
ENDED sets (R56). Step 8, the display, is done at the end of the engine's work (R57, log 6). -/
def freeBooking (i : Nat) (b : Booking) (out : Terminal) (s : State) : State :=
  let h := handleOf s i
  let s := handOver h b out s
  let s := leaveRoomList b.room i s
  let s := if b.state = .tentative then leaveHolds h s else s
  let s := if b.provisional then provisional (· - 1) s else s
  let s := releaseRecord i s
  let s := if out = .ended then setLastEnd b.room (some b.fin) s else s
  match outcomeEvent h b out (engineStamp s) with
  | some r => postEvent r s
  | none => s

/-- The outcome of a booking whose end has come (R34): EXPIRED if TENTATIVE, else ENDED. -/
def endOutcome (b : Booking) : Terminal := if b.state = .tentative then .expired else .ended

/-- The deferred outcome test of R28, on a booking whose mark has just been cleared. -/
def deferredOutcome (i : Nat) (s : State) : State :=
  match bookingAt s i, engineNow s with
  | some b, some now =>
    if b.state = .tentative ∧ (b.expiry.any (fun e => decide (idx s e ≤ idx s now))) = true then
      freeBooking i b .expired s
    else if idx s b.fin ≤ idx s now then freeBooking i b (endOutcome b) s
    else s
  | _, _ => s

/-! ### What a room shows (R56, R57) -/

/-- The shown state of a room, the first row of the table of R56 that holds. -/
def shownState (s : State) (r : Nat) : Shown :=
  if (bindingOf s r).isNone then .blank
  else if !((roomAt s r).map RoomEntry.inService).getD true then .outOfService
  else
    match currentBooking s r with
    | some (_, b) => if b.state = .checkedIn then .inUse else .due
    | none =>
      match s.engine.lastEnd.get none r, engineNow s with
      | some e, some now =>
        if idx s e ≤ idx s now ∧ idx s now < idx s e + turnaround s r then .turnaround else .free
      | _, _ => .free

/-- The booking whose token a room shows: the current one, or the next when there is none (R57). -/
def shownBooking (s : State) (r : Nat) : Option Booking :=
  ((currentBooking s r).or (nextBooking s r)).map Prod.snd

/-- The display facts of a room (R57). -/
def factsOf (s : State) (r : Nat) : Facts where
  shown := shownState s r
  currentEnd := (currentBooking s r).map (fun e => e.2.fin)
  nextStart := (nextBooking s r).map (fun e => e.2.start)
  token := (shownBooking s r).map Booking.organizer

/-- The engine keeps the present facts of a room. -/
def keepFacts (r : Nat) (s : State) : State :=
  { s with engine := { s.engine with kept := s.engine.kept.set none r (some (factsOf s r)) } }

/-- A display update request for a room to the controller of its bound line, if it has one. -/
def requestDisplay (r : Nat) (s : State) : State :=
  match bindingOf s r with
  | some b => sendLine b.line (.display r) s
  | none => s

/-- The display evaluation of a room at the end of engine work (R57). -/
def evalDisplay (r : Nat) (s : State) : State :=
  if s.engine.kept.get none r = some (factsOf s r) then s else requestDisplay r (keepFacts r s)

/-- The display evaluation of every room in use, in index order (R57, R58, log 27). -/
def evalAllDisplays (s : State) : State :=
  s.rooms.entries.foldl (fun s e => evalDisplay e.1 s) s

end Sys2Proof.Machine
end

