-- ==== Sys2Proof/Machine/Reservation.lean ====
section
/-! DEFINITION. The host requests of the Reservation Engine (R42 to R55, R84). -/

namespace Sys2Proof.Machine

/-! ### Shared shapes -/

/-- The engine refuses the host request with the outcome of a failed check; a POOL_EMPTY is handled
with its episode (R24, R38, R41). -/
def refuseTurned (room : Nat) (t : Turned) (body : List Field) (s : State) : State :=
  refuseHost t.code body (if t.code = .poolEmpty then openEpisode room none s else s)

/-- A request that names a booking: the handle check, then the pending-mark test, then its own work
(R21, R27, R41). -/
def withBooking (h : Handle) (run : Booking → State → State) (s : State) : State :=
  match handleFault s h, bookingAt s h.index with
  | some r, _ => refuseHost r [] s
  | none, none => refuseHost .staleHandle [] s
  | none, some b => if b.pending.isSome then refuseHost .busy [] s else run b s

/-- A booking that a host request creates, without hold expiry (R25). -/
def hostBooking (q : BookReq) (st : BookState) (expiry : Option CTime) : Booking where
  room := q.room
  start := q.start
  fin := q.fin
  state := st
  attendees := q.attendees
  organizer := q.organizer
  origin := .host
  provisional := false
  order := none
  expiry := expiry
  checkedIn := none
  pending := none

/-- The span a request carries. -/
def spanOf (q : BookReq) : Span := ⟨q.start, q.fin⟩

/-- An admitted creation: the record is allocated and set up, the room's display facts are evaluated,
and the reply is built from the new handle. -/
def createAndReply (b : Booking) (body : Handle → List Field) (s : State) : State :=
  match allocate b s with
  | none => s
  | some (i, s) => finish .ok (body (handleOf s i)) (evalDisplay b.room s)

/-- The expiry of a hold taken now (R42). -/
def holdExpiry (s : State) (holdTime : Nat) : CTime := shiftTime (engineStamp s) holdTime

/-- Whether a hold time lies in 1 to the hold time limit in force (R32, R42). -/
def holdTimeOk (s : State) (n : Nat) : Bool := decide (1 ≤ n ∧ n ≤ s.policy.holdLimit)

/-! ### Creating bookings -/

/-- The work of a Hold (R42): its fields, the admission checks 1 to 9, then a TENTATIVE booking. -/
def doHold (q : BookReq) (holdTime : Nat) (s : State) : State :=
  if !(fieldsOk q.room (spanOf q) q.attendees && holdTimeOk s holdTime) then refuseHost .badField [] s
  else
    match (checkCreate s q.room (spanOf q) q.attendees).or ((checkHolds s).or (checkPool s)) with
    | some t => refuseTurned q.room t t.body s
    | none =>
      createAndReply (hostBooking q .tentative (some (holdExpiry s holdTime)))
        (fun h => [.handle h, .time q.start, .time q.fin, .time (holdExpiry s holdTime)]) s

/-- HOLD (R42). -/
def execHold (q : BookReq) (holdTime : Nat) (s : State) : Host.Outcome State Fault Refusal :=
  hostStep (.hold q holdTime) (doHold q holdTime) s

/-- The work of a Book (R43): the admission checks 1 to 7 and 9, then a CONFIRMED booking. -/
def doBook (q : BookReq) (s : State) : State :=
  if !fieldsOk q.room (spanOf q) q.attendees then refuseHost .badField [] s
  else
    match (checkCreate s q.room (spanOf q) q.attendees).or (checkPool s) with
    | some t => refuseTurned q.room t t.body s
    | none =>
      createAndReply (hostBooking q .confirmed none)
        (fun h => [.handle h, .time q.start, .time q.fin]) s

/-- BOOK (R43). -/
def execBook (q : BookReq) (s : State) : Host.Outcome State Fault Refusal :=
  hostStep (.book q) (doBook q) s

/-! ### Confirm, Cancel, End, CheckIn -/

/-- The work of a Confirm (R44). -/
def doConfirm (h : Handle) (s : State) : State :=
  withBooking h (fun b s =>
    if b.state = .tentative then
      finish .ok [.handle h] (evalDisplay b.room
        (leaveHolds h (setBooking h.index { b with state := .confirmed, expiry := none } s)))
    else refuseHost .wrongState [] s) s

/-- CONFIRM (R44). -/
def execConfirm (h : Handle) (s : State) : Host.Outcome State Fault Refusal :=
  hostStep (.confirm h) (doConfirm h) s

/-- The work of a Cancel (R45). -/
def doCancel (h : Handle) (flags : Nat) (s : State) : State :=
  withBooking h (fun b s =>
    if 1 < flags then refuseHost .badField [] s
    else if b.state = .checkedIn then refuseHost .wrongState [] s
    else if flags = 1 ∧ b.order.isSome then refuseHost .orderExists [] s
    else finish .ok [.handle h] (evalDisplay b.room (freeBooking h.index b .cancelled s))) s

/-- CANCEL (R45). -/
def execCancel (h : Handle) (flags : Nat) (s : State) : Host.Outcome State Fault Refusal :=
  hostStep (.cancel h flags) (doCancel h flags) s

/-- A booking's end brought to now + 1 (R46). -/
def endNow (i : Nat) (b : Booking) (now : CTime) (s : State) : State :=
  setBooking i { b with fin := shiftTime now 1 } s

/-- An End's change with the display evaluation that follows it; when the end is already now + 1 nothing
changes, and nothing is evaluated (R46, R57). -/
def endAndShow (room i : Nat) (b : Booking) (now : CTime) (s : State) : State :=
  if b.fin = shiftTime now 1 then s else evalDisplay room (endNow i b now s)

/-- The work of an End (R46). -/
def doEnd (h : Handle) (s : State) : State :=
  withBooking h (fun b s =>
    match engineNow s with
    | none => refuseHost .clockNotSet [] s
    | some now =>
      if b.state = .tentative ∨ idx s now < idx s b.start then refuseHost .wrongState [] s
      else
        finish .ok [.time (shiftTime now 1)] (endAndShow b.room h.index b now s)) s

/-- END (R46). -/
def execEndBooking (h : Handle) (s : State) : Host.Outcome State Fault Refusal :=
  hostStep (.endBooking h) (doEnd h) s

/-- A booking checked in now (R47). -/
def checkInNow (i : Nat) (b : Booking) (now : CTime) (s : State) : State :=
  setBooking i { b with state := .checkedIn, checkedIn := some now } s

/-- Whether a booking's check-in window is open: CONFIRMED and now ≥ start - 1 (R47, R61). -/
def windowOpen (s : State) (b : Booking) (now : CTime) : Bool :=
  decide (b.state = .confirmed ∧ idx s b.start - 1 ≤ idx s now)

/-- The work of a CheckIn (R47). -/
def doCheckIn (h : Handle) (badge : Token) (s : State) : State :=
  withBooking h (fun b s =>
    match engineNow s with
    | none => refuseHost .clockNotSet [] s
    | some now =>
      if windowOpen s b now then
        finish .ok [.time now, .token badge] (evalDisplay b.room (checkInNow h.index b now s))
      else refuseHost .wrongState [] s) s

/-- CHECK_IN (R47). -/
def execCheckIn (h : Handle) (badge : Token) (s : State) : Host.Outcome State Fault Refusal :=
  hostStep (.checkIn h badge) (doCheckIn h badge) s

/-! ### Move (R48 to R50) -/

/-- The attendee count a booking will have: 0 keeps the present count (R48). -/
def newCount (b : Booking) (n : Nat) : Nat := if n = 0 then b.attendees else n

/-- A move committed: the new room, span and count, in one piece of work (R49). A change of the end
alone leaves the booking in its place. -/
def commitMove (i : Nat) (b : Booking) (room : Nat) (sp : Span) (attendees : Nat) (s : State) : State :=
  let b' := { b with room := room, start := sp.start, fin := sp.fin, attendees := newCount b attendees }
  if room = b.room ∧ sp.start = b.start then setBooking i b' s
  else enterRoomList room i (setBooking i b' (leaveRoomList b.room i s))

/-- The field checks and the state limits of a Move (R48): BAD_FIELD when one fails. -/
def moveFieldsOk (s : State) (b : Booking) (q : MoveReq) : Bool :=
  decide (q.room ≤ 511 ∧ q.start.quantum ≤ 287 ∧ q.fin.quantum ≤ 287 ∧ q.attendees ≤ 500 ∧ q.flags ≤ 1) &&
  (decide (b.state ≠ .checkedIn) || decide (q.room = b.room ∧ q.start = b.start)) &&
  ((engineNow s).all (fun now => decide (idx s now < idx s q.fin)))

/-- The admission checks 1 to 7 as they apply to a move (R39, R40, R48). -/
def checkMove (s : State) (i : Nat) (b : Booking) (q : MoveReq) : Option Turned :=
  let sp : Span := ⟨q.start, q.fin⟩
  let moved := decide (q.room ≠ b.room)
  let restarted := moved || decide (q.start ≠ b.start)
  let recounted := moved || decide (newCount b q.attendees ≠ b.attendees)
  (checkInUse s q.room).or
  ((if moved then checkService s q.room else none).or
  ((checkClock s).or
  ((checkLength s sp).or
  ((if restarted then checkStart s q.start else none).or
  ((checkHorizon s q.fin).or
  ((if recounted then checkSeats s q.room (newCount b q.attendees) else none).or
  (checkConflict s q.room sp (some i))))))))

/-- The staged span of a move recorded, MOVE_PENDING set, the refit request sent (R27, R50). The mark changes
the booking, so the room's display facts are evaluated (R57). -/
def stageMove (q : MoveReq) (b : Booking) (order : Handle) (s : State) : State :=
  let s := setBooking q.booking.index { b with pending := some .movePending } s
  evalDisplay b.room (sendPlanner (.refit q.booking order q.start q.room (decide (q.flags = 1)))
    { s with engine := { s.engine with
        staged := some ⟨q.booking, q.room, q.start, q.fin, q.attendees⟩ } })

/-- The room notice of a committed move that changes the room of a booking with an order (R107). -/
def noticeRoom (b : Booking) (room : Nat) (s : State) : State :=
  match b.order with
  | some o => if room = b.room then s else sendPlanner (.roomNotice o room) s
  | none => s

/-- The reply body of a committed move (R49). -/
def moveBody (room : Nat) (sp : Span) (c : CateringResult) : List Field :=
  [.u16 room, .time sp.start, .time sp.fin, .u8 (cateringCode c)]

/-- The display facts of the old room and, when it differs, the new one (R49). -/
def evalMove (old new : Nat) (s : State) : State :=
  if new = old then evalDisplay old s else evalDisplay new (evalDisplay old s)

/-- A move that passes is committed at once, or staged when its order must be refitted; a move that
names the present values changes nothing (R48). -/
def doMoveChecked (q : MoveReq) (b : Booking) (s : State) : State :=
  let sp : Span := ⟨q.start, q.fin⟩
  if q.room = b.room ∧ q.start = b.start ∧ q.fin = b.fin ∧ newCount b q.attendees = b.attendees then
    finish .ok (moveBody q.room sp .none) s
  else
    match b.order with
    | some o =>
      if q.start = b.start then
        finish .ok (moveBody q.room sp .kept)
          (evalMove b.room q.room (noticeRoom b q.room
            (commitMove q.booking.index b q.room sp q.attendees s)))
      else stageMove q b o s
    | none =>
      finish .ok (moveBody q.room sp .none)
        (evalMove b.room q.room (commitMove q.booking.index b q.room sp q.attendees s))

/-- The work of a Move (R48). The admission checks come before the test for a move that names the present
values, so that a booking End left shorter than 3 quanta is refused BAD_FIELD by it (log 36). -/
def doMove (q : MoveReq) (s : State) : State :=
  withBooking q.booking (fun b s =>
    if !moveFieldsOk s b q then refuseHost .badField [] s
    else
      match checkMove s q.booking.index b q with
      | some t => refuseTurned q.room t t.body s
      | none => doMoveChecked q b s) s

/-- MOVE (R48). -/
def execMove (q : MoveReq) (s : State) : Host.Outcome State Fault Refusal :=
  hostStep (.move q) (doMove q) s

/-! ### Finding and reading bookings -/

/-- Whether a room in use passes the checks 2, 6 and 7 of a FindRoom and stands in its building (R52). -/
def roomFits (s : State) (q : FindReq) (r : Nat) (e : RoomEntry) : Bool :=
  (q.building.all (fun b => decide (e.building = b))) &&
  ((checkService s r).or ((checkSeats s r q.attendees).or
    (checkConflict s r ⟨q.start, q.fin⟩ none))).isNone

/-- The room with the fewest seats among those that fit, the lowest index among equals (R52): the
rooms are walked in index order. -/
def chooseRoom (s : State) (q : FindReq) : Option (Nat × Nat) :=
  s.rooms.entries.foldl (fun best e =>
    match e.2 with
    | some entry =>
      if roomFits s q e.1 entry && best.all (fun b => decide (entry.seats < b.2)) then
        some (e.1, entry.seats)
      else best
    | none => best) none

/-- The field checks of a FindRoom (R38, R52): the flag HOLD is bit 0. -/
def findFieldsOk (s : State) (q : FindReq) : Bool :=
  decide (q.flags ≤ 1 ∧ q.start.quantum ≤ 287 ∧ q.fin.quantum ≤ 287 ∧ 1 ≤ q.attendees ∧
    q.attendees ≤ 500) &&
  (q.building.all (fun b => decide (b ≤ 23))) &&
  (decide (q.flags = 0) || holdTimeOk s q.holdTime)

/-- The work of a FindRoom (R52). -/
def doFindRoom (q : FindReq) (s : State) : State :=
  if !findFieldsOk s q then refuseHost .badField [] s
  else
    match checkSpan s ⟨q.start, q.fin⟩ with
    | some t => refuseTurned 0 t t.body s
    | none =>
      match chooseRoom s q with
      | none => refuseHost .noneFree [] s
      | some (r, seats) =>
        if q.flags = 0 then finish .ok [.u16 r, .u16 seats] s
        else
          match (checkHolds s).or (checkPool s) with
          | some t => refuseTurned r t [.u16 r] s
          | none =>
            let bq : BookReq := ⟨r, q.start, q.fin, q.attendees, q.organizer⟩
            createAndReply (hostBooking bq .tentative (some (holdExpiry s q.holdTime)))
              (fun h => [.u16 r, .u16 seats, .handle h, .time (holdExpiry s q.holdTime)]) s

/-- FIND_ROOM (R52). -/
def execFindRoom (q : FindReq) (s : State) : Host.Outcome State Fault Refusal :=
  hostStep (.findRoom q) (doFindRoom q) s

/-- Whether a booking touches a day (R53). -/
def touchesDay (b : Booking) (day : Nat) : Bool :=
  decide (b.start.day = day ∨ (b.fin.day = day ∧ 0 < b.fin.quantum))

/-- The bookings a QueryRoom returns from: those of the room that touch the day, in list order, from
the continuation on (R53). R53 needs no now, so a start is compared with the continuation by the signed
difference of their stored days and not by R1 (log 35). -/
def touching (s : State) (room day : Nat) (cont : Option CTime) : List (Nat × Booking) :=
  (roomBookings s room).filter (fun e =>
    touchesDay e.2 day && cont.all (fun c => decide (0 ≤ quantaFrom e.2.start c)))

/-- One entry of a QueryRoom reply (R53). -/
def roomEntryFields (s : State) (e : Nat × Booking) : List Field :=
  [.handle (handleOf s e.1), .time e.2.start, .time e.2.fin, .u8 (bookStateCode e.2.state),
   .u16 e.2.attendees, .token e.2.organizer, .u8 (originCode e.2.origin),
   flagField e.2.provisional, flagField e.2.order.isSome, u8Field (e.2.pending.map markCode)]

/-- The work of a QueryRoom (R53): at most 10 bookings, then the "more" flag and the continuation, sent
absent when no booking remains (log 42). A continuation whose quantum is above 287 is refused BAD_FIELD by R1
(log 40). -/
def doQueryRoom (room day : Nat) (cont : Option CTime) (s : State) : State :=
  if 511 < room ∨ cont.any (fun c => decide (287 < c.quantum)) = true then
    refuseHost .badField [] s
  else if (roomAt s room).isNone then refuseHost .noSuchRoom [] s
  else
    let all := touching s room day cont
    let given := all.take 10
    let more := all.drop 10
    finish .ok (.u8 given.length :: given.flatMap (roomEntryFields s) ++
      [flagField !more.isEmpty, timeField (more.head?.map (fun e => e.2.start))]) s

/-- QUERY_ROOM (R53). -/
def execQueryRoom (room day : Nat) (cont : Option CTime) (s : State) :
    Host.Outcome State Fault Refusal :=
  hostStep (.queryRoom room day cont) (doQueryRoom room day cont) s

/-- The fields of a booking record, in the order of R25, each optional one present or absent. -/
def bookingFields (h : Handle) (b : Booking) : List Field :=
  [.handle h, .u16 b.room, .time b.start, .time b.fin, .u8 (bookStateCode b.state),
   .u16 b.attendees, .token b.organizer, .u8 (originCode b.origin), flagField b.provisional,
   handleField b.order, timeField b.expiry, timeField b.checkedIn, u8Field (b.pending.map markCode)]

/-- The staged room and span a QueryBooking adds for MOVE_PENDING (R54), and which are left out otherwise (log 42). -/
def stagedFields (s : State) (h : Handle) (b : Booking) : List Field :=
  match s.engine.staged with
  | some g =>
    if b.pending = some .movePending ∧ g.booking = h then [.u16 g.room, .time g.start, .time g.fin]
    else []
  | none => []

/-- The work of a QueryBooking (R54). -/
def doQueryBooking (h : Handle) (s : State) : State :=
  match handleFault s h, bookingAt s h.index with
  | none, some b => finish .ok (bookingFields h b ++ stagedFields s h b) s
  | some r, _ => refuseHost r [] s
  | none, none => refuseHost .staleHandle [] s

/-- QUERY_BOOKING (R54). -/
def execQueryBooking (h : Handle) (s : State) : Host.Outcome State Fault Refusal :=
  hostStep (.queryBooking h) (doQueryBooking h) s

/-- The work of an AcceptProvisional (R55); the flag changes the booking, so the room's display facts are
evaluated (R57). -/
def doAcceptProvisional (h : Handle) (s : State) : State :=
  withBooking h (fun b s =>
    if b.provisional then
      finish .ok [] (evalDisplay b.room
        (provisional (· - 1) (setBooking h.index { b with provisional := false } s)))
    else refuseHost .wrongState [] s) s

/-- ACCEPT_PROVISIONAL (R55). -/
def execAcceptProvisional (h : Handle) (s : State) : Host.Outcome State Fault Refusal :=
  hostStep (.acceptProvisional h) (doAcceptProvisional h) s

/-! ### PlaceOrder at the engine (R84) -/

/-- The work of a PlaceOrder at the engine: its four checks, then ORDER_PENDING and the admission
request (R27, R84). The mark changes the booking, so the room's display facts are evaluated (R57). -/
def doPlaceOrder (h : Handle) (n : Nat) (lines : List OrderLine) (s : State) : State :=
  withBooking h (fun b s =>
    if b.state = .checkedIn ∨ b.provisional then refuseHost .wrongState [] s
    else if b.order.isSome then refuseHost .orderExists [] s
    else
      evalDisplay b.room (sendPlanner (.admission h b.start b.room n lines)
        (setBooking h.index { b with pending := some .orderPending } s))) s

/-- PLACE_ORDER (R84). -/
def execPlaceOrder (h : Handle) (n : Nat) (lines : List OrderLine) (s : State) :
    Host.Outcome State Fault Refusal :=
  hostStep (.placeOrder h n lines) (doPlaceOrder h n lines) s

end Sys2Proof.Machine
end

