-- ==== Sys2Proof/Machine/EngineWork.lean ====
section
/-! DEFINITION. The Reservation Engine's other work: the planner's answers and notices, boundary work,
visits, occupancy, panel requests (R51, R58, R65 to R71, R91, R111, R157 to R160), and the Room Scanner
step (R63). -/

namespace Sys2Proof.Machine

/-! ### The planner's answers -/

/-- The reasons and deficits of a refusal, in a reply (R92). -/
def reasonFields (r : Reasons) : List Field :=
  [.u8 (reasonCode r.primary), .u16 r.primaryDeficit, .u8 (reasonCode r.alternate),
   .u16 r.alternateDeficit]

/-- A booking's pending mark cleared, and `f` applied to its other fields. -/
def clearMark (i : Nat) (f : Booking → Booking) (s : State) : State :=
  match bookingAt s i with
  | some b => setBooking i { f b with pending := none } s
  | none => s

/-- The room of record `i`, as it stands. -/
def roomOfRecord (s : State) (i : Nat) : Nat := ((bookingAt s i).map Booking.room).getD 0

/-- The engine's work on an admission answer, before the reply (R91): the link set or not, the mark
cleared, the indicator's display requested, the deferred outcome test, the display evaluation. -/
def settleAdmission (h : Handle) (link : Option Handle) (s : State) : State :=
  let room := roomOfRecord s h.index
  let s := clearMark h.index (fun b => if link.isSome then { b with order := link } else b) s
  let s := if link.isSome then requestDisplay room s else s
  evalDisplay room (deferredOutcome h.index s)

/-- The engine takes the planner's answer to an admission (R91). -/
def doAdmissionAnswer (h : Handle) (a : AdmissionAnswer) (s : State) : State :=
  match a with
  | .admitted o k sh w d p n =>
    finish .ok [.handle o, .u8 k, .u8 sh, .time w, .time d, .u16 p, .u8 n]
      (settleAdmission h (some o) s)
  | .refused code reasons =>
    finish code ((reasons.map reasonFields).getD [])
      (count Counters.cateringRefusal (settleAdmission h none s))

/-- ENGINE_TAKES_ADMISSION_ANSWER (R91). -/
def execEngineTakesAdmissionAnswer (h : Handle) (a : AdmissionAnswer) (s : State) :
    Host.Outcome State Fault Refusal :=
  whenTaken (takeEngine (.admissionAnswer h a) s) (doAdmissionAnswer h a) s

/-- The staged span discarded (R51). -/
def discardStaged (s : State) : State := { s with engine := { s.engine with staged := none } }

/-- The staged move committed with its room, span and count; under DROPPED the order link becomes
absent (R49, R51). -/
def commitStaged (g : Staged) (keepOrder : Bool) (s : State) : State :=
  match bookingAt s g.booking.index with
  | some b =>
    commitMove g.booking.index (if keepOrder then b else { b with order := none }) g.room
      ⟨g.start, g.fin⟩ g.attendees s
  | none => s

/-- The end of the engine's work on a refit answer (R51): MOVE_PENDING cleared, the staged span
discarded, the deferred outcome test, the display facts of the old room and the new. -/
def settleRefit (h : Handle) (old new : Nat) (s : State) : State :=
  evalMove old new (deferredOutcome h.index (discardStaged (clearMark h.index id s)))

/-- A refit answer that refuses the move: it is discarded and counted as a catering and as a booking
refusal (R51, R94). -/
def refuseMove (h : Handle) (code : Result) (body : List Field) (s : State) : State :=
  let room := roomOfRecord s h.index
  refuseHost code body (count Counters.cateringRefusal (settleRefit h room room s))

/-- A refit answer that commits the move (R51). -/
def commitRefit (h : Handle) (keepOrder : Bool) (body : Staged → List Field) (s : State) : State :=
  match s.engine.staged with
  | some g =>
    let old := roomOfRecord s h.index
    finish .ok (body g) (settleRefit h old g.room (commitStaged g keepOrder s))
  | none =>
    let room := roomOfRecord s h.index
    finish .ok [] (evalDisplay room (clearMark h.index id s))

/-- The engine takes the planner's answer to a refit (R51). -/
def doRefitAnswer (h : Handle) (a : RefitAnswer) (s : State) : State :=
  match a with
  | .fit _ _ w d =>
    commitRefit h true (fun g => moveBody g.room ⟨g.start, g.fin⟩ .refitted ++ [.time w, .time d]) s
  | .dropped st =>
    commitRefit h false (fun g => moveBody g.room ⟨g.start, g.fin⟩ .dropped ++ [.u8 (orderStateCode st)]) s
  | .noFit r => refuseMove h .noKitchenCapacity (reasonFields r) s
  | .committed => refuseMove h .cateringCommitted [] s

/-- ENGINE_TAKES_REFIT_ANSWER (R51). -/
def execEngineTakesRefitAnswer (h : Handle) (a : RefitAnswer) (s : State) :
    Host.Outcome State Fault Refusal :=
  whenTaken (takeEngine (.refitAnswer h a) s) (doRefitAnswer h a) s

/-! ### The planner's notices (R111) -/

/-- Whether a booking handle still names a live booking whose order link equals an order handle. -/
def linksOrder (s : State) (h o : Handle) : Bool :=
  match liveBooking s h with
  | some b => decide (b.order = some o)
  | none => false

/-- The reply of a CancelOrder that waited for the engine to take the link notice of its order (R110). -/
def replyAfterLink (o : Handle) (s : State) : State :=
  match s.link.slot with
  | some sl =>
    match sl.stage with
    | .afterLink o' body => if o' = o then finish .ok body s else s
    | _ => s
  | none => s

/-- The engine takes a link notice (R111). -/
def doLinkNotice (h o : Handle) (s : State) : State :=
  replyAfterLink o
    (match bookingAt s h.index with
     | some b =>
       if linksOrder s h o then evalDisplay b.room (setBooking h.index { b with order := none } s)
       else s
     | none => s)

/-- LINK_NOTICE (R111). -/
def execLinkNotice (h o : Handle) (s : State) : Host.Outcome State Fault Refusal :=
  whenTaken (takeEngine (.linkNotice h o) s) (doLinkNotice h o) s

/-- The engine takes a display notice (R111). -/
def doDisplayNotice (h o : Handle) (s : State) : State :=
  if linksOrder s h o then requestDisplay (roomOfRecord s h.index) s else s

/-- DISPLAY_NOTICE (R111). -/
def execDisplayNotice (h o : Handle) (s : State) : Host.Outcome State Fault Refusal :=
  whenTaken (takeEngine (.displayNotice h o) s) (doDisplayNotice h o) s

/-! ### Boundary work (R33, R58) -/

/-- Pass 1: a hold whose expiry equals now is EXPIRED and freed; a marked booking is passed over. -/
def expireHold (now : CTime) (h : Handle) (s : State) : State :=
  match bookingAt s h.index with
  | some b =>
    if b.pending = none ∧ (b.expiry.any (fun e => decide (idx s e = idx s now))) = true then
      freeBooking h.index b .expired s
    else s
  | none => s

/-- Pass 2: a booking whose end equals now, and that carries no mark, reaches its outcome. -/
def endBookingAt (now : CTime) (i : Nat) (s : State) : State :=
  match bookingAt s i with
  | some b =>
    if b.pending = none ∧ idx s b.fin = idx s now then freeBooking i b (endOutcome b) s else s
  | none => s

/-- Pass 1 over the Hold List, in list order. -/
def passExpiries (now : CTime) (s : State) : State :=
  s.store.holds.foldl (fun s h => expireHold now h s) s

/-- Pass 2 over the rooms in index order and each room's list; a room not listed has no booking. -/
def passEnds (now : CTime) (s : State) : State :=
  s.store.lists.entries.foldl (fun s e => e.2.foldl (fun s i => endBookingAt now i s) s) s

/-- The engine's now becomes the quantum the boundary begins (R4, log 4). -/
def setEngineNow (t : CTime) (s : State) : State :=
  { s with engine := { s.engine with now := some t } }

/-- The engine's boundary work, in its three passes (R58). -/
def doEngineBoundary (b : Boundary) (s : State) : State :=
  evalAllDisplays (passEnds b.now (passExpiries b.now (setEngineNow b.now s)))

/-- ENGINE_BOUNDARY_WORK (R58). -/
def execEngineBoundaryWork (b : Boundary) (s : State) : Host.Outcome State Fault Refusal :=
  whenTaken (takeEngine (.boundary b) s) (doEngineBoundary b) s

/-! ### The Room Scanner and its visits (R63 to R67) -/

/-- The position a step visits: moved to the first of the range when it lies outside (R63, R64). -/
def scanPosition (s : State) : Nat :=
  if s.scanner.position < s.policy.scanFirst ∨ s.policy.scanLast < s.scanner.position then
    s.policy.scanFirst
  else s.scanner.position

/-- The scanner's step (R63): the visit is sent and the position advances. Step 5, the restart of the step
timer, was made at the expiry itself, where R62 has it restart at once (log 20). -/
def doScanStep (s : State) : State :=
  let p := scanPosition s
  sendEngine (.visit p)
    { s with scanner := { s.scanner with
        position := if p = s.policy.scanLast then s.policy.scanFirst else p + 1
        due := s.scanner.due - 1 } }

/-- SCAN_STEP_EXPIRY (R63): the step timer has run out, and its step has not been made yet. -/
def execScanStepExpiry (s : State) : Host.Outcome State Fault Refusal :=
  if s.power = .running ∧ 0 < s.scanner.due then .next (doScanStep s) else .next s

/-- The check-in deadline of a booking: start + grace, grace read now (R61). -/
def deadline (s : State) (b : Booking) : CTime := shiftTime b.start s.policy.grace

/-- The absent-action gate (R66): whether a due release may proceed. -/
def releaseGate (s : State) (r : Nat) : Bool :=
  decide (s.policy.absentAction = .hold) || panelPresent s r

/-- Whether a visit releases the room's current booking: the tests 1 to 6 of R65. -/
def releaseDue (s : State) (r : Nat) (b : Booking) (now : CTime) : Bool :=
  (roomAt s r).isSome && decide (b.state = .confirmed) && b.pending.isNone &&
  decide (idx s (deadline s b) ≤ idx s now) && releaseGate s r

/-- The engine takes a visit request (R65, R67). -/
def doRoomVisit (r : Nat) (s : State) : State :=
  match currentBooking s r, engineNow s with
  | some (i, b), some now =>
    if releaseDue s r b now then
      evalDisplay r (count Counters.release (freeBooking i b (.released (deadline s b)) s))
    else s
  | _, _ => s

/-- ROOM_VISIT (R65). -/
def execRoomVisit (r : Nat) (s : State) : Host.Outcome State Fault Refusal :=
  whenTaken (takeEngine (.visit r) s) (doRoomVisit r) s

/-! ### Check-ins the host did not request (R70, R71, R158) -/

/-- The earliest live booking of a room in list order, when it may be checked in now: CONFIRMED, its
window open, unmarked (R70, R158). -/
def checkInCandidate (s : State) (r : Nat) : Option (Nat × Booking × CTime) :=
  match (roomBookings s r).head?, engineNow s with
  | some (i, b), some now =>
    if windowOpen s b now && b.pending.isNone then some (i, b, now) else none
  | _, _ => none

/-- A check-in reported: the state change of R47 and the event BOOKING_CHECKED_IN (R71). The source
is 0 for PANEL and 1 for AUTO. -/
def checkInReported (i : Nat) (b : Booking) (now : CTime) (source : Nat) (badge : Token) (s : State) :
    State :=
  let late := if idx s now < idx s (deadline s b) then 0 else 1
  postEvent ⟨.bookingCheckedIn, now, b.room, handleOf s i, .pair source late, .token badge⟩
    (checkInNow i b now s)

/-- The engine takes an occupancy notice (R70). -/
def doOccupancy (r : Nat) (s : State) : State :=
  if s.policy.autoCheckIn && (roomAt s r).isSome then
    match checkInCandidate s r with
    | some (i, b, now) => evalDisplay r (checkInReported i b now 1 0 s)
    | none => s
  else s

/-- OCCUPANCY_NOTICE (R70). -/
def execOccupancyNotice (r : Nat) (s : State) : Host.Outcome State Fault Refusal :=
  whenTaken (takeEngine (.occupancy r) s) (doOccupancy r) s

/-! ### Panel requests (R153, R157 to R160) -/

/-- The request kinds of an uplink record (§10.8). -/
def kindWalkup : Nat := 1
def kindCheckin : Nat := 2
def kindExtend : Nat := 3
def kindEnd : Nat := 4
def kindReceived : Nat := 5
def kindProblem : Nat := 6

/-- The answer to a panel request, sent to its line (R155). -/
def answerPanel (src : PanelSrc) (kind : Nat) (code : PanelCode) (time : Option CTime) (s : State) :
    State :=
  sendLine src.line (.answer src.pos src.reqno ⟨kind, code, time⟩) s

/-- The panel code of an engine refusal (R153; NO_SUCH_ROOM: log 16). -/
def panelCodeOf : Result → PanelCode
  | .conflict => .conflict
  | .roomOutOfService => .closed
  | .poolEmpty => .full
  | .wrongState | .busy | .clockNotSet => .notNow
  | _ => .refused

/-- The engine refuses a panel request: counted under R41, answered by the mapping of R153. -/
def refusePanel (src : PanelSrc) (kind : Nat) (t : Turned) (s : State) : State :=
  answerPanel src kind (panelCodeOf t.code) t.time (countRefusal t.code s)

/-- The booking of an admitted walk-up (R25, R157): provisional while the host is lost (R188). -/
def walkupBooking (s : State) (room len : Nat) (badge : Token) (now : CTime) : Booking where
  room := room
  start := now
  fin := shiftTime now len
  state := .checkedIn
  attendees := 1
  organizer := badge
  origin := .panel
  provisional := decide (s.superv.link = .hostLost)
  order := none
  expiry := none
  checkedIn := some now
  pending := none

/-- The admission checks of a walk-up of `len` quanta from now: 1 to 7 and 9 (R157). -/
def checkWalkup (s : State) (room len : Nat) : Option Turned :=
  let now := engineStamp s
  (checkCreate s room ⟨now, shiftTime now len⟩ 1).or (checkPool s)

/-- An admitted walk-up: allocated, reported, answered, displayed (R157). -/
def admitWalkup (src : PanelSrc) (room len : Nat) (badge : Token) (code : PanelCode) (s : State) :
    State :=
  let now := engineStamp s
  let b := walkupBooking s room len badge now
  match allocate b s with
  | none => s
  | some (i, s) =>
    evalDisplay room (answerPanel src kindWalkup code (some b.fin)
      (postEvent ⟨.bookingConfirmed, now, room, handleOf s i, .time b.fin, .token badge⟩ s))

/-- The engine takes a panel WALKUP (R157). -/
def doWalkup (src : PanelSrc) (room len : Nat) (badge : Token) (s : State) : State :=
  if len < 3 then refusePanel src kindWalkup ⟨.badField, none⟩ s
  else
    let len' := min len s.policy.walkupMax
    match checkWalkup s room len' with
    | some t =>
      refusePanel src kindWalkup t
        (if t.code = .poolEmpty then openEpisode room (some (src.line, src.pos)) s else s)
    | none =>
      admitWalkup src room len' badge (if len' < len then .tooLongClamped else .accepted) s

/-- WALKUP (R157). -/
def execWalkup (src : PanelSrc) (room len : Nat) (badge : Token) (s : State) :
    Host.Outcome State Fault Refusal :=
  whenTaken (takeEngine (.walkup src room len badge) s) (doWalkup src room len badge) s

/-- The engine takes a panel CHECKIN (R158). A bound room since made unused has no live booking: the answer is NOT_NOW, not
NO_SUCH_ROOM, and the unknown-room counter stands (log 16). -/
def doPanelCheckin (src : PanelSrc) (room : Nat) (badge : Token) (s : State) : State :=
  match checkInCandidate s room with
  | some (i, b, now) =>
    evalDisplay room (answerPanel src kindCheckin .accepted none (checkInReported i b now 0 badge s))
  | none => refusePanel src kindCheckin ⟨.wrongState, none⟩ s

/-- PANEL_CHECKIN (R158). -/
def execPanelCheckin (src : PanelSrc) (room : Nat) (badge : Token) (s : State) :
    Host.Outcome State Fault Refusal :=
  whenTaken (takeEngine (.checkin src room badge) s) (doPanelCheckin src room badge) s

/-- The checks of an EXTEND of record `i` to a new end: 3, 4, 5 on the end, 7 (R159). A new length
above 144 and an end beyond the horizon are refused alike. -/
def checkExtend (s : State) (i : Nat) (b : Booking) (fin : CTime) : Option Turned :=
  (checkClock s).or ((checkLength s ⟨b.start, fin⟩).or ((checkHorizon s fin).or
    (checkConflict s b.room ⟨b.start, fin⟩ (some i))))

/-- The engine takes a panel EXTEND (R159); NOT_NOW at a bound room since made unused (log 16). -/
def doExtend (src : PanelSrc) (room k : Nat) (s : State) : State :=
  match currentBooking s room, engineNow s with
  | some (i, b), some now =>
    if b.state ≠ .checkedIn ∨ b.pending.isSome then refusePanel src kindExtend ⟨.wrongState, none⟩ s
    else if k = 0 then refusePanel src kindExtend ⟨.badField, none⟩ s
    else
      let fin := shiftTime b.fin k
      match checkExtend s i b fin with
      | some t => refusePanel src kindExtend t s
      | none =>
        evalDisplay room (answerPanel src kindExtend .accepted (some fin)
          (postEvent ⟨.bookingExtended, now, b.room, handleOf s i, .time fin, .num k⟩
            (setBooking i { b with fin := fin } s)))
  | _, _ => refusePanel src kindExtend ⟨.wrongState, none⟩ s

/-- EXTEND (R159). -/
def execExtend (src : PanelSrc) (room k : Nat) (s : State) : Host.Outcome State Fault Refusal :=
  whenTaken (takeEngine (.extend src room k) s) (doExtend src room k) s

/-- The engine takes a panel END (R160); NOT_NOW at a bound room since made unused (log 16). -/
def doPanelEnd (src : PanelSrc) (room : Nat) (s : State) : State :=
  match currentBooking s room, engineNow s with
  | some (i, b), some now =>
    if b.state = .tentative ∨ b.pending.isSome then refusePanel src kindEnd ⟨.wrongState, none⟩ s
    else
      endAndShow room i b now (answerPanel src kindEnd .accepted (some (shiftTime now 1)) s)
  | _, _ => refusePanel src kindEnd ⟨.wrongState, none⟩ s

/-- PANEL_END (R160). -/
def execPanelEnd (src : PanelSrc) (room : Nat) (s : State) : Host.Outcome State Fault Refusal :=
  whenTaken (takeEngine (.panelEnd src room) s) (doPanelEnd src room) s

end Sys2Proof.Machine
end

