-- ==== Sys2Proof/Machine/CampusModel.lean ====
section
/-! DEFINITION. The Campus Model Store: policies, rooms, kitchens, distances and menu classes, loaded and
read (R11 to R19), with the engine's part of a LoadRoom. -/

namespace Sys2Proof.Machine

/-! ### The Policy Set (R17, R18) -/

/-- A value clamped to a range. -/
def clampNat (lo hi n : Nat) : Nat := max lo (min hi n)

/-- The member of 16, 32, …, 1024 nearest to `n`, a tie going to the larger (R18). -/
def nearestStep (n : Nat) : Nat :=
  if n < 24 then 16 else if n < 48 then 32 else if n < 96 then 64 else if n < 192 then 128
  else if n < 384 then 256 else if n < 768 then 512 else 1024

/-- The scan range in force for a requested one: each end clamped, then the last raised to the first. -/
def clampRange (f l : Nat) : Nat × Nat :=
  let f' := clampNat 0 511 f
  (f', max f' (clampNat 0 511 l))

/-- The quiet window in force for a requested one (R18): from equal to to is off. -/
def clampWindow (w : Option (Nat × Nat)) : Option (Nat × Nat) :=
  match w with
  | none => none
  | some (f, t) =>
    let f' := clampNat 0 287 f
    let t' := clampNat 0 287 t
    if f' = t' then none else some (f', t')

/-- The numeric policies stored as clamped, the masks as given (R18): of an event mask the thirteen enables, its
bits 13 to 15 being zero wherever it is sent (R184; that they may be set in a request is log 12). -/
def setNumber (p : Policy) (r : PolicyReq) : Policy :=
  match r with
  | .grace n => { p with grace := clampNat 1 6 n }
  | .holdLimit n => { p with holdLimit := clampNat 1 12 n }
  | .walkupMax n => { p with walkupMax := clampNat 3 24 n }
  | .scanRange f l => { p with scanFirst := (clampRange f l).1, scanLast := (clampRange f l).2 }
  | .scanStep n => { p with scanStep := nearestStep n }
  | .deglitch n => { p with deglitch := clampNat 2 15 n }
  | .pollInterval n => { p with pollInterval := clampNat 5 100 n }
  | .quietPoll n => { p with quietPoll := clampNat 2 30 n }
  | .quietWindow w => { p with quietWindow := clampWindow w }
  | .supervision n => { p with supervision := clampNat 1 60 n }
  | .attentionMask m => { p with attentionMask := m }
  | .eventMask m => { p with eventMask := m.setWidth 13 }
  | .absentAction _ | .absentReport _ | .autoCheckIn _ | .unreadable => p

/-- The Policy Set after a SetPolicy; none for an unknown identifier or an undefined code (R18). -/
def setPolicyTo (p : Policy) (r : PolicyReq) : Option Policy :=
  match r with
  | .absentAction c => (absentOf c).map (fun a => { p with absentAction := a })
  | .absentReport c => (onOffOf c).map (fun b => { p with absentReport := b })
  | .autoCheckIn c => (onOffOf c).map (fun b => { p with autoCheckIn := b })
  | .unreadable => none
  | _ => some (setNumber p r)

/-- Whether clamping changes a value of the request (R18; from equal to to: log 17). -/
def clampsValue (r : PolicyReq) : Bool :=
  match r with
  | .grace n => decide (clampNat 1 6 n ≠ n)
  | .holdLimit n => decide (clampNat 1 12 n ≠ n)
  | .walkupMax n => decide (clampNat 3 24 n ≠ n)
  | .scanRange f l => decide (clampRange f l ≠ (f, l))
  | .scanStep n => decide (nearestStep n ≠ n)
  | .deglitch n => decide (clampNat 2 15 n ≠ n)
  | .pollInterval n => decide (clampNat 5 100 n ≠ n)
  | .quietPoll n => decide (clampNat 2 30 n ≠ n)
  | .quietWindow w => decide (clampWindow w ≠ w)
  | .supervision n => decide (clampNat 1 60 n ≠ n)
  | .attentionMask _ | .eventMask _ | .absentAction _ | .absentReport _ | .autoCheckIn _
  | .unreadable => false

/-- The quiet window as reply fields; off, which R184 does not spell, is four bytes 0xFF (log 8). -/
def windowFields (w : Option (Nat × Nat)) : List Field :=
  match w with
  | none => [.absent 4]
  | some (f, t) => [.u16 f, .u16 t]

/-- The values in force of the policy a request names (R18). -/
def policyFields (p : Policy) (r : PolicyReq) : List Field :=
  match r with
  | .grace _ => [.u8 p.grace]
  | .holdLimit _ => [.u8 p.holdLimit]
  | .absentAction _ => [.u8 (absentCode p.absentAction)]
  | .absentReport _ => [.u8 (onOffCode p.absentReport)]
  | .autoCheckIn _ => [.u8 (onOffCode p.autoCheckIn)]
  | .walkupMax _ => [.u8 p.walkupMax]
  | .scanRange _ _ => [.u16 p.scanFirst, .u16 p.scanLast]
  | .scanStep _ => [.u16 p.scanStep]
  | .deglitch _ => [.u8 p.deglitch]
  | .pollInterval _ => [.u8 p.pollInterval]
  | .quietPoll _ => [.u8 p.quietPoll]
  | .quietWindow _ => windowFields p.quietWindow
  | .supervision _ => [.u8 p.supervision]
  | .attentionMask _ => [.mask8 p.attentionMask]
  | .eventMask _ => [.mask13 p.eventMask]
  | .unreadable => []

/-- The work of a SetPolicy (R18). -/
def doSetPolicy (r : PolicyReq) (s : State) : State :=
  match setPolicyTo s.policy r with
  | none => finish .badField [] s
  | some p =>
    finish (if clampsValue r then .clamped else .ok) (policyFields p r) { s with policy := p }

/-- SET_POLICY (R18). -/
def execSetPolicy (r : PolicyReq) (s : State) : Host.Outcome State Fault Refusal :=
  hostStep (.setPolicy r) (doSetPolicy r) s

/-- Every policy value in force, in the order of the table of R17 (R19). -/
def allPolicyFields (p : Policy) : List Field :=
  [.u8 p.grace, .u8 p.holdLimit, .u8 (absentCode p.absentAction), .u8 (onOffCode p.absentReport),
   .u8 (onOffCode p.autoCheckIn), .u8 p.walkupMax, .u16 p.scanFirst, .u16 p.scanLast,
   .u16 p.scanStep, .u8 p.deglitch, .u8 p.pollInterval, .u8 p.quietPoll] ++
  windowFields p.quietWindow ++
  [.u8 p.supervision, .mask8 p.attentionMask, .mask13 p.eventMask]

/-- READ_POLICY (R19). -/
def execReadPolicy (s : State) : Host.Outcome State Fault Refusal :=
  hostStep .readPolicy (fun s => finish .ok (allPolicyFields s.policy) s) s

/-! ### The Room Table (R11 to R13) -/

/-- The entry check 2 of R12 accepts: the new entry, `some none` for building 31; none for BAD_FIELD. -/
def specEntry (e : RoomSpec) : Option (Option RoomEntry) :=
  if e.building = 31 then some none
  else
    let bindOk : Bool := e.binding.all (fun b => decide (b.1 ≤ 3 ∧ 1 ≤ b.2 ∧ b.2 ≤ 48))
    let altOk : Bool := e.alternate.all (fun k => decide (k ≤ 7 ∧ k ≠ e.primary))
    if e.building ≤ 23 ∧ 1 ≤ e.seats ∧ e.seats ≤ 500 ∧ e.turnaround ≤ 6 ∧ e.primary ≤ 7 ∧
        e.service ≤ 1 ∧ altOk = true ∧ bindOk = true then
      some (some {
        building := e.building
        seats := e.seats
        turnaround := e.turnaround
        primary := e.primary
        alternate := e.alternate
        binding := e.binding.bind (fun b => (lineOf? b.1).map (fun l => ⟨l, b.2⟩))
        inService := decide (e.service = 0)
        label := e.label })
    else none

/-- The work of a LoadRoom at the Campus Model Store: checks 1 and 2, then the entry goes to the
Reservation Engine for the others (R12). -/
def doLoadRoom (room : Nat) (e : RoomSpec) (s : State) : State :=
  if 511 < room ∨ specEntry e = none then finish .badField [] s
  else sendEngine (.loadRoomCheck room e) s

/-- LOAD_ROOM (R12). -/
def execLoadRoom (room : Nat) (e : RoomSpec) (s : State) : Host.Outcome State Fault Refusal :=
  hostStep (.loadRoom room e) (doLoadRoom room e) s

/-- The in-use room other than `room` that holds a binding, the lowest index first (R12 check 4). -/
def bindingHolder (s : State) (room : Nat) (b : Binding) : Option Nat :=
  (s.rooms.entries.find? (fun e =>
    decide (e.1 ≠ room) && decide ((e.2.bind RoomEntry.binding) = some b))).map Prod.fst

/-- The later start of the first pair of adjacent reservations that a turnaround would bring into
conflict (R12 check 5). -/
def firstCrowded (s : State) (turn : Nat) : List Span → Option CTime
  | a :: b :: rest =>
    if idx s b.start < idx s a.fin + turn then some b.start else firstCrowded s turn (b :: rest)
  | _ => none

/-- A refusal of a LoadRoom: its code and what it names. -/
structure LoadRefusal where
  code : Result
  body : List Field
deriving DecidableEq, Repr

/-- Check 3 of R12: a room with reservations is not made unused (R50). -/
def checkRoomBusy (s : State) (room : Nat) (e : Option RoomEntry) : Option LoadRefusal :=
  if e.isNone ∧ reservations s room none ≠ [] then some ⟨.roomBusy, []⟩ else none

/-- Check 4 of R12: the new binding is not held by another room. -/
def checkBinding (s : State) (room : Nat) (e : Option RoomEntry) : Option LoadRefusal :=
  ((e.bind RoomEntry.binding).bind (bindingHolder s room)).map (fun r => ⟨.conflict, [.u16 r]⟩)

/-- Check 5 of R12: a raised turnaround leaves the room's reservations apart (R50). -/
def checkTurnaround (s : State) (room : Nat) (e : Option RoomEntry) : Option LoadRefusal :=
  match e with
  | some n =>
    if turnaround s room < n.turnaround then
      (firstCrowded s n.turnaround (reservations s room none)).map (fun c => ⟨.conflict, [.time c]⟩)
    else none
  | none => none

/-- The entry of a room replaced. -/
def setRoom (room : Nat) (e : Option RoomEntry) (s : State) : State :=
  { s with rooms := s.rooms.set none room e }

/-- A room made unused holds no last end (R56). -/
def dropLastEnd (room : Nat) (e : Option RoomEntry) (s : State) : State :=
  if e.isNone then setLastEnd room none s else s

/-- The old position of a changed binding becomes unbound, the new one takes the room (R13). -/
def rebind (room : Nat) (old new : Option Binding) (s : State) : State :=
  let s := match old with
    | some b => sendLine b.line (.binding b.pos none) s
    | none => s
  match new with
  | some b => sendLine b.line (.binding b.pos (some room)) s
  | none => s

/-- The display requests of an accepted LoadRoom (R13), the new facts kept with them; a changed turnaround, which
R13 does not name and the facts read, is evaluated (R56, R57); any other change leaves what the panel shows. -/
def displayLoad (room : Nat) (old new : Option RoomEntry) (s : State) : State :=
  let ob := old.bind RoomEntry.binding
  let nb := new.bind RoomEntry.binding
  if ob ≠ nb then keepFacts room (rebind room ob nb s)
  else if old.map RoomEntry.inService ≠ new.map RoomEntry.inService ∨
      old.map RoomEntry.label ≠ new.map RoomEntry.label then
    keepFacts room (requestDisplay room s)
  else if old.map RoomEntry.turnaround ≠ new.map RoomEntry.turnaround then evalDisplay room s
  else s

/-- The engine answers a LoadRoom: checks 3, 4 and 5, then the entry is replaced (R12, R13). -/
def doLoadRoomEngineCheck (room : Nat) (spec : RoomSpec) (s : State) : State :=
  match specEntry spec with
  | none => finish .badField [] s
  | some e =>
    match (checkRoomBusy s room e).or ((checkBinding s room e).or (checkTurnaround s room e)) with
    | some t => finish t.code t.body s
    | none =>
      finish .ok [] (displayLoad room (roomAt s room) e (dropLastEnd room e (setRoom room e s)))

/-- LOAD_ROOM_ENGINE_CHECK (R12). -/
def execLoadRoomEngineCheck (room : Nat) (e : RoomSpec) (s : State) :
    Host.Outcome State Fault Refusal :=
  whenTaken (takeEngine (.loadRoomCheck room e) s) (doLoadRoomEngineCheck room e) s

/-- A panel binding as two bytes. -/
def bindingFields (b : Option Binding) : List Field :=
  match b with
  | none => [.absent 2]
  | some b => [.u8 b.line.val, .u8 b.pos]

/-- The whole Room Table entry; an unused one has building 31 and the rest zero or none (R11, R19). -/
def roomFields (e : Option RoomEntry) : List Field :=
  match e with
  | none => [.u8 31, .u16 0, .u8 0, .u8 0, .absent 1, .absent 2, .u8 0, .u16 0]
  | some e =>
    [.u8 e.building, .u16 e.seats, .u8 e.turnaround, .u8 e.primary, u8Field e.alternate] ++
    bindingFields e.binding ++ [.u8 (serviceCode e.inService), .u16 e.label.toNat]

/-- The work of a ReadRoom (R19). -/
def doReadRoom (room : Nat) (s : State) : State :=
  if 511 < room then finish .badField [] s else finish .ok (roomFields (roomAt s room)) s

/-- READ_ROOM (R19). -/
def execReadRoom (room : Nat) (s : State) : Host.Outcome State Fault Refusal :=
  hostStep (.readRoom room) (doReadRoom room) s

/-! ### Kitchens (R14) -/

/-- An unlisted Kitchen Table entry: capacity 0, carts 0, closed all day (R14). -/
def noKitchen : KitchenSpec := ⟨0, 0, 0, 0⟩

/-- The Kitchen Table entry of a kitchen. -/
def kitchenAt (s : State) (k : Nat) : KitchenSpec := s.kitchens.get noKitchen k

/-- The checks of a LoadKitchen (R14). -/
def kitchenOk (k : Nat) (e : KitchenSpec) : Bool :=
  decide (k ≤ 7 ∧ e.capacity ≤ 255 ∧ e.carts ≤ 8 ∧ e.openFrom ≤ 287 ∧ e.openTo ≤ 288 ∧
    e.openFrom ≤ e.openTo)

/-- The work of a LoadKitchen at the Campus Model Store (R14): the reply waits for the planner. -/
def doLoadKitchen (k : Nat) (e : KitchenSpec) (s : State) : State :=
  if kitchenOk k e then
    sendPlanner (.kitchenChange k e.capacity e.carts) { s with kitchens := s.kitchens.set noKitchen k e }
  else finish .badField [] s

/-- LOAD_KITCHEN (R14). -/
def execLoadKitchen (k : Nat) (e : KitchenSpec) (s : State) : Host.Outcome State Fault Refusal :=
  hostStep (.loadKitchen k e) (doLoadKitchen k e) s

/-- The work of a ReadKitchen (R19). -/
def doReadKitchen (k : Nat) (s : State) : State :=
  if 7 < k then finish .badField [] s
  else
    let e := kitchenAt s k
    finish .ok [.u8 e.capacity, .u8 e.carts, .u16 e.openFrom, .u16 e.openTo] s

/-- READ_KITCHEN (R19). -/
def execReadKitchen (k : Nat) (s : State) : Host.Outcome State Fault Refusal :=
  hostStep (.readKitchen k) (doReadKitchen k) s

/-! ### Distances (R15) -/

/-- The transit from a kitchen to a building; none is UNREACHABLE. -/
def transitAt (s : State) (k b : Nat) : Option Nat := s.distances.get none (k * Config.buildings + b)

/-- The work of a LoadDistance (R15). -/
def doLoadDistance (k b : Nat) (t : Option Nat) (s : State) : State :=
  if 7 < k ∨ 23 < b ∨ t.any (fun n => decide (12 < n)) = true then finish .badField [] s
  else finish .ok [] { s with distances := s.distances.set none (k * Config.buildings + b) t }

/-- LOAD_DISTANCE (R15). -/
def execLoadDistance (k b : Nat) (t : Option Nat) (s : State) : Host.Outcome State Fault Refusal :=
  hostStep (.loadDistance k b t) (doLoadDistance k b t) s

/-- The work of a ReadDistance: 24 entries in building order (R19). -/
def doReadDistance (k : Nat) (s : State) : State :=
  if 7 < k then finish .badField [] s
  else finish .ok ((List.range Config.buildings).map (fun b => u8Field (transitAt s k b))) s

/-- READ_DISTANCE (R19). -/
def execReadDistance (k : Nat) (s : State) : Host.Outcome State Fault Refusal :=
  hostStep (.readDistance k) (doReadDistance k) s

/-! ### Menu classes (R16) -/

/-- An undefined class: weight 0, lead and hold limit held as zero (R16). -/
def noClass : MenuClass := ⟨0, 0, 0⟩

/-- The Menu Class Table entry of a class. -/
def classAt (s : State) (c : Nat) : MenuClass := s.menu.get noClass c

/-- The checks of a LoadMenuClass (R16). -/
def classOk (c weight lead hold : Nat) : Bool :=
  decide (c ≤ 31) && (decide (weight = 0) || decide (weight ≤ 255 ∧ 1 ≤ lead ∧ lead ≤ 24 ∧ hold ≤ 8))

/-- The entry a LoadMenuClass stores. -/
def classEntry (weight lead hold : Nat) : MenuClass :=
  if weight = 0 then noClass else ⟨weight, lead, hold⟩

/-- The work of a LoadMenuClass (R16). -/
def doLoadMenuClass (c weight lead hold : Nat) (s : State) : State :=
  if classOk c weight lead hold then
    finish .ok [] { s with menu := s.menu.set noClass c (classEntry weight lead hold) }
  else finish .badField [] s

/-- LOAD_MENU_CLASS (R16). -/
def execLoadMenuClass (c weight lead hold : Nat) (s : State) : Host.Outcome State Fault Refusal :=
  hostStep (.loadMenuClass c weight lead hold) (doLoadMenuClass c weight lead hold) s

/-- The work of a ReadMenuClass (R19). -/
def doReadMenuClass (c : Nat) (s : State) : State :=
  if 31 < c then finish .badField [] s
  else
    let e := classAt s c
    finish .ok [.u8 e.weight, .u8 e.lead, .u8 e.holdLimit] s

/-- READ_MENU_CLASS (R19). -/
def execReadMenuClass (c : Nat) (s : State) : Host.Outcome State Fault Refusal :=
  hostStep (.readMenuClass c) (doReadMenuClass c) s

end Sys2Proof.Machine
end

