-- ==== Sys2Proof/Machine/Planner.lean ====
section
/-! DEFINITION. The Catering Planner: the Load Table and its marks, the order pool and the production
lists, the admission computation and the refit (R75 to R98). -/

namespace Sys2Proof.Machine

/-! ### The Load Table (R75) -/

/-- What an unlisted Load Table entry reads as. -/
def noLoad : LoadCell := ⟨0, 0, false⟩

/-- The key of kitchen `k`'s entry for horizon index `h`, `c` being the day of the planner's now: slice
(c + ⌊h / 288⌋) mod 8, quantum h mod 288 (R75). An index before 0 lies in the slice of its own day. -/
def loadKey (c k : Nat) (h : Int) : Nat :=
  k * Config.horizon + ((((c : Int) + h / 288) % 8) * 288 + h % 288).toNat

/-- The horizon index, from day `c` on, of the quantum a key stands for. -/
def keyIndex (c key : Nat) : Nat :=
  ((key % Config.horizon / 288 + 8 - c % 8) % 8) * 288 + key % 288

/-- The Load Table entry of kitchen `k` at horizon index `h`. -/
def cellAt (s : State) (k : Nat) (h : Int) : LoadCell :=
  s.planner.load.get noLoad (loadKey (plannerDay s) k h)

/-- A Load Table entry changed by `f`. -/
def modifyCell (k : Nat) (f : LoadCell → LoadCell) (h : Int) (s : State) : State :=
  { s with planner := { s.planner with
      load := s.planner.load.modify noLoad (loadKey (plannerDay s) k h) f } }

/-- A Load Table entry changed on each of a list of quanta. -/
def modifyCells (k : Nat) (f : LoadCell → LoadCell) (hs : List Int) (s : State) : State :=
  hs.foldl (fun s h => modifyCell k f h s) s

/-- The limits the planner has taken for a kitchen (R97). -/
def limitsAt (s : State) (k : Nat) : Limits := s.planner.limits.get ⟨0, 0⟩ k

/-- A set mark cleared where use has come within the limits (R79). -/
def testMark (lim : Limits) (c : LoadCell) : LoadCell :=
  if c.prep ≤ lim.capacity ∧ c.carts ≤ lim.carts then { c with mark := false } else c

/-- The marks of a list of quanta tested (R79). -/
def testMarks (k : Nat) (hs : List Int) (s : State) : State :=
  modifyCells k (testMark (limitsAt s k)) hs s

/-! ### Shares, windows and cart spans (R86) -/

/-- The share of window quantum `i` (R86). -/
def share (load n i : Nat) : Nat := load / n + if i < load % n then 1 else 0

/-- The window quanta from a window start. -/
def windowQuanta (w : Int) (n : Nat) : List Int := (List.range n).map (fun (i : Nat) => w + i)

/-- The cart busy span of a departure and a transit (R86). -/
def cartQuanta (d : Int) (t : Nat) : List Int := (List.range (2 * t + 2)).map (fun (j : Nat) => d + j)

/-- The horizon index of a campus time against the planner's day. -/
def pidx (s : State) (t : CTime) : Int := horizonIndex (plannerDay s) t

/-- The planner's now as a horizon index. -/
def plannerIdx (s : State) : Int := ((plannerNow s).map (pidx s)).getD 0

/-- The campus time of a horizon index against the planner's day. -/
def timeOfIdx (s : State) (h : Int) : CTime := shiftTime ⟨plannerDay s, 0⟩ h

/-- The window quanta of an order. -/
def orderWindow (s : State) (o : Order) : List Int := windowQuanta (pidx s o.window) o.len

/-- The cart busy span of an order. -/
def orderCarts (s : State) (o : Order) : List Int := cartQuanta (pidx s o.departure) o.transit

/-- Shares added to the window quanta from `w`, in order. -/
def addShares (k load n : Nat) (w : Int) (s : State) : State :=
  (List.range n).foldl
    (fun s (i : Nat) => modifyCell k (fun c => { c with prep := c.prep + share load n i }) (w + i) s) s

/-- Shares subtracted from the window quanta from `w`, in order. -/
def takeShares (k load n : Nat) (w : Int) (s : State) : State :=
  (List.range n).foldl
    (fun s (i : Nat) => modifyCell k (fun c => { c with prep := c.prep - share load n i }) (w + i) s) s

/-- One cart unit more on each quantum. -/
def addCarts (k : Nat) (hs : List Int) (s : State) : State :=
  modifyCells k (fun c => { c with carts := c.carts + 1 }) hs s

/-- One cart unit less on each quantum. -/
def takeCarts (k : Nat) (hs : List Int) (s : State) : State :=
  modifyCells k (fun c => { c with carts := c.carts - 1 }) hs s

/-- The load of an order put into the Load Table (R90). -/
def placeLoad (o : Order) (s : State) : State :=
  addCarts o.kitchen (orderCarts s o) (addShares o.kitchen o.load o.len (pidx s o.window) s)

/-- The cart units of an order taken from the Load Table, and the marks there tested (R110). -/
def releaseCarts (o : Order) (s : State) : State :=
  testMarks o.kitchen (orderCarts s o) (takeCarts o.kitchen (orderCarts s o) s)

/-- The load of an order taken from the Load Table, the marks untested (R95). -/
def removeLoad (o : Order) (s : State) : State :=
  takeCarts o.kitchen (orderCarts s o) (takeShares o.kitchen o.load o.len (pidx s o.window) s)

/-- The marks on the quanta an order stood on tested (R79). -/
def testOrderMarks (o : Order) (s : State) : State :=
  testMarks o.kitchen (orderCarts s o) (testMarks o.kitchen (orderWindow s o) s)

/-! ### Order records and production lists (R80 to R83) -/

/-- Order record `i`. -/
def orderRecord (s : State) (i : Nat) : Record Order := s.planner.records.get ⟨0, none⟩ i

/-- The order of record `i`, if it is not free. -/
def orderAt (s : State) (i : Nat) : Option Order := (orderRecord s i).body

/-- The present handle of order record `i`. -/
def orderHandle (s : State) (i : Nat) : Handle := ⟨i, (orderRecord s i).gen⟩

/-- The order a handle names (R80). -/
def liveOrder (s : State) (h : Handle) : Option Order :=
  if (orderRecord s h.index).gen = h.gen then orderAt s h.index else none

/-- The check of an order handle (R80). -/
def orderFault (s : State) (h : Handle) : Option Result :=
  if 767 < h.index ∨ 63 < h.gen then some .badField
  else if (liveOrder s h).isNone then some .staleHandle
  else none

/-- The order of record `i` replaced; the generation is kept. -/
def setOrder (i : Nat) (o : Order) (s : State) : State :=
  { s with planner := { s.planner with
      records := s.planner.records.set ⟨0, none⟩ i ⟨(orderRecord s i).gen, some o⟩ } }

/-- The production list of a kitchen, as record indexes. -/
def production (s : State) (k : Nat) : List Nat := s.planner.lists.get [] k

/-- The production list of a kitchen replaced. -/
def setProduction (k : Nat) (l : List Nat) (s : State) : State :=
  { s with planner := { s.planner with lists := s.planner.lists.set [] k l } }

/-- The horizon index of the window start of record `i`. -/
def windowIdx (s : State) (i : Nat) : Int := ((orderAt s i).map (fun o => pidx s o.window)).getD 0

/-- Record `i`, just committed, entered in a production list: after every order of an earlier or equal
window start, its placing number being the highest (R83). -/
def enterProduction (k i : Nat) (s : State) : State :=
  setProduction k (insertBy (windowIdx s) i (production s k)) s

/-- Record `i` removed from a production list. -/
def leaveProduction (k i : Nat) (s : State) : State :=
  setProduction k ((production s k).filter (· ≠ i)) s

/-- A new placing number: the count advances at every commit (R82). -/
def nextPlacing (s : State) : State :=
  { s with planner := { s.planner with placing := s.planner.placing + 1 } }

/-- The time the planner stamps on a record: its now. -/
def plannerStamp (s : State) : CTime := (plannerNow s).getD ⟨0, 0⟩

/-! ### Freeing and reporting an order (R103, R105) -/

/-- An order event, with the fields of R103. -/
def orderEvent (kind : EventKind) (i : Nat) (o : Order) (detail extra : Datum) (s : State) :
    EventRecord :=
  ⟨kind, plannerStamp s, o.room, orderHandle s i, detail, extra⟩

/-- The booking link as an extra. -/
def linkDatum (o : Order) : Datum := (o.booking.map Datum.handle).getD .none

/-- A link notice, when the link is present (R111). -/
def linkNotice (i : Nat) (o : Order) (s : State) : State :=
  match o.booking with
  | some b => sendEngine (.linkNotice b (orderHandle s i)) s
  | none => s

/-- A display notice, when the link is present (R111). -/
def displayNotice (i : Nat) (o : Order) (s : State) : State :=
  match o.booking with
  | some b => sendEngine (.displayNotice b (orderHandle s i)) s
  | none => s

/-- The generation of order record `i` advances, its fields are discarded, and it is appended at the
tail of the order free list, which ends an open episode (R105 steps 4 and 5). -/
def releaseOrder (i : Nat) (s : State) : State :=
  { s with planner := { s.planner with
      records := s.planner.records.set ⟨0, none⟩ i ⟨((orderRecord s i).gen + 1) % 64, none⟩
      free := s.planner.free ++ [i]
      episode := false } }

/-- Order record `i` freed in the six steps of R105, with the event given, if any. -/
def freeOrder (i : Nat) (o : Order) (event : Option EventRecord) (s : State) : State :=
  let s := releaseOrder i (linkNotice i o (leaveProduction o.kitchen i s))
  match event with
  | some r => postEvent r s
  | none => s

/-- A PLANNED order reaches the outcome CANCELLED: its load comes off, the marks are tested, and it is
freed (R110). -/
def cancelOrder (i : Nat) (o : Order) (event : Option EventRecord) (s : State) : State :=
  freeOrder i o event (testOrderMarks o (removeLoad o s))

/-- An IN_PRODUCTION order becomes WASTED: the shares stay, the carts come off, and a present link is
made absent with a link notice (R110). -/
def wasteOrder (i : Nat) (o : Order) (s : State) : State :=
  linkNotice i o (setOrder i { o with state := .wasted, booking := none } (releaseCarts o s))

/-! ### The computation (R85 to R89, R92, R93) -/

/-- The load of one line: ⌈covers × weight / 10⌉ (R85). -/
def lineLoad (s : State) (l : OrderLine) : Nat := (l.covers * (classAt s l.cls).weight + 9) / 10

/-- The load P of a list of lines. -/
def totalLoad (s : State) (ls : List OrderLine) : Nat := (ls.map (lineLoad s)).sum

/-- The window length n: the largest lead. -/
def windowLength (s : State) (ls : List OrderLine) : Nat :=
  (ls.map (fun l => (classAt s l.cls).lead)).foldl max 0

/-- The largest shift: the smaller of 8 and the smallest hold limit. -/
def largestShift (s : State) (ls : List OrderLine) : Nat :=
  (ls.map (fun l => (classAt s l.cls).holdLimit)).foldl min 8

/-- Whether a line names a defined class. -/
def lineDefined (s : State) (l : OrderLine) : Bool :=
  decide (l.cls ≤ 31 ∧ (classAt s l.cls).weight ≠ 0)

/-- Check 1 of R85 on the lines of an admission. -/
def linesOk (s : State) (count : Nat) (ls : List OrderLine) : Bool :=
  decide (count = ls.length ∧ 1 ≤ count ∧ count ≤ 6) &&
  ls.all (fun l => lineDefined s l && decide (1 ≤ l.covers ∧ l.covers ≤ 250))

/-- A placement of an order on a kitchen. -/
structure Placement where
  kitchen : Nat
  transit : Nat
  shift : Nat
  window : Int
  departure : Int
deriving DecidableEq, Repr

/-- What a kitchen gives: a placement, or the reason and the deficit of its refusal. -/
inductive Tried where
  | placed (p : Placement)
  | failed (r : Reason) (deficit : Nat)
deriving DecidableEq, Repr

/-- A Load Table entry read less the present placement of a refitted order (R94). -/
def readCell (s : State) (own : Option Order) (k : Nat) (h : Int) : LoadCell :=
  let c := cellAt s k h
  match own with
  | none => c
  | some o =>
    if o.kitchen = k then
      let i := h - pidx s o.window
      let prep := if 0 ≤ i ∧ i < o.len then c.prep - share o.load o.len i.toNat else c.prep
      let carts := if h ∈ orderCarts s o then c.carts - 1 else c.carts
      ⟨prep, carts, c.mark⟩
    else c

/-- Whether a window lies wholly within a kitchen's opening (R14, R87). -/
def inOpening (e : KitchenSpec) (w : Int) (n : Nat) : Bool :=
  (windowQuanta w n).all (fun h => decide ((e.openFrom : Int) ≤ h % 288 ∧ h % 288 < e.openTo))

/-- The shifts examined: from 0 up to the largest, or up to the first that is too late (R87, R89). -/
def examined (s : State) (d : Int) (n smax : Nat) : List Nat :=
  (List.range (smax + 1)).takeWhile (fun (sh : Nat) => decide (plannerIdx s < d - sh - n))

/-- The valid shifts of a kitchen (R87). -/
def validShifts (s : State) (k : Nat) (d : Int) (n smax : Nat) : List Nat :=
  (examined s d n smax).filter (fun (sh : Nat) => inOpening (kitchenAt s k) (d - sh - n) n)

/-- The excess of window quantum `i` of a window from `w`: on a marked quantum 255 or more (R93). -/
def excess (s : State) (own : Option Order) (k load n : Nat) (w : Int) (i : Nat) : Int :=
  let c := readCell s own k (w + i)
  let e : Int := (c.prep : Int) + share load n i - (limitsAt s k).capacity
  if c.mark then max 255 e else e

/-- The largest excess of a window (R93). -/
def shiftExcess (s : State) (own : Option Order) (k load n : Nat) (w : Int) : Int :=
  ((List.range n).map (excess s own k load n w)).foldl max (-255)

/-- Whether a valid shift fits: every window quantum is unmarked and within the capacity (R87). -/
def windowFits (s : State) (own : Option Order) (k load n : Nat) (w : Int) : Bool :=
  (List.range n).all (fun (i : Nat) =>
    let c := readCell s own k (w + i)
    !c.mark && decide (c.prep + share load n i ≤ (limitsAt s k).capacity))

/-- Whether a kitchen is cart-feasible (R88). -/
def cartFeasible (s : State) (own : Option Order) (k : Nat) (d : Int) (t : Nat) : Bool :=
  (cartQuanta d t).all (fun h =>
    let c := readCell s own k h
    decide (h ≤ 2303) && !c.mark && decide (c.carts + 1 ≤ (limitsAt s k).carts))

/-- The deficit of a kitchen refused for PREP, at most 4095 (R93). -/
def prepDeficit (s : State) (own : Option Order) (k load n : Nat) (d : Int) (shifts : List Nat) : Nat :=
  ((shifts.map (fun (sh : Nat) => shiftExcess s own k load n (d - sh - n))).foldl min 4095).toNat

/-- One kitchen tried for an order (R86 to R89, R92). -/
def tryKitchen (s : State) (own : Option Order) (building : Nat) (j : Job) (k : Nat) : Tried :=
  match transitAt s k building with
  | none => .failed .unreachable 0
  | some t =>
    let d : Int := pidx s j.serving - t - 1
    if d - j.len ≤ plannerIdx s then .failed .tooLate 0
    else
      let valid := validShifts s k d j.len j.smax
      if valid = [] then .failed .closed 0
      else if !cartFeasible s own k d t then .failed .carts 0
      else
        match valid.find? (fun (sh : Nat) => windowFits s own k j.load j.len (d - sh - j.len)) with
        | some sh => .placed ⟨k, t, sh, d - sh - j.len, d⟩
        | none => .failed .prep (prepDeficit s own k j.load j.len d valid)

/-- The search: the room's primary kitchen, then its alternate (R89, R92). A room not in use has no
kitchen to try. -/
def search (s : State) (own : Option Order) (j : Job) : Except Reasons Placement :=
  match roomAt s j.room with
  | none => .error ⟨.unreachable, 0, .none, 0⟩
  | some e =>
    match tryKitchen s own e.building j e.primary with
    | .placed p => .ok p
    | .failed r d =>
      match e.alternate with
      | none => .error ⟨r, d, .none, 0⟩
      | some k =>
        match tryKitchen s own e.building j k with
        | .placed p => .ok p
        | .failed r' d' => .error ⟨r, d, r', d'⟩

/-! ### Admission (R85, R90) -/

/-- The planner's answer to an admission goes to the engine. -/
def answerAdmission (h : Handle) (a : AdmissionAnswer) (s : State) : State :=
  sendEngine (.admissionAnswer h a) s

/-- A refused allocation opens a closed order pool-empty episode and posts one record (R81). -/
def openOrderEpisode (room : Nat) (s : State) : State :=
  if s.planner.episode then s
  else postException (.orderPoolEmpty room) (plannerNow s)
    { s with planner := { s.planner with episode := true } }

/-- The computation in flight replaced. -/
def setJob (j : Option Job) (s : State) : State := { s with planner := { s.planner with job := j } }

/-- The computation of a list of lines: the load, the window length and the largest shift. -/
def jobOf (s : State) (kind : JobKind) (h : Handle) (serving : CTime) (room : Nat)
    (ls : List OrderLine) : Job :=
  ⟨kind, h, serving, room, ls, totalLoad s ls, windowLength s ls, largestShift s ls⟩

/-- The planner takes an admission request: the checks of R85, then the computation is in flight. -/
def doAdmissionComputation (h : Handle) (serving : CTime) (room count : Nat) (ls : List OrderLine)
    (s : State) : State :=
  if !linesOk s count ls then answerAdmission h (.refused .badField none) s
  else if s.planner.free.isEmpty then
    answerAdmission h (.refused .poolEmpty none) (openOrderEpisode room s)
  else if 4095 < totalLoad s ls then answerAdmission h (.refused .orderTooLarge none) s
  else setJob (some (jobOf s .admission h serving room ls)) s

/-- ADMISSION_COMPUTATION (R85). -/
def execAdmissionComputation (h : Handle) (serving : CTime) (room count : Nat) (ls : List OrderLine)
    (s : State) : Host.Outcome State Fault Refusal :=
  whenTaken (takePlanner (.admission h serving room count ls) s)
    (doAdmissionComputation h serving room count ls) s

/-- The order record of a placement (R82, R90). -/
def placedOrder (s : State) (j : Job) (p : Placement) (booking : Option Handle) (confirmed : Bool) :
    Order where
  booking := booking
  serving := j.serving
  kitchen := p.kitchen
  transit := p.transit
  lines := j.lines
  load := j.load
  len := j.len
  shift := p.shift
  window := timeOfIdx s p.window
  departure := timeOfIdx s p.departure
  state := .planned
  confirmed := confirmed
  placing := s.planner.placing
  room := j.room

/-- The commit of an admission, and its answer (R90). -/
def commitAdmission (j : Job) (p : Placement) (s : State) : State :=
  match s.planner.free with
  | [] => answerAdmission j.booking (.refused .poolEmpty none) (openOrderEpisode j.room s)
  | i :: rest =>
    let o := placedOrder s j p (some j.booking) false
    let s := setOrder i o { s with planner := { s.planner with free := rest } }
    let s := enterProduction p.kitchen i (placeLoad o (nextPlacing s))
    answerAdmission j.booking
      (.admitted (orderHandle s i) p.kitchen p.shift o.window o.departure j.load j.len) s

/-- The end of an admission computation: committed, or refused NO_KITCHEN_CAPACITY (R90, R92). -/
def doAdmissionCompletion (j : Job) (s : State) : State :=
  match search s none j with
  | .ok p => commitAdmission j p s
  | .error r => answerAdmission j.booking (.refused .noKitchenCapacity (some r)) s

/-- The admission in flight, if the computation in flight is one. -/
def admissionJob (s : State) : Option Job :=
  match s.planner.job with
  | some j => if j.kind = .admission then some j else none
  | none => none

/-- ADMISSION_COMPLETION (R90). -/
def execAdmissionCompletion (s : State) : Host.Outcome State Fault Refusal :=
  match admissionJob s with
  | some j => if s.power = .running then .next (doAdmissionCompletion j (setJob none s)) else .next s
  | none => .next s

/-! ### Refit (R94 to R96) -/

/-- The planner's answer to a refit goes to the engine. -/
def answerRefit (h : Handle) (a : RefitAnswer) (s : State) : State := sendEngine (.refitAnswer h a) s

/-- A PLANNED order that cannot follow its booking: cancelled under DROP_CATERING, or left (R94, R96). -/
def noFit (booking : Handle) (i : Nat) (o : Order) (drop : Bool) (r : Reasons) (s : State) : State :=
  if drop then
    answerRefit booking (.dropped .cancelled) (cancelOrder i { o with booking := none } none s)
  else answerRefit booking (.noFit r) s

/-- The reasons of a refit whose lines cannot be computed (R94). -/
def linesReasons (s : State) (room : Nat) : Reasons :=
  ⟨.lines, 0, if ((roomAt s room).bind RoomEntry.alternate).isSome then .lines else .none, 0⟩

/-- The planner takes a refit request: the answer by the order's state, or the computation in flight
(R94, log 31). -/
def doRefitComputation (booking order : Handle) (serving : CTime) (room : Nat) (drop : Bool)
    (s : State) : State :=
  match liveOrder s order with
  | none => answerRefit booking (if drop then .dropped .closed else .committed) s
  | some o =>
    match o.state with
    | .planned =>
      if !(o.lines.all (lineDefined s)) ∨ 4095 < totalLoad s o.lines then
        noFit booking order.index o drop (linesReasons s room) s
      else setJob (some (jobOf s (.refit order drop) booking serving room o.lines)) s
    | .inProduction =>
      if drop then
        answerRefit booking (.dropped .wasted) (wasteOrder order.index { o with booking := none } s)
      else answerRefit booking .committed s
    | st =>
      if drop then
        answerRefit booking (.dropped st) (setOrder order.index { o with booking := none } s)
      else answerRefit booking .committed s

/-- REFIT_COMPUTATION (R94). -/
def execRefitComputation (booking order : Handle) (serving : CTime) (room : Nat) (drop : Bool)
    (s : State) : Host.Outcome State Fault Refusal :=
  whenTaken (takePlanner (.refit booking order serving room drop) s)
    (doRefitComputation booking order serving room drop) s

/-- The swap of an order's placement, in one piece (R95). -/
def swapOrder (i : Nat) (o : Order) (j : Job) (p : Placement) (s : State) : State :=
  let new := placedOrder s j p o.booking o.confirmed
  let s := placeLoad new (removeLoad o s)
  let s := nextPlacing (setOrder i new (leaveProduction o.kitchen i s))
  testOrderMarks o (enterProduction p.kitchen i s)

/-- The end of a refit computation (R94, R95). -/
def doRefitCompletion (j : Job) (order : Handle) (drop : Bool) (s : State) : State :=
  match liveOrder s order with
  | none => answerRefit j.booking (if drop then .dropped .closed else .committed) s
  | some o =>
    match search s (some o) j with
    | .ok p =>
      answerRefit j.booking (.fit p.kitchen p.shift (timeOfIdx s p.window) (timeOfIdx s p.departure))
        (swapOrder order.index o j p s)
    | .error r => noFit j.booking order.index o drop r s

/-- The refit in flight, if the computation in flight is one. -/
def refitJob (s : State) : Option (Job × Handle × Bool) :=
  match s.planner.job with
  | some j =>
    match j.kind with
    | .refit o d => some (j, o, d)
    | .admission => none
  | none => none

/-- REFIT_COMPLETION (R94). -/
def execRefitCompletion (s : State) : Host.Outcome State Fault Refusal :=
  match refitJob s with
  | some (j, o, d) =>
    if s.power = .running then .next (doRefitCompletion j o d (setJob none s)) else .next s
  | none => .next s

/-! ### Kitchen changes (R97, R98) -/

/-- A Load Table entry with the mark a kitchen change gives it (R97). -/
def remarkCell (lim : Limits) (c : LoadCell) : LoadCell :=
  { c with mark := decide (lim.capacity < c.prep ∨ lim.carts < c.carts) }

/-- Whether a key stands for a quantum of kitchen `k` from the planner's now onward. -/
def fromNow (s : State) (k key : Nat) : Bool :=
  decide (key / Config.horizon = k ∧ plannerIdx s ≤ keyIndex (plannerDay s) key)

/-- Every quantum of kitchen `k` from the planner's now onward tested; an unlisted one is within any
limits (R97). -/
def remark (k : Nat) (lim : Limits) (s : State) : State :=
  { s with planner := { s.planner with
      load := s.planner.load.entries.foldl
        (fun t e => if fromNow s k e.1 then t.set noLoad e.1 (remarkCell lim e.2) else t)
        s.planner.load } }

/-- The keys of the marked quanta of kitchen `k`. -/
def markedKeys (s : State) (k : Nat) : List Nat :=
  s.planner.marked.filter (fun key => decide (key / Config.horizon = k))

/-- The earliest marked quantum of kitchen `k`. -/
def earliestMark (s : State) (k : Nat) : CTime :=
  timeOfIdx s (((markedKeys s k).map (keyIndex (plannerDay s))).foldl min 2304 : Nat)

/-- KITCHEN_OVERCOMMIT, when a quantum is marked that was not marked before (R98). -/
def reportOvercommit (k : Nat) (before : List Nat) (s : State) : State :=
  if (markedKeys s k).any (fun key => decide (key ∉ before)) then
    postException (.overcommit k (earliestMark s k) (markedKeys s k).length) (plannerNow s) s
  else s

/-- The planner takes a kitchen change, and the LoadKitchen is answered (R14, R97, R98). -/
def doKitchenChange (k capacity carts : Nat) (s : State) : State :=
  let before := markedKeys s k
  let lim : Limits := ⟨capacity, carts⟩
  let s := { s with planner := { s.planner with limits := s.planner.limits.set ⟨0, 0⟩ k lim } }
  finish .ok [] (reportOvercommit k before (remark k lim s))

/-- KITCHEN_CHANGE (R97). -/
def execKitchenChange (k capacity carts : Nat) (s : State) : Host.Outcome State Fault Refusal :=
  whenTaken (takePlanner (.kitchenChange k capacity carts) s) (doKitchenChange k capacity carts) s

end Sys2Proof.Machine
end

