-- ==== Sys2Proof/Machine/Orders.lean ====
section
/-! DEFINITION. The life of an admitted order: boundary work, receipts, withdrawal, hand-offs, room notices,
and the requests that read the catering state (R77, R99 to R116). -/

namespace Sys2Proof.Machine

/-! ### Boundary work (R77, R102 to R106) -/

/-- The planner's now becomes the quantum the boundary begins (R76). -/
def setPlannerNow (t : CTime) (s : State) : State :=
  { s with planner := { s.planner with now := some t } }

/-- The mark of the quantum that has just ended cleared, at every kitchen (R77). -/
def clearPastMarks (s : State) : State :=
  (List.range Config.kitchens).foldl
    (fun s (k : Nat) => modifyCell k (fun c => { c with mark := false }) (plannerIdx s - 1) s) s

/-- Whether a key lies in the slice of a day. -/
def inSlice (day key : Nat) : Bool := decide (key % Config.horizon / 288 = day % 8)

/-- On rollover, the slice of the day that has left the horizon cleared (R77). -/
def clearSlice (b : Boundary) (s : State) : State :=
  if b.rollover then
    { s with planner := { s.planner with load := s.planner.load.clear (inSlice (b.now.day + 7)) } }
  else s

/-- The display a booking's room is asked for at an indicator change, after the event (R103). -/
def advanceOrder (i : Nat) (o : Order) (st : OrderState) (kind : EventKind) (s : State) : State :=
  let o' := { o with state := st }
  displayNotice i o' (postEvent (orderEvent kind i o' (.num o.kitchen) (linkDatum o) s) (setOrder i o' s))

/-- Row 1 of R102: a WASTED order whose window has passed is freed (R106). -/
def walkWasted (now : Int) (i : Nat) (o : Order) (s : State) : State :=
  if o.state = .wasted ∧ pidx s o.window + o.len ≤ now then
    freeOrder i o (some (orderEvent .orderWasted i o (.num o.load) .none s)) s
  else s

/-- Row 2 of R102: production begins (R103). -/
def walkProduction (now : Int) (i : Nat) (o : Order) (s : State) : State :=
  if o.state = .planned ∧ pidx s o.window = now then
    advanceOrder i o .inProduction .orderInProduction s
  else s

/-- Row 3 of R102: the cart leaves (R103). -/
def walkDispatch (now : Int) (i : Nat) (o : Order) (s : State) : State :=
  if o.state = .inProduction ∧ pidx s o.departure = now then
    advanceOrder i o .dispatched .orderDispatched s
  else s

/-- Row 4 of R102: no receipt has come (R104). -/
def walkUnconfirmed (now : Int) (i : Nat) (o : Order) (s : State) : State :=
  if o.state = .dispatched ∧ pidx s o.serving + 2 = now then
    let o' := { o with state := .unconfirmed }
    postEvent (orderEvent .deliveryUnconfirmed i o' (.time o.serving) (linkDatum o) s) (setOrder i o' s)
  else s

/-- Row 5 of R102: the cart has returned and the order closes (R105). -/
def walkClose (now : Int) (i : Nat) (o : Order) (s : State) : State :=
  if (o.state = .dispatched ∨ o.state = .delivered ∨ o.state = .unconfirmed) ∧
      pidx s o.departure + 2 * o.transit + 2 = now then
    freeOrder i o
      (some (orderEvent .orderClosed i o (.num (if o.confirmed then 0 else 1)) (linkDatum o) s)) s
  else s

/-- One row of R102 applied to the order of record `i` as it stands, if it is still there. -/
def walkRow (row : Int → Nat → Order → State → State) (now : Int) (i : Nat) (s : State) : State :=
  match orderAt s i with
  | some o => row now i o s
  | none => s

/-- Every row of R102 applied, in order, to the order of record `i`. -/
def walkOrder (i : Nat) (s : State) : State :=
  let now := plannerIdx s
  walkRow walkClose now i (walkRow walkUnconfirmed now i (walkRow walkDispatch now i
    (walkRow walkProduction now i (walkRow walkWasted now i s))))

/-- The walk of one kitchen's production list, from head to tail. -/
def walkKitchen (s : State) (k : Nat) : State := (production s k).foldl (fun s i => walkOrder i s) s

/-- The walk of the kitchens in order (R102). -/
def walkOrders (s : State) : State := (List.range Config.kitchens).foldl walkKitchen s

/-- The planner's boundary work: the Load Table, then the orders (R77, R102). -/
def doPlannerBoundary (b : Boundary) (s : State) : State :=
  walkOrders (clearSlice b (clearPastMarks (setPlannerNow b.now s)))

/-- PLANNER_BOUNDARY_WORK (R102). -/
def execPlannerBoundaryWork (b : Boundary) (s : State) : Host.Outcome State Fault Refusal :=
  whenTaken (takePlanner (.boundary b) s) (doPlannerBoundary b) s

/-! ### Where an order is delivered (R107) -/

/-- The planner takes a room notice; one that names a freed order is dropped (R107). -/
def doRoomNotice (h : Handle) (room : Nat) (s : State) : State :=
  match liveOrder s h with
  | some o => setOrder h.index { o with room := room } s
  | none => s

/-- ROOM_NOTICE (R107). -/
def execRoomNotice (h : Handle) (room : Nat) (s : State) : Host.Outcome State Fault Refusal :=
  whenTaken (takePlanner (.roomNotice h room) s) (doRoomNotice h room) s

/-! ### Confirming delivery (R108, R109) -/

/-- The records of every production list, kitchen by kitchen. -/
def allOrders (s : State) : List (Nat × Order) :=
  ((List.range Config.kitchens).flatMap (production s)).filterMap
    (fun i => (orderAt s i).map (fun o => (i, o)))

/-- Whether the order `b` is chosen over `a`: a later serving quantum, then a higher placing number. -/
def laterOrder (s : State) (a b : Order) : Bool :=
  decide (pidx s a.serving < pidx s b.serving ∨
    (pidx s a.serving = pidx s b.serving ∧ a.placing < b.placing))

/-- The order a receipt from a room is matched to (R108). -/
def chosenOrder (s : State) (room : Nat) : Option (Nat × Order) :=
  (allOrders s).foldl (fun best e =>
    if e.2.room = room ∧ pidx s e.2.serving ≤ plannerIdx s + 1 then
      match best with
      | some b => if laterOrder s b.2 e.2 then some e else best
      | none => some e
    else best) none

/-- An order becomes DELIVERED, its confirmed flag set, and its indicator's display is asked for
(R108, R109). -/
def deliverOrder (i : Nat) (o : Order) (s : State) : State :=
  let o' := { o with state := .delivered, confirmed := true }
  displayNotice i o' (setOrder i o' s)

/-- Whether a receipt or a confirmation is accepted in a state. -/
def deliverable (st : OrderState) : Bool := decide (st = .dispatched ∨ st = .unconfirmed)

/-- The planner takes a panel CATERING_RECEIVED (R108); it follows R108 at a bound room since made unused too
(log 16). -/
def doCateringReceived (src : PanelSrc) (room : Nat) (badge : Token) (s : State) : State :=
  match chosenOrder s room with
  | some (i, o) =>
    if deliverable o.state then
      let prev := if o.state = .dispatched then 0 else 1
      answerPanel src kindReceived .accepted none
        (deliverOrder i o (postEvent (orderEvent .orderDelivered i o (.num prev) (.token badge) s) s))
    else answerPanel src kindReceived .notNow none s
  | none => answerPanel src kindReceived .notNow none s

/-- CATERING_RECEIVED (R108). -/
def execCateringReceived (src : PanelSrc) (room : Nat) (badge : Token) (s : State) :
    Host.Outcome State Fault Refusal :=
  whenTaken (takePlanner (.receipt src room badge) s) (doCateringReceived src room badge) s

/-- The planner refuses a host request on an order, counted as a catering refusal (R109, R110). -/
def refuseOrder (r : Result) (s : State) : State := finish r [] (count Counters.cateringRefusal s)

/-- The work of a ConfirmDelivery (R109). -/
def doConfirmDelivery (h : Handle) (s : State) : State :=
  match orderFault s h, liveOrder s h with
  | some r, _ => refuseOrder r s
  | none, none => refuseOrder .staleHandle s
  | none, some o =>
    if deliverable o.state then finish .ok [.time o.serving, .u16 o.room] (deliverOrder h.index o s)
    else refuseOrder .wrongState s

/-- CONFIRM_DELIVERY (R109). -/
def execConfirmDelivery (h : Handle) (s : State) : Host.Outcome State Fault Refusal :=
  hostStep (.confirmDelivery h) (doConfirmDelivery h) s

/-! ### Withdrawing an order (R110, R112) -/

/-- The reply of a CancelOrder: at once, or when the engine has taken the link notice that the cancel
sent (R110). -/
def replyCancel (h : Handle) (o : Order) (body : List Field) (s : State) : State :=
  if o.booking.isSome then setStage (.afterLink h body) s else finish .ok body s

/-- The work of a CancelOrder (R110). -/
def doCancelOrder (h : Handle) (s : State) : State :=
  match orderFault s h, liveOrder s h with
  | some r, _ => refuseOrder r s
  | none, none => refuseOrder .staleHandle s
  | none, some o =>
    match o.state with
    | .planned =>
      replyCancel h o [.u8 (orderStateCode .cancelled)] (cancelOrder h.index o none s)
    | .inProduction =>
      replyCancel h o [.u8 (orderStateCode .wasted), .time (shiftTime o.window o.len)]
        (wasteOrder h.index o s)
    | _ => refuseOrder .cateringCommitted s

/-- CANCEL_ORDER (R110). -/
def execCancelOrder (h : Handle) (s : State) : Host.Outcome State Fault Refusal :=
  hostStep (.cancelOrder h) (doCancelOrder h) s

/-- The planner takes a booking hand-off (R112). The kind `ended` never meets a PLANNED or
IN_PRODUCTION order in a run; here it makes the link absent and no more. -/
def doBookingHandoff (h booking : Handle) (kind : HandoffKind) (s : State) : State :=
  match liveOrder s h with
  | none => s
  | some o =>
    let o' := { o with booking := none }
    match o.state, kind with
    | .planned, .cancelled => cancelOrder h.index o' none s
    | .planned, .released =>
      cancelOrder h.index o'
        (some (orderEvent .orderCancelled h.index o' (.num 0) (.handle booking) s)) s
    | .inProduction, .cancelled => wasteOrder h.index o' s
    | .inProduction, .released => wasteOrder h.index o' s
    | _, _ => setOrder h.index o' s

/-- BOOKING_HANDOFF (R112). -/
def execBookingHandoff (h booking : Handle) (kind : HandoffKind) (s : State) :
    Host.Outcome State Fault Refusal :=
  whenTaken (takePlanner (.handoff h booking kind) s) (doBookingHandoff h booking kind) s

/-! ### Reading the catering state (R99, R100, R115) -/

/-- A horizon index as two bytes, modulo 65536 (log 8). -/
def indexField (h : Int) : Field := .u16 (h % 65536).toNat

/-- The fields of an order record, in the order of R82, with the delivery room of R107. -/
def orderFields (h : Handle) (o : Order) : List Field :=
  [.handle h, handleField o.booking, .time o.serving, .u8 o.kitchen, .u8 o.transit,
   .u8 o.lines.length] ++ o.lines.flatMap (fun l => [.u8 l.cls, .u8 l.covers]) ++
  [.u16 o.load, .u8 o.len, .u8 o.shift, .time o.window, .time o.departure,
   .u8 (orderStateCode o.state), flagField o.confirmed, .u16 o.placing, .u16 o.room]

/-- The shares in window order, and the first and last quantum of the cart busy span (R99); the count before the
shares, the one byte of each share and the form of the span are log 8. -/
def orderPlacement (s : State) (o : Order) : List Field :=
  .u8 o.len :: (List.range o.len).map (fun i => Field.u8 (share o.load o.len i)) ++
  [indexField (pidx s o.departure), indexField (pidx s o.departure + 2 * o.transit + 1)]

/-- The work of a QueryOrder (R99). -/
def doQueryOrder (h : Handle) (s : State) : State :=
  match orderFault s h, liveOrder s h with
  | some r, _ => finish r [] s
  | none, none => finish .staleHandle [] s
  | none, some o => finish .ok (orderFields h o ++ orderPlacement s o) s

/-- QUERY_ORDER (R99). -/
def execQueryOrder (h : Handle) (s : State) : Host.Outcome State Fault Refusal :=
  hostStep (.queryOrder h) (doQueryOrder h) s

/-- One quantum of a ReadLoad reply. -/
def cellFields (c : LoadCell) : List Field := [.u8 c.prep, .u8 c.carts, flagField c.mark]

/-- The work of a ReadLoad (R100). The number of quanta returned is the one-byte count of the list, and stands before
it (log 8). -/
def doReadLoad (k : Nat) (first : CTime) (n : Nat) (s : State) : State :=
  if 7 < k ∨ 287 < first.quantum ∨ n < 1 ∨ 48 < n then finish .badField [] s
  else if (plannerNow s).isNone then finish .clockNotSet [] s
  else
    let h := pidx s first
    if h < 0 ∨ 2303 < h then finish .outOfHorizon [] s
    else
      let given := min n (2304 - h).toNat
      finish .ok ([.u8 (limitsAt s k).capacity, .u8 (limitsAt s k).carts, .u8 given] ++
        (List.range given).flatMap (fun (i : Nat) => cellFields (cellAt s k (h + i)))) s

/-- READ_LOAD (R100). -/
def execReadLoad (k : Nat) (first : CTime) (n : Nat) (s : State) : Host.Outcome State Fault Refusal :=
  hostStep (.readLoad k first n) (doReadLoad k first n) s

/-- One entry of a ReadProduction reply (R115). -/
def productionFields (s : State) (e : Nat × Order) : List Field :=
  [.handle (orderHandle s e.1), .u8 (orderStateCode e.2.state), .time e.2.window, .time e.2.departure,
   .time e.2.serving, .u8 e.2.len, .u8 e.2.shift, .u16 e.2.load, .u16 e.2.room,
   flagField e.2.confirmed, handleField e.2.booking]

/-- Whether an order stands after a continuation in a production list (R115). -/
def afterContinuation (s : State) (cont : Option (CTime × Nat)) (o : Order) : Bool :=
  match cont with
  | none => true
  | some (w, n) =>
    decide (pidx s w < pidx s o.window ∨ (pidx s w = pidx s o.window ∧ n < o.placing))

/-- The continuation a ReadProduction gives: that of the last entry returned, when orders remain. With none
remaining R115 gives no continuation, and the field is sent absent, six bytes 0xFF (log 42). -/
def continuationFields (given : List (Nat × Order)) (more : Bool) : List Field :=
  match more, given.getLast? with
  | true, some e => [.time e.2.window, .u16 e.2.placing]
  | _, _ => [.absent 6]

/-- The work of a ReadProduction (R115). A continuation whose quantum is above 287 is refused BAD_FIELD by
R1 (log 40). -/
def doReadProduction (k : Nat) (cont : Option (CTime × Nat)) (n : Nat) (s : State) : State :=
  if 7 < k ∨ n < 1 ∨ 8 < n ∨ cont.any (fun c => decide (287 < c.1.quantum)) = true then
    finish .badField [] s
  else
    let all := ((production s k).filterMap (fun i => (orderAt s i).map (fun o => (i, o)))).filter
      (fun e => afterContinuation s cont e.2)
    let given := all.take n
    let more := decide (n < all.length)
    finish .ok (.u8 given.length :: given.flatMap (productionFields s) ++
      flagField more :: continuationFields given more) s

/-- READ_PRODUCTION (R115). -/
def execReadProduction (k : Nat) (cont : Option (CTime × Nat)) (n : Nat) (s : State) :
    Host.Outcome State Fault Refusal :=
  hostStep (.readProduction k cont n) (doReadProduction k cont n) s

end Sys2Proof.Machine
end

