-- ==== Sys2Proof/Machine/Panels.lean ====
section
/-! DEFINITION. The positions of a panel line: health, displays and their generations, panel requests, the
display update queue (R135, R138 to R166). -/

namespace Sys2Proof.Machine

/-! ### Positions -/

/-- The 48 positions, from the part outward (R118). -/
def positionNumbers : List Nat := (List.range Config.positions).map (· + 1)

/-- The entry of position `p` changed by `f`. -/
def Line.modifyAt (p : Nat) (f : Position → Position) (ln : Line) : Line :=
  { ln with positions := ln.positions.modify .reset p f }

/-- Every entry of the position table changed. -/
def Line.modifyAll (f : Nat → Position → Position) (ln : Line) : Line :=
  positionNumbers.foldl (fun ln p => ln.modifyAt p (f p)) ln

/-- Whether position `p` is bound (R118). -/
def Line.boundAt (ln : Line) (p : Nat) : Bool := (ln.at p).bound.isSome

/-- Whether position `p` is lit (R135). -/
def Line.litAt (ln : Line) (p : Nat) : Bool := (ln.at p).litUntil.isSome

/-- The bound positions, in order. -/
def Line.boundPositions (ln : Line) : List Nat := positionNumbers.filter ln.boundAt

/-- The lit positions. -/
def Line.litPositions (ln : Line) : List Nat := positionNumbers.filter ln.litAt

/-- The number of bound positions that are not PRESENT (R145, R151). -/
def Line.boundOut (ln : Line) : Nat :=
  (ln.boundPositions.filter (fun p => decide ((ln.at p).health ≠ .present))).length

/-- A position entered in the display update queue, merged with an entry it already has (R164). -/
def Line.enqueue (p : Nat) (ln : Line) : Line :=
  if p ∈ ln.queue then ln else { ln with queue := ln.queue ++ [p] }

/-- Several positions entered in order. -/
def Line.enqueueAll (ps : List Nat) (ln : Line) : Line := ps.foldl (fun ln p => ln.enqueue p) ln

/-- Every lit-until absent. -/
def Line.darken (ln : Line) : Line := ln.modifyAll (fun _ q => { q with litUntil := none })

/-- The bound position of a room on a line, if it has one (R164). -/
def Line.positionOf (room : Nat) (ln : Line) : Option Nat :=
  positionNumbers.find? (fun p => decide ((ln.at p).bound = some room))

/-! ### Deferrable work: bindings, display requests, clears (R119) -/

/-- A binding change applied: a position that becomes unbound has its count stopped, and the display the
change asks for is entered (R13, R118, R144, R166). -/
def Line.bindPosition (p : Nat) (room : Option Nat) (ln : Line) : Line :=
  Line.enqueue p (ln.modifyAt p (fun q =>
    { q with bound := room, unack := if room.isSome then q.unack else none }))

/-- A display update request applied: the room is resolved to its bound position (R164). -/
def Line.displayRoom (room : Nat) (ln : Line) : Line :=
  match ln.positionOf room with
  | some p => ln.enqueue p
  | none => ln

/-- A position after ClearPanelFault (R145). -/
def clearedPosition (q : Position) : Position :=
  if q.health = .returned then
    if q.misses = 0 then { q with health := .present, cause := none }
    else { q with health := .suspect, cause := none }
  else q

/-- A clear applied: to one position, or to all, which raises CLEAR_ALL (R145, R147). -/
def Line.applyClear (target : Option Nat) (ln : Line) : Line :=
  match target with
  | some p => ln.modifyAt p clearedPosition
  | none => { ln.modifyAll (fun _ q => clearedPosition q) with clearAll := true }

/-- The number of positions a clear would change. -/
def Line.returnedCount (ln : Line) : Nat :=
  (positionNumbers.filter (fun p => decide ((ln.at p).health = .returned))).length

/-- One deferred item applied. -/
def Line.applyDeferred (d : Deferred) (ln : Line) : Line :=
  match d with
  | .binding p room => ln.bindPosition p room
  | .display room => ln.displayRoom room
  | .clear target => ln.applyClear target

/-- Whether a deferred item is a clear. -/
def Deferred.isClear : Deferred → Bool
  | .clear _ => true
  | _ => false

/-- The deferred list applied in arrival order, and empty. -/
def Line.applyDeferredList (ln : Line) : Line :=
  let ds := ln.deferred
  ds.foldl (fun ln d => ln.applyDeferred d) { ln with deferred := [] }

/-- The held clears applied ahead of the rest of the list (R126 step 3). -/
def Line.applyHeldClears (ln : Line) : Line :=
  let ds := ln.deferred
  (ds.filter Deferred.isClear).foldl (fun ln d => ln.applyDeferred d)
    { ln with deferred := ds.filter (fun d => !d.isClear) }

/-- The target of the clear held in the deferred list. -/
def Line.heldClear (ln : Line) : Option (Option Nat) :=
  ln.deferred.findSome? (fun d => match d with | .clear t => some t | _ => none)

/-- The reply body of a clear: one position's health, cause and miss count, or the number of positions
changed and of bound positions not PRESENT (R145). -/
def clearFields (ln : Line) (target : Option Nat) (changed : Nat) : List Field :=
  match target with
  | some p =>
    let q := ln.at p
    [.u8 (healthCode q.health), u8Field (q.cause.map absenceCode), .u8 q.misses]
  | none => [.u8 changed, .u8 ln.boundOut]

/-- The reply of a held clear, sent at the end of the work that ended its cycle (R146), with what stands then:
for ALL the bound positions not PRESENT after the binding changes deferred behind it (log 37). -/
def replyClear (l : Fin 4) (held : Option (Option Nat)) (changed : Nat) (s : State) : State :=
  match held with
  | some target => finish .ok (clearFields (s.lines.get l) target changed) s
  | none => s

/-! ### Health (R139 to R143, R148) -/

/-- PANEL_ABSENT for a bound position made ABSENT, subject to the absent-report policy (R148). -/
def reportAbsent (l : Fin 4) (p : Nat) (s : State) : State :=
  let q := (s.lines.get l).at p
  match q.bound, q.cause with
  | some room, some c =>
    if s.policy.absentReport then
      postException (.panelAbsent l p room c q.misses) (lineNow l s) s
    else s
  | _, _ => s

/-- PANEL_RETURNED (R148). -/
def reportReturned (l : Fin 4) (p : Nat) (s : State) : State :=
  let q := (s.lines.get l).at p
  match q.bound with
  | some room => postException (.panelReturned l p room q.cause) (lineNow l s) s
  | none => s

/-- A position after a miss, `d` being the absence deglitch (R140). An UNKNOWN position is not met by the
update: the table of R140 gives it no row. -/
def missedPosition (d : Nat) (q : Position) : Position :=
  match q.health with
  | .present =>
    if d ≤ 1 then { q with health := .absent, cause := some .misses, misses := 1 }
    else { q with health := .suspect, misses := 1 }
  | .suspect | .returned =>
    if d ≤ q.misses + 1 then { q with health := .absent, cause := some .misses, misses := q.misses + 1 }
    else { q with misses := q.misses + 1 }
  | .absent => { q with misses := min 15 (q.misses + 1) }
  | .unknown => q

/-- A position after a heard uplink (R141). -/
def heardPosition (q : Position) : Position :=
  match q.health with
  | .present => { q with misses := 0, cause := none }
  | .suspect => { q with health := .present, misses := 0, cause := none }
  | .absent => { q with health := .returned, misses := 0 }
  | .returned => { q with misses := 0 }
  | .unknown => q

/-- The health update of a bound position (R139, R140, R141). -/
def updateHealth (l : Fin 4) (p : Nat) (u : Option Uplink) (s : State) : State :=
  let before := ((s.lines.get l).at p).health
  match u with
  | none =>
    let s := count (Counters.miss l) (updLine l (Line.modifyAt p (missedPosition s.policy.deglitch)) s)
    if before ≠ .absent ∧ ((s.lines.get l).at p).health = .absent then reportAbsent l p s else s
  | some _ =>
    let s := updLine l (Line.modifyAt p heardPosition) s
    if before = .absent then reportReturned l p s else s

/-! ### The generation check (R166) -/

/-- A running count one further on; at 3 it stops. -/
def countUnack (n : Nat) : Option Nat := if n + 1 < 3 then some (n + 1) else none

/-- A position after the generation check (R166). An UNANSWERED slot acknowledges nothing, though the generation
acknowledged before may equal the one sent (log 39). -/
def checkedPosition (u : Option Uplink) (q : Position) : Position :=
  let q := match u with
    | some r => { q with genAck := r.shown }
    | none => q
  match q.unack with
  | none => q
  | some n => { q with unack := if u.isSome ∧ q.genAck = q.genSent then none else countUnack n }

/-- Whether the check enters the position in the display update queue: the count reached 3 (R166, log 39). -/
def resends (u : Option Uplink) (q : Position) : Bool :=
  match q.unack with
  | none => false
  | some n => !(u.any (fun r => decide (r.shown = q.genSent))) && (countUnack n).isNone

/-- The generation check of a bound position (R166). -/
def Line.checkGeneration (p : Nat) (u : Option Uplink) (ln : Line) : Line :=
  let again := resends u (ln.at p)
  let ln := ln.modifyAt p (checkedPosition u)
  if again then ln.enqueue p else ln

/-! ### Panel requests (R154 to R162) -/

/-- The last reply of a position replaced. -/
def Line.setLast (p : Nat) (r : LastReply) (ln : Line) : Line :=
  ln.modifyAt p (fun q => { q with last := r })

/-- A new request recorded: its toggle, the next request number of the line, the pending marker (R154). -/
def Line.newRequest (p : Nat) (toggle : Bool) (ln : Line) : Line :=
  let n := (ln.reqno + 1) % 256
  { ln.modifyAt p (fun q => { q with toggle := some toggle, last := .pending n }) with reqno := n }

/-- A request the controller answers itself: the record is stored and owed. -/
def selfAnswer (l : Fin 4) (p : Nat) (u : Uplink) (code : PanelCode) (s : State) : State :=
  updLine l (Line.setLast p (.reply ⟨code, u.kind, u.toggle, none⟩ true)) s

/-- A new request handed on to its owner, or answered by the controller (R154, R157 to R162). -/
def handOn (l : Fin 4) (p room : Nat) (u : Uplink) (s : State) : State :=
  let src : PanelSrc := ⟨l, p, (s.lines.get l).reqno⟩
  if u.kind = kindWalkup then sendEngine (.walkup src room u.argument u.badge) s
  else if u.kind = kindCheckin then sendEngine (.checkin src room u.badge) s
  else if u.kind = kindExtend then sendEngine (.extend src room u.argument) s
  else if u.kind = kindEnd then sendEngine (.panelEnd src room) s
  else if u.kind = kindReceived then sendPlanner (.receipt src room u.badge) s
  else if u.kind = kindProblem then
    selfAnswer l p u .accepted
      (postException (.problem l p room u.argument u.badge) (lineNow l s) s)
  else selfAnswer l p u .refused s

/-- A new request at an unbound position (R156). -/
def refuseUnbound (l : Fin 4) (p : Nat) (u : Uplink) (s : State) : State :=
  selfAnswer l p u .refused (postException (.panelUnbound l p u.kind u.badge) (lineNow l s) s)

/-- A repeat: a stored reply record becomes owed again (R154). -/
def Line.repeatRequest (p : Nat) (ln : Line) : Line :=
  match (ln.at p).last with
  | .reply r _ => ln.setLast p (.reply r true)
  | _ => ln

/-- The judging of one heard slot (R154, R156). -/
def judgeRequest (l : Fin 4) (p : Nat) (u : Uplink) (s : State) : State :=
  let q := (s.lines.get l).at p
  if u.kind = 0 then s
  else if q.toggle = some u.toggle then updLine l (Line.repeatRequest p) s
  else
    let s := updLine l (Line.newRequest p u.toggle) s
    match q.bound with
    | some room => handOn l p room u s
    | none => refuseUnbound l p u s

/-- The occupancy notice of a bound position (R69). -/
def noticeOccupancy (l : Fin 4) (p : Nat) (u : Uplink) (s : State) : State :=
  match ((s.lines.get l).at p).bound with
  | some room => if u.occupancy then sendEngine (.occupancy room) s else s
  | none => s

/-- The lighting of a touched bound position in QUIET: lit until now + 1, and queued (R135). -/
def lightPosition (l : Fin 4) (p : Nat) (u : Uplink) (s : State) : State :=
  match lineNow l s with
  | some now =>
    if u.touch ∧ (s.lines.get l).boundAt p = true then
      updLine l (fun ln => (ln.modifyAt p (fun q => { q with litUntil := some (shiftTime now 1) })).enqueue p) s
    else s
  | none => s

/-- The uplink work of one position: health and generation when `full` (RUNNING or QUIET), the request,
the occupancy notice, and in QUIET the lighting (R126 step 2, R139, R166). -/
def takeUplink (l : Fin 4) (full quiet : Bool) (bytes : List Byte) (s : State) (p : Nat) : State :=
  let u := uplinkAt bytes p
  let s := if full && (s.lines.get l).boundAt p then
      updLine l (Line.checkGeneration p u) (updateHealth l p u s)
    else s
  match u with
  | none => s
  | some r =>
    let s := noticeOccupancy l p r (judgeRequest l p r s)
    if quiet then lightPosition l p r s else s

/-! ### Displays (R163) -/

/-- The catering indicator of an order's state (R101). -/
def indicatorOf : OrderState → Indicator
  | .planned => .planned
  | .inProduction => .inProduction
  | .dispatched | .unconfirmed => .onItsWay
  | .delivered => .delivered
  | .wasted | .closed | .cancelled => .none

/-- The indicator an order gives: that of its state, and none to any room once its booking link is absent
(R101). -/
def orderIndicator (o : Order) : Indicator :=
  if o.booking.isSome then indicatorOf o.state else .none

/-- The indicator a room shows: of the order linked to the booking whose token is shown, as R101 gives it
(R163). -/
def roomIndicator (s : State) (room : Nat) : Indicator :=
  match (shownBooking s room).bind Booking.order with
  | some o => ((liveOrder s o).map orderIndicator).getD .none
  | none => .none

/-- The DISPLAY record of a position, built as the state stands (R163). -/
def displayOf (s : State) (bound : Option Nat) (generation : Nat) : Display :=
  match bound with
  | none => ⟨.blank, .none, generation, 0, none, none, none⟩
  | some room =>
    let f := factsOf s room
    { shown := f.shown
      indicator := roomIndicator s room
      generation := generation
      label := ((roomAt s room).map RoomEntry.label).getD 0
      token := f.token
      currentEnd := f.currentEnd
      nextStart := f.nextStart }

/-! ### Filling the downlinks (R134, R165) -/

/-- A line and the downlink slots filled so far. -/
structure Filling where
  line : Line
  slots : Table Downlink
deriving DecidableEq, Repr

/-- An owed reply placed in its slot; it stops being owed. -/
def placeReply (f : Filling) (p : Nat) : Filling :=
  match (f.line.at p).last with
  | .reply r true => ⟨f.line.setLast p (.reply r false), f.slots.set .empty p (.reply r)⟩
  | _ => f

/-- Whether a queued position is served now: its slot is free, and in QUIET it is lit. -/
def servable (quiet : Bool) (f : Filling) (p : Nat) : Bool :=
  decide (f.slots.get .empty p = .empty) && (!quiet || f.line.litAt p)

/-- One entry of the queue served, or kept in its place. A display at an unbound position is sent once
and not checked, so its count does not run (log 28). -/
def placeDisplay (s : State) (quiet : Bool) (f : Filling) (p : Nat) : Filling :=
  if servable quiet f p then
    let q := f.line.at p
    let gen := (q.genSent + 1) % 256
    ⟨f.line.modifyAt p
        (fun q => { q with genSent := gen, unack := if q.bound.isSome then some 0 else none }),
      f.slots.set .empty p (.display (displayOf s q.bound gen))⟩
  else { f with line := { f.line with queue := f.line.queue ++ [p] } }

/-- The queue served from head to tail (R165 step 2). -/
def serveQueue (s : State) (quiet : Bool) (f : Filling) : Filling :=
  f.line.queue.foldl (placeDisplay s quiet) { f with line := { f.line with queue := [] } }

/-- In QUIET a dark bound position with nothing placed carries BLANK (R134). -/
def placeBlank (f : Filling) (p : Nat) : Filling :=
  if f.slots.get .empty p = .empty ∧ f.line.boundAt p = true ∧ f.line.litAt p = false then
    { f with slots := f.slots.set .empty p .blank }
  else f

/-- The 48 downlink slots of an ordinary cycle (R165). -/
def fillDownlinks (s : State) (quiet : Bool) (ln : Line) : Filling :=
  let f := serveQueue s quiet (positionNumbers.foldl placeReply ⟨ln, .empty⟩)
  if quiet then positionNumbers.foldl placeBlank f else f

end Sys2Proof.Machine
end

