-- ==== Sys2Proof/Machine/Lines.lean ====
section
/-! DEFINITION. The cycles and the chain states of a panel line, and the work its controller takes
(R117 to R137, R144 to R147, R151, R155). -/

namespace Sys2Proof.Machine

/-! ### Starting and ending a cycle -/

/-- The cycle timeout: 2 ms + 1 ms × L (R121). -/
def cycleTimeout (ln : Line) (kind : CycleKind) : Nat :=
  match kind with
  | .census => 50
  | .ordinary => 2 + min 48 (max (ln.census.getD 0) ((ln.boundPositions.getLast?).getD 0))

/-- The interval a poll timer started now takes, in ms (R124). -/
def pollMs (p : Policy) (ln : Line) : Nat :=
  if ln.chain = .quiet ∧ ln.litPositions = [] then p.quietPoll * 1000 else p.pollInterval * 10

/-- An expiry that stands in the intake and is no longer due is taken out of it. -/
def Line.dropWork (w : LineWork) (ln : Line) : Line :=
  { ln with intake := ln.intake.filter (· ≠ w) }

/-- The poll timer STOPPED, start due clear (R124). -/
def Line.stopPoll (ln : Line) : Line :=
  { ln.dropWork .pollExpiry with pollTimer := none, startDue := false }

/-- The cycle in flight ended: its timer STOPPED (R123). -/
def Line.endCycle (ln : Line) : Line :=
  { ln.dropWork .cycleExpiry with inFlight := none, cycleTimer := none }

/-- The frame of a cycle start and the timers it sets (R120, R121, R124, R147). -/
def Line.send (p : Policy) (kind : CycleKind) (slots : Table Downlink) (ln : Line) : Line :=
  let tag := (ln.tag + 1) % 32
  { (ln.dropWork .pollExpiry).dropWork .cycleExpiry with
      tag := tag
      inFlight := some (tag, kind)
      cycleTimer := some (cycleTimeout ln kind)
      pollTimer := some (pollMs p ln)
      startDue := false
      clearAll := false
      out := some ⟨tag, decide (kind = .census), decide (ln.chain = .quiet), ln.clearAll, slots⟩ }

/-- A census cycle starts: every slot EMPTY (R120, R128). -/
def startCensus (l : Fin 4) (s : State) : State :=
  updLine l (Line.send s.policy .census .empty) s

/-- An ordinary cycle starts (R120, R165). -/
def startOrdinary (l : Fin 4) (s : State) : State :=
  let ln := s.lines.get l
  let f := fillDownlinks s (decide (ln.chain = .quiet)) ln
  updLine l (fun _ => f.line.send s.policy .ordinary f.slots) s

/-- A cycle starts, of the kind the chain state calls for; in OFFLINE, DRAINING and FAULTED none does. -/
def startCycle (l : Fin 4) (s : State) : State :=
  match (s.lines.get l).chain with
  | .census => startCensus l s
  | .running | .quiet => startOrdinary l s
  | .offline | .draining | .faulted => s

/-- The next cycle after the end of one: at once if start due is set (R124). -/
def nextCycle (l : Fin 4) (s : State) : State :=
  if (s.lines.get l).startDue then startCycle l s else s

/-- A cycle start called for: at once, or start due while a cycle is in flight (R124, R125, R133). -/
def callCycle (l : Fin 4) (s : State) : State :=
  if (s.lines.get l).inFlight.isSome then updLine l (fun ln => { ln with startDue := true }) s
  else startCycle l s

/-! ### Chain states -/

/-- The health of every position after entry into OFFLINE (R130). -/
def offlinePosition (q : Position) : Position :=
  { q with health := .unknown, cause := none, misses := 0, litUntil := none }

/-- Entry into OFFLINE (R130, R147). -/
def Line.goOffline (ln : Line) : Line :=
  let ln := ln.stopPoll.endCycle.modifyAll (fun _ q => offlinePosition q)
  { ln with
      chain := .offline
      entered := none
      clearAll := false
      deferred := ln.deferred.filter (fun d => !d.isClear) }

/-- Entry into DRAINING (R130). -/
def Line.drain (ln : Line) : Line :=
  { ln.stopPoll with chain := .draining, entered := some (.chain ln.chain) }

/-- Steps 1 to 4 of entry into FAULTED (R131); CLEAR_ALL is lowered once the deferred list has been
applied (R147, log 14), miss counts are kept (log 15). -/
def Line.goFaulted (cause : FaultCause) (ln : Line) : Line :=
  let ln := ln.stopPoll.endCycle.darken.applyDeferredList
  { ln.modifyAll (fun _ q => { q with health := .absent, cause := some .chain }) with
      chain := .faulted
      entered := some (.fault cause)
      clearAll := false }

/-- Entry into FAULTED, with its one exception (R131). -/
def fault (l : Fin 4) (cause : FaultCause) (s : State) : State :=
  let s := updLine l (Line.goFaulted cause) s
  let ln := s.lines.get l
  postException (.chainFault l cause ln.lastHop ln.tag) (lineNow l s) s

/-- The deferred list of a line applied, its held clear answered when `rest`, the work that follows, is
done (R119, R146). The reply's fields are read then, the positions changed are counted before (log 37). -/
def withHeldClear (l : Fin 4) (rest : State → State) (s : State) : State :=
  let ln := s.lines.get l
  replyClear l ln.heldClear ln.returnedCount (rest s)

/-- The deferred list applied. -/
def applyDeferred (l : Fin 4) (s : State) : State := updLine l Line.applyDeferredList s

/-- An echo failure counted, and its cycle ended (R127). -/
def Line.failCycle (ln : Line) : Line := { ln.endCycle with echoFails := min 2 (ln.echoFails + 1) }

/-- What follows an echo failure, by chain state (R127). -/
def afterEcho (l : Fin 4) (s : State) : State :=
  let ln := s.lines.get l
  match ln.chain with
  | .draining => updLine l Line.goOffline (applyDeferred l s)
  | .census | .running | .quiet =>
    if 2 ≤ ln.echoFails then fault l .echo s else nextCycle l (applyDeferred l s)
  | .offline | .faulted => applyDeferred l s

/-- An echo failure (R127). -/
def echoFailure (l : Fin 4) (s : State) : State :=
  withHeldClear l (afterEcho l) (count (Counters.echo l) (updLine l Line.failCycle s))

/-- Whether the uplinks of an ordinary cycle are taken: RUNNING, QUIET, or DRAINING entered from one of
them (R126 step 2). -/
def takesUplinks (ln : Line) : Bool :=
  match ln.chain with
  | .running | .quiet => true
  | .draining => decide (ln.entered = some (.chain .running) ∨ ln.entered = some (.chain .quiet))
  | .offline | .census | .faulted => false

/-- Whether the cycle just ended lights what was touched: its header carried QUIET, and the line is QUIET still
(R126 step 2, R135). -/
def lightsTouches (ln : Line) : Bool := decide (ln.chain = .quiet) && ln.out.any OutFrame.quiet

/-- Step 2 of R126. -/
def takeUplinks (l : Fin 4) (bytes : List Byte) (s : State) : State :=
  let ln := s.lines.get l
  let full := decide (ln.chain = .running ∨ ln.chain = .quiet)
  if takesUplinks ln then
    positionNumbers.foldl (takeUplink l full (lightsTouches ln) bytes) s
  else s

/-- Steps 5 and 6 of R126: a draining line goes OFFLINE, else the next cycle if start due is set. -/
def drainOrNext (l : Fin 4) (s : State) : State :=
  if (s.lines.get l).chain = .draining then updLine l Line.goOffline s else nextCycle l s

/-- A completed cycle's counts, and its end (R126 step 1). -/
def Line.completeCycle (hops : Nat) (ln : Line) : Line :=
  { ln.endCycle with echoFails := 0, lastHop := some hops }

/-- The completion work of an ordinary cycle (R126). -/
def completeOrdinary (l : Fin 4) (hops : Nat) (bytes : List Byte) (s : State) : State :=
  withHeldClear l
    (fun s => drainOrNext l (applyDeferred l (updLine l Line.applyHeldClears s)))
    (takeUplinks l bytes (updLine l (Line.completeCycle hops) s))

/-- A position after a census count of 1 or more (R129). -/
def censusPosition (n p : Nat) (q : Position) : Position :=
  { q with
      health := if p ≤ n then .present else .absent
      cause := if p ≤ n then none else some .census
      misses := 0
      toggle := none
      last := .none
      unack := none
      litUntil := none }

/-- Steps 1, 3, 4 and 5 of the census work (R129). -/
def Line.setCensus (n : Nat) (ln : Line) : Line :=
  let ln := { ln.modifyAll (censusPosition n) with census := some n, queue := [] }
  ln.enqueueAll ln.boundPositions

/-- PANEL_ABSENT for the bound positions above the census count (R129 step 2). -/
def reportCensus (l : Fin 4) (n : Nat) (s : State) : State :=
  ((s.lines.get l).boundPositions.filter (fun p => decide (n < p))).foldl
    (fun s p => reportAbsent l p s) s

/-- Whether the controller's now lies in the quiet window in force (R132). -/
def windowNow (l : Fin 4) (s : State) : Bool :=
  match lineNow l s with
  | some now => inWindow s.policy.quietWindow now.quantum
  | none => false

/-- Step 7 of the census work: QUIET inside the quiet window, else RUNNING (R129). -/
def enterRun (l : Fin 4) (s : State) : State :=
  let w := windowNow l s
  updLine l (fun ln => { ln with window := w, chain := if w then .quiet else .running }) s

/-- The completion of a census cycle in CENSUS (R129). -/
def completeCensus (l : Fin 4) (hops : Nat) (s : State) : State :=
  let s := updLine l (Line.completeCycle hops) s
  if hops = 0 then
    withHeldClear l (fault l .empty) (updLine l (fun ln => { ln with census := some 0 }) s)
  else
    withHeldClear l (fun s => nextCycle l (enterRun l (applyDeferred l s)))
      (reportCensus l hops (updLine l (Line.setCensus hops) s))

/-- The completion of a cycle of either kind. A census cycle completed in DRAINING is not applied
(R130, log 32). -/
def completeCycle (l : Fin 4) (kind : CycleKind) (hops : Nat) (bytes : List Byte) (s : State) : State :=
  match kind with
  | .ordinary => completeOrdinary l hops bytes s
  | .census =>
    if (s.lines.get l).chain = .census then completeCensus l hops s
    else withHeldClear l (fun s => drainOrNext l (applyDeferred l s)) (updLine l Line.endCycle s)

/-- A frame taken from data-in (R123); one longer than a cycle frame is read by its first bytes
(log 29). -/
def doFrame (l : Fin 4) (bytes : List Byte) (s : State) : State :=
  match (s.lines.get l).inFlight with
  | none => s
  | some (tag, kind) =>
    match returnedHops bytes tag with
    | some hops => completeCycle l kind hops bytes s
    | none => echoFailure l s

/-- An event at a pin of a line: it joins the controller's intake, and is taken at once when nothing
stands before it; the same event already at the head is taken (log 19). -/
def pinEvent (l : Fin 4) (w : LineWork) (run : State → State) (s : State) :
    Host.Outcome State Fault Refusal :=
  if s.power = .running then
    match takeLine l w s with
    | some t => .next (run t)
    | none => if (s.lines.get l).intake = [] then .next (run s) else .next (sendLine l w s)
  else .next s

/-- CYCLE_RETURN (R123). -/
def execCycleReturn (l : Fin 4) (frame : List Byte) (s : State) : Host.Outcome State Fault Refusal :=
  pinEvent l (.frame frame) (doFrame l frame) s

/-- The expiry of the cycle timer taken (R123). -/
def doCycleTimeout (l : Fin 4) (s : State) : State :=
  if (s.lines.get l).inFlight.isSome then echoFailure l s else s

/-- CYCLE_TIMEOUT (R123). -/
def execCycleTimeout (l : Fin 4) (s : State) : Host.Outcome State Fault Refusal :=
  whenTaken (takeLine l .cycleExpiry s) (doCycleTimeout l) s

/-- The expiry of the poll timer taken (R124). -/
def doPollExpiry (l : Fin 4) (s : State) : State :=
  match (s.lines.get l).chain with
  | .census | .running | .quiet => callCycle l s
  | .offline | .draining | .faulted => s

/-- POLL_TIMER_EXPIRY (R124). -/
def execPollTimerExpiry (l : Fin 4) (s : State) : Host.Outcome State Fault Refusal :=
  whenTaken (takeLine l .pollExpiry s) (doPollExpiry l) s

/-! ### The attention wire (R125) -/

/-- The change from released to pulled taken. -/
def doWirePulled (l : Fin 4) (s : State) : State :=
  if (s.lines.get l).chain = .quiet then callCycle l s else s

/-- The level of a line's attention wire. -/
def setWire (l : Fin 4) (up : Bool) (s : State) : State := updLine l (fun ln => { ln with wire := up }) s

/-- ATTENTION_WIRE_PULLED (R125): only the change from released to pulled is an event; an event that
waits at the head of the intake is taken (log 19). -/
def execAttentionWirePulled (l : Fin 4) (s : State) : Host.Outcome State Fault Refusal :=
  match takeLine l .wirePulled s with
  | some t => .next (doWirePulled l t)
  | none =>
    if (s.lines.get l).wire then .next s
    else pinEvent l .wirePulled (doWirePulled l) (setWire l true s)

/-- ATTENTION_WIRE_RELEASED (R125): the level changes; no event. -/
def execAttentionWireReleased (l : Fin 4) (s : State) : Host.Outcome State Fault Refusal :=
  .next (setWire l false s)

/-! ### Boundaries, quiet mode (R132, R133, R135) -/

/-- Every lit-until that lies before a time made absent (R135). -/
def Line.expireLit (now : CTime) (ln : Line) : Line :=
  ln.modifyAll (fun _ q =>
    { q with litUntil := q.litUntil.bind (fun t =>
        if horizonIndex now.day t < horizonIndex now.day now then none else some t) })

/-- Entry into RUNNING from QUIET (R133). -/
def enterRunning (l : Fin 4) (s : State) : State :=
  callCycle l (updLine l (fun ln =>
    Line.enqueueAll ln.boundPositions { ln.darken with chain := .running }) s)

/-- Entry into QUIET from RUNNING (R133). -/
def Line.enterQuiet (ln : Line) : Line := { ln with chain := .quiet }

/-- An edge of the quiet window taken (R132). -/
def takeEdge (l : Fin 4) (w : Bool) (s : State) : State :=
  let chain := (s.lines.get l).chain
  let s := updLine l (fun ln => { ln with window := w }) s
  if w ∧ chain = .running then updLine l Line.enterQuiet s
  else if w = false ∧ chain = .quiet then enterRunning l s
  else s

/-- The controller's boundary work (R132, R135). -/
def doControllerBoundary (l : Fin 4) (b : Boundary) (s : State) : State :=
  let s := updLine l (fun ln => Line.expireLit b.now { ln with now := some b.now }) s
  let w := inWindow s.policy.quietWindow b.now.quantum
  if w = (s.lines.get l).window then s else takeEdge l w s

/-- CONTROLLER_BOUNDARY_WORK (R132). -/
def execControllerBoundaryWork (l : Fin 4) (b : Boundary) (s : State) :
    Host.Outcome State Fault Refusal :=
  whenTaken (takeLine l (.boundary b) s) (doControllerBoundary l b) s

/-! ### Work from the other owners (R119, R155) -/

/-- Work applied at once, or deferred while a cycle is in flight (R119). -/
def Line.applyOrDefer (d : Deferred) (ln : Line) : Line :=
  if ln.inFlight.isSome then { ln with deferred := ln.deferred ++ [d] } else ln.applyDeferred d

/-- DISPLAY_UPDATE_REQUEST (R119, R164). -/
def execDisplayUpdateRequest (l : Fin 4) (room : Nat) (s : State) : Host.Outcome State Fault Refusal :=
  whenTaken (takeLine l (.display room) s) (updLine l (Line.applyOrDefer (.display room))) s

/-- BINDING_CHANGE (R13, R119, R144). -/
def execBindingChange (l : Fin 4) (p : Nat) (room : Option Nat) (s : State) :
    Host.Outcome State Fault Refusal :=
  whenTaken (takeLine l (.binding p room) s) (updLine l (Line.applyOrDefer (.binding p room))) s

/-- An answer stored and owed, when its pending marker still stands (R155). -/
def Line.storeAnswer (p reqno : Nat) (a : PanelAnswer) (ln : Line) : Line :=
  let q := ln.at p
  if q.last = .pending reqno then
    ln.setLast p (.reply ⟨a.code, a.kind, q.toggle.getD false, a.time⟩ true)
  else ln

/-- PANEL_ANSWER (R155). -/
def execPanelAnswer (l : Fin 4) (p reqno : Nat) (a : PanelAnswer) (s : State) :
    Host.Outcome State Fault Refusal :=
  whenTaken (takeLine l (.answer p reqno a) s) (updLine l (Line.storeAnswer p reqno a)) s

/-! ### Host requests (R128, R130, R133, R136, R145, R151) -/

/-- A request for a line: BAD_FIELD above 3, else the work of that line. -/
def lineRequest (n : Nat) (run : Fin 4 → State → State) (s : State) : State :=
  match lineOf? n with
  | some l => run l s
  | none => finish .badField [] s

/-- The reply of a line request that gives the chain state in force. -/
def replyChain (l : Fin 4) (s : State) : State :=
  finish .ok [.u8 (chainCode (s.lines.get l).chain)] s

/-- The work of a StartChain (R128). -/
def doStartChain (l : Fin 4) (s : State) : State :=
  match (s.lines.get l).chain with
  | .offline | .faulted =>
    replyChain l (startCensus l
      (updLine l (fun ln => { ln with echoFails := 0, chain := .census, entered := none }) s))
  | .census | .running | .quiet | .draining => finish .chainState [] s

/-- START_CHAIN (R128). -/
def execStartChain (n : Nat) (s : State) : Host.Outcome State Fault Refusal :=
  hostStep (.startChain n) (lineRequest n doStartChain) s

/-- The work of a StopChain (R130). -/
def doStopChain (l : Fin 4) (s : State) : State :=
  match (s.lines.get l).chain with
  | .census | .running | .quiet =>
    if (s.lines.get l).inFlight.isSome then replyChain l (updLine l Line.drain s)
    else replyChain l (updLine l Line.goOffline s)
  | .faulted => replyChain l (updLine l Line.goOffline s)
  | .offline | .draining => finish .chainState [] s

/-- STOP_CHAIN (R130). -/
def execStopChain (n : Nat) (s : State) : Host.Outcome State Fault Refusal :=
  hostStep (.stopChain n) (lineRequest n doStopChain) s

/-- The work of a ChainMode, mode 0 being RUN and 1 QUIET (R133). The chain state in force, which R133 has the reply
carry, is sent with OK; the refusals CHAIN_STATE and CLOCK_NOT_SET have an empty body (log 43). -/
def doChainMode (mode : Nat) (l : Fin 4) (s : State) : State :=
  match (s.lines.get l).chain with
  | .running =>
    if mode = 0 then replyChain l s
    else if s.clock.state = .unset then finish .clockNotSet [] s
    else replyChain l (updLine l Line.enterQuiet s)
  | .quiet => if mode = 0 then replyChain l (enterRunning l s) else replyChain l s
  | .offline | .census | .draining | .faulted => finish .chainState [] s

/-- CHAIN_MODE (R133). -/
def execChainMode (n mode : Nat) (s : State) : Host.Outcome State Fault Refusal :=
  hostStep (.chainMode n mode)
    (fun s => if 1 < mode then finish .badField [] s else lineRequest n (doChainMode mode) s) s

/-- A clear applied at once, and answered (R145, R146). -/
def clearNow (l : Fin 4) (target : Option Nat) (s : State) : State :=
  let changed := (s.lines.get l).returnedCount
  let s := updLine l (Line.applyClear target) s
  finish .ok (clearFields (s.lines.get l) target changed) s

/-- The work of a ClearPanelFault (R145, R146). -/
def doClearPanelFault (target : Option Nat) (l : Fin 4) (s : State) : State :=
  match (s.lines.get l).chain with
  | .running | .quiet =>
    if (s.lines.get l).inFlight.isSome then
      updLine l (fun ln => { ln with deferred := ln.deferred ++ [.clear target] }) s
    else clearNow l target s
  | .offline | .census | .draining | .faulted => finish .chainState [] s

/-- Whether a position number lies in 1 to 48. -/
def positionOk (p : Nat) : Bool := decide (1 ≤ p ∧ p ≤ 48)

/-- CLEAR_PANEL_FAULT (R145). -/
def execClearPanelFault (n : Nat) (pos : Option Nat) (s : State) : Host.Outcome State Fault Refusal :=
  hostStep (.clearPanelFault n pos)
    (fun s => if pos.all positionOk then lineRequest n (doClearPanelFault pos) s
      else finish .badField [] s) s

/-- What a line was entered from: the chain state of DRAINING, the fault cause of FAULTED (R136), in one byte, and 0xFF
in any other state (log 8). -/
def enteredField (e : Option Entered) : Field :=
  match e with
  | some (.chain c) => .u8 (chainCode c)
  | some (.fault f) => .u8 (faultCode f)
  | none => .absent 1

/-- The work of a ReadChain (R136); the cycle in flight is one byte, its kind, or 0xFF for none, and the window flag is
sent as a flag, 1 for in and 0 for out (log 8). -/
def doReadChain (l : Fin 4) (s : State) : State :=
  let ln := s.lines.get l
  finish .ok [.u8 (chainCode ln.chain), enteredField ln.entered, .u8 ln.tag,
    u8Field (ln.inFlight.map (fun c => cycleCode c.2)), u16Field ln.census, u16Field ln.lastHop,
    .u8 ln.echoFails, .u16 (s.counters.echoFailures.get l), flagField ln.window,
    .u8 ln.litPositions.length, .u8 ln.queue.length] s

/-- READ_CHAIN (R136). -/
def execReadChain (n : Nat) (s : State) : Host.Outcome State Fault Refusal :=
  hostStep (.readChain n) (lineRequest n doReadChain) s

/-- Whether a last reply record is held (R151); a pending marker is not one (log 38). -/
def replyHeld : LastReply → Bool
  | .reply _ _ => true
  | .none | .pending _ => false

/-- The work of a ReadPosition (R151). -/
def doReadPosition (p : Nat) (l : Fin 4) (s : State) : State :=
  let q := (s.lines.get l).at p
  finish .ok [u16Field q.bound, .u8 (healthCode q.health), u8Field (q.cause.map absenceCode),
    .u8 q.misses, u8Field (q.toggle.map (fun t => if t then 1 else 0)), flagField (replyHeld q.last),
    .u8 q.genSent, .u8 q.genAck, timeField q.litUntil] s

/-- READ_POSITION (R151). -/
def execReadPosition (n p : Nat) (s : State) : Host.Outcome State Fault Refusal :=
  hostStep (.readPosition n p)
    (fun s => if positionOk p then lineRequest n (doReadPosition p) s else finish .badField [] s) s

/-- The work of a ReadLineHealth (R151). -/
def doReadLineHealth (l : Fin 4) (s : State) : State :=
  let ln := s.lines.get l
  finish .ok (positionNumbers.flatMap (fun p =>
      [.u8 (healthCode (ln.at p).health), u8Field ((ln.at p).cause.map absenceCode),
       flagField (ln.boundAt p)]) ++ [.u8 ln.boundOut]) s

/-- READ_LINE_HEALTH (R151). -/
def execReadLineHealth (n : Nat) (s : State) : Host.Outcome State Fault Refusal :=
  hostStep (.readLineHealth n) (lineRequest n doReadLineHealth) s

end Sys2Proof.Machine
end

