-- ==== Sys2Proof/Machine/ClockSteps.lean ====
section
/-! DEFINITION. The timebase tick, the quantum entries and SetClock (R2 to R10). -/

namespace Sys2Proof.Machine

/-! ### The tick (R2) -/

/-- The clock one tick later: the counting time advances in RUNNING and HELD (R2). -/
def Clock.tick (c : Clock) : Clock :=
  if c.state = .unset then c else { c with count := c.count.map Counting.tick }

/-- The step timer one tick later. At its expiry it restarts at once with the step length then in force, and
the step of R63 is due (R62). -/
def Scanner.tick (step : Nat) (sc : Scanner) : Scanner :=
  match sc.timer with
  | none => sc
  | some t =>
    if t.left ≤ 1 then { sc with timer := some ⟨step, step⟩, due := sc.due + 1 }
    else { sc with timer := some { t with left := t.left - 1 } }

/-- The supervision timer one tick later. It is free-running: at its expiry it restarts at once with the
interval then in force, and Link Supervision has an expiry to take (R185). -/
def Supervision.tick (seconds : Nat) (v : Supervision) : Supervision :=
  if v.timer ≤ 1 then { v with timer := seconds * 1000, due := v.due + 1 }
  else { v with timer := v.timer - 1 }

/-- The gap since the last byte of a frame one tick longer (R168); past 20 ms it is enough to know so. -/
def Receiver.tick (r : Receiver) : Receiver :=
  match r with
  | .hunting => .hunting
  | .inFrame got gap => .inFrame got (min 21 (gap + 1))

/-- Work that joins a controller's intake when a condition holds. -/
def Line.arriveIf (p : Bool) (w : LineWork) (ln : Line) : Line := if p then ln.arrive w else ln

/-- A line's timers one tick later; a timer that reaches 0 expires, which is work for the controller
(R119, R121, R124, log 20). -/
def Line.tick (ln : Line) : Line :=
  Line.arriveIf (decide (ln.pollTimer = some 1)) .pollExpiry
    (Line.arriveIf (decide (ln.cycleTimer = some 1)) .cycleExpiry
      { ln with
          cycleTimer := ln.cycleTimer.map (· - 1)
          pollTimer := ln.pollTimer.map (· - 1) })

/-- One tick of the timebase, at every timer of the part (R2). -/
def doTick (s : State) : State :=
  { s with
      clock := s.clock.tick
      scanner := s.scanner.tick s.policy.scanStep
      superv := s.superv.tick s.policy.supervision
      link := { s.link with rx := s.link.rx.tick }
      lines := s.lines.map Line.tick }

/-- TIMEBASE_TICK (R2): the tick runs from the end of the start-up wait. -/
def execTimebaseTick (s : State) : Host.Outcome State Fault Refusal :=
  if s.power = .running then .next (doTick s) else .next s

/-! ### Quantum entries (R4) -/

/-- One boundary event to the engine, the planner and the four controllers (R4). -/
def sendBoundary (b : Boundary) (s : State) : State :=
  let s := sendPlanner (.boundary b) (sendEngine (.boundary b) s)
  { s with lines := s.lines.map (Line.arrive (.boundary b)) }

/-- The quanta the counting time has entered beyond now (R4). -/
def entriesDue (c : Clock) : Nat :=
  match c.state, c.count, c.now with
  | .running, some k, some now => (quantaFrom k.time now).toNat
  | _, _, _ => 0

/-- The boundary event of a quantum: its rollover flag is set at quantum 0 (R4). -/
def boundaryOf (t : CTime) : Boundary := ⟨t, decide (t.quantum = 0)⟩

/-- The quantum after now is made now, and its boundary is produced (R4, R10). -/
def enterQuantum (s : State) : State :=
  match s.clock.now with
  | some now =>
    let t := shiftTime now 1
    sendBoundary (boundaryOf t) { s with clock := { s.clock with now := some t } }
  | none => s

/-- QUANTUM_ENTRY (R4): in RUNNING, when the counting time has entered a new quantum. -/
def execQuantumEntry (s : State) : Host.Outcome State Fault Refusal :=
  if s.power = .running ∧ 0 < entriesDue s.clock then .next (enterQuantum s) else .next s

/-- Whether, in HELD, the counting time has reached the start of the held quantum (R8). -/
def heldReached (c : Clock) : Bool :=
  match c.state, c.count, c.held with
  | .held, some k, some h => decide (0 ≤ quantaFrom k.time h)
  | _, _, _ => false

/-- The clock RUNNING again, now still the held quantum (R8). -/
def resume (s : State) : State :=
  { s with clock := { s.clock with state := .running, held := none } }

/-- HELD_QUANTUM_REACHED (R8). -/
def execHeldQuantumReached (s : State) : Host.Outcome State Fault Refusal :=
  if s.power = .running ∧ heldReached s.clock = true then .next (resume s) else .next s

/-- The return from HELD, when the counting time calls for it (R8). -/
def resumeDue (s : State) : State := if heldReached s.clock then resume s else s

/-- Every quantum entry that the counting time calls for, in order (R4, R7). -/
def enterDue (s : State) : State :=
  (List.range (entriesDue s.clock)).foldl (fun s _ => enterQuantum s) s

/-- Every step of the clock that the counting time calls for, in order: the return from HELD, then each
quantum entry (R4, R7, R8). -/
def settleClock (s : State) : State := enterDue (resumeDue s)

/-! ### SetClock (R5 to R9) -/

/-- The fields of a SetClock reply: the clock state, the counting time with its ms, the held quantum. A field that the
clock does not have is sent absent, its bytes 0xFF: the held quantum outside HELD, the counting time in UNSET (log 25). -/
def clockFields (c : Clock) : List Field :=
  [.u8 (clockCode c.state), timeField (c.count.map Counting.time),
   ((c.count.map (fun k => Field.u24 k.ms)).getD (.absent 3)), timeField c.held]

/-- The answer of a SetClock, with the clock as it then stands (log 25). -/
def replyClock (r : Result) (s : State) : State := finish r (clockFields s.clock) s

/-- The counting time set. -/
def setCount (k : Counting) (s : State) : State :=
  { s with clock := { s.clock with count := some k } }

/-- A line begins from the now that SetClock set (R5). -/
def Line.begin (t : CTime) (ln : Line) : Line := { ln with now := some t }

/-- The clock leaves UNSET: now, the counting time, the owners' now, the scanner's timer (R5, R62). -/
def startClock (k : Counting) (s : State) : State :=
  { s with
      clock := ⟨.running, some k, some k.time, none⟩
      engine := { s.engine with now := some k.time }
      planner := { s.planner with now := some k.time }
      lines := s.lines.map (Line.begin k.time)
      scanner := { s.scanner with timer := some ⟨s.policy.scanStep, s.policy.scanStep⟩ } }

/-- CLOCK_HELD (R8, R9). -/
def reportHeld (held : CTime) (k : Counting) (s : State) : State :=
  postException (.clockHeld held k) s.clock.now s

/-- A backward trim into an earlier quantum (R8). -/
def holdClock (now : CTime) (k : Counting) (s : State) : State :=
  reportHeld now k { s with clock := { s.clock with state := .held, count := some k, held := some now } }

/-- The boundary just produced is the last of a forward trim's: the next frame waits for the work it asks of its owners
(R7, log 41). -/
def markTrim (s : State) : State :=
  { s with link := { s.link with trimmed := s.clock.now.map boundaryOf } }

/-- A forward trim: the counting time moves, and every quantum start it passes is taken (R7, R9). -/
def trimForward (k : Counting) (s : State) : State :=
  let s := resumeDue (setCount k s)
  if entriesDue s.clock = 0 then s else markTrim (enterDue s)

/-- SetClock in RUNNING, classed by its offset (R6). -/
def setRunning (k c : Counting) (now : CTime) (s : State) : State :=
  let off := msFrom k c
  if off = 0 then replyClock .ok s
  else if 600000 < off ∨ off < -600000 then replyClock .clockStep s
  else if 0 < off then replyClock .ok (trimForward k s)
  else if k.time = now then replyClock .ok (setCount k s)
  else replyClock .ok (holdClock now k s)

/-- SetClock in HELD (R9). -/
def setHeld (k c : Counting) (held : CTime) (s : State) : State :=
  let off := msFrom k c
  if off = 0 then replyClock .ok s
  else if 600000 < off ∨ off < -600000 then replyClock .clockStep s
  else if 0 < off then replyClock .ok (trimForward k s)
  else if 600000 < msFrom ⟨held, 0⟩ k then replyClock .clockStep s
  else replyClock .ok (reportHeld held k (setCount k s))

/-- The work of a SetClock (R5 to R9). -/
def doSetClock (day quantum ms : Nat) (s : State) : State :=
  if 287 < quantum ∨ 299999 < ms then replyClock .badField s
  else
    let k : Counting := ⟨⟨day, quantum⟩, ms⟩
    match s.clock.state, s.clock.count, s.clock.now, s.clock.held with
    | .running, some c, some now, _ => setRunning k c now s
    | .held, some c, _, some h => setHeld k c h s
    | _, _, _, _ => replyClock .ok (startClock k s)

/-- SET_CLOCK (R6): the quantum entries that the counting time has already made are taken first
(log 22). -/
def execSetClock (day quantum ms : Nat) (s : State) : Host.Outcome State Fault Refusal :=
  hostStep (.setClock day quantum ms) (fun s => doSetClock day quantum ms (settleClock s)) s

end Sys2Proof.Machine
end

