-- ==== Sys2Proof/Machine/LinkSteps.lean ====
section
/-! DEFINITION. The Link Interface, the Report Queues' requests and Link Supervision (R168 to R181, R185
to R187). -/

namespace Sys2Proof.Machine

/-! ### The receiver (R168, R169) -/

/-- The receiver's condition. -/
def setRx (r : Receiver) (s : State) : State := { s with link := { s.link with rx := r } }

/-- A dropped frame: counted, no reply, the receiver hunting (R168). -/
def dropFrame (s : State) : State := count Counters.linkError (setRx .hunting s)

/-- A byte while hunting: the start byte 0xA5 puts the receiver in frame (R168; a character without its
stop bit is no start byte, log 13). -/
def huntByte (b : Byte) (stop : Bool) (s : State) : State :=
  if b = 0xA5 ∧ stop = true then setRx (.inFrame [] 0) s else s

/-- The bytes of a frame after the start byte, once it is whole: length, kind, tag, body, CRC. -/
def wholeLength (got : List Byte) : Nat := byteAt got 0 + 5

/-- Whether the CRC-16 of a whole frame matches (R169). -/
def crcOk (got : List Byte) : Bool :=
  let n := byteAt got 0 + 3
  decide (crc16 (got.take n) = BitVec.ofNat 16 (u16At got n))

/-- The frame a whole run of bytes spells. -/
def frameOf (got : List Byte) : Frame :=
  ⟨byteAt got 1, byteAt got 2, (got.drop 3).take (byteAt got 0)⟩

/-- The last CRC byte is taken: the frame is valid and waits to be taken, or is dropped (R168, R170). -/
def endFrame (got : List Byte) (s : State) : State :=
  if crcOk got then
    { s with link := { s.link with rx := .hunting, frames := s.link.frames ++ [frameOf got] } }
  else dropFrame s

/-- A byte in frame (R168). -/
def frameByte (got : List Byte) (b : Byte) (stop : Bool) (s : State) : State :=
  let got := got ++ [b]
  if stop = false ∨ 240 < byteAt got 0 then dropFrame s
  else if got.length = wholeLength got then endFrame got s
  else setRx (.inFrame got 0) s

/-- One link character (R168): one that starts more than 20 ms after the last finds the frame dropped. -/
def doHostByte (b : Byte) (stop : Bool) (s : State) : State :=
  match s.link.rx with
  | .hunting => huntByte b stop s
  | .inFrame got gap =>
    if 20 < gap then huntByte b stop (dropFrame s) else frameByte got b stop s

/-- HOST_BYTE_RECEIVED (R168); outside RUNNING the receiver is off (R182). -/
def execHostByteReceived (b : Byte) (stop : Bool) (s : State) : Host.Outcome State Fault Refusal :=
  if s.power = .running then .next (doHostByte b stop s) else .next s

/-- Whether the gap within a frame has grown past 20 ms. -/
def gapExpired (r : Receiver) : Bool :=
  match r with
  | .hunting => false
  | .inFrame _ gap => decide (20 < gap)

/-- INTER_BYTE_GAP_EXPIRY (R168). -/
def execInterByteGapExpiry (s : State) : Host.Outcome State Fault Refusal :=
  if s.power = .running ∧ gapExpired s.link.rx = true then .next (dropFrame s) else .next s

/-! ### Valid frames (R170, R171, R186) -/

/-- Link Supervision takes the report of a valid frame (R186). -/
def reportFrame (s : State) : State :=
  let v := s.superv
  let s := { s with superv := { v with counter := 0, link := .linked } }
  if v.link = .hostLost then postException (.hostReturned v.provisional) s.clock.now s else s

/-- A frame taken while the slot is full: owed a BUSY reply, or discarded, and counted (R171). -/
def busyFrame (f : Frame) (s : State) : State :=
  let owed := if s.link.owed.length < Config.owedBusy then s.link.owed ++ [(f.kind, f.tag)]
    else s.link.owed
  count Counters.busyReply { s with link := { s.link with owed := owed } }

/-- A request enters the slot and is handed to its owner (R170). -/
def enterSlot (f : Frame) (r : HostRequest) (s : State) : State :=
  handTo r { s with link := { s.link with slot := some ⟨f.kind, f.tag, r, .handed⟩ } }

/-- The replies built before, all sent by the time a further frame is taken into an empty slot (R172,
log 7). -/
def sentReplies (s : State) : State := { s with link := { s.link with tx := [] } }

/-- The Link Interface acts on a valid frame by the state of its slot (R170). -/
def takeFrame (f : Frame) (s : State) : State :=
  match s.link.slot with
  | some _ => busyFrame f s
  | none =>
    let s := sentReplies s
    match decodeRequest f with
    | .unknownKind => buildReply f.kind f.tag .badKind [] s
    | .badLength => buildReply f.kind f.tag .badField [] s
    | .request r => enterSlot f r s

/-- A boundary waits at the engine, the planner or a controller. -/
def boundaryWaits (b : Boundary) (s : State) : Bool :=
  decide (.boundary b ∈ s.engine.intake ∨ .boundary b ∈ s.planner.intake ∨
    ∃ l : Fin 4, .boundary b ∈ (s.lines.get l).intake)

/-- Some owner has still to take the boundary work of the last forward trim (R7). -/
def trimWaits (s : State) : Bool := s.link.trimmed.any (fun b => boundaryWaits b s)

/-- The frame at the head of those that passed their CRC, taken; none is taken between a Reset reply and
its reset (R181), nor before every owner has taken the boundary work of a forward trim that has been answered: a request
sent after that reply finds it taken (R7, log 41). -/
def nextFrame (f : Frame) (s : State) : Option State :=
  if s.power = .running ∧ s.link.resetWait = none ∧ trimWaits s = false then
    match s.link.frames with
    | f' :: rest =>
      if f' = f then some { s with link := { s.link with frames := rest, trimmed := none } } else none
    | [] => none
  else none

/-- VALID_FRAME (R170). -/
def execValidFrame (f : Frame) (s : State) : Host.Outcome State Fault Refusal :=
  whenTaken (nextFrame f s) (fun s => takeFrame f (reportFrame s)) s

/-! ### Identity and status (R179, R180) -/

/-- The fields of an Identify reply (R179). -/
def identifyFields (s : State) : List Field :=
  [.u16 0x5120, .mask8 Config.revision, .u16 Config.rooms, .u8 Config.buildings, .u8 Config.kitchens,
   .u8 Config.panelLines, .u8 Config.positions, .u16 Config.bookingRecords, .u8 Config.holdEntries,
   .u16 Config.orderRecords, .u16 Config.eventQueue, .u8 Config.exceptionQueue, .u8 s.rate.val]

/-- IDENTIFY (R179). -/
def execIdentify (s : State) : Host.Outcome State Fault Refusal :=
  hostStep .identify (fun s => finish .ok (identifyFields s) s) s

/-- The fields of a GetStatus reply (R180). A time the clock does not have is sent absent, its bytes 0xFF: now and the
held quantum where they do not exist, the counting time with its millisecond count in UNSET (log 42). -/
def statusFields (s : State) : List Field :=
  [.u8 (causeCode s.cause), .u8 (clockCode s.clock.state),
   timeField (s.clock.count.map Counting.time),
   ((s.clock.count.map (fun k => Field.u24 k.ms)).getD (.absent 3)),
   timeField s.clock.now, timeField s.clock.held,
   .u8 (linkCode s.superv.link), .u16 s.superv.provisional,
   .u16 s.reports.events.length, .u8 s.reports.exceptions.length,
   .u16 s.store.free.length, .u8 s.store.holds.length, .u16 s.planner.free.length,
   .u16 s.planner.marked.length,
   .u8 (chainCode s.lines.l0.chain), .u8 (chainCode s.lines.l1.chain),
   .u8 (chainCode s.lines.l2.chain), .u8 (chainCode s.lines.l3.chain)]

/-- The work of a GetStatus: ACK_CAUSE, bit 0, clears RST before the summary byte is built (R180). -/
def doGetStatus (flags : Nat) (s : State) : State :=
  if 1 < flags then finish .badField [] s
  else finish .ok (statusFields s) (if flags = 1 then { s with rst := false } else s)

/-- GET_STATUS (R180). -/
def execGetStatus (flags : Nat) (s : State) : Host.Outcome State Fault Refusal :=
  hostStep (.getStatus flags) (doGetStatus flags) s

/-! ### Reports and counters (R176, R178) -/

/-- OVF cleared once a ReadReports reply has been built (R176). -/
def clearOvf (s : State) : State := { s with reports := { s.reports with ovf := false } }

/-- The oldest `n` event records removed. -/
def removeEvents (n : Nat) (s : State) : State :=
  { s with reports := { s.reports with events := s.reports.events.drop n } }

/-- The oldest `n` exception records removed. -/
def removeExceptions (n : Nat) (s : State) : State :=
  { s with reports := { s.reports with exceptions := s.reports.exceptions.drop n } }

/-- The body of a ReadReports reply: returned, remaining, the records. The number returned is itself the count
of the list, and no other count stands before the records (R176, R184, log 8). -/
def reportFields (left : Nat) (records : List Field) : List Field :=
  .u8 records.length :: .u16 left :: records

/-- The work of a ReadReports: queue 0 is EVENTS and 1 EXCEPTIONS (R176). -/
def doReadReports (queue n : Nat) (s : State) : State :=
  if queue = 0 ∧ n ≤ 12 then
    finishThen .ok
      (reportFields (s.reports.events.length - n) ((s.reports.events.take n).map Field.event))
      clearOvf (removeEvents n s)
  else if queue = 1 ∧ n ≤ 8 then
    finishThen .ok
      (reportFields (s.reports.exceptions.length - n)
        ((s.reports.exceptions.take n).map Field.exception))
      clearOvf (removeExceptions n s)
  else finish .badField [] s

/-- READ_REPORTS (R176). -/
def execReadReports (queue n : Nat) (s : State) : Host.Outcome State Fault Refusal :=
  hostStep (.readReports queue n) (doReadReports queue n) s

/-- The fields of a ReadCounters reply, in the order of R177. -/
def counterFields (c : Counters) : List Field :=
  [.u16 c.linkErrors, .u16 c.busyReplies, .u16 c.unknownRoom, .u16 c.bookingRefusals,
   .u16 c.cateringRefusals, .u16 c.releases,
   .u16 c.echoFailures.l0, .u16 c.echoFailures.l1, .u16 c.echoFailures.l2, .u16 c.echoFailures.l3,
   .u16 c.misses.l0, .u16 c.misses.l1, .u16 c.misses.l2, .u16 c.misses.l3, .u16 c.dropped]

/-- Every counter 0. -/
def clearCounters (s : State) : State := { s with counters := .reset }

/-- The work of a ReadCounters: CLEAR is bit 0 (R178). -/
def doReadCounters (flags : Nat) (s : State) : State :=
  if 1 < flags then finish .badField [] s
  else finishThen .ok (counterFields s.counters) (if flags = 1 then clearCounters else id) s

/-- READ_COUNTERS (R178). -/
def execReadCounters (flags : Nat) (s : State) : Host.Outcome State Fault Refusal :=
  hostStep (.readCounters flags) (doReadCounters flags) s

/-! ### Reset (R181) -/

/-- The scope of a Reset, when its confirm byte is right: 0 FULL, 1 WARM. -/
def resetScope (scope confirm : Nat) : Option Scope :=
  if confirm ≠ 0xC4 then none
  else if scope = 0 then some .full else if scope = 1 then some .warm else none

/-- The work of a Reset: the reply is built, and the reset waits for the transmitter (R181). -/
def doReset (scope confirm : Nat) (s : State) : State :=
  match resetScope scope confirm with
  | none => finish .badField [] s
  | some sc =>
    let s := finish .ok [] s
    { s with link := { s.link with resetWait := some sc } }

/-- RESET (R181). -/
def execReset (scope confirm : Nat) (s : State) : Host.Outcome State Fault Refusal :=
  hostStep (.reset scope confirm) (doReset scope confirm) s

/-! ### Link Supervision (R185, R187) -/

/-- An expiry of the supervision timer taken; the timer itself restarted when it ran out (R185). -/
def takeExpiry (s : State) : State :=
  { s with superv := { s.superv with due := s.superv.due - 1 } }

/-- An expiry of the supervision timer (R187). -/
def doSupervisionExpiry (s : State) : State :=
  let n := s.superv.counter
  let s := takeExpiry s
  if 3 ≤ n then s
  else if n + 1 = 3 then
    postException (.hostLost s.policy.supervision) s.clock.now
      { s with superv := { s.superv with counter := 3, link := .hostLost } }
  else { s with superv := { s.superv with counter := n + 1 } }

/-- SUPERVISION_TIMER_EXPIRY (R187): the timer has run out, and the expiry has not been taken yet. -/
def execSupervisionTimerExpiry (s : State) : Host.Outcome State Fault Refusal :=
  if s.power = .running ∧ 0 < s.superv.due then .next (doSupervisionExpiry s) else .next s

end Sys2Proof.Machine
end

