-- ==== Sys2Proof/Machine/PowerReset.lean ====
section
/-! DEFINITION. Start-up, the supply and the two scopes of a Reset taking effect (R137, R167, R181 to
R183). -/

namespace Sys2Proof.Machine

/-! ### Power-on values (R182) -/

/-- A line at its power-on values, its attention wire, a pin, as the panels hold it (log 21). -/
def Line.powerOn (ln : Line) : Line := { Line.reset with wire := ln.wire }

/-- Every state at its power-on value, in a phase, with a reset cause and a link rate. The queue of
commands is not the part's. -/
def powerOnValues (p : Power) (c : ResetCause) (rate : Fin 4) (s : State) : State :=
  { State.reset with
      pending := s.pending
      power := p
      cause := c
      rate := rate
      lines := s.lines.map Line.powerOn }

/-- POWER_ON (R182): the part starts from no supply with cause POWER, and waits for the crystal
(log 24). -/
def execPowerOn (s : State) : Host.Outcome State Fault Refusal :=
  .next (powerOnValues (.waiting .power) .power s.rate s)

/-- SUPPLY_LOW_RESET (R182): the part is held in reset; a dip during the start-up wait restarts it and
leaves the cause as it was (log 23). -/
def execSupplyLowReset (s : State) : Host.Outcome State Fault Refusal :=
  match s.power with
  | .running => .next (powerOnValues (.heldLow .supplyLow) .supplyLow s.rate s)
  | .waiting c => .next { s with power := .heldLow c }
  | .heldLow _ | .off => .next s

/-- SUPPLY_RESTORED (R182): the start-up wait begins. -/
def execSupplyRestored (s : State) : Host.Outcome State Fault Refusal :=
  match s.power with
  | .heldLow c => .next { s with power := .waiting c }
  | .running | .waiting _ | .off => .next s

/-- CRYSTAL_STABLE (R182): the straps are sampled, every state takes its power-on value, the cause is
recorded and RST set, the tick begins, and the receiver hunts. -/
def execCrystalStable (straps : Fin 4) (s : State) : Host.Outcome State Fault Refusal :=
  match s.power with
  | .waiting c => .next (powerOnValues .running c straps s)
  | .running | .heldLow _ | .off => .next s

/-! ### WARM (R60, R74, R116, R137, R181, R183, R185) -/

/-- The engine's work kept across WARM: boundary events and link notices (R181). -/
def keepsEngine : EngineWork → Bool
  | .boundary _ | .linkNotice _ _ => true
  | _ => false

/-- The planner's work kept across WARM: boundary events and booking hand-offs (R181). -/
def keepsPlanner : PlannerWork → Bool
  | .boundary _ | .handoff _ _ _ => true
  | _ => false

/-- A controller's work kept across WARM: boundary events (R181). -/
def keepsLine : LineWork → Bool
  | .boundary _ => true
  | _ => false

/-- The engine after WARM (R60). -/
def Engine.warm (e : Engine) : Engine :=
  { e with intake := e.intake.filter keepsEngine, staged := none, kept := .empty }

/-- The planner after WARM (§5.12). -/
def Planner.warm (p : Planner) : Planner :=
  { p with intake := p.intake.filter keepsPlanner, episode := false, job := none }

/-- The bound rooms of line `l`, from the Room Table (R137). -/
def bindFromRooms (l : Fin 4) (rooms : Table (Option RoomEntry)) (ln : Line) : Line :=
  rooms.entries.foldl (fun ln e =>
    match e.2.bind RoomEntry.binding with
    | some b =>
      if b.line = l then ln.modifyAt b.pos (fun q => { q with bound := some e.1 }) else ln
    | none => ln) ln

/-- A line after WARM: reset, with the bindings of the kept Room Table, its now, its wire and the boundary
events not yet taken (R137, R181). -/
def Line.warm (l : Fin 4) (rooms : Table (Option RoomEntry)) (ln : Line) : Line :=
  bindFromRooms l rooms
    { Line.reset with wire := ln.wire, now := ln.now, intake := ln.intake.filter keepsLine }

/-- The scanner after WARM (R74). -/
def Scanner.warm (p : Policy) (c : Clock) : Scanner :=
  ⟨p.scanFirst, if c.state = .unset then none else some ⟨p.scanStep, p.scanStep⟩, 0⟩

/-- The part after a WARM reset (R181). -/
def warmReset (s : State) : State :=
  { s with
      cause := .warm
      rst := true
      store := { s.store with episode := false }
      engine := s.engine.warm
      scanner := Scanner.warm s.policy s.clock
      planner := s.planner.warm
      lines := ⟨Line.warm 0 s.rooms s.lines.l0, Line.warm 1 s.rooms s.lines.l1,
        Line.warm 2 s.rooms s.lines.l2, Line.warm 3 s.rooms s.lines.l3⟩
      link := .reset
      superv := { Supervision.reset s.policy.supervision with provisional := s.superv.provisional }
      reports := .reset
      counters := .reset }

/-- The part after a FULL reset: power-on values; the crystal is not waited for and the straps are not
sampled (R181). -/
def fullReset (s : State) : State := powerOnValues .running .full s.rate s

/-- RESET_TAKES_EFFECT (R181): the last byte of a Reset's replies has left the transmitter. -/
def execResetTakesEffect (s : State) : Host.Outcome State Fault Refusal :=
  match s.power, s.link.resetWait with
  | .running, some .full => .next (fullReset s)
  | .running, some .warm => .next (warmReset s)
  | _, _ => .next s

end Sys2Proof.Machine
end

