-- ==== Sys2Proof/Machine/Dispatch.lean ====
section
/-! DEFINITION. One arm for each command of the part. -/

namespace Sys2Proof.Machine

def exec (i : Instr) (s : State) : Host.Outcome State Fault Refusal :=
  match i with
  | .powerOn => Sys2Proof.Machine.execPowerOn s
  | .supplyLowReset => Sys2Proof.Machine.execSupplyLowReset s
  | .crystalStable straps => Sys2Proof.Machine.execCrystalStable straps s
  | .timebaseTick => Sys2Proof.Machine.execTimebaseTick s
  | .quantumEntry => Sys2Proof.Machine.execQuantumEntry s
  | .heldQuantumReached => Sys2Proof.Machine.execHeldQuantumReached s
  | .interByteGapExpiry => Sys2Proof.Machine.execInterByteGapExpiry s
  | .hostByteReceived b stopBit => Sys2Proof.Machine.execHostByteReceived b stopBit s
  | .validFrame f => Sys2Proof.Machine.execValidFrame f s
  | .resetTakesEffect => Sys2Proof.Machine.execResetTakesEffect s
  | .identify => Sys2Proof.Machine.execIdentify s
  | .getStatus flags => Sys2Proof.Machine.execGetStatus flags s
  | .readReports queue count => Sys2Proof.Machine.execReadReports queue count s
  | .readCounters flags => Sys2Proof.Machine.execReadCounters flags s
  | .reset scope confirm => Sys2Proof.Machine.execReset scope confirm s
  | .setClock day quantum ms => Sys2Proof.Machine.execSetClock day quantum ms s
  | .setPolicy p => Sys2Proof.Machine.execSetPolicy p s
  | .readPolicy => Sys2Proof.Machine.execReadPolicy s
  | .loadRoom room e => Sys2Proof.Machine.execLoadRoom room e s
  | .loadRoomEngineCheck room e => Sys2Proof.Machine.execLoadRoomEngineCheck room e s
  | .readRoom room => Sys2Proof.Machine.execReadRoom room s
  | .loadKitchen kitchen e => Sys2Proof.Machine.execLoadKitchen kitchen e s
  | .readKitchen kitchen => Sys2Proof.Machine.execReadKitchen kitchen s
  | .loadDistance kitchen building transit => Sys2Proof.Machine.execLoadDistance kitchen building transit s
  | .readDistance kitchen => Sys2Proof.Machine.execReadDistance kitchen s
  | .loadMenuClass cls weight lead holdLimit => Sys2Proof.Machine.execLoadMenuClass cls weight lead holdLimit s
  | .readMenuClass cls => Sys2Proof.Machine.execReadMenuClass cls s
  | .hold q holdTime => Sys2Proof.Machine.execHold q holdTime s
  | .book q => Sys2Proof.Machine.execBook q s
  | .confirm h => Sys2Proof.Machine.execConfirm h s
  | .cancel h flags => Sys2Proof.Machine.execCancel h flags s
  | .endBooking h => Sys2Proof.Machine.execEndBooking h s
  | .checkIn h badge => Sys2Proof.Machine.execCheckIn h badge s
  | .move q => Sys2Proof.Machine.execMove q s
  | .roomNotice order room => Sys2Proof.Machine.execRoomNotice order room s
  | .findRoom q => Sys2Proof.Machine.execFindRoom q s
  | .queryRoom room day continuation => Sys2Proof.Machine.execQueryRoom room day continuation s
  | .queryBooking h => Sys2Proof.Machine.execQueryBooking h s
  | .acceptProvisional h => Sys2Proof.Machine.execAcceptProvisional h s
  | .placeOrder h count lines => Sys2Proof.Machine.execPlaceOrder h count lines s
  | .admissionComputation booking serving room count lines => Sys2Proof.Machine.execAdmissionComputation booking serving room count lines s
  | .admissionCompletion => Sys2Proof.Machine.execAdmissionCompletion s
  | .engineTakesAdmissionAnswer booking a => Sys2Proof.Machine.execEngineTakesAdmissionAnswer booking a s
  | .refitComputation booking order serving room drop => Sys2Proof.Machine.execRefitComputation booking order serving room drop s
  | .refitCompletion => Sys2Proof.Machine.execRefitCompletion s
  | .engineTakesRefitAnswer booking a => Sys2Proof.Machine.execEngineTakesRefitAnswer booking a s
  | .queryOrder h => Sys2Proof.Machine.execQueryOrder h s
  | .cancelOrder h => Sys2Proof.Machine.execCancelOrder h s
  | .confirmDelivery h => Sys2Proof.Machine.execConfirmDelivery h s
  | .readLoad kitchen first count => Sys2Proof.Machine.execReadLoad kitchen first count s
  | .readProduction kitchen continuation count => Sys2Proof.Machine.execReadProduction kitchen continuation count s
  | .kitchenChange kitchen capacity carts => Sys2Proof.Machine.execKitchenChange kitchen capacity carts s
  | .bookingHandoff order booking kind => Sys2Proof.Machine.execBookingHandoff order booking kind s
  | .linkNotice booking order => Sys2Proof.Machine.execLinkNotice booking order s
  | .displayNotice booking order => Sys2Proof.Machine.execDisplayNotice booking order s
  | .engineBoundaryWork b => Sys2Proof.Machine.execEngineBoundaryWork b s
  | .plannerBoundaryWork b => Sys2Proof.Machine.execPlannerBoundaryWork b s
  | .controllerBoundaryWork line b => Sys2Proof.Machine.execControllerBoundaryWork line b s
  | .scanStepExpiry => Sys2Proof.Machine.execScanStepExpiry s
  | .roomVisit room => Sys2Proof.Machine.execRoomVisit room s
  | .occupancyNotice room => Sys2Proof.Machine.execOccupancyNotice room s
  | .walkup src room len badge => Sys2Proof.Machine.execWalkup src room len badge s
  | .panelCheckin src room badge => Sys2Proof.Machine.execPanelCheckin src room badge s
  | .extend src room k => Sys2Proof.Machine.execExtend src room k s
  | .panelEnd src room => Sys2Proof.Machine.execPanelEnd src room s
  | .cateringReceived src room badge => Sys2Proof.Machine.execCateringReceived src room badge s
  | .startChain line => Sys2Proof.Machine.execStartChain line s
  | .stopChain line => Sys2Proof.Machine.execStopChain line s
  | .chainMode line mode => Sys2Proof.Machine.execChainMode line mode s
  | .clearPanelFault line pos => Sys2Proof.Machine.execClearPanelFault line pos s
  | .readChain line => Sys2Proof.Machine.execReadChain line s
  | .readPosition line pos => Sys2Proof.Machine.execReadPosition line pos s
  | .readLineHealth line => Sys2Proof.Machine.execReadLineHealth line s
  | .pollTimerExpiry line => Sys2Proof.Machine.execPollTimerExpiry line s
  | .attentionWirePulled line => Sys2Proof.Machine.execAttentionWirePulled line s
  | .cycleReturn line frame => Sys2Proof.Machine.execCycleReturn line frame s
  | .cycleTimeout line => Sys2Proof.Machine.execCycleTimeout line s
  | .panelAnswer line pos reqno a => Sys2Proof.Machine.execPanelAnswer line pos reqno a s
  | .displayUpdateRequest line room => Sys2Proof.Machine.execDisplayUpdateRequest line room s
  | .bindingChange line pos room => Sys2Proof.Machine.execBindingChange line pos room s
  | .supervisionTimerExpiry => Sys2Proof.Machine.execSupervisionTimerExpiry s
  | .attentionWireReleased line => Sys2Proof.Machine.execAttentionWireReleased line s
  | .supplyRestored => Sys2Proof.Machine.execSupplyRestored s

end Sys2Proof.Machine
end

