-- ==== Sys2Proof/Safety.lean ====
section
/-! DEFINITION. What the statements speak of: requests in service, answers, what a piece of work may change,
and the invariants of the part. -/

namespace Sys2Proof.Machine

/-! ### Work that can be taken -/

/-- The host request `r` is in service, handed to its owner and not yet taken, in the frame of kind `k`
and tag `g` (R170). -/
def InService (r : HostRequest) (k g : Nat) (s : State) : Prop :=
  s.link.slot = some ⟨k, g, r, .handed⟩

/-- The host request `r` is in service in `s` and its owner takes it, which leaves `u` (R170). -/
def Taken (r : HostRequest) (s u : State) : Prop :=
  (∃ k g, InService r k g s) ∧ takeHost r s = some u

/-- The pin event `w` of line `l` is taken in `s`, which leaves `u`: it waited and stands at the head of the
controller's intake, or it comes while nothing waits there (R119, log 19). -/
def PinTaken (l : Fin 4) (w : LineWork) (s u : State) : Prop :=
  takeLine l w s = some u ∨ (s.power = .running ∧ (s.lines.get l).intake = [] ∧ u = s)

/-! ### Answers -/

/-- The link of `t` is that of `s` after the reply to the request in service, with the summary byte `sm`,
and one BUSY reply for each frame owed one, in order (R171, R172). -/
def RepliesWith (s t : State) (sm : BitVec 8) (r : Result) (body : List Field) : Prop :=
  ∃ sl, s.link.slot = some sl ∧ t.link = { s.link with
    slot := none
    owed := []
    tx := s.link.tx ++ ⟨sl.kind, sl.tag, sm, r, body⟩ ::
      s.link.owed.map (fun e => ⟨e.1, e.2, t.summary, .busy, []⟩) }

/-- The request in service of `s` has been answered in `t`, the summary byte showing `t` (R172). -/
def Answered (s t : State) (r : Result) (body : List Field) : Prop :=
  RepliesWith s t t.summary r body

/-- The command `c`, run in `s`, answers the request taken in `u`, and changes nothing but the link. -/
def RepliesOnly (c : Instr) (s u : State) (r : Result) (body : List Field) : Prop :=
  ∃ t, exec c s = .next t ∧ t = { u with link := t.link } ∧ Answered u t r body

/-- The counters after a refusal by the Reservation Engine (R11, R41). -/
def refusedCounters (c : Counters) (r : Result) : Counters :=
  { c with
    bookingRefusals := saturate c.bookingRefusals
    unknownRoom := if r = .noSuchRoom then saturate c.unknownRoom else c.unknownRoom }

/-- The command `c`, run in `s`, refuses the request taken in `u` as the Reservation Engine refuses: the
reply and the refusal counters, and nothing else (R41). -/
def RefusedByEngine (c : Instr) (s u : State) (r : Result) (body : List Field) : Prop :=
  ∃ t, exec c s = .next t ∧ Answered u t r body ∧
    t = { u with link := t.link, counters := refusedCounters u.counters r }

/-- The command `c`, run in `s`, refuses POOL_EMPTY the host request taken in `u`, for room `room`: a closed episode
opens, with its one record, and the reply and the refusal counter follow (R24). -/
def RefusedPoolEmpty (c : Instr) (s u : State) (room : Nat) (body : List Field) : Prop :=
  ∃ t v, exec c s = .next t ∧ Answered u t .poolEmpty body ∧
    v = (if u.store.episode = true then u
      else postException (.bookingPoolEmpty room none) (engineNow u) u) ∧
    t = { v with
      store := { u.store with episode := true }
      link := t.link
      counters := refusedCounters v.counters .poolEmpty }

/-- The command `c`, run in `s`, refuses a panel request taken in `u`: the answer to its line and the
refusal counters, and nothing else (R41, R155). -/
def RefusedAtPanel (c : Instr) (s u : State) (src : PanelSrc) (kind : Nat) (r : Result) (code : PanelCode)
    (time : Option CTime) : Prop :=
  exec c s = .next { u with
    counters := refusedCounters u.counters r
    lines := u.lines.set src.line { u.lines.get src.line with
      intake := (u.lines.get src.line).intake ++ [.answer src.pos src.reqno ⟨kind, code, time⟩] } }

/-- The line a panel request came from has been sent its answer, before any display request. -/
def PanelAnswered (u t : State) (src : PanelSrc) (a : PanelAnswer) : Prop :=
  ∃ ws, (t.lines.get src.line).intake =
    (u.lines.get src.line).intake ++ .answer src.pos src.reqno a :: ws

/-! ### Frames -/

/-- A line of `t` is that of `s` but for work that has joined its intake. -/
def LineGained (a b : Line) : Prop := ∃ ws, b = { a with intake := a.intake ++ ws }

/-- Every line of `t` is that of `s` but for work that has joined its intake. -/
def LinesGained (s t : State) : Prop := ∀ l : Fin 4, LineGained (s.lines.get l) (t.lines.get l)

/-- The planner of `t` is that of `s` but for work that has joined its intake. -/
def PlannerGained (s t : State) : Prop :=
  ∃ ws, t.planner = { s.planner with intake := s.planner.intake ++ ws }

/-- The engine of `t` is that of `s` but for work that has joined its intake. -/
def EngineGained (s t : State) : Prop :=
  ∃ ws, t.engine = { s.engine with intake := s.engine.intake ++ ws }

/-- `t` is `s` but for the host link, the kept display facts, and work that has joined the lines'
intakes. -/
def ButDisplay (s t : State) : Prop :=
  t = { s with engine := { s.engine with kept := t.engine.kept }, lines := t.lines, link := t.link } ∧
  LinesGained s t

/-- The engine keeps, for room `r`, the facts the room shows (R57). -/
def Shows (r : Nat) (t : State) : Prop := t.engine.kept.get none r = some (factsOf t r)

/-- The supply, the reset cause, the link rate, the clock, the campus model and the scanner are as they
were. -/
def Apart (s t : State) : Prop :=
  t.power = s.power ∧ t.cause = s.cause ∧ t.rst = s.rst ∧ t.rate = s.rate ∧ t.clock = s.clock ∧
  t.rooms = s.rooms ∧ t.kitchens = s.kitchens ∧ t.distances = s.distances ∧ t.menu = s.menu ∧
  t.policy = s.policy ∧ t.scanner = s.scanner

/-- The supervision counter, link state and timer are as they were; the provisional count may move. -/
def SupervisionApart (s t : State) : Prop :=
  t.superv = { s.superv with provisional := t.superv.provisional }

/-! ### Families of commands -/

/-- The commands in which the Reservation Engine changes its own state: its host requests, the planner's
answers and notices, boundaries, visits, occupancy and panel requests (chapters 2 to 4, 9). -/
def isEngineWork : Instr → Bool
  | .hold _ _ | .book _ | .confirm _ | .cancel _ _ | .endBooking _ | .checkIn _ _ | .move _
  | .findRoom _ | .queryRoom _ _ _ | .queryBooking _ | .acceptProvisional _ | .placeOrder _ _ _
  | .engineTakesAdmissionAnswer _ _ | .engineTakesRefitAnswer _ _ | .linkNotice _ _
  | .displayNotice _ _ | .engineBoundaryWork _ | .roomVisit _ | .occupancyNotice _
  | .walkup _ _ _ _ | .panelCheckin _ _ _ | .extend _ _ _ | .panelEnd _ _ => true
  | _ => false

/-- The commands in which the Catering Planner takes or completes work (chapters 5 and 6). -/
def isPlannerWork : Instr → Bool
  | .roomNotice _ _ | .admissionComputation _ _ _ _ _ | .admissionCompletion
  | .refitComputation _ _ _ _ _ | .refitCompletion | .queryOrder _ | .cancelOrder _
  | .confirmDelivery _ | .readLoad _ _ _ | .readProduction _ _ _ | .kitchenChange _ _ _
  | .bookingHandoff _ _ _ | .plannerBoundaryWork _ | .cateringReceived _ _ _ => true
  | _ => false

/-- The line whose controller takes a command, for the work of the Panel Line Controllers (chapters 7 to
9). -/
def lineOfWork : Instr → Option (Fin 4)
  | .startChain n | .stopChain n | .chainMode n _ | .clearPanelFault n _ | .readChain n
  | .readPosition n _ | .readLineHealth n => lineOf? n
  | .controllerBoundaryWork l _ | .pollTimerExpiry l | .attentionWirePulled l
  | .attentionWireReleased l | .cycleReturn l _ | .cycleTimeout l | .panelAnswer l _ _ _
  | .displayUpdateRequest l _ | .bindingChange l _ _ => some l
  | _ => none

/-- The commands that can change the supply phase or the level of a pin without the part running (R125,
R182). -/
def isPin : Instr → Bool
  | .powerOn | .supplyLowReset | .supplyRestored | .crystalStable _ | .attentionWirePulled _
  | .attentionWireReleased _ => true
  | _ => false

/-- The reset that a command brings about in `s`, with its cause (R181, R182). -/
def ResetBy (c : Instr) (s : State) (k : ResetCause) : Prop :=
  match c with
  | .powerOn => k = .power
  | .supplyLowReset => s.power = .running ∧ k = .supplyLow
  | .crystalStable _ => s.power = .waiting k ∧ (k = .power ∨ k = .supplyLow)
  | .resetTakesEffect => s.power = .running ∧
      ((s.link.resetWait = some .full ∧ k = .full) ∨ (s.link.resetWait = some .warm ∧ k = .warm))
  | _ => False

/-- The commands that start, stop or reset the part (R181, R182). -/
def isReset : Instr → Bool
  | .powerOn | .supplyLowReset | .supplyRestored | .crystalStable _ | .resetTakesEffect => true
  | _ => false

/-- The commands that move the campus clock: the tick, the quantum entries and SetClock (R2 to R9). -/
def movesClock : Instr → Bool
  | .timebaseTick | .quantumEntry | .heldQuantumReached | .setClock _ _ _ => true
  | _ => false

/-- The commands that change a table of the Campus Model Store or the Policy Set (R12 to R18). -/
def loadsModel : Instr → Bool
  | .loadRoomEngineCheck _ _ | .loadKitchen _ _ | .loadDistance _ _ _ | .loadMenuClass _ _ _ _
  | .setPolicy _ => true
  | _ => false

/-! ### Conditions the manual names -/

/-- A handle in range names the live booking `b`, which carries no pending mark (R21, R27). -/
def Names (s : State) (h : Handle) (b : Booking) : Prop :=
  h.index ≤ 2047 ∧ h.gen ≤ 63 ∧ recordAt s h.index = ⟨h.gen, some b⟩ ∧ b.pending = none

/-- No reservation of a room conflicts with a candidate span under a turnaround (R37). -/
def NoConflict (s : State) (room : Nat) (start fin : CTime) (turn : Nat) : Prop :=
  ∀ r ∈ reservations s room none,
    ¬(idx s r.start < idx s fin + turn ∧ idx s start < idx s r.fin + turn)

/-- The admission checks 1 to 7 all pass for a span and a count of attendees (R37 to R40). -/
def Admissible (s : State) (room : Nat) (start fin : CTime) (n : Nat) : Prop :=
  ∃ e now, roomAt s room = some e ∧ e.inService = true ∧
    (s.policy.absentAction = .close → panelPresent s room = true) ∧ engineNow s = some now ∧
    3 ≤ idx s fin - idx s start ∧ idx s fin - idx s start ≤ 144 ∧ idx s now ≤ idx s start ∧
    idx s fin ≤ 2304 ∧ n ≤ e.seats ∧ NoConflict s room start fin e.turnaround

/-- The fields of a request that creates a booking are in range (R38). -/
abbrev FieldsInRange (q : BookReq) : Prop :=
  q.room ≤ 511 ∧ q.start.quantum ≤ 287 ∧ q.fin.quantum ≤ 287 ∧ 1 ≤ q.attendees ∧ q.attendees ≤ 500

/-- A room fits a FindRoom: in its building, in service, seats enough, the span free (R52). -/
def RoomFits (s : State) (q : FindReq) (r : Nat) (e : RoomEntry) : Prop :=
  roomAt s r = some e ∧ (∀ b, q.building = some b → e.building = b) ∧ e.inService = true ∧
  (s.policy.absentAction = .close → panelPresent s r = true) ∧ q.attendees ≤ e.seats ∧
  NoConflict s r q.start q.fin e.turnaround

/-- The live booking `b` of record `i` has an outcome due: its hold or its span has run out (R28). -/
def OutcomeDue (s : State) (b : Booking) (now : CTime) : Prop :=
  (b.state = .tentative ∧ ∃ e, b.expiry = some e ∧ idx s e ≤ idx s now) ∨ idx s b.fin ≤ idx s now

/-- The record `i` of the Booking Store has been given the booking `b` by an allocation (R22, R29): it
was the head of the free list, and it stands in its room's list. -/
def Allocated (u t : State) (i : Nat) (b : Booking) : Prop :=
  u.store.free = i :: t.store.free ∧ recordAt t i = ⟨(recordAt u i).gen, some b⟩ ∧
  (∀ j, j ≠ i → recordAt t j = recordAt u j) ∧
  roomList t b.room = insertBy (startIdx t) i (roomList u b.room) ∧
  (∀ r, r ≠ b.room → roomList t r = roomList u r) ∧ t.store.episode = u.store.episode

/-- The quanta and the limits of a placement on kitchen `k` with transit `T` and shift `sh` (R86 to R88):
it begins after now, within the kitchen's opening, and every quantum it uses is unmarked and within the
limits. `own` is the order whose present placement is left out of what is read (R94). -/
def FitsAt (s : State) (own : Option Order) (j : Job) (k T sh : Nat) : Prop :=
  let d : Int := pidx s j.serving - T - 1
  let w : Int := d - sh - j.len
  plannerIdx s < w ∧
  (∀ i, i < j.len →
    ((kitchenAt s k).openFrom : Int) ≤ (w + i) % 288 ∧ (w + i) % 288 < (kitchenAt s k).openTo ∧
    (readCell s own k (w + i)).mark = false ∧
    (readCell s own k (w + i)).prep + share j.load j.len i ≤ (limitsAt s k).capacity) ∧
  ∀ q : Int, d ≤ q → q ≤ d + 2 * T + 1 →
    q ≤ 2303 ∧ (readCell s own k q).mark = false ∧
    (readCell s own k q).carts + 1 ≤ (limitsAt s k).carts

/-- Kitchen `k` gives no placement to a computation for a room of building `building`, for the reason `r`, the first
of the table of R92 that holds, with the deficit `d` of R93: for PREP the smallest, over the valid shifts, of the
largest excess of a window quantum, at most 4095, and 0 for every other reason. -/
def RefusedFor (s : State) (own : Option Order) (j : Job) (building k : Nat) (r : Reason) (d : Nat) : Prop :=
  match transitAt s k building with
  | none => r = .unreachable ∧ d = 0
  | some T => ∀ (dep : Int) (valid : Nat → Prop) (excess : Nat → Nat → Int),
    dep = pidx s j.serving - T - 1 →
    (∀ sh : Nat, valid sh ↔ sh ≤ j.smax ∧ plannerIdx s < dep - sh - j.len ∧ ∀ i, i < j.len →
      ((kitchenAt s k).openFrom : Int) ≤ (dep - sh - j.len + i) % 288 ∧
      (dep - sh - j.len + i) % 288 < (kitchenAt s k).openTo) →
    (∀ (sh i : Nat) (c : LoadCell) (x : Int), c = readCell s own k (dep - sh - j.len + i) →
      x = (c.prep : Int) + share j.load j.len i - (limitsAt s k).capacity →
      excess sh i = if c.mark = true then max 255 x else x) →
    (dep - j.len ≤ plannerIdx s → r = .tooLate ∧ d = 0) ∧
    (plannerIdx s < dep - j.len → (∀ sh, ¬ valid sh) → r = .closed ∧ d = 0) ∧
    ((∃ sh, valid sh) → (∃ q : Int, dep ≤ q ∧ q ≤ dep + 2 * T + 1 ∧
        (2303 < q ∨ (readCell s own k q).mark = true ∨ (limitsAt s k).carts < (readCell s own k q).carts + 1)) →
      r = .carts ∧ d = 0) ∧
    ((∃ sh, valid sh) → (∀ q : Int, dep ≤ q → q ≤ dep + 2 * T + 1 →
        q ≤ 2303 ∧ (readCell s own k q).mark = false ∧ (readCell s own k q).carts + 1 ≤ (limitsAt s k).carts) →
      r = .prep ∧ 1 ≤ d ∧ d ≤ 4095 ∧
      (∀ sh, valid sh → ∃ i, i < j.len ∧ (d : Int) ≤ excess sh i) ∧
      (d = 4095 ∨ ∃ sh, valid sh ∧ ∀ i, i < j.len → excess sh i ≤ d))

/-- `i` has been entered in a list of records by the window starts of the orders: behind every order of an earlier or an
equal one, its placing number being the highest (R83). -/
def EnteredAt (t : State) (i : Nat) (l l' : List Nat) : Prop :=
  ∃ before after, l = before ++ after ∧ l' = before ++ i :: after ∧
    (∀ x ∈ before, windowIdx t x ≤ windowIdx t i) ∧ ∀ x, after.head? = some x → windowIdx t i < windowIdx t x

/-- The Load Table of `t` is that of `u` with the placement of `o` taken off (its shares only when `shares`
says so), new shares and cart units put on, and the marks tested on the quanta it was taken from, as far as
that placement lies within the horizon (R79, R90, R95, R110). -/
def LoadMoved (u t : State) (o : Order) (shares : Bool) (prep carts : Nat → Int → Nat) : Prop :=
  0 ≤ pidx u o.departure → pidx u o.departure + 2 * o.transit + 1 ≤ 2303 →
  (shares = true → 0 ≤ pidx u o.window ∧ pidx u o.window + o.len ≤ 2304) →
  ∀ (k : Nat) (q : Int), 0 ≤ q → q ≤ 2303 →
    (cellAt t k q).prep =
      (if shares = true then (readCell u (some o) k q).prep else (cellAt u k q).prep) + prep k q ∧
    (cellAt t k q).carts = (readCell u (some o) k q).carts + carts k q ∧
    (cellAt t k q).mark =
      if k = o.kitchen ∧ (q ∈ orderCarts u o ∨ (shares = true ∧ q ∈ orderWindow u o)) ∧
          (cellAt t k q).prep ≤ (limitsAt u k).capacity ∧ (cellAt t k q).carts ≤ (limitsAt u k).carts
      then false else (cellAt u k q).mark

/-- Nothing put on (R79). -/
def nothingAdded (_ : Nat) (_ : Int) : Nat := 0

/-- The order of a production list after the five rows of R102 have been tried on it, in order, with now the
planner's now; none when a row has freed it (R103 to R106). -/
def afterRows (s : State) (o : Order) : Option Order :=
  if o.state = .wasted ∧ pidx s o.window + o.len ≤ plannerIdx s then none
  else
    let o := if o.state = .planned ∧ pidx s o.window = plannerIdx s then
      { o with state := .inProduction } else o
    let o := if o.state = .inProduction ∧ pidx s o.departure = plannerIdx s then
      { o with state := .dispatched } else o
    let o := if o.state = .dispatched ∧ pidx s o.serving + 2 = plannerIdx s then
      { o with state := .unconfirmed } else o
    if (o.state = .dispatched ∨ o.state = .delivered ∨ o.state = .unconfirmed) ∧
        pidx s o.departure + 2 * o.transit + 2 = plannerIdx s then none
    else some o

/-- A cycle of kind `kind` has been started on a line, `a` being the line before: the next tag, both timers, the
frame with its flags and slots, start due and CLEAR_ALL lowered, and expiries still waiting taken out of the intake
(R120, R121, R124, R147, R165; the last is log 20). -/
def CycleStarted (s : State) (kind : CycleKind) (a b : Line) : Prop :=
  ∀ f : Filling, f = (match kind with
    | .census => ⟨a, .empty⟩
    | .ordinary => fillDownlinks s (decide (a.chain = .quiet)) a) →
  b = { a with
    tag := (a.tag + 1) % 32
    inFlight := some ((a.tag + 1) % 32, kind)
    cycleTimer := some (match kind with
      | .census => 50
      | .ordinary => 2 + min 48 (max (a.census.getD 0) ((a.boundPositions.getLast?).getD 0)))
    pollTimer := some (if a.chain = .quiet ∧ a.litPositions = [] then s.policy.quietPoll * 1000
      else s.policy.pollInterval * 10)
    startDue := false
    clearAll := false
    positions := f.line.positions
    queue := f.line.queue
    intake := (a.intake.filter (· ≠ .pollExpiry)).filter (· ≠ .cycleExpiry)
    out := some ⟨(a.tag + 1) % 32, decide (kind = .census), decide (a.chain = .quiet), a.clearAll, f.slots⟩ }

/-- The numbers of the positions that are bound on a line, in order (R118). -/
def boundNumbers (a : Line) : List Nat :=
  ((List.range 48).map (· + 1)).filter (fun p => decide ((a.at p).bound ≠ none))

/-- A line has entered RUNNING from QUIET, `a` being the line before: every position dark, every bound one queued, and
a cycle called for (R133). -/
def EnteredRunning (s : State) (a c : Line) : Prop :=
  ∃ d : Line, d = { a with
      chain := .running
      positions := d.positions
      queue := a.queue ++ (boundNumbers a).filter (fun p => decide (p ∉ a.queue)) } ∧
    (∀ p, 1 ≤ p → p ≤ 48 → d.at p = { a.at p with litUntil := none }) ∧
    (a.inFlight ≠ none → c = { d with startDue := true }) ∧
    (a.inFlight = none → CycleStarted s .ordinary d c)

/-- What one deferred item makes of a line, `a` before and `b` after: a binding set, its count stopped when the room
leaves, and its position queued; a display queued at the first position bound to its room; RETURNED positions made
PRESENT or SUSPECT, and CLEAR_ALL raised for ALL (R119, R144, R145, R147, R164). -/
def DeferredApplied (d : Deferred) (a b : Line) : Prop :=
  match d with
  | .binding p room => b = { a with
      positions := a.positions.set .reset p { a.at p with
        bound := room, unack := if room = none then none else (a.at p).unack }
      queue := if p ∈ a.queue then a.queue else a.queue ++ [p] }
  | .display room =>
    (∀ p, 1 ≤ p → p ≤ 48 → (a.at p).bound = some room →
      (∀ p', 1 ≤ p' → p' < p → (a.at p').bound ≠ some room) →
      b = { a with queue := if p ∈ a.queue then a.queue else a.queue ++ [p] }) ∧
    ((∀ p, 1 ≤ p → p ≤ 48 → (a.at p).bound ≠ some room) → b = a)
  | .clear target =>
    b = { a with positions := b.positions, clearAll := if target = none then true else a.clearAll } ∧
    ∀ p, b.at p =
      if (target = some p ∨ (target = none ∧ 1 ≤ p ∧ p ≤ 48)) ∧ (a.at p).health = .returned then
        { a.at p with cause := none, health := if (a.at p).misses = 0 then .present else .suspect }
      else a.at p

/-- A list of deferred items applied in its order, `a` being the line before and `b` the line after (R119). -/
def DeferredRun : List Deferred → Line → Line → Prop
  | [], a, b => b = a
  | d :: ds, a, b => ∃ m, DeferredApplied d a m ∧ DeferredRun ds m b

/-- The clear held in a deferred list is answered in `t` at the end of the work that ended its cycle, `a` being the line
the clears are counted on; with none held the link stands (R145, R146; with what stands then is log 37). -/
def HeldClearAnswered (l : Fin 4) (ds : List Deferred) (a : Line) (s t : State) : Prop :=
  ((∀ x, Deferred.clear x ∉ ds) → t.link = s.link) ∧
  ∀ before target after, ds = before ++ .clear target :: after → (∀ x, Deferred.clear x ∉ before) →
    s.link.slot ≠ none → Answered s t .ok (match target with
      | some p => [.u8 (healthCode ((t.lines.get l).at p).health),
          u8Field (((t.lines.get l).at p).cause.map absenceCode), .u8 ((t.lines.get l).at p).misses]
      | none => [.u8 ((List.range 48).filter (fun i => decide ((a.at (i + 1)).health = .returned))).length,
          .u8 ((List.range 48).filter (fun i => decide (((t.lines.get l).at (i + 1)).bound ≠ none ∧
            ((t.lines.get l).at (i + 1)).health ≠ .present))).length])

/-- A line has gone OFFLINE, `a` being the line before: both timers stopped, a clear still held discarded, every position
UNKNOWN and dark (R130, R147; expiries taken out of the intake are log 20). -/
def WentOffline (a b : Line) : Prop :=
  b = { a with
    chain := .offline
    entered := none
    pollTimer := none
    cycleTimer := none
    startDue := false
    inFlight := none
    clearAll := false
    deferred := a.deferred.filter (fun d => match d with
      | .clear _ => false
      | .binding _ _ | .display _ => true)
    intake := (a.intake.filter (· ≠ .pollExpiry)).filter (· ≠ .cycleExpiry)
    positions := b.positions } ∧
  ∀ p, b.at p = if 1 ≤ p ∧ p ≤ 48 then
    { a.at p with health := .unknown, cause := none, misses := 0, litUntil := none } else a.at p

/-- A line has entered FAULTED with a cause, `a` being the line before: both timers stopped and start due clear, every
position dark, the deferred list applied, every position ABSENT with cause CHAIN (R131; CLEAR_ALL lowered behind a
deferred clear is log 14, the miss counts kept log 15, expiries taken out of the intake log 20). -/
def Faulted (cause : FaultCause) (a b : Line) : Prop :=
  ∃ m n : Line,
    m = { a with
      inFlight := none
      cycleTimer := none
      pollTimer := none
      startDue := false
      deferred := []
      intake := (a.intake.filter (· ≠ .pollExpiry)).filter (· ≠ .cycleExpiry)
      positions := m.positions } ∧
    (∀ p, m.at p = if 1 ≤ p ∧ p ≤ 48 then { a.at p with litUntil := none } else a.at p) ∧
    DeferredRun a.deferred m n ∧
    b = { n with
      chain := .faulted, entered := some (.fault cause), clearAll := false, positions := b.positions } ∧
    ∀ p, b.at p = if 1 ≤ p ∧ p ≤ 48 then { n.at p with health := .absent, cause := some .chain } else n.at p

/-! ### Invariants -/

/-- The report queues, the Hold List and the owed-BUSY list stay within their sizes, the supervision
counter within 3, and every statistics counter within 16 bits (R31, R171, R175, R177, R185). -/
def WithinSizes (s : State) : Prop :=
  s.reports.events.length ≤ 256 ∧ s.reports.exceptions.length ≤ 32 ∧ s.link.owed.length ≤ 8 ∧
  s.store.holds.length ≤ 64 ∧ s.superv.counter ≤ 3 ∧
  s.counters.linkErrors ≤ 65535 ∧ s.counters.busyReplies ≤ 65535 ∧ s.counters.unknownRoom ≤ 65535 ∧
  s.counters.bookingRefusals ≤ 65535 ∧ s.counters.cateringRefusals ≤ 65535 ∧
  s.counters.releases ≤ 65535 ∧ s.counters.dropped ≤ 65535 ∧
  ∀ l : Fin 4, s.counters.echoFailures.get l ≤ 65535 ∧ s.counters.misses.get l ≤ 65535

/-- Every table is in its canonical form (the model's own form of the part's tables). -/
def TablesCanonical (s : State) : Prop :=
  s.rooms.wf none ∧ s.kitchens.wf noKitchen ∧ s.distances.wf none ∧ s.menu.wf noClass ∧
  s.store.records.wf ⟨0, none⟩ ∧ s.store.lists.wf [] ∧ s.engine.lastEnd.wf none ∧
  s.engine.kept.wf none ∧ s.planner.load.wf noLoad ∧ s.planner.limits.wf ⟨0, 0⟩ ∧
  s.planner.records.wf ⟨0, none⟩ ∧ s.planner.lists.wf [] ∧
  ∀ l : Fin 4, (s.lines.get l).positions.wf .reset

/-- A counting time in range (R2). -/
def CountOk (k : Counting) : Prop := k.time.quantum ≤ 287 ∧ k.ms ≤ 299999

/-- The clock is in one of the three states of R3: nothing known in UNSET; a counting time and a now in
RUNNING; in HELD the held quantum as well, which is now. -/
def ClockLegal (c : Clock) : Prop :=
  match c.state with
  | .unset => c.count = none ∧ c.now = none ∧ c.held = none
  | .running => (∃ k, c.count = some k ∧ CountOk k) ∧ (∃ t, c.now = some t ∧ t.quantum ≤ 287) ∧
      c.held = none
  | .held => (∃ k, c.count = some k ∧ CountOk k) ∧
      (∃ t, c.now = some t ∧ c.held = some t ∧ t.quantum ≤ 287)

/-- A line's timers agree with its chain state: in OFFLINE, DRAINING and FAULTED the poll timer is
STOPPED and start due clear, and in OFFLINE and FAULTED no cycle is in flight and the cycle timer is
STOPPED; the tag stays a 5-bit value, the consecutive echo failures within 2 (R117, R124, R130, R131). -/
def LineLegal (ln : Line) : Prop :=
  ((ln.chain = .offline ∨ ln.chain = .draining ∨ ln.chain = .faulted) →
    ln.pollTimer = none ∧ ln.startDue = false) ∧
  ((ln.chain = .offline ∨ ln.chain = .faulted) → ln.inFlight = none ∧ ln.cycleTimer = none) ∧
  ln.tag ≤ 31 ∧ ln.echoFails ≤ 2

/-- Every line's timers agree with its chain state. -/
def LinesLegal (s : State) : Prop := ∀ l : Fin 4, LineLegal (s.lines.get l)

/-- The booking free list holds every free record of the 2048 once, and no live one (R20, R22). -/
def BookingPoolExact (s : State) : Prop :=
  s.store.free.Nodup ∧ (∀ i, (bookingAt s i).isSome → i < 2048) ∧
  ∀ i, i ∈ s.store.free ↔ i < 2048 ∧ bookingAt s i = none

/-- The order free list holds every free record of the 768 once, and no order's (R81). -/
def OrderPoolExact (s : State) : Prop :=
  s.planner.free.Nodup ∧ (∀ i, (orderAt s i).isSome → i < 768) ∧
  ∀ i, i ∈ s.planner.free ↔ i < 768 ∧ orderAt s i = none

/-- The Policy Set's values lie in the ranges of R17. -/
def PolicyInRange (p : Policy) : Prop :=
  1 ≤ p.grace ∧ p.grace ≤ 6 ∧ 1 ≤ p.holdLimit ∧ p.holdLimit ≤ 12 ∧ 3 ≤ p.walkupMax ∧
  p.walkupMax ≤ 24 ∧ p.scanFirst ≤ p.scanLast ∧ p.scanLast ≤ 511 ∧
  p.scanStep ∈ [16, 32, 64, 128, 256, 512, 1024] ∧ 2 ≤ p.deglitch ∧ p.deglitch ≤ 15 ∧
  5 ≤ p.pollInterval ∧ p.pollInterval ≤ 100 ∧ 2 ≤ p.quietPoll ∧ p.quietPoll ≤ 30 ∧
  1 ≤ p.supervision ∧ p.supervision ≤ 60 ∧
  ∀ f t, p.quietWindow = some (f, t) → f ≤ 287 ∧ t ≤ 287 ∧ f ≠ t

end Sys2Proof.Machine
end

