-- ==== Sys2Proof/Certificates/Slice0/Obligations.lean ====
section
/-! DEFINITION. The statements for the provers, chapter by chapter. Each docstring names the rules it states,
and the log entries where a clause rests on the model's own choice. -/

section Statements

open Sys2Proof Sys2Proof.Machine

/-! ### The queue, power and reset -/

/-- One step runs the command at the front of the queue on the state with the queue's rest. On an empty queue
the part idles, which is the model's choice (log 1). -/
def Obligations.StepRunsTheFrontCommand : Prop :=
  (∀ (c : Instr) (rest : List Instr) (s : State),
    step (s.withPending (c :: rest)) = exec c (s.withPending rest)) ∧
  ∀ s : State, s.pending = [] → step s = .next s

/-- Every command answers a next state, and leaves the queue of waiting commands as it was. Without the part
running, only the supply, the crystal and the attention wires do anything (R182; a step that cannot be made
changing nothing is log 2). -/
def Obligations.EveryCommandAnswers : Prop :=
  (∀ (c : Instr) (s : State), ∃ t, exec c s = .next t ∧ t.pending = s.pending) ∧
  ∀ (c : Instr) (s : State), s.power ≠ .running → isPin c = false → exec c s = .next s

/-- The start-up and the supply (R182; the phases are log 23 and log 24, the wires' levels log 21), and the
attention line in every phase (R174). -/
def Obligations.PowerSequence : Prop :=
  (∀ s : State, exec .powerOn s = .next { State.reset with
      pending := s.pending, power := .waiting .power, cause := .power, rate := s.rate
      lines := s.lines.map (fun ln => { Line.reset with wire := ln.wire }) }) ∧
  (∀ s : State, s.power = .running → exec .supplyLowReset s = .next { State.reset with
      pending := s.pending, power := .heldLow .supplyLow, cause := .supplyLow, rate := s.rate
      lines := s.lines.map (fun ln => { Line.reset with wire := ln.wire }) }) ∧
  (∀ (s : State) (c : ResetCause), s.power = .waiting c →
    exec .supplyLowReset s = .next { s with power := .heldLow c }) ∧
  (∀ (s : State) (c : ResetCause), s.power = .heldLow c →
    exec .supplyRestored s = .next { s with power := .waiting c }) ∧
  (∀ (s : State) (c : ResetCause) (straps : Fin 4), s.power = .waiting c →
    exec (.crystalStable straps) s = .next { State.reset with
      pending := s.pending, power := .running, cause := c, rst := true, rate := straps
      lines := s.lines.map (fun ln => { Line.reset with wire := ln.wire }) }) ∧
  (∀ (s : State) (c : ResetCause), s.power = .waiting c → s.attention = false) ∧
  ∀ s : State, s.attention = true ↔
    s.power = .running ∧ ∃ i : Nat, i < 8 ∧ s.summary.getLsbD i = true ∧
      s.policy.attentionMask.getLsbD i = false

/-- A Reset is answered and then takes effect in its scope: FULL gives the power-on values, WARM keeps what
the chapters keep (R60, R74, R116, R137, R181, R185). The wires' levels are log 21, the empty body of BAD_FIELD
is log 30, the expiries that wait (`due`, discarded) log 20. -/
def Obligations.ResetScopes : Prop :=
  (∀ (scope confirm : Nat) (s u : State), Taken (.reset scope confirm) s u →
    if confirm = 0xC4 ∧ scope ≤ 1 then
      ∃ sl, u.link.slot = some sl ∧ exec (.reset scope confirm) s = .next { u with link := { u.link with
        slot := none
        owed := []
        tx := u.link.tx ++ ⟨sl.kind, sl.tag, u.summary, .ok, []⟩ ::
          u.link.owed.map (fun e => ⟨e.1, e.2, u.summary, .busy, []⟩)
        resetWait := some (if scope = 0 then .full else .warm) } }
    else RepliesOnly (.reset scope confirm) s u .badField []) ∧
  (∀ (s : State) (f : Frame), s.link.resetWait ≠ none → exec (.validFrame f) s = .next s) ∧
  (∀ s : State, s.power = .running → s.link.resetWait = some .full →
    exec .resetTakesEffect s = .next { State.reset with
      pending := s.pending, cause := .full, rst := true, rate := s.rate
      lines := s.lines.map (fun ln => { Line.reset with wire := ln.wire }) }) ∧
  ∀ s : State, s.power = .running → s.link.resetWait = some .warm → TablesCanonical s →
    ∃ t, exec .resetTakesEffect s = .next t ∧
      t = { s with
        cause := .warm
        rst := true
        store := { s.store with episode := false }
        engine := { s.engine with
          intake := s.engine.intake.filter (fun w => match w with
            | .boundary _ | .linkNotice _ _ => true
            | _ => false)
          staged := none
          kept := .empty }
        scanner := ⟨s.policy.scanFirst,
          if s.clock.state = .unset then none else some ⟨s.policy.scanStep, s.policy.scanStep⟩, 0⟩
        planner := { s.planner with
          intake := s.planner.intake.filter (fun w => match w with
            | .boundary _ | .handoff _ _ _ => true
            | _ => false)
          episode := false
          job := none }
        lines := t.lines
        link := .reset
        superv := ⟨0, .linked, s.policy.supervision * 1000, s.superv.provisional, 0⟩
        reports := .reset
        counters := .reset } ∧
      ∀ l : Fin 4,
        t.lines.get l = { Line.reset with
          wire := (s.lines.get l).wire
          now := (s.lines.get l).now
          intake := (s.lines.get l).intake.filter (fun w => match w with
            | .boundary _ => true
            | _ => false)
          positions := (t.lines.get l).positions } ∧
        ∀ p : Nat,
          (t.lines.get l).at p = { Position.reset with bound := ((t.lines.get l).at p).bound } ∧
          (∀ r, ((t.lines.get l).at p).bound = some r → bindingOf s r = some ⟨l, p⟩) ∧
          (((t.lines.get l).at p).bound = none → ∀ r, bindingOf s r ≠ some ⟨l, p⟩)

/-- After every reset the link, the report queues and the counters are empty, RST is set with the cause, and
the two masks are as R183 gives them (R180 to R183). That a power-on and a low supply leave these values at once,
while the start-up still waits, is the model's choice (log 23). -/
def Obligations.ResetLeavesLinkAndReports : Prop :=
  ∀ (c : Instr) (s : State) (k : ResetCause), ResetBy c s k →
    ∃ t, exec c s = .next t ∧
      t.link.slot = none ∧ t.link.owed = [] ∧ t.link.rx = .hunting ∧
      t.reports.events = [] ∧ t.reports.exceptions = [] ∧ t.reports.ovf = false ∧
      t.counters = ⟨0, 0, 0, 0, 0, 0, ⟨0, 0, 0, 0⟩, ⟨0, 0, 0, 0⟩, 0⟩ ∧
      t.summary.getLsbD 7 = false ∧ t.summary.getLsbD 6 = false ∧
      t.rst = true ∧ t.summary.getLsbD 1 = true ∧ t.cause = k ∧
      (k ≠ .warm → t.policy.attentionMask = 0 ∧ t.policy.eventMask = 0x1FFF) ∧
      (k = .warm → t.policy.attentionMask = s.policy.attentionMask ∧
        t.policy.eventMask = s.policy.eventMask)

/-- Every invariant stated below holds right after reset. -/
def Obligations.InvariantsHoldAtReset : Prop :=
  ClockLegal State.reset.clock ∧ WithinSizes State.reset ∧ PolicyInRange State.reset.policy ∧
  TablesCanonical State.reset ∧ BookingPoolExact State.reset ∧ OrderPoolExact State.reset ∧
  LinesLegal State.reset

/-! ### The timebase and the campus clock -/

/-- One tick at every timer of the part (R2, R62, R119, R121, R124, R168, R185), and the two steps in which the clock
enters a quantum (R4, R8). The step timer and the supervision timer restart at once when they expire; that the expiry
then waits in a count (`due`), and the order of two expiries on one tick, are the model's (log 20); so is that a
quantum entry, or a return from HELD, for which the count does not call changes nothing (log 2). -/
def Obligations.TicksAndQuantumEntries : Prop :=
  (∀ s : State, s.power = .running → ∃ t, exec .timebaseTick s = .next t ∧
    t = { s with
      clock := t.clock
      scanner := t.scanner
      superv := if s.superv.timer ≤ 1 then
          { s.superv with timer := s.policy.supervision * 1000, due := s.superv.due + 1 }
        else { s.superv with timer := s.superv.timer - 1 }
      link := { s.link with rx := t.link.rx }
      lines := t.lines } ∧
    (s.scanner.timer = none → t.scanner = s.scanner) ∧
    (∀ x, s.scanner.timer = some x → t.scanner = if x.left ≤ 1 then
        { s.scanner with
          timer := some ⟨s.policy.scanStep, s.policy.scanStep⟩, due := s.scanner.due + 1 }
      else { s.scanner with timer := some ⟨x.len, x.left - 1⟩ }) ∧
    (s.clock.state = .unset → t.clock = s.clock) ∧
    (s.clock.state ≠ .unset → t.clock = { s.clock with count := s.clock.count.map (fun k =>
      if k.ms < 299999 then ⟨k.time, k.ms + 1⟩ else ⟨shiftTime k.time 1, 0⟩) }) ∧
    (s.link.rx = .hunting → t.link.rx = .hunting) ∧
    (∀ got gap, s.link.rx = .inFrame got gap → t.link.rx = .inFrame got (min 21 (gap + 1))) ∧
    ∀ l : Fin 4, t.lines.get l = { s.lines.get l with
      cycleTimer := (s.lines.get l).cycleTimer.map (· - 1)
      pollTimer := (s.lines.get l).pollTimer.map (· - 1)
      intake := (s.lines.get l).intake ++
        (if (s.lines.get l).cycleTimer = some 1 then [.cycleExpiry] else []) ++
        (if (s.lines.get l).pollTimer = some 1 then [.pollExpiry] else []) }) ∧
  (∀ (s : State) (k : Counting) (now : CTime), s.power = .running → s.clock.state = .running →
    s.clock.count = some k → s.clock.now = some now →
    if 0 < quantaFrom k.time now then
      exec .quantumEntry s = .next { s with
        clock := { s.clock with now := some (shiftTime now 1) }
        engine := { s.engine with intake := s.engine.intake ++
          [.boundary ⟨shiftTime now 1, decide ((shiftTime now 1).quantum = 0)⟩] }
        planner := { s.planner with intake := s.planner.intake ++
          [.boundary ⟨shiftTime now 1, decide ((shiftTime now 1).quantum = 0)⟩] }
        lines := s.lines.map (fun ln => { ln with intake := ln.intake ++
          [.boundary ⟨shiftTime now 1, decide ((shiftTime now 1).quantum = 0)⟩] }) }
    else exec .quantumEntry s = .next s) ∧
  ∀ (s : State) (k : Counting) (held : CTime), s.power = .running → s.clock.state = .held →
    s.clock.count = some k → s.clock.held = some held →
    if 0 ≤ quantaFrom k.time held then
      exec .heldQuantumReached s = .next
        { s with clock := { s.clock with state := .running, held := none } }
    else exec .heldQuantumReached s = .next s

/-- SetClock checks its field ranges in every clock state, and sets the clock from UNSET (R5). What the
counting time has already entered is settled first (log 22). -/
def Obligations.SetClockSetsTheClock : Prop :=
  ∀ (d q m : Nat) (s u : State), Taken (.setClock d q m) s u →
    (287 < q ∨ 299999 < m → ∃ t, exec (.setClock d q m) s = .next t ∧
      t = { settleClock u with link := t.link } ∧
      Answered u t .badField (clockFields (settleClock u).clock)) ∧
    (q ≤ 287 → m ≤ 299999 → u.clock.state = .unset → ∃ t, exec (.setClock d q m) s = .next t ∧
      t = { u with
        clock := ⟨.running, some ⟨⟨d, q⟩, m⟩, some ⟨d, q⟩, none⟩
        engine := { u.engine with now := some ⟨d, q⟩ }
        planner := { u.planner with now := some ⟨d, q⟩ }
        lines := u.lines.map (fun ln => { ln with now := some ⟨d, q⟩ })
        scanner := { u.scanner with timer := some ⟨u.policy.scanStep, u.policy.scanStep⟩ }
        link := t.link } ∧
      t.summary.getLsbD 2 = false ∧
      Answered u t .ok (clockFields t.clock))

/-- SetClock in RUNNING is classed by its offset from the counting time (R6, R7, R8); `c` has no quantum
entry due. The fields of a refusal, and an absent held quantum outside HELD, are log 25; that the last boundary of a
forward trim is kept, for the next frame to wait for, is log 41. -/
def Obligations.SetClockByOffset : Prop :=
  ∀ (d q m : Nat) (s u : State) (c : Counting) (now : CTime) (h : Option CTime),
    Taken (.setClock d q m) s u → q ≤ 287 → m ≤ 299999 →
    u.clock = ⟨.running, some c, some now, h⟩ → quantaFrom c.time now ≤ 0 → timeOk now = true →
    (msFrom ⟨⟨d, q⟩, m⟩ c = 0 → RepliesOnly (.setClock d q m) s u .ok (clockFields u.clock)) ∧
    (600000 < msFrom ⟨⟨d, q⟩, m⟩ c ∨ msFrom ⟨⟨d, q⟩, m⟩ c < -600000 →
      RepliesOnly (.setClock d q m) s u .clockStep (clockFields u.clock)) ∧
    (0 < msFrom ⟨⟨d, q⟩, m⟩ c → msFrom ⟨⟨d, q⟩, m⟩ c ≤ 600000 →
      ∃ t bs, exec (.setClock d q m) s = .next t ∧
        bs = (List.range (quantaFrom ⟨d, q⟩ now).toNat).map (fun (i : Nat) =>
          Boundary.mk (shiftTime now (i + 1)) (decide ((shiftTime now (i + 1)).quantum = 0))) ∧
        t = { u with
          clock := ⟨.running, some ⟨⟨d, q⟩, m⟩,
            some (shiftTime now ((quantaFrom ⟨d, q⟩ now).toNat : Int)), h⟩
          engine := { u.engine with intake := u.engine.intake ++ bs.map .boundary }
          planner := { u.planner with intake := u.planner.intake ++ bs.map .boundary }
          lines := u.lines.map (fun ln => { ln with intake := ln.intake ++ bs.map .boundary })
          link := t.link } ∧
        Answered { u with link := { u.link with trimmed := match bs.getLast? with
          | some b => some b
          | none => u.link.trimmed } } t .ok (clockFields t.clock)) ∧
    (msFrom ⟨⟨d, q⟩, m⟩ c < 0 → -600000 ≤ msFrom ⟨⟨d, q⟩, m⟩ c → (⟨d, q⟩ : CTime) = now →
      ∃ t, exec (.setClock d q m) s = .next t ∧
        t = { u with clock := ⟨.running, some ⟨⟨d, q⟩, m⟩, some now, h⟩, link := t.link } ∧
        Answered u t .ok (clockFields t.clock)) ∧
    (msFrom ⟨⟨d, q⟩, m⟩ c < 0 → -600000 ≤ msFrom ⟨⟨d, q⟩, m⟩ c → (⟨d, q⟩ : CTime) ≠ now →
      ∃ t, exec (.setClock d q m) s = .next t ∧
        t = { postException (.clockHeld now ⟨⟨d, q⟩, m⟩) (some now)
            { u with clock := ⟨.held, some ⟨⟨d, q⟩, m⟩, some now, some now⟩ } with link := t.link } ∧
        Answered u t .ok (clockFields t.clock))

/-- SetClock while HELD (R9); `c` has not reached the held quantum. The fields of a refusal, and an absent held
quantum outside HELD, are log 25; that the last boundary of a forward trim is kept, for the next frame to wait for, is
log 41. -/
def Obligations.SetClockWhileHeld : Prop :=
  ∀ (d q m : Nat) (s u : State) (c : Counting) (held : CTime),
    Taken (.setClock d q m) s u → q ≤ 287 → m ≤ 299999 →
    u.clock = ⟨.held, some c, some held, some held⟩ → quantaFrom c.time held < 0 →
    timeOk held = true →
    (msFrom ⟨⟨d, q⟩, m⟩ c = 0 → RepliesOnly (.setClock d q m) s u .ok (clockFields u.clock)) ∧
    (600000 < msFrom ⟨⟨d, q⟩, m⟩ c ∨ msFrom ⟨⟨d, q⟩, m⟩ c < -600000 →
      RepliesOnly (.setClock d q m) s u .clockStep (clockFields u.clock)) ∧
    (0 < msFrom ⟨⟨d, q⟩, m⟩ c → msFrom ⟨⟨d, q⟩, m⟩ c ≤ 600000 → quantaFrom ⟨d, q⟩ held < 0 →
      ∃ t, exec (.setClock d q m) s = .next t ∧
        t = { u with clock := ⟨.held, some ⟨⟨d, q⟩, m⟩, some held, some held⟩, link := t.link } ∧
        Answered u t .ok (clockFields t.clock)) ∧
    (0 < msFrom ⟨⟨d, q⟩, m⟩ c → msFrom ⟨⟨d, q⟩, m⟩ c ≤ 600000 → 0 ≤ quantaFrom ⟨d, q⟩ held →
      ∃ t bs, exec (.setClock d q m) s = .next t ∧
        bs = (List.range (quantaFrom ⟨d, q⟩ held).toNat).map (fun (i : Nat) =>
          Boundary.mk (shiftTime held (i + 1)) (decide ((shiftTime held (i + 1)).quantum = 0))) ∧
        t = { u with
          clock := ⟨.running, some ⟨⟨d, q⟩, m⟩,
            some (shiftTime held ((quantaFrom ⟨d, q⟩ held).toNat : Int)), none⟩
          engine := { u.engine with intake := u.engine.intake ++ bs.map .boundary }
          planner := { u.planner with intake := u.planner.intake ++ bs.map .boundary }
          lines := u.lines.map (fun ln => { ln with intake := ln.intake ++ bs.map .boundary })
          link := t.link } ∧
        Answered { u with link := { u.link with trimmed := match bs.getLast? with
          | some b => some b
          | none => u.link.trimmed } } t .ok (clockFields t.clock)) ∧
    (msFrom ⟨⟨d, q⟩, m⟩ c < 0 → -600000 ≤ msFrom ⟨⟨d, q⟩, m⟩ c →
      600000 < msFrom ⟨held, 0⟩ ⟨⟨d, q⟩, m⟩ →
      RepliesOnly (.setClock d q m) s u .clockStep (clockFields u.clock)) ∧
    (msFrom ⟨⟨d, q⟩, m⟩ c < 0 → -600000 ≤ msFrom ⟨⟨d, q⟩, m⟩ c →
      msFrom ⟨held, 0⟩ ⟨⟨d, q⟩, m⟩ ≤ 600000 →
      ∃ t, exec (.setClock d q m) s = .next t ∧
        t = { postException (.clockHeld held ⟨⟨d, q⟩, m⟩) (some held)
            { u with clock := ⟨.held, some ⟨⟨d, q⟩, m⟩, some held, some held⟩ } with link := t.link } ∧
        Answered u t .ok (clockFields t.clock))

/-- Every step keeps the clock in one of the three states of R3, its times in range. -/
def Obligations.ClockStaysLegal : Prop :=
  ∀ s t : State, ClockLegal s.clock → step s = .next t → ClockLegal t.clock

/-! ### The host link, reports and counters -/

/-- The bytes of a request frame, sent one after the other to a hunting receiver, deliver exactly that frame
(R168, R169, R184). -/
def Obligations.HostFrameReceived : Prop :=
  ∀ (f : Frame) (s : State), frameOk f = true → s.power = .running → s.link.rx = .hunting →
    Host.Core.run Sys2Proof.core (frameWire f).length
      (s.withPending ((frameWire f).map (fun b => .hostByteReceived b true))) =
    .next { s with pending := [], link := { s.link with frames := s.link.frames ++ [f] } }

/-- Every well-formed request is read back from the frame that carries it, with every operand (R170, R184). -/
def Obligations.RequestRoundTrip : Prop :=
  ∀ (r : HostRequest) (tag : Nat), (commandOf r).wf = true → r ≠ .setPolicy .unreadable →
    decodeRequest (requestFrame r tag) = .request r

/-- The receiver byte by byte: what it takes, what it drops, and the CRC's test value (R168, R169). A character
without its stop bit is no start byte while hunting (log 13). -/
def Obligations.ReceiverDropsBadFrames : Prop :=
  crc16 [0x31, 0x32, 0x33, 0x34, 0x35, 0x36, 0x37, 0x38, 0x39] = 0x29B1 ∧
  (∀ (b : Byte) (stop : Bool) (s : State), s.power = .running → s.link.rx = .hunting →
    exec (.hostByteReceived b stop) s = .next (if b = 0xA5 ∧ stop = true then
      { s with link := { s.link with rx := .inFrame [] 0 } } else s)) ∧
  (∀ (b : Byte) (stop : Bool) (got : List Byte) (gap : Nat) (s : State), s.power = .running →
    s.link.rx = .inFrame got gap → gap ≤ 20 →
    exec (.hostByteReceived b stop) s = .next (
      if stop = false ∨ 240 < ((got ++ [b]).headD 0).toNat then
        { s with link := { s.link with rx := .hunting }
                 counters := { s.counters with linkErrors := saturate s.counters.linkErrors } }
      else if got.length + 1 = ((got ++ [b]).headD 0).toNat + 5 then
        if crc16 (got.take (got.length - 1)) =
            BitVec.ofNat 16 ((got.getD (got.length - 1) 0).toNat * 256 + b.toNat) then
          { s with link := { s.link with
              rx := .hunting
              frames := s.link.frames ++ [⟨(got.getD 1 0).toNat, (got.getD 2 0).toNat,
                (got.drop 3).take (got.length - 4)⟩] } }
        else
          { s with link := { s.link with rx := .hunting }
                   counters := { s.counters with linkErrors := saturate s.counters.linkErrors } }
      else { s with link := { s.link with rx := .inFrame (got ++ [b]) 0 } })) ∧
  (∀ (got : List Byte) (gap : Nat) (s : State), s.power = .running → s.link.rx = .inFrame got gap →
    20 < gap → exec .interByteGapExpiry s = .next
      { s with link := { s.link with rx := .hunting }
               counters := { s.counters with linkErrors := saturate s.counters.linkErrors } }) ∧
  ∀ (got : List Byte) (gap : Nat) (b : Byte) (stop : Bool) (s : State), s.power = .running →
    s.link.rx = .inFrame got gap → 20 < gap → exec (.hostByteReceived b stop) s = .next
      { s with
        link := { s.link with
          rx := if b = 0xA5 ∧ stop = true then .inFrame [] 0 else .hunting }
        counters := { s.counters with linkErrors := saturate s.counters.linkErrors } }

/-- A valid frame is reported to Link Supervision and meets the request slot: a full slot owes it a BUSY reply, an
empty one takes its request to the owner, or answers BAD_KIND or BAD_FIELD (R170, R171, R186). No frame is taken while
the last boundary of a forward trim still waits at an owner, so that a request sent after the trim's reply finds the
boundary work taken (R7; that the frame waits is log 41). That the replies built before have by then been sent is log
7, the empty bodies of the refusals log 30. -/
def Obligations.FrameMeetsTheSlot : Prop :=
  (∀ (f : Frame) (b : Boundary) (s : State), s.link.trimmed = some b →
    (.boundary b ∈ s.engine.intake ∨ .boundary b ∈ s.planner.intake ∨
      ∃ l : Fin 4, .boundary b ∈ (s.lines.get l).intake) →
    exec (.validFrame f) s = .next s) ∧
  ∀ (f : Frame) (rest : List Frame) (s v r : State), s.power = .running → s.link.resetWait = none →
    (∀ b, s.link.trimmed = some b → .boundary b ∉ s.engine.intake ∧ .boundary b ∉ s.planner.intake ∧
      ∀ l : Fin 4, .boundary b ∉ (s.lines.get l).intake) →
    s.link.frames = f :: rest →
    v = { s with
      link := { s.link with frames := rest, trimmed := none }
      superv := { s.superv with counter := 0, link := .linked } } →
    r = (if s.superv.link = .hostLost then
      postException (.hostReturned s.superv.provisional) s.clock.now v else v) →
    (s.link.slot.isSome = true → exec (.validFrame f) s = .next { r with
      link := { r.link with
        owed := if s.link.owed.length < 8 then s.link.owed ++ [(f.kind, f.tag)] else s.link.owed }
      counters := { r.counters with busyReplies := saturate r.counters.busyReplies } }) ∧
    (s.link.slot = none → decodeRequest f = .unknownKind →
      exec (.validFrame f) s = .next { r with
        link := { r.link with tx := [⟨f.kind, f.tag, r.summary, .badKind, []⟩] } }) ∧
    (s.link.slot = none → decodeRequest f = .badLength →
      exec (.validFrame f) s = .next { r with
        link := { r.link with tx := [⟨f.kind, f.tag, r.summary, .badField, []⟩] } }) ∧
    ∀ q, s.link.slot = none → decodeRequest f = .request q →
      exec (.validFrame f) s = .next { r with
        link := { r.link with tx := [], slot := some ⟨f.kind, f.tag, q, .handed⟩ }
        engine := if ownerOf q = .engine then
          { r.engine with intake := r.engine.intake ++ [.host q] } else r.engine
        planner := if ownerOf q = .planner then
          { r.planner with intake := r.planner.intake ++ [.host q] } else r.planner
        lines := match ownerOf q with
          | .line l => r.lines.set l
              { r.lines.get l with intake := (r.lines.get l).intake ++ [.host q] }
          | _ => r.lines }

/-- While a request is in service no reply is built, and the command that empties the slot builds one reply to
it and then one BUSY reply for each frame owed one, in order (R170, R171, R172). -/
def Obligations.OneReplyPerRequest : Prop :=
  ∀ (c : Instr) (s t : State) (sl : Slot), isReset c = false → s.link.slot = some sl →
    exec c s = .next t →
    (∃ sl', t.link.slot = some sl' ∧ sl'.kind = sl.kind ∧ sl'.tag = sl.tag ∧ sl'.req = sl.req ∧
      t.link.tx = s.link.tx) ∨
    (t.link.slot = none ∧ t.link.owed = [] ∧ ∃ (a b : BitVec 8) (r : Result) (body : List Field),
      t.link.tx = s.link.tx ++ ⟨sl.kind, sl.tag, a, r, body⟩ ::
        s.link.owed.map (fun e => ⟨e.1, e.2, b, .busy, []⟩))

/-- Identify, with every value of the revision letter (R179). -/
def Obligations.IdentifyReply : Prop :=
  ∀ s u : State, Taken .identify s u → RepliesOnly .identify s u .ok
    [.u16 0x5120, .mask8 Config.revision, .u16 512, .u8 24, .u8 8, .u8 4, .u8 48, .u16 2048, .u8 64,
     .u16 768, .u16 256, .u8 32, .u8 u.rate.val]

/-- GetStatus, and the acknowledgement of the reset cause; ReadReports removes the oldest records of one queue and
clears OVF behind its reply; ReadCounters returns the fifteen counters, and clears them behind its reply when told
to (R176, R178, R180). The flags' bits, two widths and the one count of a ReadReports reply are log 8, the clock's
times sent absent where they do not exist log 42, the empty bodies of BAD_FIELD log 30. -/
def Obligations.StatusReportsAndCountersRead : Prop :=
  (∀ (flags : Nat) (s u : State), Taken (.getStatus flags) s u →
    if 1 < flags then RepliesOnly (.getStatus flags) s u .badField []
    else ∃ t, exec (.getStatus flags) s = .next t ∧
      t = { u with rst := if flags = 1 then false else u.rst, link := t.link } ∧
      (flags = 1 → t.summary.getLsbD 1 = false) ∧
      Answered u t .ok
        [.u8 (causeCode u.cause), .u8 (clockCode u.clock.state),
         timeField (u.clock.count.map Counting.time),
         (match u.clock.count with | some k => .u24 k.ms | none => .absent 3),
         timeField u.clock.now, timeField u.clock.held, .u8 (linkCode u.superv.link),
         .u16 u.superv.provisional, .u16 u.reports.events.length, .u8 u.reports.exceptions.length,
         .u16 u.store.free.length, .u8 u.store.holds.length, .u16 u.planner.free.length,
         .u16 u.planner.marked.length,
         .u8 (chainCode (u.lines.get 0).chain), .u8 (chainCode (u.lines.get 1).chain),
         .u8 (chainCode (u.lines.get 2).chain), .u8 (chainCode (u.lines.get 3).chain)]) ∧
  (∀ (queue n : Nat) (s u : State), Taken (.readReports queue n) s u →
    if queue = 0 ∧ n ≤ 12 then
      ∃ t, exec (.readReports queue n) s = .next t ∧
        t = { u with reports := ⟨u.reports.events.drop n, u.reports.exceptions, false⟩, link := t.link } ∧
        RepliesWith u t
          ({ u with reports := { u.reports with events := u.reports.events.drop n } } : State).summary .ok
          (.u8 (min n u.reports.events.length) :: .u16 (u.reports.events.length - n) ::
            (u.reports.events.take n).map .event)
    else if queue = 1 ∧ n ≤ 8 then
      ∃ t, exec (.readReports queue n) s = .next t ∧
        t = { u with reports := ⟨u.reports.events, u.reports.exceptions.drop n, false⟩, link := t.link } ∧
        RepliesWith u t
          ({ u with reports := { u.reports with
              exceptions := u.reports.exceptions.drop n } } : State).summary .ok
          (.u8 (min n u.reports.exceptions.length) :: .u16 (u.reports.exceptions.length - n) ::
            (u.reports.exceptions.take n).map .exception)
    else RepliesOnly (.readReports queue n) s u .badField []) ∧
  ∀ (flags : Nat) (s u : State), Taken (.readCounters flags) s u →
    if 1 < flags then RepliesOnly (.readCounters flags) s u .badField []
    else ∃ t, exec (.readCounters flags) s = .next t ∧
      t = { u with
        counters := if flags = 1 then ⟨0, 0, 0, 0, 0, 0, ⟨0, 0, 0, 0⟩, ⟨0, 0, 0, 0⟩, 0⟩ else u.counters
        link := t.link } ∧
      Answered u t .ok
        [.u16 u.counters.linkErrors, .u16 u.counters.busyReplies, .u16 u.counters.unknownRoom,
         .u16 u.counters.bookingRefusals, .u16 u.counters.cateringRefusals, .u16 u.counters.releases,
         .u16 (u.counters.echoFailures.get 0), .u16 (u.counters.echoFailures.get 1),
         .u16 (u.counters.echoFailures.get 2), .u16 (u.counters.echoFailures.get 3),
         .u16 (u.counters.misses.get 0), .u16 (u.counters.misses.get 1),
         .u16 (u.counters.misses.get 2), .u16 (u.counters.misses.get 3), .u16 u.counters.dropped]

/-- The supervision timer's expiries, taken one after another (R185, R187): the timer has restarted at once, and
the expiries not yet taken are counted in `due` (log 20). -/
def Obligations.SupervisionExpiry : Prop :=
  ∀ s : State, s.power = .running → 0 < s.superv.due →
    (s.superv.counter < 2 → exec .supervisionTimerExpiry s = .next { s with
      superv := { s.superv with counter := s.superv.counter + 1, due := s.superv.due - 1 } }) ∧
    (s.superv.counter = 2 → exec .supervisionTimerExpiry s = .next
      (postException (.hostLost s.policy.supervision) s.clock.now { s with
        superv := { s.superv with counter := 3, link := .hostLost, due := s.superv.due - 1 } })) ∧
    (3 ≤ s.superv.counter → exec .supervisionTimerExpiry s = .next { s with
      superv := { s.superv with due := s.superv.due - 1 } })

/-- The eight conditions of the summary byte, and the byte that every reply carries, the BUSY replies' included
(R173). -/
def Obligations.SummaryByte : Prop :=
  (∀ s : State, TablesCanonical s →
    (s.summary.getLsbD 7 = true ↔ s.reports.events ≠ []) ∧
    (s.summary.getLsbD 6 = true ↔ s.reports.exceptions ≠ []) ∧
    (s.summary.getLsbD 5 = true ↔ s.reports.ovf = true) ∧
    (s.summary.getLsbD 4 = true ↔ ∃ (l : Fin 4) (p : Nat),
      ((s.lines.get l).at p).bound.isSome = true ∧ ((s.lines.get l).at p).health ≠ .present) ∧
    (s.summary.getLsbD 3 = true ↔ ∃ key : Nat, (s.planner.load.get noLoad key).mark = true) ∧
    (s.summary.getLsbD 2 = true ↔ s.clock.state = .unset ∨ s.clock.state = .held) ∧
    (s.summary.getLsbD 1 = true ↔ s.rst = true) ∧
    (s.summary.getLsbD 0 = true ↔ 0 < s.superv.provisional)) ∧
  (∀ (k g : Nat) (r : Result) (b : List Field) (s : State),
    (buildReply k g r b s).link.tx = s.link.tx ++ [⟨k, g, s.summary, r, b⟩]) ∧
  ∀ s : State, (flushBusy s).link.tx =
    s.link.tx ++ s.link.owed.map (fun e => ⟨e.1, e.2, s.summary, .busy, []⟩)

/-- The report queues, the owed-BUSY list, the Hold List, the supervision counter and the statistics counters
stay within their sizes, and the Policy Set within its ranges, at every step (R17, R31, R171, R175, R177,
R185). -/
def Obligations.SizesAndPolicyStayInRange : Prop :=
  ∀ s t : State, WithinSizes s → PolicyInRange s.policy → step s = .next t →
    WithinSizes t ∧ PolicyInRange t.policy

/-- Every step keeps every table in its canonical form (the model's own form of the part's tables). -/
def Obligations.TablesStayCanonical : Prop :=
  ∀ s t : State, TablesCanonical s → step s = .next t → TablesCanonical t

/-! ### The Campus Model Store -/

/-- SetPolicy stores the value clamped to its range, answers CLAMPED when that changed it, and refuses an
undefined code (R17, R18); the scan step taken is the nearest member, a tie going to the larger. That a quiet
window with from equal to to counts as clamped is log 17, that an event mask with bits 13 to 15 set is taken log 12,
the codes of on and off log 9, how a window that is off is spelt log 8, the empty body of BAD_FIELD log 30. -/
def Obligations.SetPolicyClamps : Prop :=
  (∀ (p : PolicyReq) (s u : State), Taken (.setPolicy p) s u →
    (match p with
      | .absentAction c => 2 < c
      | .absentReport c | .autoCheckIn c => 1 < c
      | .unreadable => True
      | _ => False) → RepliesOnly (.setPolicy p) s u .badField []) ∧
  (∀ (p : PolicyReq) (s u : State), Taken (.setPolicy p) s u →
    ∀ (want : Policy) (same : Prop),
    (match p with
      | .grace n => want = { u.policy with grace := max 1 (min 6 n) } ∧ (same ↔ 1 ≤ n ∧ n ≤ 6)
      | .holdLimit n => want = { u.policy with holdLimit := max 1 (min 12 n) } ∧ (same ↔ 1 ≤ n ∧ n ≤ 12)
      | .walkupMax n => want = { u.policy with walkupMax := max 3 (min 24 n) } ∧ (same ↔ 3 ≤ n ∧ n ≤ 24)
      | .scanRange f l => want = { u.policy with
          scanFirst := min 511 f, scanLast := max (min 511 f) (min 511 l) } ∧
          (same ↔ f ≤ l ∧ l ≤ 511)
      | .scanStep n => want = { u.policy with scanStep := nearestStep n } ∧
          (same ↔ n ∈ [16, 32, 64, 128, 256, 512, 1024])
      | .deglitch n => want = { u.policy with deglitch := max 2 (min 15 n) } ∧ (same ↔ 2 ≤ n ∧ n ≤ 15)
      | .pollInterval n => want = { u.policy with pollInterval := max 5 (min 100 n) } ∧
          (same ↔ 5 ≤ n ∧ n ≤ 100)
      | .quietPoll n => want = { u.policy with quietPoll := max 2 (min 30 n) } ∧ (same ↔ 2 ≤ n ∧ n ≤ 30)
      | .supervision n => want = { u.policy with supervision := max 1 (min 60 n) } ∧
          (same ↔ 1 ≤ n ∧ n ≤ 60)
      | .quietWindow none => want = { u.policy with quietWindow := none } ∧ same
      | .quietWindow (some (f, t)) => want = { u.policy with
          quietWindow := if min 287 f = min 287 t then none else some (min 287 f, min 287 t) } ∧
          (same ↔ f ≤ 287 ∧ t ≤ 287 ∧ f ≠ t)
      | .attentionMask m => want = { u.policy with attentionMask := m } ∧ same
      | .eventMask m => want = { u.policy with eventMask := m.setWidth 13 } ∧ same
      | .absentAction 0 => want = { u.policy with absentAction := .hold } ∧ same
      | .absentAction 1 => want = { u.policy with absentAction := .suspend } ∧ same
      | .absentAction 2 => want = { u.policy with absentAction := .close } ∧ same
      | .absentReport 0 => want = { u.policy with absentReport := true } ∧ same
      | .absentReport 1 => want = { u.policy with absentReport := false } ∧ same
      | .autoCheckIn 0 => want = { u.policy with autoCheckIn := true } ∧ same
      | .autoCheckIn 1 => want = { u.policy with autoCheckIn := false } ∧ same
      | _ => False) →
    ∃ t r, exec (.setPolicy p) s = .next t ∧ t = { u with policy := want, link := t.link } ∧
      (same → r = .ok) ∧ (¬ same → r = .clamped) ∧ Answered u t r (policyFields want p)) ∧
  ∀ n m : Nat, m ∈ [16, 32, 64, 128, 256, 512, 1024] →
    nearestStep n ∈ [16, 32, 64, 128, 256, 512, 1024] ∧
    ((nearestStep n : Int) - n).natAbs ≤ ((m : Int) - n).natAbs ∧
    (((nearestStep n : Int) - n).natAbs = ((m : Int) - n).natAbs → m ≤ nearestStep n)

/-- The reads of the Campus Model Store, of the planner's load and orders, and of the panel lines answer with what
stands, and change nothing (R19, R99, R100, R115, R136, R151). The field forms the manual leaves open (a quiet window
off, the counts of lists, shares, horizon indices, flags, the cycle in flight and the window flag among them) are log 8,
a continuation's quantum above 287 log 40, a continuation sent absent when no order remains log 42, when a last reply is
held log 38, the empty bodies of refusals log 30. -/
def Obligations.ReadsAnswerWhatStands : Prop :=
  (∀ s u : State, Taken .readPolicy s u → RepliesOnly .readPolicy s u .ok
    ([.u8 u.policy.grace, .u8 u.policy.holdLimit, .u8 (absentCode u.policy.absentAction),
      .u8 (onOffCode u.policy.absentReport), .u8 (onOffCode u.policy.autoCheckIn),
      .u8 u.policy.walkupMax, .u16 u.policy.scanFirst, .u16 u.policy.scanLast, .u16 u.policy.scanStep,
      .u8 u.policy.deglitch, .u8 u.policy.pollInterval, .u8 u.policy.quietPoll] ++
     (match u.policy.quietWindow with | none => [.absent 4] | some (f, t) => [.u16 f, .u16 t]) ++
     [.u8 u.policy.supervision, .mask8 u.policy.attentionMask, .mask13 u.policy.eventMask])) ∧
  (∀ (r : Nat) (s u : State), Taken (.readRoom r) s u →
    if 511 < r then RepliesOnly (.readRoom r) s u .badField []
    else RepliesOnly (.readRoom r) s u .ok (match roomAt u r with
      | none => [.u8 31, .u16 0, .u8 0, .u8 0, .absent 1, .absent 2, .u8 0, .u16 0]
      | some e => [.u8 e.building, .u16 e.seats, .u8 e.turnaround, .u8 e.primary,
          u8Field e.alternate] ++
        (match e.binding with | none => [.absent 2] | some b => [.u8 b.line.val, .u8 b.pos]) ++
        [.u8 (if e.inService then 0 else 1), .u16 e.label.toNat])) ∧
  (∀ (k : Nat) (s u : State), Taken (.readKitchen k) s u →
    if 7 < k then RepliesOnly (.readKitchen k) s u .badField []
    else RepliesOnly (.readKitchen k) s u .ok [.u8 (kitchenAt u k).capacity, .u8 (kitchenAt u k).carts,
      .u16 (kitchenAt u k).openFrom, .u16 (kitchenAt u k).openTo]) ∧
  (∀ (k : Nat) (s u : State), Taken (.readDistance k) s u →
    if 7 < k then RepliesOnly (.readDistance k) s u .badField []
    else RepliesOnly (.readDistance k) s u .ok
      ((List.range 24).map (fun b => u8Field (transitAt u k b)))) ∧
  (∀ (c : Nat) (s u : State), Taken (.readMenuClass c) s u →
    if 31 < c then RepliesOnly (.readMenuClass c) s u .badField []
    else RepliesOnly (.readMenuClass c) s u .ok
      [.u8 (classAt u c).weight, .u8 (classAt u c).lead, .u8 (classAt u c).holdLimit]) ∧
  (∀ (h : Handle) (s u : State), Taken (.queryOrder h) s u →
    if 767 < h.index ∨ 63 < h.gen then RepliesOnly (.queryOrder h) s u .badField []
    else match liveOrder u h with
      | none => RepliesOnly (.queryOrder h) s u .staleHandle []
      | some o => RepliesOnly (.queryOrder h) s u .ok
        ([.handle h, (match o.booking with | some b => .handle b | none => .absent 3), .time o.serving,
          .u8 o.kitchen, .u8 o.transit, .u8 o.lines.length] ++
         o.lines.flatMap (fun x => [.u8 x.cls, .u8 x.covers]) ++
         [.u16 o.load, .u8 o.len, .u8 o.shift, .time o.window, .time o.departure, .u8 (orderStateCode o.state),
          .u8 (if o.confirmed = true then 1 else 0), .u16 o.placing, .u16 o.room] ++
         .u8 o.len :: (List.range o.len).map (fun i =>
           .u8 (o.load / o.len + if i < o.load % o.len then 1 else 0)) ++
         [.u16 (pidx u o.departure % 65536).toNat,
          .u16 ((pidx u o.departure + 2 * o.transit + 1) % 65536).toNat])) ∧
  (∀ (k : Nat) (first : CTime) (n : Nat) (s u : State), Taken (.readLoad k first n) s u →
    if 7 < k ∨ 287 < first.quantum ∨ n < 1 ∨ 48 < n then RepliesOnly (.readLoad k first n) s u .badField []
    else if plannerNow u = none then RepliesOnly (.readLoad k first n) s u .clockNotSet []
    else if pidx u first < 0 ∨ 2303 < pidx u first then
      RepliesOnly (.readLoad k first n) s u .outOfHorizon []
    else RepliesOnly (.readLoad k first n) s u .ok
      ([.u8 (limitsAt u k).capacity, .u8 (limitsAt u k).carts,
        .u8 (min n (2304 - pidx u first).toNat)] ++
       (List.range (min n (2304 - pidx u first).toNat)).flatMap (fun (i : Nat) =>
        [.u8 (cellAt u k (pidx u first + i)).prep, .u8 (cellAt u k (pidx u first + i)).carts,
         .u8 (if (cellAt u k (pidx u first + i)).mark then 1 else 0)]))) ∧
  (∀ (k : Nat) (cont : Option (CTime × Nat)) (n : Nat) (s u : State),
    Taken (.readProduction k cont n) s u →
    if 7 < k ∨ n < 1 ∨ 8 < n ∨ ∃ c, cont = some c ∧ 287 < c.1.quantum then
      RepliesOnly (.readProduction k cont n) s u .badField []
    else ∀ all : List (Nat × Order),
      all = ((production u k).filterMap (fun i => (orderAt u i).map (fun o => (i, o)))).filter
        (fun e => match cont with
          | none => true
          | some (w, m) =>
            decide (pidx u w < pidx u e.2.window ∨ (pidx u w = pidx u e.2.window ∧ m < e.2.placing))) →
      RepliesOnly (.readProduction k cont n) s u .ok
        (.u8 (min n all.length) :: (all.take n).flatMap (fun e =>
          [.handle ⟨e.1, (orderRecord u e.1).gen⟩, .u8 (orderStateCode e.2.state), .time e.2.window,
           .time e.2.departure, .time e.2.serving, .u8 e.2.len, .u8 e.2.shift, .u16 e.2.load, .u16 e.2.room,
           .u8 (if e.2.confirmed = true then 1 else 0),
           (match e.2.booking with | some b => .handle b | none => .absent 3)]) ++
          .u8 (if n < all.length then 1 else 0) ::
          (match decide (n < all.length), (all.take n).getLast? with
            | true, some e => [.time e.2.window, .u16 e.2.placing]
            | _, _ => [.absent 6]))) ∧
  (∀ (n p : Nat) (s u : State), 3 < n →
    (Taken (.readChain n) s u → RepliesOnly (.readChain n) s u .badField []) ∧
    (Taken (.readPosition n p) s u → RepliesOnly (.readPosition n p) s u .badField []) ∧
    (Taken (.readLineHealth n) s u → RepliesOnly (.readLineHealth n) s u .badField [])) ∧
  (∀ (l : Fin 4) (s u : State), Taken (.readChain l.val) s u →
    RepliesOnly (.readChain l.val) s u .ok
      [.u8 (chainCode (u.lines.get l).chain),
       (match (u.lines.get l).entered with
        | some (.chain c) => .u8 (chainCode c)
        | some (.fault f) => .u8 (faultCode f)
        | none => .absent 1),
       .u8 (u.lines.get l).tag, u8Field ((u.lines.get l).inFlight.map (fun c => cycleCode c.2)),
       u16Field (u.lines.get l).census, u16Field (u.lines.get l).lastHop, .u8 (u.lines.get l).echoFails,
       .u16 (u.counters.echoFailures.get l), flagField (u.lines.get l).window,
       .u8 ((List.range 48).filter (fun i =>
         ((u.lines.get l).at (i + 1)).litUntil.isSome)).length,
       .u8 (u.lines.get l).queue.length]) ∧
  (∀ (l : Fin 4) (p : Nat) (s u : State), Taken (.readPosition l.val p) s u →
    if p < 1 ∨ 48 < p then RepliesOnly (.readPosition l.val p) s u .badField []
    else RepliesOnly (.readPosition l.val p) s u .ok
      [u16Field ((u.lines.get l).at p).bound, .u8 (healthCode ((u.lines.get l).at p).health),
       u8Field (((u.lines.get l).at p).cause.map absenceCode), .u8 ((u.lines.get l).at p).misses,
       u8Field (((u.lines.get l).at p).toggle.map (fun t => if t then 1 else 0)),
       flagField (match ((u.lines.get l).at p).last with | .reply _ _ => true | _ => false),
       .u8 ((u.lines.get l).at p).genSent, .u8 ((u.lines.get l).at p).genAck,
       timeField ((u.lines.get l).at p).litUntil]) ∧
  ∀ (l : Fin 4) (s u : State), Taken (.readLineHealth l.val) s u →
    RepliesOnly (.readLineHealth l.val) s u .ok
      ((List.range 48).flatMap (fun i =>
        [.u8 (healthCode ((u.lines.get l).at (i + 1)).health),
         u8Field (((u.lines.get l).at (i + 1)).cause.map absenceCode),
         flagField ((u.lines.get l).at (i + 1)).bound.isSome]) ++
       [.u8 ((List.range 48).filter (fun i => decide (((u.lines.get l).at (i + 1)).bound ≠ none ∧
         ((u.lines.get l).at (i + 1)).health ≠ .present))).length])

/-- LoadDistance and LoadMenuClass replace one entry or are refused; LoadKitchen replaces its entry and waits
for the planner (R14, R15, R16; the empty body of BAD_FIELD is log 30). -/
def Obligations.TableLoads : Prop :=
  (∀ (k b : Nat) (tr : Option Nat) (s u : State), Taken (.loadDistance k b tr) s u →
    TablesCanonical s →
    if 7 < k ∨ 23 < b ∨ ∃ n, tr = some n ∧ 12 < n then RepliesOnly (.loadDistance k b tr) s u .badField []
    else ∃ t, exec (.loadDistance k b tr) s = .next t ∧ Answered u t .ok [] ∧
      t = { u with distances := t.distances, link := t.link } ∧
      ∀ k' b', b' ≤ 23 → transitAt t k' b' = if k' = k ∧ b' = b then tr else transitAt u k' b') ∧
  (∀ (c w l n : Nat) (s u : State), Taken (.loadMenuClass c w l n) s u → TablesCanonical s →
    if 31 < c ∨ (w ≠ 0 ∧ (255 < w ∨ l < 1 ∨ 24 < l ∨ 8 < n)) then
      RepliesOnly (.loadMenuClass c w l n) s u .badField []
    else ∃ t, exec (.loadMenuClass c w l n) s = .next t ∧ Answered u t .ok [] ∧
      t = { u with menu := t.menu, link := t.link } ∧
      ∀ c', classAt t c' = if c' = c then (if w = 0 then ⟨0, 0, 0⟩ else ⟨w, l, n⟩) else classAt u c') ∧
  ∀ (k : Nat) (e : KitchenSpec) (s u : State), Taken (.loadKitchen k e) s u → TablesCanonical s →
    if 7 < k ∨ 255 < e.capacity ∨ 8 < e.carts ∨ 287 < e.openFrom ∨ 288 < e.openTo ∨
        e.openTo < e.openFrom then
      RepliesOnly (.loadKitchen k e) s u .badField []
    else ∃ t, exec (.loadKitchen k e) s = .next t ∧
      t = { u with
        kitchens := t.kitchens
        planner := { u.planner with
          intake := u.planner.intake ++ [.kitchenChange k e.capacity e.carts] } } ∧
      ∀ k', kitchenAt t k' = if k' = k then e else kitchenAt u k'

/-- LoadRoom: the store's checks, then the engine's, then the whole entry replaced and the panels told (R12,
R13; the refusal bodies to which no rule gives a field, empty here, are log 30). -/
def Obligations.RoomLoads : Prop :=
  (∀ (room : Nat) (e : RoomSpec) (s u : State), Taken (.loadRoom room e) s u →
    if 511 < room ∨ (e.building ≠ 31 ∧ ¬(e.building ≤ 23 ∧ 1 ≤ e.seats ∧ e.seats ≤ 500 ∧
        e.turnaround ≤ 6 ∧ e.primary ≤ 7 ∧ e.service ≤ 1 ∧
        (∀ k, e.alternate = some k → k ≤ 7 ∧ k ≠ e.primary) ∧
        ∀ b, e.binding = some b → b.1 ≤ 3 ∧ 1 ≤ b.2 ∧ b.2 ≤ 48)) then
      RepliesOnly (.loadRoom room e) s u .badField []
    else exec (.loadRoom room e) s = .next { u with
      engine := { u.engine with intake := u.engine.intake ++ [.loadRoomCheck room e] } }) ∧
  ∀ (room : Nat) (spec : RoomSpec) (e : Option RoomEntry) (s u : State),
    takeEngine (.loadRoomCheck room spec) s = some u → u.link.slot.isSome = true → TablesCanonical s →
    specEntry spec = some e →
    (e = none → reservations u room none ≠ [] →
      RepliesOnly (.loadRoomEngineCheck room spec) s u .roomBusy []) ∧
    (∀ n b r, e = some n → n.binding = some b → r ≠ room → bindingOf u r = some b →
      (∀ r', r' ≠ room → bindingOf u r' = some b → r ≤ r') →
      RepliesOnly (.loadRoomEngineCheck room spec) s u .conflict [.u16 r]) ∧
    (∀ n before a b after, e = some n →
      (∀ x r, n.binding = some x → r ≠ room → bindingOf u r ≠ some x) →
      turnaround u room < n.turnaround → reservations u room none = before ++ a :: b :: after →
      idx u b.start < idx u a.fin + n.turnaround →
      (∀ i x y, (before ++ [a])[i]? = some x → (before ++ [a])[i + 1]? = some y →
        idx u x.fin + n.turnaround ≤ idx u y.start) →
      RepliesOnly (.loadRoomEngineCheck room spec) s u .conflict [.time b.start]) ∧
    ((e = none → reservations u room none = []) →
      (∀ n b r, e = some n → n.binding = some b → r ≠ room → bindingOf u r ≠ some b) →
      (∀ n, e = some n → turnaround u room < n.turnaround →
        ∀ i x y, (reservations u room none)[i]? = some x → (reservations u room none)[i + 1]? = some y →
          idx u x.fin + n.turnaround ≤ idx u y.start) →
      ∃ t, exec (.loadRoomEngineCheck room spec) s = .next t ∧ Answered u t .ok [] ∧
        (∀ r, roomAt t r = if r = room then e else roomAt u r) ∧
        t = { u with
          rooms := t.rooms
          engine := { u.engine with kept := t.engine.kept, lastEnd := t.engine.lastEnd }
          lines := t.lines
          link := t.link } ∧
        LinesGained u t ∧
        (e = none → t.engine.lastEnd.get none room = none) ∧
        (e ≠ none → t.engine.lastEnd = u.engine.lastEnd) ∧
        (∀ r, r ≠ room → t.engine.lastEnd.get none r = u.engine.lastEnd.get none r) ∧
        (∀ r, r ≠ room → t.engine.kept.get none r = u.engine.kept.get none r) ∧
        ∀ (old : Option RoomEntry) (asked : Fin 4 → List LineWork), old = roomAt u room →
        (∀ l, asked l = match bindingOf u room with
          | some b => if b.line = l then [.display room] else []
          | none => []) →
        if bindingOf u room ≠ e.bind RoomEntry.binding then
          Shows room t ∧ ∀ l : Fin 4, (t.lines.get l).intake = (u.lines.get l).intake ++
            (match bindingOf u room with
              | some b => if b.line = l then [.binding b.pos none] else []
              | none => []) ++
            (match e.bind RoomEntry.binding with
              | some b => if b.line = l then [.binding b.pos (some room)] else []
              | none => [])
        else if old.map RoomEntry.inService ≠ e.map RoomEntry.inService ∨
            old.map RoomEntry.label ≠ e.map RoomEntry.label then
          Shows room t ∧ ∀ l : Fin 4, (t.lines.get l).intake = (u.lines.get l).intake ++ asked l
        else if old.map RoomEntry.turnaround ≠ e.map RoomEntry.turnaround then
          Shows room t ∧ ∀ l : Fin 4, (t.lines.get l).intake = (u.lines.get l).intake ++
            (if u.engine.kept.get none room = some (factsOf t room) then [] else asked l)
        else t.lines = u.lines ∧ t.engine.kept = u.engine.kept)

/-- The planner takes a kitchen change: the limits, the mark of every quantum from now onward, the one exception
when a quantum is newly marked, and the LoadKitchen's reply; every other quantum stands (R14, R78, R97, R98). -/
def Obligations.KitchenChangeMarks : Prop :=
  ∀ (k capacity carts : Nat) (s u : State), takePlanner (.kitchenChange k capacity carts) s = some u →
    u.link.slot.isSome = true → TablesCanonical s →
    ∃ t, exec (.kitchenChange k capacity carts) s = .next t ∧ Answered u t .ok [] ∧
      t = { u with
        planner := { u.planner with load := t.planner.load, limits := t.planner.limits }
        reports := t.reports
        counters := t.counters
        link := t.link } ∧
      (∀ k', limitsAt t k' = if k' = k then ⟨capacity, carts⟩ else limitsAt u k') ∧
      (∀ (k' : Nat) (h : Int), plannerIdx u ≤ h → h ≤ 2303 →
        cellAt t k' h = if k' = k then
          ⟨(cellAt u k h).prep, (cellAt u k h).carts,
            decide (capacity < (cellAt u k h).prep ∨ carts < (cellAt u k h).carts)⟩
        else cellAt u k' h) ∧
      (∀ h : Int, 0 ≤ h → h < plannerIdx u → h ≤ 2303 → cellAt t k h = cellAt u k h) ∧
      (∀ (k' : Nat) (h : Int), k' ≠ k → cellAt t k' h = cellAt u k' h) ∧
      ((∀ key ∈ markedKeys t k, key ∈ markedKeys u k) →
        t.reports = u.reports ∧ t.counters = u.counters) ∧
      ((∃ key ∈ markedKeys t k, key ∉ markedKeys u k) → ∃ (first : Nat) (q : CTime),
        (∃ key ∈ markedKeys t k, keyIndex (plannerDay u) key = first) ∧
        (∀ key ∈ markedKeys t k, first ≤ keyIndex (plannerDay u) key) ∧
        q = shiftTime ⟨plannerDay u, 0⟩ first ∧
        t.reports = (postException (.overcommit k q (markedKeys t k).length) (plannerNow u) u).reports ∧
        t.counters = (postException (.overcommit k q (markedKeys t k).length) (plannerNow u) u).counters)

/-! ### The Booking Store and the Reservation Engine -/

/-- An admitted Hold or Book makes the head record of the free list a live booking, enters it in its room's
list, a hold in the Hold List too, evaluates the display and answers (R22, R25, R29, R31, R42, R43). -/
def Obligations.BookingsCreated : Prop :=
  (∀ (q : BookReq) (i : Nat) (rest : List Nat) (s u : State), Taken (.book q) s u → TablesCanonical s →
    FieldsInRange q → Admissible u q.room q.start q.fin q.attendees → u.store.free = i :: rest →
    ∃ t, exec (.book q) s = .next t ∧
      Answered u t .ok [.handle ⟨i, (recordAt u i).gen⟩, .time q.start, .time q.fin] ∧
      Allocated u t i ⟨q.room, q.start, q.fin, .confirmed, q.attendees, q.organizer, .host, false, none,
        none, none, none⟩ ∧
      t.store.holds = u.store.holds ∧ Shows q.room t ∧
      ButDisplay { u with store := t.store } t) ∧
  ∀ (q : BookReq) (n i : Nat) (rest : List Nat) (now : CTime) (s u : State), Taken (.hold q n) s u →
    TablesCanonical s → FieldsInRange q → 1 ≤ n → n ≤ u.policy.holdLimit →
    Admissible u q.room q.start q.fin q.attendees → engineNow u = some now →
    u.store.holds.length < 64 → u.store.free = i :: rest →
    ∃ t, exec (.hold q n) s = .next t ∧
      Answered u t .ok [.handle ⟨i, (recordAt u i).gen⟩, .time q.start, .time q.fin,
        .time (shiftTime now n)] ∧
      Allocated u t i ⟨q.room, q.start, q.fin, .tentative, q.attendees, q.organizer, .host, false, none,
        some (shiftTime now n), none, none⟩ ∧
      t.store.holds = insertBy (expiryIdx t) ⟨i, (recordAt u i).gen⟩ u.store.holds ∧ Shows q.room t ∧
      ButDisplay { u with store := t.store } t

/-- Whatever command creates a booking, the new booking conflicts with no reservation of its room (R37). -/
def Obligations.NewBookingsDoNotConflict : Prop :=
  ∀ (c : Instr) (s t : State) (i : Nat) (b : Booking), TablesCanonical s → exec c s = .next t →
    bookingAt s i = none → bookingAt t i = some b →
    NoConflict s b.room b.start b.fin (turnaround s b.room)

/-- A refused Book or Hold is answered by the first check that fails, in the order of R38, and changes nothing
but the reply and the refusal counters; a Hold tests the Hold List before the pool, and with the pool empty either opens
an episode (R24, R32, R38, R41, R42). The handle checks of R21 and R27 come before a request's own work. The empty
bodies are log 30. -/
def Obligations.EngineRefusals : Prop :=
  (∀ (q : BookReq) (n : Nat) (r : HostRequest) (c : Instr) (s u : State), (r = .book q ∨ r = .hold q n) →
    c = commandOf r → Taken r s u →
    if ¬ FieldsInRange q ∨ (r = .hold q n ∧ ¬(1 ≤ n ∧ n ≤ u.policy.holdLimit)) then
      RefusedByEngine c s u .badField []
    else if roomAt u q.room = none then RefusedByEngine c s u .noSuchRoom []
    else if ((roomAt u q.room).map RoomEntry.inService ≠ some true) ∨
        (u.policy.absentAction = .close ∧ panelPresent u q.room = false) then
      RefusedByEngine c s u .roomOutOfService []
    else if engineNow u = none then RefusedByEngine c s u .clockNotSet []
    else if idx u q.fin - idx u q.start < 3 ∨ 144 < idx u q.fin - idx u q.start then
      RefusedByEngine c s u .badField []
    else if idx u q.start < ((engineNow u).map (idx u)).getD 0 ∨ 2304 < idx u q.fin then
      RefusedByEngine c s u .outOfHorizon []
    else if ((roomAt u q.room).map RoomEntry.seats).getD 0 < q.attendees then
      RefusedByEngine c s u .overCapacity []
    else match firstConflict u q.room ⟨q.start, q.fin⟩ none with
    | some x => RefusedByEngine c s u .conflict [.time x]
    | none =>
      if r = .hold q n ∧ 64 ≤ u.store.holds.length then RefusedByEngine c s u .holdsFull []
      else u.store.free = [] → RefusedPoolEmpty c s u q.room []) ∧
  (∀ (u : State) (room : Nat) (a b : CTime) (own : Option Nat),
    firstConflict u room ⟨a, b⟩ own = ((reservations u room own).find? (fun k =>
      decide (idx u k.start < idx u b + turnaround u room ∧
        idx u a < idx u k.fin + turnaround u room))).map Span.start) ∧
  ∀ (r : HostRequest) (h : Handle) (s u : State), Taken r s u →
    (r = .confirm h ∨ (∃ n, r = .cancel h n) ∨ r = .endBooking h ∨ (∃ b, r = .checkIn h b) ∨
      (∃ q, r = .move q ∧ q.booking = h) ∨ r = .acceptProvisional h ∨
      ∃ n ls, r = .placeOrder h n ls) →
    (2047 < h.index ∨ 63 < h.gen → RefusedByEngine (commandOf r) s u .badField []) ∧
    (h.index ≤ 2047 → h.gen ≤ 63 → (recordAt u h.index).gen ≠ h.gen ∨ bookingAt u h.index = none →
      RefusedByEngine (commandOf r) s u .staleHandle []) ∧
    (∀ b, h.index ≤ 2047 → h.gen ≤ 63 → recordAt u h.index = ⟨h.gen, some b⟩ → b.pending ≠ none →
      RefusedByEngine (commandOf r) s u .busy [])

/-- Confirm, Cancel, End and CheckIn on a booking that carries no mark (R44 to R47); an End that finds the end
already at now + 1 changes nothing. The empty bodies of refusals are log 30. -/
def Obligations.ConfirmCancelEndCheckIn : Prop :=
  (∀ (h : Handle) (b : Booking) (s u : State), Taken (.confirm h) s u → TablesCanonical s → Names u h b →
    if b.state = .tentative then
      ∃ t, exec (.confirm h) s = .next t ∧ Answered u t .ok [.handle h] ∧ Shows b.room t ∧
        ButDisplay { u with store := { u.store with
          records := u.store.records.set ⟨0, none⟩ h.index
            ⟨h.gen, some { b with state := .confirmed, expiry := none }⟩
          holds := u.store.holds.filter (· ≠ h) } } t
    else RefusedByEngine (.confirm h) s u .wrongState []) ∧
  (∀ (h : Handle) (n : Nat) (b : Booking) (s u : State), Taken (.cancel h n) s u → TablesCanonical s →
    Names u h b →
    if 1 < n then RefusedByEngine (.cancel h n) s u .badField []
    else if b.state = .checkedIn then RefusedByEngine (.cancel h n) s u .wrongState []
    else if n = 1 ∧ b.order ≠ none then RefusedByEngine (.cancel h n) s u .orderExists []
    else ∃ t, exec (.cancel h n) s = .next t ∧ Answered u t .ok [.handle h] ∧ Shows b.room t ∧
      ButDisplay (freeBooking h.index b .cancelled u) t) ∧
  (∀ (h : Handle) (b : Booking) (s u : State), Taken (.endBooking h) s u → TablesCanonical s →
    Names u h b →
    match engineNow u with
    | none => RefusedByEngine (.endBooking h) s u .clockNotSet []
    | some now =>
      if b.state = .tentative ∨ idx u now < idx u b.start then
        RefusedByEngine (.endBooking h) s u .wrongState []
      else if b.fin = shiftTime now 1 then
        RepliesOnly (.endBooking h) s u .ok [.time (shiftTime now 1)]
      else ∃ t, exec (.endBooking h) s = .next t ∧ Answered u t .ok [.time (shiftTime now 1)] ∧
        Shows b.room t ∧
        ButDisplay { u with store := { u.store with
          records := u.store.records.set ⟨0, none⟩ h.index
            ⟨h.gen, some { b with fin := shiftTime now 1 }⟩ } } t) ∧
  ∀ (h : Handle) (badge : Token) (b : Booking) (s u : State), Taken (.checkIn h badge) s u →
    TablesCanonical s → Names u h b →
    match engineNow u with
    | none => RefusedByEngine (.checkIn h badge) s u .clockNotSet []
    | some now =>
      if b.state = .confirmed ∧ idx u b.start - 1 ≤ idx u now then
        ∃ t, exec (.checkIn h badge) s = .next t ∧ Answered u t .ok [.time now, .token badge] ∧
          Shows b.room t ∧
          ButDisplay { u with store := { u.store with
            records := u.store.records.set ⟨0, none⟩ h.index
              ⟨h.gen, some { b with state := .checkedIn, checkedIn := some now }⟩ } } t
      else RefusedByEngine (.checkIn h badge) s u .wrongState []

/-- The steps in which a booking is freed: the hand-off of its order, the lists, the provisional count, the
generation, the free list, the last end and the event (R23, R26, R31, R35, R36, R56). -/
def Obligations.FreeingABooking : Prop :=
  ∀ (s t : State) (i g : Nat) (b : Booking) (out : Terminal), TablesCanonical s →
    recordAt s i = ⟨g, some b⟩ → t = freeBooking i b out s →
    recordAt t i = ⟨(g + 1) % 64, none⟩ ∧ (∀ j, j ≠ i → recordAt t j = recordAt s j) ∧
    t.store.free = s.store.free ++ [i] ∧ t.store.episode = false ∧
    (∀ r, roomList t r = if r = b.room then (roomList s r).filter (· ≠ i) else roomList s r) ∧
    t.store.holds = (if b.state = .tentative then s.store.holds.filter (· ≠ ⟨i, g⟩)
      else s.store.holds) ∧
    t.superv = { s.superv with
      provisional := if b.provisional = true then s.superv.provisional - 1 else s.superv.provisional } ∧
    t.planner = { s.planner with intake := s.planner.intake ++ (match b.order with
      | some o => [.handoff o ⟨i, g⟩ (match out with
        | .cancelled => .cancelled
        | .ended => .ended
        | .released _ | .expired => .released)]
      | none => []) } ∧
    (∀ r, t.engine.lastEnd.get none r =
      if out = .ended ∧ r = b.room then some b.fin else s.engine.lastEnd.get none r) ∧
    (∀ e : EventRecord,
      (match out with
        | .ended => e = ⟨.bookingEnded, engineStamp s, b.room, ⟨i, g⟩,
            .num (if b.state = .checkedIn then 0 else 1), .none⟩
        | .released d => e = ⟨.bookingReleased, engineStamp s, b.room, ⟨i, g⟩, .time d, .none⟩
        | .expired => e = ⟨.bookingExpired, engineStamp s, b.room, ⟨i, g⟩,
            (match b.expiry with | some x => .time x | none => .none), .none⟩
        | .cancelled => False) →
      t.reports = (postEvent e s).reports ∧ t.counters = (postEvent e s).counters) ∧
    (out = .cancelled → t.reports = s.reports ∧ t.counters = s.counters) ∧
    t.engine = { s.engine with lastEnd := t.engine.lastEnd } ∧
    t.lines = s.lines ∧ t.link = s.link ∧ Apart s t

/-- QueryRoom, QueryBooking and AcceptProvisional (R53, R54, R55). A continuation whose quantum is above 287 is refused
BAD_FIELD by R1 (log 40). How a start is compared with the continuation is log 35, that the continuation is sent absent
when no booking remains, and the staged fields left out without a pending move, log 42, the flags' forms log 8, the
empty bodies log 30. -/
def Obligations.QueriesAndAcceptance : Prop :=
  (∀ (room day : Nat) (cont : Option CTime) (s u : State), Taken (.queryRoom room day cont) s u →
    if 511 < room ∨ ∃ c, cont = some c ∧ 287 < c.quantum then
      RefusedByEngine (.queryRoom room day cont) s u .badField []
    else if roomAt u room = none then RefusedByEngine (.queryRoom room day cont) s u .noSuchRoom []
    else ∀ all : List (Nat × Booking),
      all = (roomBookings u room).filter (fun e =>
        decide (e.2.start.day = day ∨ (e.2.fin.day = day ∧ 0 < e.2.fin.quantum)) &&
        cont.all (fun c => decide (0 ≤ quantaFrom e.2.start c))) →
      RepliesOnly (.queryRoom room day cont) s u .ok
        (.u8 (min 10 all.length) :: (all.take 10).flatMap (fun e =>
          [.handle ⟨e.1, (recordAt u e.1).gen⟩, .time e.2.start, .time e.2.fin, .u8 (bookStateCode e.2.state),
           .u16 e.2.attendees, .token e.2.organizer, .u8 (originCode e.2.origin),
           .u8 (if e.2.provisional = true then 1 else 0), .u8 (if e.2.order = none then 0 else 1),
           (match e.2.pending with | some m => .u8 (markCode m) | none => .absent 1)]) ++
          [.u8 (if 10 < all.length then 1 else 0),
            timeField ((all.drop 10).head?.map (fun e => e.2.start))])) ∧
  (∀ (h : Handle) (s u : State), Taken (.queryBooking h) s u →
    if 2047 < h.index ∨ 63 < h.gen then RefusedByEngine (.queryBooking h) s u .badField []
    else match liveBooking u h with
      | none => RefusedByEngine (.queryBooking h) s u .staleHandle []
      | some b => RepliesOnly (.queryBooking h) s u .ok
        ([.handle h, .u16 b.room, .time b.start, .time b.fin, .u8 (bookStateCode b.state),
          .u16 b.attendees, .token b.organizer, .u8 (originCode b.origin), flagField b.provisional,
          handleField b.order, timeField b.expiry, timeField b.checkedIn,
          u8Field (b.pending.map markCode)] ++
         (match u.engine.staged with
          | some g => if b.pending = some .movePending ∧ g.booking = h then
              [.u16 g.room, .time g.start, .time g.fin] else []
          | none => []))) ∧
  ∀ (h : Handle) (b : Booking) (s u : State), Taken (.acceptProvisional h) s u → TablesCanonical s →
    Names u h b →
    if b.provisional = true then
      ∃ t, exec (.acceptProvisional h) s = .next t ∧ Answered u t .ok [] ∧ Shows b.room t ∧
        (t.superv.provisional = 0 → t.summary.getLsbD 0 = false) ∧
        ButDisplay { u with
          store := { u.store with
            records := u.store.records.set ⟨0, none⟩ h.index
              ⟨h.gen, some { b with provisional := false }⟩ }
          superv := { u.superv with provisional := u.superv.provisional - 1 } } t
    else RefusedByEngine (.acceptProvisional h) s u .wrongState []

/-- A Move runs its field checks, its state limits and the admission checks 1 to 7 in order, check 2 only when it
changes the room, the start half of check 5 only when it changes the room or the start, check 6 only when it changes
the room or the count, and the conflict test with the booking itself left out (R37 to R40, R48). One that passes is
answered at once, or staged when its order must be refitted (R48, R49, R50). That a move naming the present values
answers the catering result NONE is log 18, that it first runs the checks log 36, the codes of the catering results NONE
and KEPT log 8, the empty bodies log 30. -/
def Obligations.MoveWork : Prop :=
  ∀ (q : MoveReq) (b : Booking) (n : Nat) (now : Int) (s u : State), Taken (.move q) s u →
    TablesCanonical s → Names u q.booking b →
    n = (if q.attendees = 0 then b.attendees else q.attendees) →
    now = ((engineNow u).map (idx u)).getD 0 →
    if 511 < q.room ∨ 287 < q.start.quantum ∨ 287 < q.fin.quantum ∨ 500 < q.attendees ∨ 1 < q.flags ∨
        (b.state = .checkedIn ∧ (q.room ≠ b.room ∨ q.start ≠ b.start)) ∨
        (engineNow u ≠ none ∧ idx u q.fin ≤ now) then
      RefusedByEngine (.move q) s u .badField []
    else if roomAt u q.room = none then RefusedByEngine (.move q) s u .noSuchRoom []
    else if q.room ≠ b.room ∧ ((roomAt u q.room).map RoomEntry.inService ≠ some true ∨
        (u.policy.absentAction = .close ∧ panelPresent u q.room = false)) then
      RefusedByEngine (.move q) s u .roomOutOfService []
    else if engineNow u = none then RefusedByEngine (.move q) s u .clockNotSet []
    else if idx u q.fin - idx u q.start < 3 ∨ 144 < idx u q.fin - idx u q.start then
      RefusedByEngine (.move q) s u .badField []
    else if ((q.room ≠ b.room ∨ q.start ≠ b.start) ∧ idx u q.start < now) ∨ 2304 < idx u q.fin then
      RefusedByEngine (.move q) s u .outOfHorizon []
    else if (q.room ≠ b.room ∨ n ≠ b.attendees) ∧ ((roomAt u q.room).map RoomEntry.seats).getD 0 < n then
      RefusedByEngine (.move q) s u .overCapacity []
    else match firstConflict u q.room ⟨q.start, q.fin⟩ (some q.booking.index) with
    | some c => RefusedByEngine (.move q) s u .conflict [.time c]
    | none =>
      ∀ same : Prop, (same ↔ q.room = b.room ∧ q.start = b.start ∧ q.fin = b.fin ∧ n = b.attendees) →
      (same → RepliesOnly (.move q) s u .ok [.u16 q.room, .time q.start, .time q.fin, .u8 0]) ∧
      (∀ o, ¬ same → b.order = some o → q.start ≠ b.start →
        ∃ t, exec (.move q) s = .next t ∧ t.link = u.link ∧ Shows b.room t ∧
          ButDisplay { u with
            store := { u.store with
              records := u.store.records.set ⟨0, none⟩ q.booking.index
                ⟨q.booking.gen, some { b with pending := some .movePending }⟩ }
            engine := { u.engine with
              staged := some ⟨q.booking, q.room, q.start, q.fin, q.attendees⟩ }
            planner := { u.planner with intake := u.planner.intake ++
              [.refit q.booking o q.start q.room (decide (q.flags = 1))] } } t) ∧
      (¬ same → b.order = none ∨ q.start = b.start →
        ∃ t, exec (.move q) s = .next t ∧
          Answered u t .ok [.u16 q.room, .time q.start, .time q.fin,
            .u8 (if b.order = none then 0 else 1)] ∧
          recordAt t q.booking.index = ⟨q.booking.gen, some { b with
            room := q.room, start := q.start, fin := q.fin, attendees := n }⟩ ∧
          (∀ j, j ≠ q.booking.index → recordAt t j = recordAt u j) ∧
          (∀ r, roomList t r =
            if q.room = b.room ∧ q.start = b.start then roomList u r
            else if r = q.room then insertBy (startIdx t) q.booking.index
              (if q.room = b.room then (roomList u r).filter (· ≠ q.booking.index) else roomList u r)
            else if r = b.room then (roomList u r).filter (· ≠ q.booking.index)
            else roomList u r) ∧
          Shows b.room t ∧ Shows q.room t ∧
          ButDisplay { u with
            store := { u.store with records := t.store.records, lists := t.store.lists }
            planner := { u.planner with intake := u.planner.intake ++ (match b.order with
              | some o => if q.room = b.room then [] else [.roomNotice o q.room]
              | none => []) } } t)

/-- FindRoom runs its field checks and the checks that need no room, then answers the fitting room with the fewest
seats, the lowest index among equals; with HOLD it makes a hold there, or names the room in its HOLDS_FULL or
POOL_EMPTY, the latter opening an episode (R24, R32, R38, R52; the empty bodies are log 30). -/
def Obligations.FindRoomChoosesTheSmallest : Prop :=
  ∀ (q : FindReq) (s u : State), Taken (.findRoom q) s u → TablesCanonical s →
    if 1 < q.flags ∨ 287 < q.start.quantum ∨ 287 < q.fin.quantum ∨ q.attendees < 1 ∨ 500 < q.attendees ∨
        (∃ b, q.building = some b ∧ 23 < b) ∨
        (q.flags = 1 ∧ ¬(1 ≤ q.holdTime ∧ q.holdTime ≤ u.policy.holdLimit)) then
      RefusedByEngine (.findRoom q) s u .badField []
    else match engineNow u with
    | none => RefusedByEngine (.findRoom q) s u .clockNotSet []
    | some now =>
      if idx u q.fin - idx u q.start < 3 ∨ 144 < idx u q.fin - idx u q.start then
        RefusedByEngine (.findRoom q) s u .badField []
      else if idx u q.start < idx u now ∨ 2304 < idx u q.fin then
        RefusedByEngine (.findRoom q) s u .outOfHorizon []
      else
        ((∀ r e, ¬ RoomFits u q r e) → RefusedByEngine (.findRoom q) s u .noneFree []) ∧
        ∀ r e, RoomFits u q r e →
          (∀ r' e', RoomFits u q r' e' → e.seats < e'.seats ∨ (e.seats = e'.seats ∧ r ≤ r')) →
          (q.flags = 0 → RepliesOnly (.findRoom q) s u .ok [.u16 r, .u16 e.seats]) ∧
          (q.flags = 1 → 64 ≤ u.store.holds.length →
            RefusedByEngine (.findRoom q) s u .holdsFull [.u16 r]) ∧
          (q.flags = 1 → u.store.holds.length < 64 → u.store.free = [] →
            RefusedPoolEmpty (.findRoom q) s u r [.u16 r]) ∧
          ∀ i rest, q.flags = 1 → u.store.holds.length < 64 → u.store.free = i :: rest →
            ∃ t, exec (.findRoom q) s = .next t ∧
              Answered u t .ok [.u16 r, .u16 e.seats, .handle ⟨i, (recordAt u i).gen⟩,
                .time (shiftTime now q.holdTime)] ∧
              Allocated u t i ⟨r, q.start, q.fin, .tentative, q.attendees, q.organizer, .host, false, none,
                some (shiftTime now q.holdTime), none, none⟩ ∧
              t.store.holds = insertBy (expiryIdx t) ⟨i, (recordAt u i).gen⟩ u.store.holds ∧
              Shows r t ∧ ButDisplay { u with store := t.store } t

/-- PlaceOrder goes to the planner as an admission request (R84), and the planner's answer is linked, answered and
followed by the outcome that fell due meanwhile: EXPIRED for a TENTATIVE booking, else ENDED (R27, R28, R91). The
empty bodies of refusals are log 30. -/
def Obligations.PlaceOrderAndItsAnswer : Prop :=
  (∀ (h : Handle) (n : Nat) (ls : List OrderLine) (b : Booking) (s u : State),
    Taken (.placeOrder h n ls) s u → TablesCanonical s → Names u h b →
    if b.state = .checkedIn ∨ b.provisional = true then
      RefusedByEngine (.placeOrder h n ls) s u .wrongState []
    else if b.order ≠ none then RefusedByEngine (.placeOrder h n ls) s u .orderExists []
    else ∃ t, exec (.placeOrder h n ls) s = .next t ∧ t.link = u.link ∧ Shows b.room t ∧
      ButDisplay { u with
        store := { u.store with
          records := u.store.records.set ⟨0, none⟩ h.index
            ⟨h.gen, some { b with pending := some .orderPending }⟩ }
        planner := { u.planner with
          intake := u.planner.intake ++ [.admission h b.start b.room n ls] } } t) ∧
  (∀ (h o : Handle) (k sh p n : Nat) (w d now : CTime) (b nb : Booking) (s u v : State),
    takeEngine (.admissionAnswer h (.admitted o k sh w d p n)) s = some u →
    u.link.slot.isSome = true → TablesCanonical s → bookingAt u h.index = some b →
    engineNow u = some now → nb = { b with order := some o, pending := none } →
    v = { u with store := { u.store with
      records := u.store.records.set ⟨0, none⟩ h.index ⟨(recordAt u h.index).gen, some nb⟩ } } →
    ∃ t, exec (.engineTakesAdmissionAnswer h (.admitted o k sh w d p n)) s = .next t ∧
      Answered u t .ok [.handle o, .u8 k, .u8 sh, .time w, .time d, .u16 p, .u8 n] ∧
      Shows b.room t ∧
      (∀ x, bindingOf u b.room = some x → ∃ ws, (t.lines.get x.line).intake =
        (u.lines.get x.line).intake ++ .display b.room :: ws) ∧
      (¬ OutcomeDue u b now → ButDisplay v t) ∧
      (OutcomeDue u b now →
        ButDisplay (freeBooking h.index nb (if b.state = .tentative then .expired else .ended) v) t ∧
        .handoff o ⟨h.index, (recordAt u h.index).gen⟩
          (if b.state = .tentative then .released else .ended) ∈ t.planner.intake)) ∧
  ∀ (h : Handle) (code : Result) (rs : Option Reasons) (now : CTime) (b nb : Booking) (s u v : State),
    takeEngine (.admissionAnswer h (.refused code rs)) s = some u →
    u.link.slot.isSome = true → TablesCanonical s → bookingAt u h.index = some b →
    engineNow u = some now → nb = { b with pending := none } →
    v = { u with store := { u.store with
      records := u.store.records.set ⟨0, none⟩ h.index ⟨(recordAt u h.index).gen, some nb⟩ } } →
    ∃ t, exec (.engineTakesAdmissionAnswer h (.refused code rs)) s = .next t ∧
      Answered u t code (match rs with
        | some r => [.u8 (reasonCode r.primary), .u16 r.primaryDeficit, .u8 (reasonCode r.alternate),
            .u16 r.alternateDeficit]
        | none => []) ∧
      t.counters.cateringRefusals = saturate u.counters.cateringRefusals ∧ Shows b.room t ∧
      (¬ OutcomeDue u b now → ButDisplay { v with
        counters := { u.counters with cateringRefusals := saturate u.counters.cateringRefusals } } t) ∧
      (OutcomeDue u b now → ButDisplay (count Counters.cateringRefusal
        (freeBooking h.index nb (if b.state = .tentative then .expired else .ended) v)) t)

/-- The engine takes the answer of a refit: FIT and DROPPED commit the staged move, the room lists with it, NO_FIT
and COMMITTED discard it and count as a catering and a booking refusal; an outcome that fell due meanwhile is taken
behind it (R27 to R29, R51, R94). The empty body of CATERING_COMMITTED is log 30; the codes of the catering results
REFITTED and DROPPED, and the free codes of CLOSED and CANCELLED, are log 8. -/
def Obligations.RefitAnswers : Prop :=
  (∀ (h : Handle) (a : RefitAnswer) (b nb : Booking) (g : Staged) (now : CTime) (s u : State),
    takeEngine (.refitAnswer h a) s = some u → u.link.slot.isSome = true → TablesCanonical s →
    u.engine.staged = some g → g.booking.index = h.index → bookingAt u h.index = some b →
    engineNow u = some now →
    (nb = { b with
      room := g.room, start := g.start, fin := g.fin, pending := none
      attendees := if g.attendees = 0 then b.attendees else g.attendees
      order := match a with | .dropped _ => none | _ => b.order }) →
    ((∃ k sh w d, a = .fit k sh w d) ∨ ∃ st, a = .dropped st) →
    ∃ t v, exec (.engineTakesRefitAnswer h a) s = .next t ∧
      Answered u t .ok ([.u16 g.room, .time g.start, .time g.fin] ++ (match a with
        | .fit _ _ w d => [.u8 2, .time w, .time d]
        | .dropped st => [.u8 3, .u8 (orderStateCode st)]
        | _ => [])) ∧
      v = { u with
        store := { u.store with
          records := u.store.records.set ⟨0, none⟩ h.index ⟨(recordAt u h.index).gen, some nb⟩
          lists := v.store.lists }
        engine := { u.engine with staged := none } } ∧
      (∀ r, roomList v r =
        if g.room = b.room ∧ g.start = b.start then roomList u r
        else if r = g.room then insertBy (startIdx v) h.index
          (if g.room = b.room then (roomList u r).filter (· ≠ h.index) else roomList u r)
        else if r = b.room then (roomList u r).filter (· ≠ h.index)
        else roomList u r) ∧
      t.engine.staged = none ∧ Shows b.room t ∧ Shows g.room t ∧
      (∀ j, j ≠ h.index → recordAt t j = recordAt u j) ∧
      (OutcomeDue u nb now →
        ButDisplay (freeBooking h.index nb (if nb.state = .tentative then .expired else .ended) v) t) ∧
      (¬ OutcomeDue u nb now → ButDisplay v t)) ∧
  ∀ (h : Handle) (a : RefitAnswer) (b nb : Booking) (now : CTime) (s u v : State),
    takeEngine (.refitAnswer h a) s = some u → u.link.slot.isSome = true → TablesCanonical s →
    bookingAt u h.index = some b → engineNow u = some now → nb = { b with pending := none } →
    v = { u with
      store := { u.store with
        records := u.store.records.set ⟨0, none⟩ h.index ⟨(recordAt u h.index).gen, some nb⟩ }
      engine := { u.engine with staged := none } } →
    (a = .committed ∨ ∃ r, a = .noFit r) →
    ∃ t, exec (.engineTakesRefitAnswer h a) s = .next t ∧
      Answered u t (match a with | .committed => .cateringCommitted | _ => .noKitchenCapacity)
        (match a with
          | .noFit r => [.u8 (reasonCode r.primary), .u16 r.primaryDeficit, .u8 (reasonCode r.alternate),
              .u16 r.alternateDeficit]
          | _ => []) ∧
      t.engine.staged = none ∧ Shows b.room t ∧
      ∀ w : State,
        (OutcomeDue u b now →
          w = freeBooking h.index nb (if b.state = .tentative then .expired else .ended) v) →
        (¬ OutcomeDue u b now → w = v) →
        ButDisplay { w with counters := { w.counters with
          cateringRefusals := saturate u.counters.cateringRefusals
          bookingRefusals := saturate u.counters.bookingRefusals } } t

/-- The engine's boundary work. Each unmarked hold that expires now is freed EXPIRED, in the order of the Hold List;
then, room by room and in the order of its list, each unmarked booking that ends now is freed, EXPIRED if it is
TENTATIVE and else ENDED; then every room in use is shown (R33 to R35, R58). So no outcome that can be taken is left
due, and every other booking stands. -/
def Obligations.EngineBoundaryTakesEveryOutcomeDue : Prop :=
  ∀ (b : Boundary) (s u v w x : State), takeEngine (.boundary b) s = some u → TablesCanonical s →
    v = { u with engine := { u.engine with now := some b.now } } →
    w = v.store.holds.foldl (fun y h => match bookingAt y h.index with
      | some k => if k.pending = none ∧ k.expiry.map (idx v) = some (idx v b.now) then
          freeBooking h.index k .expired y else y
      | none => y) v →
    x = w.store.lists.entries.foldl (fun z e => e.2.foldl (fun y i => match bookingAt y i with
      | some k => if k.pending = none ∧ idx v k.fin = idx v b.now then
          freeBooking i k (if k.state = .tentative then .expired else .ended) y else y
      | none => y) z) w →
    ∃ t, exec (.engineBoundaryWork b) s = .next t ∧ ButDisplay x t ∧
      t.engine.now = some b.now ∧ t.engine.staged = u.engine.staged ∧
      t.engine.intake = u.engine.intake ∧ Apart u t ∧ LinesGained u t ∧ PlannerGained u t ∧
      t.link = u.link ∧
      (∀ h ∈ t.store.holds, ∀ k e, bookingAt t h.index = some k → k.pending = none →
        k.expiry = some e → idx t e ≠ idx t b.now) ∧
      (∀ r, ∀ i ∈ roomList t r, ∀ k, bookingAt t i = some k → k.pending = none →
        idx t k.fin ≠ idx t b.now) ∧
      (∀ i k, bookingAt t i = some k → recordAt t i = recordAt u i) ∧
      (∀ i k, bookingAt u i = some k →
        (k.pending ≠ none ∨ (idx t k.fin ≠ idx t b.now ∧
          ∀ e, k.expiry = some e → idx t e ≠ idx t b.now)) → recordAt t i = recordAt u i) ∧
      ∀ r e, roomAt t r = some e → Shows r t

/-- No step leaves the booking free list with a record missing, doubled or live (R20, R22). -/
def Obligations.BookingPoolStaysExact : Prop :=
  ∀ s t : State, TablesCanonical s → BookingPoolExact s → step s = .next t →
    TablesCanonical t ∧ BookingPoolExact t

/-- The Room Scanner's step, and the visit that releases a no-show exactly when the six conditions hold (R62 to
R67). The step timer has restarted at its expiry, and the steps not yet made are counted in `due` (log 20); that a
step that is not due changes nothing is log 2. -/
def Obligations.ScannerAndVisits : Prop :=
  (∀ s : State, s.power = .running → 0 < s.scanner.due →
    ∀ p, p = (if s.scanner.position < s.policy.scanFirst ∨ s.policy.scanLast < s.scanner.position then
      s.policy.scanFirst else s.scanner.position) →
    exec .scanStepExpiry s = .next { s with
      scanner := { s.scanner with
        position := if p = s.policy.scanLast then s.policy.scanFirst else p + 1
        due := s.scanner.due - 1 }
      engine := { s.engine with intake := s.engine.intake ++ [.visit p] } }) ∧
  (∀ s : State, s.power = .running → s.scanner.due = 0 → exec .scanStepExpiry s = .next s) ∧
  (∀ (r i : Nat) (b : Booking) (now : CTime) (s u : State), takeEngine (.visit r) s = some u →
    TablesCanonical s → currentBooking u r = some (i, b) → engineNow u = some now →
    if roomAt u r ≠ none ∧ b.state = .confirmed ∧ b.pending = none ∧
        idx u (shiftTime b.start u.policy.grace) ≤ idx u now ∧
        (u.policy.absentAction = .hold ∨ panelPresent u r = true) then
      ∃ t, exec (.roomVisit r) s = .next t ∧ Shows r t ∧ t.link = u.link ∧
        t.counters.releases = saturate u.counters.releases ∧
        ButDisplay (count Counters.release
          (freeBooking i b (.released (shiftTime b.start u.policy.grace)) u)) t
    else exec (.roomVisit r) s = .next u) ∧
  ∀ (r : Nat) (s u : State), takeEngine (.visit r) s = some u →
    currentBooking u r = none ∨ engineNow u = none → exec (.roomVisit r) s = .next u

/-- Check-ins by occupancy and by the panel: the earliest booking of the room, CONFIRMED, its window open and
unmarked, becomes CHECKED_IN and is reported; otherwise, at a room with no live booking and with no now too, an
occupancy notice does nothing and a panel is answered NOT_NOW, at a bound room since made unused too, which is log 16 (R47, R61,
R70, R71, R158). -/
def Obligations.CheckInsWithoutTheHost : Prop :=
  (∀ (r : Nat) (s u : State), roomBookings u r = [] ∨ engineNow u = none →
    (takeEngine (.occupancy r) s = some u → exec (.occupancyNotice r) s = .next u) ∧
    ∀ (src : PanelSrc) (badge : Token), takeEngine (.checkin src r badge) s = some u →
      RefusedAtPanel (.panelCheckin src r badge) s u src 2 .wrongState .notNow none) ∧
  ∀ (r i : Nat) (b : Booking) (now : CTime) (u : State) (can : Prop),
    (roomBookings u r).head? = some (i, b) → engineNow u = some now →
    (can ↔ b.state = .confirmed ∧ idx u b.start - 1 ≤ idx u now ∧ b.pending = none) →
    ∀ (reported : Nat → Token → State),
    (∀ source badge, reported source badge =
      postEvent ⟨.bookingCheckedIn, now, b.room, ⟨i, (recordAt u i).gen⟩,
        .pair source (if idx u now < idx u (shiftTime b.start u.policy.grace) then 0 else 1), .token badge⟩
      { u with store := { u.store with
        records := u.store.records.set ⟨0, none⟩ i
          ⟨(recordAt u i).gen, some { b with state := .checkedIn, checkedIn := some now }⟩ } }) →
    (∀ s, takeEngine (.occupancy r) s = some u → TablesCanonical s →
      (u.policy.autoCheckIn = true → roomAt u r ≠ none → can →
        ∃ t, exec (.occupancyNotice r) s = .next t ∧ Shows r t ∧ t.link = u.link ∧
          ButDisplay (reported 1 0) t) ∧
      (¬(u.policy.autoCheckIn = true ∧ roomAt u r ≠ none ∧ can) →
        exec (.occupancyNotice r) s = .next u)) ∧
    ∀ (src : PanelSrc) (badge : Token) (s : State),
      takeEngine (.checkin src r badge) s = some u → TablesCanonical s →
      (can → ∃ t, exec (.panelCheckin src r badge) s = .next t ∧ Shows r t ∧ t.link = u.link ∧
        PanelAnswered u t src ⟨2, .accepted, none⟩ ∧ ButDisplay (reported 0 badge) t) ∧
      (¬ can → RefusedAtPanel (.panelCheckin src r badge) s u src 2 .wrongState .notNow none)

/-- Walk-ups, extensions and ends at a door panel: their checks in order, each with the panel code of R153, what an
admitted one changes, and a walk-up that finds the pool empty, which opens an episode with its line and position
(R24, R26, R153, R157, R159, R160). The panel code of NO_SUCH_ROOM, and of OVER_CAPACITY, is log 16, and so is NOT_NOW for an
extension or an end at a room since made unused. -/
def Obligations.PanelBookingRequests : Prop :=
  (∀ (src : PanelSrc) (room len n : Nat) (badge : Token) (c : Instr) (s u : State),
    c = .walkup src room len badge →
    takeEngine (.walkup src room len badge) s = some u → TablesCanonical s →
    n = min len u.policy.walkupMax →
    if len < 3 then RefusedAtPanel c s u src 1 .badField .refused none
    else if roomAt u room = none then RefusedAtPanel c s u src 1 .noSuchRoom .refused none
    else if (roomAt u room).map RoomEntry.inService ≠ some true ∨
        (u.policy.absentAction = .close ∧ panelPresent u room = false) then
      RefusedAtPanel c s u src 1 .roomOutOfService .closed none
    else match engineNow u with
    | none => RefusedAtPanel c s u src 1 .clockNotSet .notNow none
    | some now =>
      if idx u (shiftTime now n) - idx u now < 3 ∨ 144 < idx u (shiftTime now n) - idx u now then
        RefusedAtPanel c s u src 1 .badField .refused none
      else if 2304 < idx u (shiftTime now n) then RefusedAtPanel c s u src 1 .outOfHorizon .refused none
      else if ((roomAt u room).map RoomEntry.seats).getD 0 < 1 then
        RefusedAtPanel c s u src 1 .overCapacity .refused none
      else match firstConflict u room ⟨now, shiftTime now n⟩ none, u.store.free with
      | some at_, _ => RefusedAtPanel c s u src 1 .conflict .conflict (some at_)
      | none, [] =>
        RefusedAtPanel c s (if u.store.episode = true then u
          else postException (.bookingPoolEmpty room (some (src.line, src.pos))) (some now)
            { u with store := { u.store with episode := true } }) src 1 .poolEmpty .full none
      | none, i :: _ =>
        ∀ b : Booking, b = ⟨room, now, shiftTime now n, .checkedIn, 1, badge, .panel,
          decide (u.superv.link = .hostLost), none, none, some now, none⟩ →
        ∃ t, exec c s = .next t ∧ Allocated u t i b ∧
          PanelAnswered u t src
            ⟨1, if u.policy.walkupMax < len then .tooLongClamped else .accepted, some b.fin⟩ ∧
          t.store.holds = u.store.holds ∧ t.link = u.link ∧ Shows room t ∧
          t.superv = { u.superv with provisional := if u.superv.link = .hostLost then
            u.superv.provisional + 1 else u.superv.provisional } ∧
          ButDisplay (postEvent ⟨.bookingConfirmed, now, room, ⟨i, (recordAt u i).gen⟩, .time b.fin,
              .token badge⟩ { u with store := t.store, superv := t.superv }) t) ∧
  (∀ (src : PanelSrc) (room k : Nat) (c : Instr) (s u : State), c = .extend src room k →
    takeEngine (.extend src room k) s = some u → TablesCanonical s →
    (currentBooking u room = none → RefusedAtPanel c s u src 3 .wrongState .notNow none) ∧
    ∀ (i : Nat) (b : Booking) (now fin : CTime), currentBooking u room = some (i, b) →
      engineNow u = some now → fin = shiftTime b.fin k →
      if b.state ≠ .checkedIn ∨ b.pending ≠ none then
        RefusedAtPanel c s u src 3 .wrongState .notNow none
      else if k = 0 ∨ idx u fin - idx u b.start < 3 ∨ 144 < idx u fin - idx u b.start then
        RefusedAtPanel c s u src 3 .badField .refused none
      else if 2304 < idx u fin then RefusedAtPanel c s u src 3 .outOfHorizon .refused none
      else match firstConflict u b.room ⟨b.start, fin⟩ (some i) with
      | some at_ => RefusedAtPanel c s u src 3 .conflict .conflict (some at_)
      | none =>
        ∃ t, exec c s = .next t ∧ t.link = u.link ∧ Shows room t ∧
          PanelAnswered u t src ⟨3, .accepted, some fin⟩ ∧
          ButDisplay (postEvent ⟨.bookingExtended, now, b.room, ⟨i, (recordAt u i).gen⟩, .time fin,
              .num k⟩
            { u with store := { u.store with
              records := u.store.records.set ⟨0, none⟩ i
                ⟨(recordAt u i).gen, some { b with fin := fin }⟩ } }) t) ∧
  ∀ (src : PanelSrc) (room : Nat) (c : Instr) (s u : State), c = .panelEnd src room →
    takeEngine (.panelEnd src room) s = some u → TablesCanonical s →
    (currentBooking u room = none → RefusedAtPanel c s u src 4 .wrongState .notNow none) ∧
    ∀ (i : Nat) (b : Booking) (now : CTime), currentBooking u room = some (i, b) →
      engineNow u = some now →
      if b.state = .tentative ∨ b.pending ≠ none then
        RefusedAtPanel c s u src 4 .wrongState .notNow none
      else if b.fin = shiftTime now 1 then
        exec c s = .next { u with lines := u.lines.set src.line { u.lines.get src.line with
          intake := (u.lines.get src.line).intake ++
            [.answer src.pos src.reqno ⟨4, .accepted, some (shiftTime now 1)⟩] } }
      else ∃ t, exec c s = .next t ∧ t.link = u.link ∧ Shows room t ∧
        PanelAnswered u t src ⟨4, .accepted, some (shiftTime now 1)⟩ ∧
        ButDisplay { u with store := { u.store with
          records := u.store.records.set ⟨0, none⟩ i
            ⟨(recordAt u i).gen, some { b with fin := shiftTime now 1 }⟩ } } t

/-- Link and display notices from the planner, and the CancelOrder reply that waits for its link notice (R110,
R111). -/
def Obligations.PlannerNotices : Prop :=
  (∀ (h o : Handle) (s u : State), takeEngine (.linkNotice h o) s = some u → TablesCanonical s →
    (∀ b, liveBooking u h = some b → b.order = some o →
      ∃ t, exec (.linkNotice h o) s = .next t ∧ Shows b.room t ∧
        ButDisplay { u with store := { u.store with
          records := u.store.records.set ⟨0, none⟩ h.index
            ⟨(recordAt u h.index).gen, some { b with order := none }⟩ } } t ∧
        ((∀ sl body, u.link.slot = some sl → sl.stage ≠ .afterLink o body) → t.link = u.link) ∧
        ∀ k g r body, u.link.slot = some ⟨k, g, r, .afterLink o body⟩ → Answered u t .ok body) ∧
    ((∀ b, liveBooking u h = some b → b.order ≠ some o) →
      ((∀ sl body, u.link.slot = some sl → sl.stage ≠ .afterLink o body) →
        exec (.linkNotice h o) s = .next u) ∧
      ∀ k g r body, u.link.slot = some ⟨k, g, r, .afterLink o body⟩ →
        RepliesOnly (.linkNotice h o) s u .ok body)) ∧
  ∀ (h o : Handle) (s u : State), takeEngine (.displayNotice h o) s = some u →
    (∀ b x, liveBooking u h = some b → b.order = some o → bindingOf u b.room = some x →
      exec (.displayNotice h o) s = .next { u with
        lines := u.lines.set x.line { u.lines.get x.line with
          intake := (u.lines.get x.line).intake ++ [.display b.room] } }) ∧
    ((∀ b x, liveBooking u h = some b → b.order = some o → bindingOf u b.room ≠ some x) →
      exec (.displayNotice h o) s = .next u)

/-! ### The Catering Planner -/

/-- The search finds a placement that fits, on the primary kitchen if any shift of it fits and else on the alternate,
with the smallest shift that fits; and refuses only when none does, each kitchen with the reason and the deficit of
R92 and R93 (R86 to R89). The shares of a window sum to the load. What a room not in use is answered is log 34. -/
def Obligations.PlacementIsFirstFit : Prop :=
  (∀ (s : State) (own : Option Order) (j : Job) (p : Placement), search s own j = .ok p →
    ∃ e, roomAt s j.room = some e ∧ (p.kitchen = e.primary ∨ e.alternate = some p.kitchen) ∧
      transitAt s p.kitchen e.building = some p.transit ∧
      p.departure = pidx s j.serving - p.transit - 1 ∧
      p.window = p.departure - p.shift - j.len ∧ p.shift ≤ j.smax ∧
      FitsAt s own j p.kitchen p.transit p.shift ∧
      (∀ sh, sh < p.shift → ¬ FitsAt s own j p.kitchen p.transit sh) ∧
      (p.kitchen ≠ e.primary → ∀ T sh, transitAt s e.primary e.building = some T → sh ≤ j.smax →
        ¬ FitsAt s own j e.primary T sh)) ∧
  (∀ (s : State) (own : Option Order) (j : Job) (r : Reasons) (e : RoomEntry), search s own j = .error r →
    roomAt s j.room = some e → ∀ k T sh, k = e.primary ∨ e.alternate = some k →
    transitAt s k e.building = some T → sh ≤ j.smax → ¬ FitsAt s own j k T sh) ∧
  (∀ (s : State) (own : Option Order) (j : Job) (r : Reasons) (e : RoomEntry), search s own j = .error r →
    roomAt s j.room = some e →
    RefusedFor s own j e.building e.primary r.primary r.primaryDeficit ∧
    (e.alternate = none → r.alternate = .none ∧ r.alternateDeficit = 0) ∧
    ∀ k, e.alternate = some k → RefusedFor s own j e.building k r.alternate r.alternateDeficit) ∧
  (∀ (s : State) (own : Option Order) (j : Job), roomAt s j.room = none →
    search s own j = .error ⟨.unreachable, 0, .none, 0⟩) ∧
  ∀ P n : Nat, 0 < n → ((List.range n).map (share P n)).sum = P ∧
    ∀ i, share P n i = P / n + if i < P % n then 1 else 0

/-- An admission at the planner: its checks, the computation in flight, and its end, which commits the order, its
shares and its cart units in one piece, or refuses it (R85, R86, R90, R92). -/
def Obligations.AdmissionAtThePlanner : Prop :=
  (∀ (h : Handle) (t0 : CTime) (room n : Nat) (ls : List OrderLine) (s u : State),
    takePlanner (.admission h t0 room n ls) s = some u →
    ∀ (good : Prop) (load : Nat),
    (good ↔ n = ls.length ∧ 1 ≤ n ∧ n ≤ 6 ∧ ∀ l ∈ ls, l.cls ≤ 31 ∧ (classAt u l.cls).weight ≠ 0 ∧
      1 ≤ l.covers ∧ l.covers ≤ 250) →
    load = (ls.map (fun l => (l.covers * (classAt u l.cls).weight + 9) / 10)).sum →
    (¬ good → exec (.admissionComputation h t0 room n ls) s = .next { u with
      engine := { u.engine with
        intake := u.engine.intake ++ [.admissionAnswer h (.refused .badField none)] } }) ∧
    (good → u.planner.free ≠ [] → 4095 < load →
      exec (.admissionComputation h t0 room n ls) s = .next { u with
        engine := { u.engine with
          intake := u.engine.intake ++ [.admissionAnswer h (.refused .orderTooLarge none)] } }) ∧
    (good → u.planner.free = [] → ∃ t, exec (.admissionComputation h t0 room n ls) s = .next t ∧
      t = { (if u.planner.episode = true then u
          else postException (.orderPoolEmpty room) (plannerNow u) u) with
        planner := { u.planner with episode := true }
        engine := { u.engine with
          intake := u.engine.intake ++ [.admissionAnswer h (.refused .poolEmpty none)] } }) ∧
    (good → u.planner.free ≠ [] → load ≤ 4095 → ∃ len smax,
      exec (.admissionComputation h t0 room n ls) s = .next { u with
        planner := { u.planner with job := some ⟨.admission, h, t0, room, ls, load, len, smax⟩ } } ∧
      (∀ l ∈ ls, (classAt u l.cls).lead ≤ len ∧ smax ≤ (classAt u l.cls).holdLimit) ∧
      (∃ l ∈ ls, len = (classAt u l.cls).lead) ∧ smax ≤ 8 ∧
      (smax = 8 ∨ ∃ l ∈ ls, smax = (classAt u l.cls).holdLimit))) ∧
  (∀ (j : Job) (p : Placement) (i : Nat) (rest : List Nat) (s u : State), s.power = .running →
    s.planner.job = some j → j.kind = .admission → TablesCanonical s →
    u = { s with planner := { s.planner with job := none } } →
    search u none j = .ok p → u.planner.free = i :: rest →
    ∃ t o, exec .admissionCompletion s = .next t ∧
      o = (⟨some j.booking, j.serving, p.kitchen, p.transit, j.lines, j.load, j.len, p.shift,
        timeOfIdx u p.window, timeOfIdx u p.departure, .planned, false, u.planner.placing, j.room⟩ :
        Order) ∧
      orderRecord t i = ⟨(orderRecord u i).gen, some o⟩ ∧
      (∀ x, x ≠ i → orderRecord t x = orderRecord u x) ∧
      production t p.kitchen = insertBy (windowIdx t) i (production u p.kitchen) ∧
      (∀ k, k ≠ p.kitchen → production t k = production u k) ∧
      (∀ (k : Nat) (q : Int), 0 ≤ q → q ≤ 2303 → cellAt t k q =
        ⟨(cellAt u k q).prep + (if k = p.kitchen ∧ p.window ≤ q ∧ q < p.window + j.len then
            share j.load j.len (q - p.window).toNat else 0),
          (cellAt u k q).carts + (if k = p.kitchen ∧ p.departure ≤ q ∧
            q ≤ p.departure + 2 * p.transit + 1 then 1 else 0),
          (cellAt u k q).mark⟩) ∧
      t = { u with
        planner := { u.planner with
          load := t.planner.load
          records := t.planner.records
          lists := t.planner.lists
          free := rest
          placing := u.planner.placing + 1 }
        engine := { u.engine with intake := u.engine.intake ++ [.admissionAnswer j.booking
          (.admitted ⟨i, (orderRecord u i).gen⟩ p.kitchen p.shift o.window o.departure j.load
            j.len)] } }) ∧
  ∀ (j : Job) (r : Reasons) (s u : State), s.power = .running → s.planner.job = some j →
    j.kind = .admission → u = { s with planner := { s.planner with job := none } } →
    search u none j = .error r →
    exec .admissionCompletion s = .next { u with
      engine := { u.engine with intake := u.engine.intake ++
        [.admissionAnswer j.booking (.refused .noKitchenCapacity (some r))] } }

/-- A refit at the planner, answered by the order's state, and the end of its computation (R94 to R96; the window
length and the largest shift as R85 and R87 take them, the load by R90, the place in the production list by R83). That
LINES is answered at once, with the alternate's reason, is log 31; a corner that no run reaches is log 34. -/
def Obligations.RefitAtThePlanner : Prop :=
  (∀ (b oh : Handle) (t0 : CTime) (room : Nat) (drop : Bool) (s u : State),
    takePlanner (.refit b oh t0 room drop) s = some u → TablesCanonical s →
    ∃ t, exec (.refitComputation b oh t0 room drop) s = .next t ∧
    (liveOrder u oh = none → t = { u with engine := { u.engine with intake := u.engine.intake ++
      [.refitAnswer b (if drop = true then .dropped .closed else .committed)] } }) ∧
    (∀ o, liveOrder u oh = some o → o.state ≠ .planned → drop = false →
      t = { u with engine := { u.engine with
        intake := u.engine.intake ++ [.refitAnswer b .committed] } }) ∧
    (∀ o, liveOrder u oh = some o → o.state ≠ .planned → o.state ≠ .inProduction → drop = true →
      t = { u with
        planner := { u.planner with
          records := u.planner.records.set ⟨0, none⟩ oh.index ⟨oh.gen, some { o with booking := none }⟩ }
        engine := { u.engine with
          intake := u.engine.intake ++ [.refitAnswer b (.dropped o.state)] } }) ∧
    (∀ o, liveOrder u oh = some o → o.state = .inProduction → drop = true →
      orderRecord t oh.index = ⟨oh.gen, some { o with state := .wasted, booking := none }⟩ ∧
      LoadMoved u t o false nothingAdded nothingAdded ∧
      t = { u with
        planner := { u.planner with records := t.planner.records, load := t.planner.load }
        engine := { u.engine with
          intake := u.engine.intake ++ [.refitAnswer b (.dropped .wasted)] } }) ∧
    (∀ o load, liveOrder u oh = some o → o.state = .planned →
      load = (o.lines.map (fun l => (l.covers * (classAt u l.cls).weight + 9) / 10)).sum →
      (∀ l ∈ o.lines, l.cls ≤ 31 ∧ (classAt u l.cls).weight ≠ 0) → load ≤ 4095 →
      ∃ len smax, t = { u with planner := { u.planner with
        job := some ⟨.refit oh drop, b, t0, room, o.lines, load, len, smax⟩ } } ∧
      (∀ l ∈ o.lines, (classAt u l.cls).lead ≤ len ∧ smax ≤ (classAt u l.cls).holdLimit) ∧
      (if o.lines = [] then len = 0 else ∃ l ∈ o.lines, len = (classAt u l.cls).lead) ∧ smax ≤ 8 ∧
      (smax = 8 ∨ ∃ l ∈ o.lines, smax = (classAt u l.cls).holdLimit)) ∧
    (∀ o load, liveOrder u oh = some o → o.state = .planned →
      load = (o.lines.map (fun l => (l.covers * (classAt u l.cls).weight + 9) / 10)).sum →
      (∃ l ∈ o.lines, 31 < l.cls ∨ (classAt u l.cls).weight = 0) ∨ 4095 < load →
      (drop = false → t = { u with engine := { u.engine with
        intake := u.engine.intake ++ [.refitAnswer b (.noFit ⟨.lines, 0,
          if (roomAt u room).bind RoomEntry.alternate = none then .none else .lines, 0⟩)] } }) ∧
      (drop = true → orderRecord t oh.index = ⟨(oh.gen + 1) % 64, none⟩ ∧
        (∀ x, x ≠ oh.index → orderRecord t x = orderRecord u x) ∧
        (∀ k, production t k =
          if k = o.kitchen then (production u k).filter (· ≠ oh.index) else production u k) ∧
        LoadMoved u t o true nothingAdded nothingAdded ∧
        t = { u with
          planner := { u.planner with
            load := t.planner.load
            records := t.planner.records
            lists := t.planner.lists
            free := u.planner.free ++ [oh.index]
            episode := false }
          engine := { u.engine with
            intake := u.engine.intake ++ [.refitAnswer b (.dropped .cancelled)] } }))) ∧
  ∀ (j : Job) (oh : Handle) (drop : Bool) (o : Order) (s u : State), s.power = .running →
    s.planner.job = some j → j.kind = .refit oh drop → TablesCanonical s →
    u = { s with planner := { s.planner with job := none } } → liveOrder u oh = some o →
    (∀ p, search u (some o) j = .ok p →
      ∃ t, exec .refitCompletion s = .next t ∧
        orderRecord t oh.index = ⟨oh.gen, some ⟨o.booking, j.serving, p.kitchen, p.transit, j.lines,
          j.load, j.len, p.shift, timeOfIdx u p.window, timeOfIdx u p.departure, .planned, o.confirmed,
          u.planner.placing, j.room⟩⟩ ∧
        (∀ x, x ≠ oh.index → orderRecord t x = orderRecord u x) ∧
        (∀ k left, left = (if k = o.kitchen then (production u k).filter (· ≠ oh.index) else production u k) →
          if k = p.kitchen then EnteredAt t oh.index left (production t k) else production t k = left) ∧
        LoadMoved u t o true
          (fun k q => if k = p.kitchen ∧ p.window ≤ q ∧ q < p.window + j.len then
            share j.load j.len (q - p.window).toNat else 0)
          (fun k q => if k = p.kitchen ∧ p.departure ≤ q ∧ q ≤ p.departure + 2 * p.transit + 1 then 1
            else 0) ∧
        t = { u with
          planner := { u.planner with
            load := t.planner.load
            records := t.planner.records
            lists := t.planner.lists
            placing := u.planner.placing + 1 }
          engine := { u.engine with intake := u.engine.intake ++ [.refitAnswer j.booking
            (.fit p.kitchen p.shift (timeOfIdx u p.window) (timeOfIdx u p.departure))] } }) ∧
    ∀ r, search u (some o) j = .error r →
      ∃ t, exec .refitCompletion s = .next t ∧
        (drop = false → t = { u with engine := { u.engine with
          intake := u.engine.intake ++ [.refitAnswer j.booking (.noFit r)] } }) ∧
        (drop = true → orderRecord t oh.index = ⟨(oh.gen + 1) % 64, none⟩ ∧
          (∀ x, x ≠ oh.index → orderRecord t x = orderRecord u x) ∧
          (∀ k, production t k =
            if k = o.kitchen then (production u k).filter (· ≠ oh.index) else production u k) ∧
          LoadMoved u t o true nothingAdded nothingAdded ∧
          t = { u with
            planner := { u.planner with
              load := t.planner.load
              records := t.planner.records
              lists := t.planner.lists
              free := u.planner.free ++ [oh.index]
              episode := false }
            engine := { u.engine with
              intake := u.engine.intake ++ [.refitAnswer j.booking (.dropped .cancelled)] } })

/-- An order withdrawn by the host, or handed over with its freed booking (R101, R105, R110, R112). That the kind
`ended` on an order not yet dispatched only clears the link is log 34; the codes of WASTED and CANCELLED are
log 8, the empty bodies of refusals log 30. -/
def Obligations.OrderWithdrawal : Prop :=
  (∀ (h : Handle) (s u : State), Taken (.cancelOrder h) s u → TablesCanonical s →
    ∀ refused : Result → Prop,
    (∀ r, refused r ↔ ∃ t, exec (.cancelOrder h) s = .next t ∧ Answered u t r [] ∧ t = { u with
      link := t.link
      counters := { u.counters with cateringRefusals := saturate u.counters.cateringRefusals } }) →
    (767 < h.index ∨ 63 < h.gen → refused .badField) ∧
    (h.index ≤ 767 → h.gen ≤ 63 → liveOrder u h = none → refused .staleHandle) ∧
    (∀ o, h.index ≤ 767 → h.gen ≤ 63 → liveOrder u h = some o → o.state ≠ .planned →
      o.state ≠ .inProduction → refused .cateringCommitted) ∧
    (∀ o, h.index ≤ 767 → h.gen ≤ 63 → liveOrder u h = some o → o.state = .planned →
      ∃ t, exec (.cancelOrder h) s = .next t ∧
        orderRecord t h.index = ⟨(h.gen + 1) % 64, none⟩ ∧
        (∀ x, x ≠ h.index → orderRecord t x = orderRecord u x) ∧
        (∀ k, production t k =
          if k = o.kitchen then (production u k).filter (· ≠ h.index) else production u k) ∧
        (∀ (k : Nat) (q : Int), k ≠ o.kitchen → cellAt t k q = cellAt u k q) ∧
        LoadMoved u t o true nothingAdded nothingAdded ∧
        t = { u with
          planner := { u.planner with
            load := t.planner.load
            records := t.planner.records
            lists := t.planner.lists
            free := u.planner.free ++ [h.index]
            episode := false }
          engine := { u.engine with intake := u.engine.intake ++ (match o.booking with
            | some b => [.linkNotice b h]
            | none => []) }
          link := t.link } ∧
        (o.booking = none → Answered u t .ok [.u8 Config.cancelledCode.toNat]) ∧
        (o.booking ≠ none → t.link = { u.link with slot := u.link.slot.map (fun sl =>
          { sl with stage := .afterLink h [.u8 Config.cancelledCode.toNat] }) })) ∧
    (∀ o, h.index ≤ 767 → h.gen ≤ 63 → liveOrder u h = some o → o.state = .inProduction →
      ∃ t, exec (.cancelOrder h) s = .next t ∧
        orderRecord t h.index = ⟨h.gen, some { o with state := .wasted, booking := none }⟩ ∧
        (∀ x, x ≠ h.index → orderRecord t x = orderRecord u x) ∧
        (∀ (k : Nat) (q : Int), k ≠ o.kitchen → cellAt t k q = cellAt u k q) ∧
        (∀ (k : Nat) (q : Int), (cellAt t k q).prep = (cellAt u k q).prep) ∧
        LoadMoved u t o false nothingAdded nothingAdded ∧
        t = { u with
          planner := { u.planner with load := t.planner.load, records := t.planner.records }
          engine := { u.engine with intake := u.engine.intake ++ (match o.booking with
            | some b => [.linkNotice b h]
            | none => []) }
          link := t.link } ∧
        (o.booking = none → Answered u t .ok [.u8 2, .time (shiftTime o.window o.len)]) ∧
        (o.booking ≠ none → t.link = { u.link with slot := u.link.slot.map (fun sl =>
          { sl with stage := .afterLink h [.u8 2, .time (shiftTime o.window o.len)] }) }))) ∧
  ∀ (h b : Handle) (kind : HandoffKind) (s u : State), takePlanner (.handoff h b kind) s = some u →
    TablesCanonical s →
    (liveOrder u h = none → exec (.bookingHandoff h b kind) s = .next u) ∧
    (∀ o, liveOrder u h = some o → o.state = .planned → kind ≠ .ended →
      ∃ t, exec (.bookingHandoff h b kind) s = .next t ∧
        orderRecord t h.index = ⟨(h.gen + 1) % 64, none⟩ ∧
        (∀ x, x ≠ h.index → orderRecord t x = orderRecord u x) ∧
        (∀ k, production t k =
          if k = o.kitchen then (production u k).filter (· ≠ h.index) else production u k) ∧
        (∀ (k : Nat) (q : Int), k ≠ o.kitchen → cellAt t k q = cellAt u k q) ∧
        LoadMoved u t o true nothingAdded nothingAdded ∧
        t = { u with
          planner := { u.planner with
            load := t.planner.load
            records := t.planner.records
            lists := t.planner.lists
            free := u.planner.free ++ [h.index]
            episode := false }
          reports := t.reports
          counters := t.counters } ∧
        (kind = .cancelled → t.reports = u.reports ∧ t.counters = u.counters) ∧
        (kind = .released → ∀ e : EventRecord,
          e = ⟨.orderCancelled, plannerStamp u, o.room, h, .num 0, .handle b⟩ →
          t.reports = (postEvent e u).reports ∧ t.counters = (postEvent e u).counters)) ∧
    (∀ o, liveOrder u h = some o → o.state = .inProduction → kind ≠ .ended →
      ∃ t, exec (.bookingHandoff h b kind) s = .next t ∧
        orderRecord t h.index = ⟨h.gen, some { o with state := .wasted, booking := none }⟩ ∧
        (∀ x, x ≠ h.index → orderRecord t x = orderRecord u x) ∧
        (∀ (k : Nat) (q : Int), k ≠ o.kitchen → cellAt t k q = cellAt u k q) ∧
        (∀ (k : Nat) (q : Int), (cellAt t k q).prep = (cellAt u k q).prep) ∧
        LoadMoved u t o false nothingAdded nothingAdded ∧
        t = { u with planner := { u.planner with
          load := t.planner.load, records := t.planner.records } }) ∧
    ∀ o, liveOrder u h = some o → (kind = .ended ∨ (o.state ≠ .planned ∧ o.state ≠ .inProduction)) →
      exec (.bookingHandoff h b kind) s = .next { u with planner := { u.planner with
        records := u.planner.records.set ⟨0, none⟩ h.index ⟨h.gen, some { o with booking := none }⟩ } }

/-- A delivery confirmed by the host, with its refusals, or received at a panel, and a room notice (R80, R107, R108,
R109; the empty bodies of refusals are log 30). -/
def Obligations.DeliveryAndRoomNotices : Prop :=
  (∀ (h : Handle) (s u : State) (refused : Result → Prop), Taken (.confirmDelivery h) s u → TablesCanonical s →
    (∀ r, refused r ↔ ∃ t, exec (.confirmDelivery h) s = .next t ∧ Answered u t r [] ∧ t = { u with
      link := t.link
      counters := { u.counters with cateringRefusals := saturate u.counters.cateringRefusals } }) →
    if 767 < h.index ∨ 63 < h.gen then refused .badField
    else match liveOrder u h with
    | none => refused .staleHandle
    | some o =>
    if o.state = .dispatched ∨ o.state = .unconfirmed then
      ∃ t, exec (.confirmDelivery h) s = .next t ∧
        Answered u t .ok [.time o.serving, .u16 o.room] ∧
        t = { u with
          planner := { u.planner with
            records := u.planner.records.set ⟨0, none⟩ h.index
              ⟨h.gen, some { o with state := .delivered, confirmed := true }⟩ }
          engine := { u.engine with intake := u.engine.intake ++ (match o.booking with
            | some b => [.displayNotice b h]
            | none => []) }
          link := t.link }
    else refused .wrongState) ∧
  (∀ (src : PanelSrc) (room : Nat) (badge : Token) (s u : State),
    takePlanner (.receipt src room badge) s = some u → TablesCanonical s →
    (∀ i o, orderAt u i = some o → i ∈ (List.range 8).flatMap (production u) → o.room = room →
      pidx u o.serving ≤ plannerIdx u + 1 →
      (∀ i' o', orderAt u i' = some o' → i' ∈ (List.range 8).flatMap (production u) → i' ≠ i →
        o'.room = room → pidx u o'.serving ≤ plannerIdx u + 1 →
        pidx u o'.serving < pidx u o.serving ∨
          (pidx u o'.serving = pidx u o.serving ∧ o'.placing < o.placing)) →
      if o.state = .dispatched ∨ o.state = .unconfirmed then
        exec (.cateringReceived src room badge) s = .next
          { postEvent ⟨.orderDelivered, plannerStamp u, room, ⟨i, (orderRecord u i).gen⟩,
              .num (if o.state = .dispatched then 0 else 1), .token badge⟩ u with
            planner := { u.planner with
              records := u.planner.records.set ⟨0, none⟩ i
                ⟨(orderRecord u i).gen, some { o with state := .delivered, confirmed := true }⟩ }
            engine := { u.engine with intake := u.engine.intake ++ (match o.booking with
              | some b => [.displayNotice b ⟨i, (orderRecord u i).gen⟩]
              | none => []) }
            lines := u.lines.set src.line { u.lines.get src.line with
              intake := (u.lines.get src.line).intake ++
                [.answer src.pos src.reqno ⟨5, .accepted, none⟩] } }
      else exec (.cateringReceived src room badge) s = .next { u with
        lines := u.lines.set src.line { u.lines.get src.line with
          intake := (u.lines.get src.line).intake ++
            [.answer src.pos src.reqno ⟨5, .notNow, none⟩] } }) ∧
    ((∀ i o, orderAt u i = some o → i ∈ (List.range 8).flatMap (production u) → o.room = room →
      plannerIdx u + 1 < pidx u o.serving) →
      exec (.cateringReceived src room badge) s = .next { u with
        lines := u.lines.set src.line { u.lines.get src.line with
          intake := (u.lines.get src.line).intake ++
            [.answer src.pos src.reqno ⟨5, .notNow, none⟩] } })) ∧
  ∀ (h : Handle) (room : Nat) (s u : State), takePlanner (.roomNotice h room) s = some u →
    match liveOrder u h with
    | some o => exec (.roomNotice h room) s = .next { u with planner := { u.planner with
        records := u.planner.records.set ⟨0, none⟩ h.index ⟨h.gen, some { o with room := room }⟩ } }
    | none => exec (.roomNotice h room) s = .next u

/-- The planner's boundary work: the mark of the quantum just ended and, at a rollover, the slice of the day that
left are cleared; then the kitchens' production lists are walked, and each order met is tried on the five rows of
the table of R102 in order. What each row does to one order, and how it frees one, is said below; every order of a
production list ends as the rows leave it, so none is left with a step due, and one with nothing due stands as it
was, as does every other record (R77, R102 to R106). -/
def Obligations.PlannerBoundaryTakesEveryStepDue : Prop :=
  (∀ (b : Boundary) (s u : State), takePlanner (.boundary b) s = some u → TablesCanonical s →
    u.clock.state ≠ .unset → b.now.quantum ≤ 287 →
    ∃ t v, exec (.plannerBoundaryWork b) s = .next t ∧
      v = { u with planner := { u.planner with now := some b.now, load := v.planner.load } } ∧
      t = (List.range 8).foldl (fun x k => (production x k).foldl (fun y i => walkOrder i y) x) v ∧
      t.planner.load = v.planner.load ∧
      t.planner.now = some b.now ∧ t.planner.intake = u.planner.intake ∧
      t.planner.limits = u.planner.limits ∧ Apart u t ∧ EngineGained u t ∧ t.store = u.store ∧
      t.lines = u.lines ∧ t.link = u.link ∧ t.superv = u.superv ∧
      (∀ k, k < 8 → (cellAt t k (b.now.quantum - 1)).mark = false) ∧
      (∀ (k : Nat) (h : Int) (before : LoadCell), k < 8 → 0 ≤ h → h ≤ 2303 →
        before = cellAt { u with planner := { u.planner with now := some b.now } } k h →
        cellAt t k h = if b.rollover = true ∧ 2016 ≤ h then ⟨0, 0, false⟩
          else if (h + 1 - b.now.quantum) % 2304 = 0 then { before with mark := false }
          else before) ∧
      (∀ i o, orderAt u i = some o → (∃ k, k < 8 ∧ i ∈ production u k) →
        orderRecord t i = match afterRows t o with
          | some o' => ⟨(orderRecord u i).gen, some o'⟩
          | none => ⟨((orderRecord u i).gen + 1) % 64, none⟩) ∧
      (∀ i, (orderAt u i = none ∨ ∀ k, k < 8 → i ∉ production u k) →
        orderRecord t i = orderRecord u i) ∧
      ∀ k, k < 8 → ∀ i ∈ production t k, ∀ o, orderAt t i = some o →
        ¬(o.state = .wasted ∧ pidx t o.window + o.len ≤ b.now.quantum) ∧
        ¬(o.state = .planned ∧ pidx t o.window = b.now.quantum) ∧
        ¬(o.state = .inProduction ∧ pidx t o.departure = b.now.quantum) ∧
        ¬(o.state = .dispatched ∧ pidx t o.serving + 2 = b.now.quantum) ∧
        ¬((o.state = .dispatched ∨ o.state = .delivered ∨ o.state = .unconfirmed) ∧
          pidx t o.departure + 2 * o.transit + 2 = b.now.quantum)) ∧
  (∀ (i : Nat) (y : State), walkOrder i y =
    walkRow walkClose (plannerIdx y) i (walkRow walkUnconfirmed (plannerIdx y) i
      (walkRow walkDispatch (plannerIdx y) i (walkRow walkProduction (plannerIdx y) i
        (walkRow walkWasted (plannerIdx y) i y))))) ∧
  (∀ (i : Nat) (o : Order) (now : Int) (h : Handle) (link : Datum) (noted : List EngineWork)
    (becomes : OrderState → State) (y : State), TablesCanonical y → orderAt y i = some o →
    h = ⟨i, (orderRecord y i).gen⟩ →
    link = (match o.booking with | some k => .handle k | none => .none) →
    noted = (match o.booking with | some k => [.displayNotice k h] | none => []) →
    (∀ st, becomes st = { y with planner := { y.planner with
      records := y.planner.records.set ⟨0, none⟩ i ⟨h.gen, some { o with state := st }⟩ } }) →
    (walkRow walkWasted now i y = if o.state = .wasted ∧ pidx y o.window + o.len ≤ now then
        freeOrder i o (some ⟨.orderWasted, plannerStamp y, o.room, h, .num o.load, .none⟩) y
      else y) ∧
    (walkRow walkProduction now i y = if o.state = .planned ∧ pidx y o.window = now then
        { postEvent ⟨.orderInProduction, plannerStamp y, o.room, h, .num o.kitchen, link⟩
            (becomes .inProduction) with
          engine := { y.engine with intake := y.engine.intake ++ noted } }
      else y) ∧
    (walkRow walkDispatch now i y = if o.state = .inProduction ∧ pidx y o.departure = now then
        { postEvent ⟨.orderDispatched, plannerStamp y, o.room, h, .num o.kitchen, link⟩
            (becomes .dispatched) with
          engine := { y.engine with intake := y.engine.intake ++ noted } }
      else y) ∧
    (walkRow walkUnconfirmed now i y = if o.state = .dispatched ∧ pidx y o.serving + 2 = now then
        postEvent ⟨.deliveryUnconfirmed, plannerStamp y, o.room, h, .time o.serving, link⟩
          (becomes .unconfirmed)
      else y) ∧
    (walkRow walkClose now i y =
      if (o.state = .dispatched ∨ o.state = .delivered ∨ o.state = .unconfirmed) ∧
          pidx y o.departure + 2 * o.transit + 2 = now then
        freeOrder i o (some ⟨.orderClosed, plannerStamp y, o.room, h,
          .num (if o.confirmed = true then 0 else 1), link⟩) y
      else y)) ∧
  ∀ (i : Nat) (o : Order) (e : EventRecord) (y t : State), TablesCanonical y →
    t = freeOrder i o (some e) y →
    orderRecord t i = ⟨((orderRecord y i).gen + 1) % 64, none⟩ ∧
    (∀ x, x ≠ i → orderRecord t x = orderRecord y x) ∧
    (∀ k, production t k =
      if k = o.kitchen then (production y k).filter (· ≠ i) else production y k) ∧
    t = { y with
      planner := { y.planner with
        records := t.planner.records
        lists := t.planner.lists
        free := y.planner.free ++ [i]
        episode := false }
      engine := { y.engine with intake := y.engine.intake ++ (match o.booking with
        | some k => [.linkNotice k ⟨i, (orderRecord y i).gen⟩]
        | none => []) }
      reports := (postEvent e y).reports
      counters := (postEvent e y).counters }

/-- No step leaves the order free list with a record missing, doubled or holding an order (R80, R81). -/
def Obligations.OrderPoolStaysExact : Prop :=
  ∀ s t : State, TablesCanonical s → OrderPoolExact s → step s = .next t →
    TablesCanonical t ∧ OrderPoolExact t

/-! ### The panel lines -/

/-- StartChain, StopChain, ChainMode and ClearPanelFault (R128, R130, R133, R145, R146, R147; the codes of the
modes are log 9, the code of ALL log 8, the empty bodies of refusals log 30, of a refused ChainMode log 43; that a StopChain, or a cycle start, takes
expiries still waiting out of the intake is log 20). -/
def Obligations.ChainRequests : Prop :=
  (∀ (n m : Nat) (p : Option Nat) (c : Instr) (r : HostRequest) (s u : State),
    (r = .startChain n ∨ r = .stopChain n ∨ r = .chainMode n m ∨ r = .clearPanelFault n p) →
    c = commandOf r → Taken r s u →
    (3 < n ∨ (r = .chainMode n m ∧ 1 < m) ∨
      (r = .clearPanelFault n p ∧ ∃ x, p = some x ∧ ¬(1 ≤ x ∧ x ≤ 48))) →
    RepliesOnly c s u .badField []) ∧
  (∀ (l : Fin 4) (s u : State), Taken (.startChain l.val) s u →
    if (u.lines.get l).chain = .offline ∨ (u.lines.get l).chain = .faulted then
      ∃ t b, exec (.startChain l.val) s = .next t ∧ Answered u t .ok [.u8 1] ∧
        t = { u with lines := u.lines.set l b, link := t.link } ∧
        CycleStarted u .census { u.lines.get l with chain := .census, echoFails := 0, entered := none } b
    else RepliesOnly (.startChain l.val) s u .chainState []) ∧
  (∀ (l : Fin 4) (s u : State), Taken (.stopChain l.val) s u → TablesCanonical s →
    ((u.lines.get l).chain = .offline ∨ (u.lines.get l).chain = .draining →
      RepliesOnly (.stopChain l.val) s u .chainState []) ∧
    ((u.lines.get l).chain = .census ∨ (u.lines.get l).chain = .running ∨
        (u.lines.get l).chain = .quiet → (u.lines.get l).inFlight ≠ none →
      ∃ t, exec (.stopChain l.val) s = .next t ∧ Answered u t .ok [.u8 4] ∧
        t = { u with link := t.link, lines := u.lines.set l { u.lines.get l with
          chain := .draining
          entered := some (.chain (u.lines.get l).chain)
          pollTimer := none
          startDue := false
          intake := (u.lines.get l).intake.filter (· ≠ .pollExpiry) } }) ∧
    ((u.lines.get l).chain = .faulted ∨ (((u.lines.get l).chain = .census ∨
        (u.lines.get l).chain = .running ∨ (u.lines.get l).chain = .quiet) ∧
        (u.lines.get l).inFlight = none) →
      ∃ t b, exec (.stopChain l.val) s = .next t ∧ Answered u t .ok [.u8 0] ∧
        t = { u with lines := u.lines.set l b, link := t.link } ∧ WentOffline (u.lines.get l) b)) ∧
  (∀ (l : Fin 4) (m : Nat) (s u : State), Taken (.chainMode l.val m) s u → TablesCanonical s → m ≤ 1 →
    ((u.lines.get l).chain ≠ .running → (u.lines.get l).chain ≠ .quiet →
      RepliesOnly (.chainMode l.val m) s u .chainState []) ∧
    ((u.lines.get l).chain = .running → m = 0 →
      RepliesOnly (.chainMode l.val m) s u .ok [.u8 2]) ∧
    ((u.lines.get l).chain = .quiet → m = 1 →
      RepliesOnly (.chainMode l.val m) s u .ok [.u8 3]) ∧
    ((u.lines.get l).chain = .running → m = 1 → u.clock.state = .unset →
      RepliesOnly (.chainMode l.val m) s u .clockNotSet []) ∧
    ((u.lines.get l).chain = .running → m = 1 → u.clock.state ≠ .unset →
      ∃ t, exec (.chainMode l.val m) s = .next t ∧ Answered u t .ok [.u8 3] ∧
        t = { u with link := t.link, lines := u.lines.set l { u.lines.get l with chain := .quiet } }) ∧
    ((u.lines.get l).chain = .quiet → m = 0 →
      ∃ t b, exec (.chainMode l.val m) s = .next t ∧ Answered u t .ok [.u8 2] ∧
        t = { u with lines := u.lines.set l b, link := t.link } ∧ EnteredRunning u (u.lines.get l) b)) ∧
  ∀ (l : Fin 4) (target : Option Nat) (s u : State), Taken (.clearPanelFault l.val target) s u →
    TablesCanonical s → (∀ x, target = some x → 1 ≤ x ∧ x ≤ 48) →
    ((u.lines.get l).chain ≠ .running → (u.lines.get l).chain ≠ .quiet →
      RepliesOnly (.clearPanelFault l.val target) s u .chainState []) ∧
    ((u.lines.get l).chain = .running ∨ (u.lines.get l).chain = .quiet →
      (u.lines.get l).inFlight ≠ none →
      exec (.clearPanelFault l.val target) s = .next { u with
        lines := u.lines.set l { u.lines.get l with
          deferred := (u.lines.get l).deferred ++ [.clear target] } }) ∧
    ((u.lines.get l).chain = .running ∨ (u.lines.get l).chain = .quiet →
      (u.lines.get l).inFlight = none →
      ∃ t b, exec (.clearPanelFault l.val target) s = .next t ∧
        t = { u with lines := u.lines.set l b, link := t.link } ∧
        b = { u.lines.get l with
          positions := b.positions
          clearAll := if target = none then true else (u.lines.get l).clearAll } ∧
        (∀ p, 1 ≤ p → p ≤ 48 → b.at p =
          if (target = none ∨ target = some p) ∧ ((u.lines.get l).at p).health = .returned then
            { (u.lines.get l).at p with
              cause := none
              health := if ((u.lines.get l).at p).misses = 0 then .present else .suspect }
          else (u.lines.get l).at p) ∧
        Answered u t .ok (match target with
          | some p => [.u8 (healthCode (b.at p).health), u8Field ((b.at p).cause.map absenceCode),
              .u8 (b.at p).misses]
          | none => [.u8 ((List.range 48).filter (fun i =>
                decide (((u.lines.get l).at (i + 1)).health = .returned))).length,
              .u8 ((List.range 48).filter (fun i => decide ((b.at (i + 1)).bound ≠ none ∧
                (b.at (i + 1)).health ≠ .present))).length]))

/-- What calls for a cycle: an expiry of the poll timer, and in QUIET the attention wire when it is pulled, taken at
once or, where it waited behind other work, when it stands at the head of the intake (R121, R124, R125). How a pin
event joins the intake is log 19; that a start takes expiries still waiting out of the intake is log 20; the level of
a wire in a part that does not run is log 21. -/
def Obligations.CycleCalls : Prop :=
  (∀ (l : Fin 4) (s u : State), takeLine l .pollExpiry s = some u →
    ((u.lines.get l).chain = .offline ∨ (u.lines.get l).chain = .draining ∨
        (u.lines.get l).chain = .faulted → exec (.pollTimerExpiry l) s = .next u) ∧
    ((u.lines.get l).chain = .census ∨ (u.lines.get l).chain = .running ∨
        (u.lines.get l).chain = .quiet → (u.lines.get l).inFlight ≠ none →
      exec (.pollTimerExpiry l) s = .next { u with
        lines := u.lines.set l { u.lines.get l with startDue := true } }) ∧
    (∀ k, (k = .census ∧ (u.lines.get l).chain = .census) ∨ (k = .ordinary ∧
        ((u.lines.get l).chain = .running ∨ (u.lines.get l).chain = .quiet)) →
      (u.lines.get l).inFlight = none → TablesCanonical s →
      ∃ b, exec (.pollTimerExpiry l) s = .next { u with lines := u.lines.set l b } ∧
        CycleStarted u k (u.lines.get l) b)) ∧
  (∀ (l : Fin 4) (s : State), s.power = .running → (s.lines.get l).wire = false →
    (s.lines.get l).intake = [] → TablesCanonical s →
    ((s.lines.get l).chain ≠ .quiet → exec (.attentionWirePulled l) s = .next
      { s with lines := s.lines.set l { s.lines.get l with wire := true } }) ∧
    ((s.lines.get l).chain = .quiet → (s.lines.get l).inFlight ≠ none →
      exec (.attentionWirePulled l) s = .next
        { s with lines := s.lines.set l { s.lines.get l with wire := true, startDue := true } }) ∧
    ((s.lines.get l).chain = .quiet → (s.lines.get l).inFlight = none →
      ∃ b, exec (.attentionWirePulled l) s = .next { s with lines := s.lines.set l b } ∧
        CycleStarted s .ordinary { s.lines.get l with wire := true } b)) ∧
  (∀ (l : Fin 4) (s u : State), takeLine l .wirePulled s = some u → TablesCanonical s →
    ((u.lines.get l).chain ≠ .quiet → exec (.attentionWirePulled l) s = .next u) ∧
    ((u.lines.get l).chain = .quiet → (u.lines.get l).inFlight ≠ none →
      exec (.attentionWirePulled l) s = .next { u with
        lines := u.lines.set l { u.lines.get l with startDue := true } }) ∧
    ((u.lines.get l).chain = .quiet → (u.lines.get l).inFlight = none →
      ∃ b, exec (.attentionWirePulled l) s = .next { u with lines := u.lines.set l b } ∧
        CycleStarted u .ordinary (u.lines.get l) b)) ∧
  (∀ (l : Fin 4) (s : State), s.power ≠ .running → exec (.attentionWirePulled l) s = .next
    { s with lines := s.lines.set l { s.lines.get l with wire := true } }) ∧
  (∀ (l : Fin 4) (w : LineWork) (ws : List LineWork) (s : State), s.power = .running →
    (s.lines.get l).wire = false → (s.lines.get l).intake = w :: ws → w ≠ .wirePulled →
    exec (.attentionWirePulled l) s = .next { s with
      lines := s.lines.set l { s.lines.get l with
        wire := true, intake := w :: ws ++ [.wirePulled] } }) ∧
  (∀ (l : Fin 4) (s : State), (s.lines.get l).wire = true →
    (∀ ws, (s.lines.get l).intake ≠ .wirePulled :: ws) → exec (.attentionWirePulled l) s = .next s) ∧
  ∀ (l : Fin 4) (s : State), exec (.attentionWireReleased l) s = .next
    { s with lines := s.lines.set l { s.lines.get l with wire := false } }

/-- The two endings of a cycle: a returned frame that carries the start mark and the tag, or an echo failure, by
mismatch (a frame short of 1251 bytes, of another mark or of another tag) or timeout, the second of which faults the
chain (R123, R126, R127, R129, R130, R131). A frame is taken at once, or waits behind other work for the head of the
intake (log 19). A completed census posts PANEL_ABSENT for the bound positions above the count and queues every bound
one; one of count 0 faults the chain. The deferred list is applied in arrival order before any next cycle (DeferredRun;
R119, R144 to R147, R164), and a clear held in it is answered (R146; with what stands then is log 37). An echo failure
takes no uplink. That FAULTED keeps the miss counts is log 15, that it lowers CLEAR_ALL behind a deferred clear log 14,
that a frame longer than 1251 bytes is read by its first 1251 log 29, a census cycle ending in DRAINING log 32, expiries
taken out of the intake log 20. -/
def Obligations.CycleEnds : Prop :=
  (∀ (l : Fin 4) (bytes : List Byte) (w : LineWork) (ws : List LineWork) (s : State), s.power = .running →
    (s.lines.get l).intake = w :: ws → w ≠ .frame bytes → exec (.cycleReturn l bytes) s = .next { s with
      lines := s.lines.set l { s.lines.get l with intake := w :: ws ++ [.frame bytes] } }) ∧
  (∀ (l : Fin 4) (bytes : List Byte) (s u : State), PinTaken l (.frame bytes) s u →
    (u.lines.get l).inFlight = none → exec (.cycleReturn l bytes) s = .next u) ∧
  (∀ (l : Fin 4) (s u : State), takeLine l .cycleExpiry s = some u → (u.lines.get l).inFlight = none →
    exec (.cycleTimeout l) s = .next u) ∧
  (∀ (l : Fin 4) (bytes : List Byte) (tag hops : Nat) (s₀ s : State), PinTaken l (.frame bytes) s₀ s →
    TablesCanonical s →
    1251 ≤ bytes.length → (bytes.getD 0 0).toNat = 0xE7 → (bytes.getD 1 0).toNat / 8 = tag →
    (bytes.getD 2 0).toNat = hops →
    ((s.lines.get l).inFlight = some (tag, .ordinary) →
      ((s.lines.get l).chain = .running ∨ (s.lines.get l).chain = .quiet ∨
        (s.lines.get l).chain = .draining) →
      ∃ t, exec (.cycleReturn l bytes) s₀ = .next t ∧ (t.lines.get l).lastHop = some hops ∧
        (t.lines.get l).echoFails = 0 ∧ (t.lines.get l).deferred = [] ∧
        t.counters.echoFailures = s.counters.echoFailures ∧
        ((s.lines.get l).chain = .draining → (t.lines.get l).chain = .offline) ∧
        ((s.lines.get l).chain ≠ .draining → (t.lines.get l).chain = (s.lines.get l).chain ∧
          if (s.lines.get l).startDue = true then
            (t.lines.get l).inFlight = some (((s.lines.get l).tag + 1) % 32, .ordinary)
          else (t.lines.get l).inFlight = none)) ∧
    ((s.lines.get l).inFlight = some (tag, .census) → (s.lines.get l).chain = .census → hops ≠ 0 →
      ∀ v : State, v = (List.range 48).foldl (fun x i => match ((s.lines.get l).at (i + 1)).bound with
        | some room => if hops < i + 1 ∧ s.policy.absentReport = true then
            postException (.panelAbsent l (i + 1) room .census 0) (lineNow l s) x else x
        | none => x) s →
      ∀ w : Bool, (w = true ↔ ∃ now, lineNow l s = some now ∧
        inWindow s.policy.quietWindow now.quantum = true) →
      ∃ (t : State) (m n a : Line), exec (.cycleReturn l bytes) s₀ = .next t ∧
        t = { v with lines := s.lines.set l (t.lines.get l), link := t.link } ∧
        m = { s.lines.get l with
          inFlight := none
          cycleTimer := none
          echoFails := 0
          lastHop := some hops
          census := some hops
          deferred := []
          queue := boundNumbers (s.lines.get l)
          intake := (s.lines.get l).intake.filter (· ≠ .cycleExpiry)
          positions := m.positions } ∧
        (∀ p, m.at p = if 1 ≤ p ∧ p ≤ 48 then { (s.lines.get l).at p with
            health := if p ≤ hops then .present else .absent
            cause := if p ≤ hops then none else some .census
            misses := 0
            toggle := none
            last := .none
            unack := none
            litUntil := none }
          else (s.lines.get l).at p) ∧
        DeferredRun (s.lines.get l).deferred m n ∧ HeldClearAnswered l (s.lines.get l).deferred m s t ∧
        a = { n with window := w, chain := if w = true then .quiet else .running } ∧
        if (s.lines.get l).startDue = true then CycleStarted s .ordinary a (t.lines.get l)
        else t.lines.get l = a) ∧
    ((s.lines.get l).inFlight = some (tag, .census) → (s.lines.get l).chain = .census → hops = 0 →
      ∃ (t v : State) (a b : Line), exec (.cycleReturn l bytes) s₀ = .next t ∧
        v = postException (.chainFault l .empty (some 0) (s.lines.get l).tag) (lineNow l s) s ∧
        t = { v with lines := s.lines.set l b, link := t.link } ∧
        a = { s.lines.get l with
          inFlight := none
          cycleTimer := none
          echoFails := 0
          lastHop := some 0
          census := some 0
          intake := (s.lines.get l).intake.filter (· ≠ .cycleExpiry) } ∧
        Faulted .empty a b ∧ HeldClearAnswered l (s.lines.get l).deferred a s t) ∧
    ((s.lines.get l).inFlight = some (tag, .census) → (s.lines.get l).chain = .draining →
      ∃ (t : State) (a n b : Line), exec (.cycleReturn l bytes) s₀ = .next t ∧
        t = { s with lines := s.lines.set l b, link := t.link } ∧
        a = { s.lines.get l with
          inFlight := none
          cycleTimer := none
          intake := (s.lines.get l).intake.filter (· ≠ .cycleExpiry) } ∧
        DeferredRun (s.lines.get l).deferred { a with deferred := [] } n ∧ WentOffline n b ∧
        HeldClearAnswered l (s.lines.get l).deferred a s t)) ∧
  ∀ (l : Fin 4) (c : Instr) (s u : State) (tag : Nat) (k : CycleKind), TablesCanonical s →
    (u.lines.get l).inFlight = some (tag, k) →
    ((c = .cycleTimeout l ∧ takeLine l .cycleExpiry s = some u) ∨
      ∃ bytes, c = .cycleReturn l bytes ∧ PinTaken l (.frame bytes) s u ∧
        (bytes.length < 1251 ∨ (bytes.getD 0 0).toNat ≠ 0xE7 ∨ (bytes.getD 1 0).toNat / 8 ≠ tag)) →
    ∀ (x : State) (a : Line),
      x = { u with counters := { u.counters with
        echoFailures := u.counters.echoFailures.set l (saturate (u.counters.echoFailures.get l)) } } →
      a = { u.lines.get l with
        inFlight := none
        cycleTimer := none
        echoFails := min 2 ((u.lines.get l).echoFails + 1)
        intake := (u.lines.get l).intake.filter (· ≠ .cycleExpiry) } →
      ∃ (t : State) (b : Line), exec c s = .next t ∧ HeldClearAnswered l a.deferred a u t ∧
        (a.chain = .draining → t = { x with lines := u.lines.set l b, link := t.link } ∧
          ∃ n, DeferredRun a.deferred { a with deferred := [] } n ∧ WentOffline n b) ∧
        (∀ kind, (kind = .census ∧ a.chain = .census) ∨
            (kind = .ordinary ∧ (a.chain = .running ∨ a.chain = .quiet)) →
          ((u.lines.get l).echoFails = 0 → t = { x with lines := u.lines.set l b, link := t.link } ∧
            ∃ n, DeferredRun a.deferred { a with deferred := [] } n ∧
              if a.startDue = true then CycleStarted x kind n b else b = n) ∧
          (1 ≤ (u.lines.get l).echoFails → Faulted .echo a b ∧
            t = { postException (.chainFault l .echo a.lastHop a.tag) (lineNow l u) x with
              lines := u.lines.set l b, link := t.link }))

/-- A miss and a heard uplink at a bound position, by the tables of R140 and R141, with the miss counter and the
records of R148. -/
def Obligations.HealthUpdates : Prop :=
  ∀ (l : Fin 4) (p room d : Nat) (q : Position) (s : State), TablesCanonical s →
    q = (s.lines.get l).at p → q.bound = some room → d = s.policy.deglitch → 2 ≤ d →
    (∀ a, a = (match q.health with
      | .present => { q with health := .suspect, misses := 1 }
      | .suspect => if d ≤ q.misses + 1 then
          { q with health := .absent, cause := some .misses, misses := q.misses + 1 }
          else { q with misses := q.misses + 1 }
      | .returned => if d ≤ q.misses + 1 then
          { q with health := .absent, cause := some .misses, misses := q.misses + 1 }
          else { q with misses := q.misses + 1 }
      | .absent => { q with misses := min 15 (q.misses + 1) }
      | .unknown => q) →
      (updateHealth l p none s).lines = s.lines.set l
        { s.lines.get l with positions := (s.lines.get l).positions.set .reset p a } ∧
      (updateHealth l p none s).counters.misses.get l = saturate (s.counters.misses.get l) ∧
      (a.health = .absent → q.health ≠ .absent → s.policy.absentReport = true →
        s.reports.exceptions.length < 32 → (updateHealth l p none s).reports.exceptions =
          s.reports.exceptions ++ [⟨.panelAbsent l p room .misses a.misses, lineNow l s⟩]) ∧
      (a.health ≠ .absent ∨ q.health = .absent ∨ s.policy.absentReport = false →
        (updateHealth l p none s).reports = s.reports)) ∧
    ∀ (x : Uplink) (a : Position), a = (match q.health with
      | .present => { q with misses := 0, cause := none }
      | .suspect => { q with health := .present, misses := 0, cause := none }
      | .absent => { q with health := .returned, misses := 0 }
      | .returned => { q with misses := 0 }
      | .unknown => q) →
      (updateHealth l p (some x) s).lines = s.lines.set l
        { s.lines.get l with positions := (s.lines.get l).positions.set .reset p a } ∧
      (updateHealth l p (some x) s).counters.misses = s.counters.misses ∧
      (q.health = .absent → s.reports.exceptions.length < 32 →
        (updateHealth l p (some x) s).reports.exceptions =
          s.reports.exceptions ++ [⟨.panelReturned l p room q.cause, lineNow l s⟩]) ∧
      (q.health ≠ .absent → (updateHealth l p (some x) s).reports = s.reports)

/-- What a controller does with an answered uplink, and what it writes into the downlinks. A repeat makes a held reply
owed again; a new request takes the next request number and goes to its owner, or is answered by the controller itself
(R154, R156 to R162); that the request number is advanced before it is carried is log 33. An ordinary cycle carries
owed replies first, then queued displays, in QUIET to lit positions only, and there blanks a dark bound one with
nothing else (R134, R163 to R165); that a display at an unbound position starts no count is log 28. What a display
holds: the shown state by the rows of R56, the four facts of R57, the indicator of R101, and the record of R163; that
the shown state is evaluated with the engine's now is log 26. -/
def Obligations.UplinksAndDownlinks : Prop :=
  (∀ (s : State) (room : Nat) (now : Option CTime) (here next : Option (Nat × Booking)) (shown : Shown)
      (from_ : Option Booking) (light : Indicator) (g : Nat),
    now = engineNow s →
    here = (match now with
      | some n => (roomBookings s room).find? (fun e => decide (idx s e.2.start ≤ idx s n))
      | none => none) →
    next = (match now with
      | some n => (roomBookings s room).find? (fun e => decide (idx s n < idx s e.2.start))
      | none => none) →
    shown = (match roomAt s room with
      | none => .blank
      | some e =>
        if e.binding = none then .blank
        else if e.inService = false then .outOfService
        else match here, s.engine.lastEnd.get none room, now with
          | some (_, b), _, _ => if b.state = .checkedIn then .inUse else .due
          | none, some x, some n =>
            if idx s x ≤ idx s n ∧ idx s n < idx s x + e.turnaround then .turnaround else .free
          | none, _, _ => .free) →
    from_ = (match here, next with
      | some (_, b), _ => some b
      | none, some (_, b) => some b
      | none, none => none) →
    light = (match (from_.bind Booking.order).bind (liveOrder s) with
      | none => .none
      | some o =>
        if o.booking = none then .none
        else match o.state with
          | .planned => .planned
          | .inProduction => .inProduction
          | .dispatched | .unconfirmed => .onItsWay
          | .delivered => .delivered
          | .wasted | .closed | .cancelled => .none) →
    factsOf s room = ⟨shown, here.map (fun e => e.2.fin), next.map (fun e => e.2.start),
      from_.map Booking.organizer⟩ ∧
    displayOf s (some room) g = ⟨shown, light, g, ((roomAt s room).map RoomEntry.label).getD 0,
      from_.map Booking.organizer, here.map (fun e => e.2.fin), next.map (fun e => e.2.start)⟩ ∧
    displayOf s none g = ⟨.blank, .none, g, 0, none, none, none⟩) ∧
  (∀ (l : Fin 4) (p n : Nat) (x : Uplink) (q : Position) (s : State) (noted : LastReply → Option Bool → Line),
    TablesCanonical s → q = (s.lines.get l).at p → n = ((s.lines.get l).reqno + 1) % 256 →
    (∀ last toggle, noted last toggle = { s.lines.get l with
      reqno := n
      positions := (s.lines.get l).positions.set .reset p { q with toggle := toggle, last := last } }) →
    (x.kind = 0 → judgeRequest l p x s = s) ∧
    (∀ r owed, x.kind ≠ 0 → q.toggle = some x.toggle → q.last = .reply r owed →
      judgeRequest l p x s = { s with lines := s.lines.set l { s.lines.get l with
        positions := (s.lines.get l).positions.set .reset p { q with last := .reply r true } } }) ∧
    (x.kind ≠ 0 → q.toggle = some x.toggle → (∀ r owed, q.last ≠ .reply r owed) →
      judgeRequest l p x s = s) ∧
    (∀ (v : State), x.kind ≠ 0 → q.toggle ≠ some x.toggle →
      v = { s with lines := s.lines.set l (noted (.pending n) (some x.toggle)) } →
      (∀ room, q.bound = some room →
        (x.kind = 1 → judgeRequest l p x s = { v with engine := { s.engine with
          intake := s.engine.intake ++ [.walkup ⟨l, p, n⟩ room x.argument x.badge] } }) ∧
        (x.kind = 2 → judgeRequest l p x s = { v with engine := { s.engine with
          intake := s.engine.intake ++ [.checkin ⟨l, p, n⟩ room x.badge] } }) ∧
        (x.kind = 3 → judgeRequest l p x s = { v with engine := { s.engine with
          intake := s.engine.intake ++ [.extend ⟨l, p, n⟩ room x.argument] } }) ∧
        (x.kind = 4 → judgeRequest l p x s = { v with engine := { s.engine with
          intake := s.engine.intake ++ [.panelEnd ⟨l, p, n⟩ room] } }) ∧
        (x.kind = 5 → judgeRequest l p x s = { v with planner := { s.planner with
          intake := s.planner.intake ++ [.receipt ⟨l, p, n⟩ room x.badge] } }) ∧
        (x.kind = 6 → judgeRequest l p x s =
          { postException (.problem l p room x.argument x.badge) (lineNow l s) s with
            lines := s.lines.set l
              (noted (.reply ⟨.accepted, 6, x.toggle, none⟩ true) (some x.toggle)) }) ∧
        (6 < x.kind → judgeRequest l p x s = { s with
          lines := s.lines.set l
            (noted (.reply ⟨.refused, x.kind, x.toggle, none⟩ true) (some x.toggle)) })) ∧
      (q.bound = none → judgeRequest l p x s =
        { postException (.panelUnbound l p x.kind x.badge) (lineNow l s) s with
          lines := s.lines.set l
            (noted (.reply ⟨.refused, x.kind, x.toggle, none⟩ true) (some x.toggle)) }))) ∧
  ∀ (s : State) (quiet : Bool) (ln : Line) (f : Filling) (p : Nat) (q : Position),
    f = fillDownlinks s quiet ln → ln.queue.Nodup → ln.positions.wf .reset → q = ln.at p →
    1 ≤ p → p ≤ 48 →
    (∀ r, q.last = .reply r true → f.slots.get .empty p = .reply r ∧
      f.line.at p = { q with last := .reply r false } ∧ (p ∈ f.line.queue ↔ p ∈ ln.queue)) ∧
    ((∀ r, q.last ≠ .reply r true) → p ∈ ln.queue → (quiet = false ∨ q.litUntil ≠ none) →
      f.slots.get .empty p = .display (displayOf s q.bound ((q.genSent + 1) % 256)) ∧
      f.line.at p = { q with
        genSent := (q.genSent + 1) % 256, unack := if q.bound = none then none else some 0 } ∧
      p ∉ f.line.queue) ∧
    ((∀ r, q.last ≠ .reply r true) → (p ∉ ln.queue ∨ (quiet = true ∧ q.litUntil = none)) →
      f.slots.get .empty p =
        (if quiet = true ∧ q.bound ≠ none ∧ q.litUntil = none then .blank else .empty) ∧
      f.line.at p = q ∧ (p ∈ f.line.queue ↔ p ∈ ln.queue))

/-- A completed ordinary cycle: its counts, then its uplinks taken from position 1 to 48 in RUNNING, QUIET, and
DRAINING entered from them, then the clears held for the cycle, the rest of the deferred list, and in DRAINING the entry
into OFFLINE, else the next cycle if start due is set; this changes only the line as the uplinks left it, and the reply
of a held clear (R119, R126, R130, R144 to R147). What is done at one position, in order: the health update and the generation check of a bound one in
RUNNING and QUIET (R139, R166), the panel request (R154), the occupancy notice (R69), the lighting of a touch (R135).
A frame is taken at once, or when it stands at the head of the intake (log 19). That a touch lights only when the
cycle began and ended in QUIET is log 33, that a silent slot acknowledges nothing log 39, what stands in the reply of
the held clear log 37, that a frame longer than 1251 bytes is read by its first 1251 log 29, expiries taken out of the
intake log 20. -/
def Obligations.CompletedCycleUplinks : Prop :=
  (∀ (l : Fin 4) (bytes : List Byte) (tag hops : Nat) (full quiet : Bool) (ln : Line) (s₀ s u v : State),
    ln = s.lines.get l → PinTaken l (.frame bytes) s₀ s → TablesCanonical s →
    1251 ≤ bytes.length → (bytes.getD 0 0).toNat = 0xE7 → (bytes.getD 1 0).toNat / 8 = tag →
    (bytes.getD 2 0).toNat = hops → ln.inFlight = some (tag, .ordinary) →
    (full = true ↔ ln.chain = .running ∨ ln.chain = .quiet) →
    (quiet = true ↔ ln.chain = .quiet ∧ ∃ f, ln.out = some f ∧ f.quiet = true) →
    u = { s with lines := s.lines.set l { ln with
      inFlight := none, cycleTimer := none, echoFails := 0, lastHop := some hops
      intake := ln.intake.filter (· ≠ .cycleExpiry) } } →
    v = (if full = true ∨ (ln.chain = .draining ∧
          (ln.entered = some (.chain .running) ∨ ln.entered = some (.chain .quiet))) then
        (List.range 48).foldl (fun x i => takeUplink l full quiet bytes x (i + 1)) u
      else u) →
    ∃ t, exec (.cycleReturn l bytes) s₀ = .next t ∧
      t = { v with lines := t.lines, link := t.link } ∧ (∀ m, m ≠ l → t.lines.get m = v.lines.get m) ∧
      HeldClearAnswered l ln.deferred (v.lines.get l) s t ∧
      ∃ m n : Line,
        DeferredRun (ln.deferred.filter (fun d => match d with
          | .clear _ => true
          | .binding _ _ | .display _ => false)) { v.lines.get l with deferred := [] } m ∧
        DeferredRun (ln.deferred.filter (fun d => match d with
          | .clear _ => false
          | .binding _ _ | .display _ => true)) m n ∧
        (full = true → if ln.startDue = true then CycleStarted v .ordinary n (t.lines.get l)
          else t.lines.get l = n) ∧
        (ln.chain = .draining → WentOffline n (t.lines.get l))) ∧
  (∀ (l : Fin 4) (p : Nat) (full quiet : Bool) (bytes : List Byte) (q : Position) (s h : State),
    TablesCanonical s → q = (s.lines.get l).at p →
    h = (if full = true ∧ q.bound ≠ none then
        updLine l (Line.checkGeneration p (uplinkAt bytes p)) (updateHealth l p (uplinkAt bytes p) s)
      else s) →
    (uplinkAt bytes p = none → takeUplink l full quiet bytes s p = h) ∧
    ∀ (x : Uplink) (j o : State), uplinkAt bytes p = some x → j = judgeRequest l p x h →
      o = (match q.bound with
        | some room => if x.occupancy = true then { j with engine := { j.engine with
            intake := j.engine.intake ++ [.occupancy room] } } else j
        | none => j) →
      (quiet = false ∨ x.touch = false ∨ q.bound = none ∨ lineNow l s = none →
        takeUplink l full quiet bytes s p = o) ∧
      ∀ now, quiet = true → x.touch = true → q.bound ≠ none → lineNow l s = some now →
        takeUplink l full quiet bytes s p = { o with lines := o.lines.set l { o.lines.get l with
          positions := (o.lines.get l).positions.set .reset p
            { (o.lines.get l).at p with litUntil := some (shiftTime now 1) }
          queue := if p ∈ (o.lines.get l).queue then (o.lines.get l).queue
            else (o.lines.get l).queue ++ [p] } }) ∧
  ∀ (p : Nat) (x : Option Uplink) (acked : Prop) (q : Position) (a b : Line),
    a.positions.wf .reset → q = a.at p → (acked ↔ ∃ r, x = some r ∧ r.shown = q.genSent) →
    b = Line.checkGeneration p x a →
    b = { a with positions := b.positions, queue := b.queue } ∧ (∀ p', p' ≠ p → b.at p' = a.at p') ∧
    b.at p = { q with
      genAck := (match x with | some r => r.shown | none => q.genAck)
      unack := (b.at p).unack } ∧
    (q.unack = none → (b.at p).unack = none ∧ b.queue = a.queue) ∧
    (∀ n, q.unack = some n → acked → (b.at p).unack = none ∧ b.queue = a.queue) ∧
    (∀ n, q.unack = some n → ¬ acked → n + 1 < 3 →
      (b.at p).unack = some (n + 1) ∧ b.queue = a.queue) ∧
    (∀ n, q.unack = some n → ¬ acked → 3 ≤ n + 1 → (b.at p).unack = none ∧
      b.queue = if p ∈ a.queue then a.queue else a.queue ++ [p])

/-- Work the other owners hand a controller: applied at once between cycles, deferred while one is in flight (R119,
R155, R164). Its boundary work: every lit-until before the new now dropped, the window flag set, and at an edge
RUNNING taken to QUIET, or QUIET to RUNNING, with every position dark, every bound one queued and a cycle called for
(R132, R133, R135; that a start takes expiries still waiting out of the intake is log 20). -/
def Obligations.ControllerWork : Prop :=
  (∀ (l : Fin 4) (room : Nat) (s u : State), takeLine l (.display room) s = some u →
    ((u.lines.get l).inFlight ≠ none → exec (.displayUpdateRequest l room) s = .next { u with
      lines := u.lines.set l { u.lines.get l with
        deferred := (u.lines.get l).deferred ++ [.display room] } }) ∧
    (∀ p, (u.lines.get l).inFlight = none → 1 ≤ p → p ≤ 48 →
      ((u.lines.get l).at p).bound = some room →
      (∀ p', 1 ≤ p' → p' < p → ((u.lines.get l).at p').bound ≠ some room) →
      exec (.displayUpdateRequest l room) s = .next { u with
        lines := u.lines.set l { u.lines.get l with
          queue := if p ∈ (u.lines.get l).queue then (u.lines.get l).queue
            else (u.lines.get l).queue ++ [p] } }) ∧
    ((u.lines.get l).inFlight = none →
      (∀ p, 1 ≤ p → p ≤ 48 → ((u.lines.get l).at p).bound ≠ some room) →
      exec (.displayUpdateRequest l room) s = .next u)) ∧
  (∀ (l : Fin 4) (p : Nat) (room : Option Nat) (s u : State),
    takeLine l (.binding p room) s = some u →
    ((u.lines.get l).inFlight ≠ none → exec (.bindingChange l p room) s = .next { u with
      lines := u.lines.set l { u.lines.get l with
        deferred := (u.lines.get l).deferred ++ [.binding p room] } }) ∧
    ((u.lines.get l).inFlight = none → exec (.bindingChange l p room) s = .next { u with
      lines := u.lines.set l { u.lines.get l with
        positions := (u.lines.get l).positions.set .reset p { (u.lines.get l).at p with
          bound := room
          unack := if room = none then none else ((u.lines.get l).at p).unack }
        queue := if p ∈ (u.lines.get l).queue then (u.lines.get l).queue
          else (u.lines.get l).queue ++ [p] } })) ∧
  (∀ (l : Fin 4) (p n : Nat) (a : PanelAnswer) (s u : State), takeLine l (.answer p n a) s = some u →
    (((u.lines.get l).at p).last = .pending n → exec (.panelAnswer l p n a) s = .next { u with
      lines := u.lines.set l { u.lines.get l with
        positions := (u.lines.get l).positions.set .reset p { (u.lines.get l).at p with
          last := .reply ⟨a.code, a.kind, ((u.lines.get l).at p).toggle.getD false, a.time⟩ true } } }) ∧
    (((u.lines.get l).at p).last ≠ .pending n → exec (.panelAnswer l p n a) s = .next u)) ∧
  ∀ (l : Fin 4) (b : Boundary) (w : Bool) (a : Line) (s u : State), takeLine l (.boundary b) s = some u →
    TablesCanonical s → a = u.lines.get l → w = inWindow u.policy.quietWindow b.now.quantum →
    ∃ c, exec (.controllerBoundaryWork l b) s = .next { u with lines := u.lines.set l c } ∧
      if w = false ∧ a.window = true ∧ a.chain = .quiet then
        EnteredRunning u { a with now := some b.now, window := false } c
      else
        c = { a with
          now := some b.now
          window := w
          chain := if w = true ∧ a.window = false ∧ a.chain = .running then .quiet else a.chain
          positions := c.positions } ∧
        ∀ p, 1 ≤ p → p ≤ 48 → c.at p = { a.at p with litUntil := match (a.at p).litUntil with
          | some x => if horizonIndex b.now.day x < horizonIndex b.now.day b.now then none else some x
          | none => none }

/-- Every step keeps each line's timers, tag and echo-failure count in agreement with its chain state (R117, R124,
R130, R131). -/
def Obligations.LinesStayLegal : Prop :=
  ∀ s t : State, LinesLegal s → step s = .next t → LinesLegal t

/-- Each block writes only what it owns: the engine's work leaves the model, the clock, the scanner, the planner's
tables and the lines' states as they were; the planner's work leaves the bookings; a line's work leaves every other
line, the bookings and the orders. They reach one another only through work that joins an intake (R60, R76,
R117). Outside resets the clock moves only at ticks, quantum entries and SetClock, and the Campus Model and the
Policy Set only at their loads (R2 to R9, R11 to R18). -/
def Obligations.BlocksWriteOnlyTheirOwn : Prop :=
  ∀ (c : Instr) (s t : State), exec c s = .next t →
    (isEngineWork c = true → Apart s t ∧ PlannerGained s t ∧ LinesGained s t ∧ SupervisionApart s t) ∧
    (isPlannerWork c = true → Apart s t ∧ EngineGained s t ∧ LinesGained s t ∧ t.store = s.store ∧
      t.superv = s.superv) ∧
    (∀ l, lineOfWork c = some l → Apart s t ∧ EngineGained s t ∧ PlannerGained s t ∧
      t.store = s.store ∧ t.superv = s.superv ∧ ∀ m, m ≠ l → t.lines.get m = s.lines.get m) ∧
    (isReset c = false → movesClock c = false → t.clock = s.clock) ∧
    (isReset c = false → loadsModel c = false → t.rooms = s.rooms ∧ t.kitchens = s.kitchens ∧
      t.distances = s.distances ∧ t.menu = s.menu ∧ t.policy = s.policy)

/-- The layouts of §10.8: a reply frame and its result codes (R172), the bytes of each kind of reply field and the codes of
the enumerated values (R184; the order of a list that no table numbers is log 9), the 16 bytes of an event and of an
exception record (R175), the 1251 bytes of a frame sent and its downlink slots (R120), and the fields of an uplink slot
(R152). That the kind byte of a reply is taken modulo 256, and the form of a detail of two values, are log 8. -/
def Obligations.WireLayouts : Prop :=
  (∀ (r : Reply) (bs head : List Byte), bs = r.body.flatMap Field.wire →
    head = [BitVec.ofNat 8 (bs.length + 2), BitVec.ofNat 8 (r.kind + 0x80), BitVec.ofNat 8 r.tag, r.summary,
      BitVec.ofNat 8 (resultCode r.result)] →
    r.wire = 0xA5 :: (head ++ bs ++ [(crc16 (head ++ bs)).extractLsb' 8 8, (crc16 (head ++ bs)).extractLsb' 0 8])) ∧
  ([Result.ok, .clamped, .busy, .badKind, .badField, .noSuchRoom, .roomOutOfService, .roomBusy, .clockNotSet,
    .clockStep, .outOfHorizon, .overCapacity, .conflict, .poolEmpty, .holdsFull, .staleHandle, .wrongState,
    .orderExists, .orderTooLarge, .noKitchenCapacity, .cateringCommitted, .chainState, .noneFree].map resultCode =
      List.range 23) ∧
  ((∀ n, (Field.u8 n).wire = [BitVec.ofNat 8 n]) ∧
    (∀ n, (Field.u16 n).wire = [BitVec.ofNat 8 (n / 256), BitVec.ofNat 8 n]) ∧
    (∀ n, (Field.u24 n).wire = [BitVec.ofNat 8 (n / 65536), BitVec.ofNat 8 (n / 256), BitVec.ofNat 8 n]) ∧
    (∀ m, (Field.mask8 m).wire = [m]) ∧ 
    (∀ m, (Field.mask13 m).wire = (Field.u16 m.toNat).wire ∧ m.toNat < 8192) ∧
    (∀ x, (Field.token x).wire = (Datum.num x.toNat).wire) ∧
    (∀ x : CTime, (Field.time x).wire = (Field.u16 x.day).wire ++ (Field.u16 x.quantum).wire) ∧
    (∀ h : Handle, (Field.handle h).wire = (Field.u16 h.index).wire ++ (Field.u8 h.gen).wire) ∧
    (∀ n, (Field.absent n).wire = List.replicate n 0xFF) ∧
    (∀ e, (Field.event e).wire = e.wire) ∧ ∀ e, (Field.exception e).wire = e.wire) ∧
  ([ClockState.unset, .running, .held].map clockCode = List.range 3 ∧
    [ResetCause.power, .supplyLow, .full, .warm].map causeCode = List.range 4 ∧
    [LinkState.linked, .hostLost].map linkCode = List.range 2 ∧
    [BookState.tentative, .confirmed, .checkedIn].map bookStateCode = List.range 3 ∧
    [Origin.host, .panel].map originCode = List.range 2 ∧
    [PendingMark.movePending, .orderPending].map markCode = List.range 2 ∧
    [OrderState.planned, .inProduction, .wasted, .dispatched, .delivered, .unconfirmed].map orderStateCode =
      List.range 6 ∧
    [Reason.unreachable, .tooLate, .closed, .carts, .prep].map reasonCode = List.range 5 ∧
    [Chain.offline, .census, .running, .quiet, .draining, .faulted].map chainCode = List.range 6 ∧
    [CycleKind.census, .ordinary].map cycleCode = List.range 2 ∧
    [Health.unknown, .present, .suspect, .absent, .returned].map healthCode = List.range 5 ∧
    [Cause.census, .misses, .chain].map absenceCode = List.range 3) ∧
  ([EventKind.bookingConfirmed, .bookingCheckedIn, .bookingExtended, .bookingEnded, .bookingReleased,
    .bookingExpired, .orderInProduction, .orderDispatched, .orderDelivered, .deliveryUnconfirmed, .orderClosed,
    .orderWasted, .orderCancelled].map eventCode = (List.range 13).map (· + 1)) ∧
  (∀ e : EventRecord, e.now.day ≤ 65535 → e.now.quantum ≤ 511 → e.room ≤ 511 → e.subject.gen ≤ 63 →
    e.subject.index ≤ 65535 →
    e.wire.length = 16 ∧ byteAt e.wire 0 = eventCode e.kind ∧ u16At e.wire 1 = e.now.day ∧
    u24At e.wire 3 = e.now.quantum * 32768 + e.room * 64 + e.subject.gen ∧
    u16At e.wire 6 = e.subject.index ∧ e.wire.drop 8 = e.detail.wire ++ e.extra.wire) ∧
  (Datum.none.wire = [0xFF, 0xFF, 0xFF, 0xFF] ∧
    (∀ n, (Datum.num n).wire = (List.range 4).map (fun i => BitVec.ofNat 8 (n / 256 ^ (3 - i)))) ∧
    (∀ a b, (Datum.pair a b).wire = [BitVec.ofNat 8 a, BitVec.ofNat 8 b, 0, 0]) ∧
    (∀ x : CTime, x.day ≤ 65535 → x.quantum ≤ 65535 →
      (Datum.time x).wire.length = 4 ∧ timeAt (Datum.time x).wire 0 = x) ∧
    (∀ x : Token, (Datum.token x).wire.length = 4 ∧ tokenAt (Datum.token x).wire 0 = x) ∧
    ∀ h : Handle, h.index ≤ 65535 → h.gen ≤ 255 →
      (Datum.handle h).wire.length = 4 ∧ handleAt (Datum.handle h).wire 0 = h ∧
      byteAt (Datum.handle h).wire 3 = 0) ∧
  (∀ (k : ExcKind) (now : Option CTime) (code : Nat) (args : List Byte),
    (code, args) = (match k with
      | .chainFault l c h g => (1, enc8 l.val ++ enc8 (match c with | .echo => 0 | .empty => 1) ++
          (match h with | some n => enc16 n | none => [0xFF, 0xFF]) ++ enc8 g)
      | .panelAbsent l p r c m => (2, enc8 l.val ++ enc8 p ++ enc16 r ++ enc8 (absenceCode c) ++ enc8 m)
      | .panelReturned l p r c => (3, enc8 l.val ++ enc8 p ++ enc16 r ++
          (match c with | some x => enc8 (absenceCode x) | none => [0xFF]))
      | .panelUnbound l p n b => (4, enc8 l.val ++ enc8 p ++ enc8 n ++ enc32 b.toNat)
      | .problem l p r n b => (5, enc8 l.val ++ enc8 p ++ enc16 r ++ enc8 n ++ enc32 b.toNat)
      | .overcommit n q m => (6, enc8 n ++ enc16 q.day ++ enc16 q.quantum ++ enc16 m)
      | .bookingPoolEmpty r none => (7, enc8 0 ++ enc16 r ++ [0, 0xFF, 0xFF])
      | .bookingPoolEmpty r (some (l, p)) => (7, enc8 0 ++ enc16 r ++ enc8 1 ++ enc8 l.val ++ enc8 p)
      | .orderPoolEmpty r => (7, enc8 1 ++ enc16 r ++ [0, 0xFF, 0xFF])
      | .hostLost n => (8, enc8 n)
      | .hostReturned n => (9, enc16 n)
      | .clockHeld h c => (10, enc16 h.day ++ enc16 h.quantum ++ enc16 c.time.day ++ enc16 c.time.quantum ++
          enc24 c.ms)) →
    ExcRecord.wire ⟨k, now⟩ = enc8 code ++
      (match now with | some x => enc16 x.day ++ enc16 x.quantum | none => [0xFF, 0xFF, 0xFF, 0xFF]) ++
      args ++ List.replicate (11 - args.length) 0 ∧
    (ExcRecord.wire ⟨k, now⟩).length = 16) ∧
  (∀ f : OutFrame, f.tag ≤ 31 → f.wire.length = 1251 ∧ byteAt f.wire 0 = 0xE7 ∧ byteAt f.wire 1 / 8 = f.tag ∧
    (f.wire.getD 1 0).getLsbD 2 = f.census ∧ (f.wire.getD 1 0).getLsbD 1 = f.quiet ∧
    (f.wire.getD 1 0).getLsbD 0 = f.clearAll ∧ byteAt f.wire 2 = 0 ∧
    ∀ p, 1 ≤ p → p ≤ 48 → (f.wire.drop (3 + (p - 1) * 18)).take 18 = (f.downlinks.get .empty p).wire ∧
      (f.wire.drop (867 + (p - 1) * 8)).take 8 = List.replicate 8 0 ∧ uplinkAt f.wire p = none) ∧
  (Downlink.empty.wire = List.replicate 18 0 ∧ Downlink.blank.wire = 1 :: List.replicate 17 0 ∧
    (∀ d : Display, (Downlink.display d).wire =
      [2, match d.shown with
          | .free => 0 | .due => 1 | .inUse => 2 | .turnaround => 3 | .outOfService => 4 | .blank => 5,
        match d.indicator with
          | .none => 0 | .planned => 1 | .inProduction => 2 | .onItsWay => 3 | .delivered => 4,
        BitVec.ofNat 8 d.generation] ++ enc16 d.label.toNat ++
      (match d.token with | some x => enc32 x.toNat | none => List.replicate 4 0xFF) ++
      (match d.currentEnd with | some x => enc16 x.day ++ enc16 x.quantum | none => List.replicate 4 0xFF) ++
      (match d.nextStart with | some x => enc16 x.day ++ enc16 x.quantum | none => List.replicate 4 0xFF)) ∧
    ∀ r : PanelReply, (Downlink.reply r).wire =
      [3, match r.code with
          | .accepted => 0 | .conflict => 1 | .tooLongClamped => 2 | .notNow => 3 | .closed => 4 | .refused => 5
          | .full => 6,
        BitVec.ofNat 8 r.kind, if r.toggle = true then 1 else 0] ++
      (match r.time with | some x => enc16 x.day ++ enc16 x.quantum | none => List.replicate 4 0xFF) ++
      List.replicate 10 0) ∧
  ∀ (bytes : List Byte) (p at_ : Nat), 1 ≤ p → p ≤ 48 → at_ = 867 + (p - 1) * 8 →
    uplinkAt bytes p = if (bytes.getD at_ 0).getLsbD 7 = true then
      some ⟨(bytes.getD at_ 0).getLsbD 6, (bytes.getD at_ 0).getLsbD 5, byteAt bytes (at_ + 1),
        (bytes.getD at_ 0).getLsbD 0, byteAt bytes (at_ + 2), tokenAt bytes (at_ + 3), byteAt bytes (at_ + 7)⟩
    else none

end Statements
end

