-- ==== Sys2Proof/Laws/State.lean ====
section
/-! SUPPORT. One lemma for each field of State and each named update: the field it writes reads as written,
every other reads as before. -/

namespace Sys2Proof.Machine

/-! ### withPending -/

@[simp] theorem State.withPending_pending (s : State) (q : List Instr) :
    (s.withPending q).pending = q := rfl
@[simp] theorem State.withPending_power (s : State) (q : List Instr) :
    (s.withPending q).power = s.power := rfl
@[simp] theorem State.withPending_cause (s : State) (q : List Instr) :
    (s.withPending q).cause = s.cause := rfl
@[simp] theorem State.withPending_rst (s : State) (q : List Instr) : (s.withPending q).rst = s.rst := rfl
@[simp] theorem State.withPending_rate (s : State) (q : List Instr) :
    (s.withPending q).rate = s.rate := rfl
@[simp] theorem State.withPending_clock (s : State) (q : List Instr) :
    (s.withPending q).clock = s.clock := rfl
@[simp] theorem State.withPending_rooms (s : State) (q : List Instr) :
    (s.withPending q).rooms = s.rooms := rfl
@[simp] theorem State.withPending_kitchens (s : State) (q : List Instr) :
    (s.withPending q).kitchens = s.kitchens := rfl
@[simp] theorem State.withPending_distances (s : State) (q : List Instr) :
    (s.withPending q).distances = s.distances := rfl
@[simp] theorem State.withPending_menu (s : State) (q : List Instr) :
    (s.withPending q).menu = s.menu := rfl
@[simp] theorem State.withPending_policy (s : State) (q : List Instr) :
    (s.withPending q).policy = s.policy := rfl
@[simp] theorem State.withPending_store (s : State) (q : List Instr) :
    (s.withPending q).store = s.store := rfl
@[simp] theorem State.withPending_engine (s : State) (q : List Instr) :
    (s.withPending q).engine = s.engine := rfl
@[simp] theorem State.withPending_scanner (s : State) (q : List Instr) :
    (s.withPending q).scanner = s.scanner := rfl
@[simp] theorem State.withPending_planner (s : State) (q : List Instr) :
    (s.withPending q).planner = s.planner := rfl
@[simp] theorem State.withPending_lines (s : State) (q : List Instr) :
    (s.withPending q).lines = s.lines := rfl
@[simp] theorem State.withPending_link (s : State) (q : List Instr) :
    (s.withPending q).link = s.link := rfl
@[simp] theorem State.withPending_superv (s : State) (q : List Instr) :
    (s.withPending q).superv = s.superv := rfl
@[simp] theorem State.withPending_reports (s : State) (q : List Instr) :
    (s.withPending q).reports = s.reports := rfl
@[simp] theorem State.withPending_counters (s : State) (q : List Instr) :
    (s.withPending q).counters = s.counters := rfl

/-! ### sendEngine -/

@[simp] theorem sendEngine_pending (w : EngineWork) (s : State) :
    (sendEngine w s).pending = s.pending := rfl
@[simp] theorem sendEngine_power (w : EngineWork) (s : State) : (sendEngine w s).power = s.power := rfl
@[simp] theorem sendEngine_cause (w : EngineWork) (s : State) : (sendEngine w s).cause = s.cause := rfl
@[simp] theorem sendEngine_rst (w : EngineWork) (s : State) : (sendEngine w s).rst = s.rst := rfl
@[simp] theorem sendEngine_rate (w : EngineWork) (s : State) : (sendEngine w s).rate = s.rate := rfl
@[simp] theorem sendEngine_clock (w : EngineWork) (s : State) : (sendEngine w s).clock = s.clock := rfl
@[simp] theorem sendEngine_rooms (w : EngineWork) (s : State) : (sendEngine w s).rooms = s.rooms := rfl
@[simp] theorem sendEngine_kitchens (w : EngineWork) (s : State) :
    (sendEngine w s).kitchens = s.kitchens := rfl
@[simp] theorem sendEngine_distances (w : EngineWork) (s : State) :
    (sendEngine w s).distances = s.distances := rfl
@[simp] theorem sendEngine_menu (w : EngineWork) (s : State) : (sendEngine w s).menu = s.menu := rfl
@[simp] theorem sendEngine_policy (w : EngineWork) (s : State) :
    (sendEngine w s).policy = s.policy := rfl
@[simp] theorem sendEngine_store (w : EngineWork) (s : State) : (sendEngine w s).store = s.store := rfl
@[simp] theorem sendEngine_engine (w : EngineWork) (s : State) :
    (sendEngine w s).engine = { s.engine with intake := s.engine.intake ++ [w] } := rfl
@[simp] theorem sendEngine_scanner (w : EngineWork) (s : State) :
    (sendEngine w s).scanner = s.scanner := rfl
@[simp] theorem sendEngine_planner (w : EngineWork) (s : State) :
    (sendEngine w s).planner = s.planner := rfl
@[simp] theorem sendEngine_lines (w : EngineWork) (s : State) : (sendEngine w s).lines = s.lines := rfl
@[simp] theorem sendEngine_link (w : EngineWork) (s : State) : (sendEngine w s).link = s.link := rfl
@[simp] theorem sendEngine_superv (w : EngineWork) (s : State) :
    (sendEngine w s).superv = s.superv := rfl
@[simp] theorem sendEngine_reports (w : EngineWork) (s : State) :
    (sendEngine w s).reports = s.reports := rfl
@[simp] theorem sendEngine_counters (w : EngineWork) (s : State) :
    (sendEngine w s).counters = s.counters := rfl

/-! ### sendPlanner -/

@[simp] theorem sendPlanner_pending (w : PlannerWork) (s : State) :
    (sendPlanner w s).pending = s.pending := rfl
@[simp] theorem sendPlanner_power (w : PlannerWork) (s : State) :
    (sendPlanner w s).power = s.power := rfl
@[simp] theorem sendPlanner_cause (w : PlannerWork) (s : State) :
    (sendPlanner w s).cause = s.cause := rfl
@[simp] theorem sendPlanner_rst (w : PlannerWork) (s : State) : (sendPlanner w s).rst = s.rst := rfl
@[simp] theorem sendPlanner_rate (w : PlannerWork) (s : State) : (sendPlanner w s).rate = s.rate := rfl
@[simp] theorem sendPlanner_clock (w : PlannerWork) (s : State) :
    (sendPlanner w s).clock = s.clock := rfl
@[simp] theorem sendPlanner_rooms (w : PlannerWork) (s : State) :
    (sendPlanner w s).rooms = s.rooms := rfl
@[simp] theorem sendPlanner_kitchens (w : PlannerWork) (s : State) :
    (sendPlanner w s).kitchens = s.kitchens := rfl
@[simp] theorem sendPlanner_distances (w : PlannerWork) (s : State) :
    (sendPlanner w s).distances = s.distances := rfl
@[simp] theorem sendPlanner_menu (w : PlannerWork) (s : State) : (sendPlanner w s).menu = s.menu := rfl
@[simp] theorem sendPlanner_policy (w : PlannerWork) (s : State) :
    (sendPlanner w s).policy = s.policy := rfl
@[simp] theorem sendPlanner_store (w : PlannerWork) (s : State) :
    (sendPlanner w s).store = s.store := rfl
@[simp] theorem sendPlanner_engine (w : PlannerWork) (s : State) :
    (sendPlanner w s).engine = s.engine := rfl
@[simp] theorem sendPlanner_scanner (w : PlannerWork) (s : State) :
    (sendPlanner w s).scanner = s.scanner := rfl
@[simp] theorem sendPlanner_planner (w : PlannerWork) (s : State) :
    (sendPlanner w s).planner = { s.planner with intake := s.planner.intake ++ [w] } := rfl
@[simp] theorem sendPlanner_lines (w : PlannerWork) (s : State) :
    (sendPlanner w s).lines = s.lines := rfl
@[simp] theorem sendPlanner_link (w : PlannerWork) (s : State) : (sendPlanner w s).link = s.link := rfl
@[simp] theorem sendPlanner_superv (w : PlannerWork) (s : State) :
    (sendPlanner w s).superv = s.superv := rfl
@[simp] theorem sendPlanner_reports (w : PlannerWork) (s : State) :
    (sendPlanner w s).reports = s.reports := rfl
@[simp] theorem sendPlanner_counters (w : PlannerWork) (s : State) :
    (sendPlanner w s).counters = s.counters := rfl

/-! ### updLine -/

@[simp] theorem updLine_pending (l : Fin 4) (f : Line → Line) (s : State) :
    (updLine l f s).pending = s.pending := rfl
@[simp] theorem updLine_power (l : Fin 4) (f : Line → Line) (s : State) :
    (updLine l f s).power = s.power := rfl
@[simp] theorem updLine_cause (l : Fin 4) (f : Line → Line) (s : State) :
    (updLine l f s).cause = s.cause := rfl
@[simp] theorem updLine_rst (l : Fin 4) (f : Line → Line) (s : State) :
    (updLine l f s).rst = s.rst := rfl
@[simp] theorem updLine_rate (l : Fin 4) (f : Line → Line) (s : State) :
    (updLine l f s).rate = s.rate := rfl
@[simp] theorem updLine_clock (l : Fin 4) (f : Line → Line) (s : State) :
    (updLine l f s).clock = s.clock := rfl
@[simp] theorem updLine_rooms (l : Fin 4) (f : Line → Line) (s : State) :
    (updLine l f s).rooms = s.rooms := rfl
@[simp] theorem updLine_kitchens (l : Fin 4) (f : Line → Line) (s : State) :
    (updLine l f s).kitchens = s.kitchens := rfl
@[simp] theorem updLine_distances (l : Fin 4) (f : Line → Line) (s : State) :
    (updLine l f s).distances = s.distances := rfl
@[simp] theorem updLine_menu (l : Fin 4) (f : Line → Line) (s : State) :
    (updLine l f s).menu = s.menu := rfl
@[simp] theorem updLine_policy (l : Fin 4) (f : Line → Line) (s : State) :
    (updLine l f s).policy = s.policy := rfl
@[simp] theorem updLine_store (l : Fin 4) (f : Line → Line) (s : State) :
    (updLine l f s).store = s.store := rfl
@[simp] theorem updLine_engine (l : Fin 4) (f : Line → Line) (s : State) :
    (updLine l f s).engine = s.engine := rfl
@[simp] theorem updLine_scanner (l : Fin 4) (f : Line → Line) (s : State) :
    (updLine l f s).scanner = s.scanner := rfl
@[simp] theorem updLine_planner (l : Fin 4) (f : Line → Line) (s : State) :
    (updLine l f s).planner = s.planner := rfl
@[simp] theorem updLine_lines (l : Fin 4) (f : Line → Line) (s : State) :
    (updLine l f s).lines = s.lines.set l (f (s.lines.get l)) := rfl
@[simp] theorem updLine_link (l : Fin 4) (f : Line → Line) (s : State) :
    (updLine l f s).link = s.link := rfl
@[simp] theorem updLine_superv (l : Fin 4) (f : Line → Line) (s : State) :
    (updLine l f s).superv = s.superv := rfl
@[simp] theorem updLine_reports (l : Fin 4) (f : Line → Line) (s : State) :
    (updLine l f s).reports = s.reports := rfl
@[simp] theorem updLine_counters (l : Fin 4) (f : Line → Line) (s : State) :
    (updLine l f s).counters = s.counters := rfl

/-! ### sendLine -/

@[simp] theorem sendLine_pending (l : Fin 4) (w : LineWork) (s : State) :
    (sendLine l w s).pending = s.pending := rfl
@[simp] theorem sendLine_power (l : Fin 4) (w : LineWork) (s : State) :
    (sendLine l w s).power = s.power := rfl
@[simp] theorem sendLine_cause (l : Fin 4) (w : LineWork) (s : State) :
    (sendLine l w s).cause = s.cause := rfl
@[simp] theorem sendLine_rst (l : Fin 4) (w : LineWork) (s : State) : (sendLine l w s).rst = s.rst := rfl
@[simp] theorem sendLine_rate (l : Fin 4) (w : LineWork) (s : State) :
    (sendLine l w s).rate = s.rate := rfl
@[simp] theorem sendLine_clock (l : Fin 4) (w : LineWork) (s : State) :
    (sendLine l w s).clock = s.clock := rfl
@[simp] theorem sendLine_rooms (l : Fin 4) (w : LineWork) (s : State) :
    (sendLine l w s).rooms = s.rooms := rfl
@[simp] theorem sendLine_kitchens (l : Fin 4) (w : LineWork) (s : State) :
    (sendLine l w s).kitchens = s.kitchens := rfl
@[simp] theorem sendLine_distances (l : Fin 4) (w : LineWork) (s : State) :
    (sendLine l w s).distances = s.distances := rfl
@[simp] theorem sendLine_menu (l : Fin 4) (w : LineWork) (s : State) :
    (sendLine l w s).menu = s.menu := rfl
@[simp] theorem sendLine_policy (l : Fin 4) (w : LineWork) (s : State) :
    (sendLine l w s).policy = s.policy := rfl
@[simp] theorem sendLine_store (l : Fin 4) (w : LineWork) (s : State) :
    (sendLine l w s).store = s.store := rfl
@[simp] theorem sendLine_engine (l : Fin 4) (w : LineWork) (s : State) :
    (sendLine l w s).engine = s.engine := rfl
@[simp] theorem sendLine_scanner (l : Fin 4) (w : LineWork) (s : State) :
    (sendLine l w s).scanner = s.scanner := rfl
@[simp] theorem sendLine_planner (l : Fin 4) (w : LineWork) (s : State) :
    (sendLine l w s).planner = s.planner := rfl
@[simp] theorem sendLine_lines (l : Fin 4) (w : LineWork) (s : State) :
    (sendLine l w s).lines = s.lines.set l ((s.lines.get l).arrive w) := rfl
@[simp] theorem sendLine_link (l : Fin 4) (w : LineWork) (s : State) :
    (sendLine l w s).link = s.link := rfl
@[simp] theorem sendLine_superv (l : Fin 4) (w : LineWork) (s : State) :
    (sendLine l w s).superv = s.superv := rfl
@[simp] theorem sendLine_reports (l : Fin 4) (w : LineWork) (s : State) :
    (sendLine l w s).reports = s.reports := rfl
@[simp] theorem sendLine_counters (l : Fin 4) (w : LineWork) (s : State) :
    (sendLine l w s).counters = s.counters := rfl

/-! ### count -/

@[simp] theorem count_pending (f : Counters → Counters) (s : State) :
    (count f s).pending = s.pending := rfl
@[simp] theorem count_power (f : Counters → Counters) (s : State) : (count f s).power = s.power := rfl
@[simp] theorem count_cause (f : Counters → Counters) (s : State) : (count f s).cause = s.cause := rfl
@[simp] theorem count_rst (f : Counters → Counters) (s : State) : (count f s).rst = s.rst := rfl
@[simp] theorem count_rate (f : Counters → Counters) (s : State) : (count f s).rate = s.rate := rfl
@[simp] theorem count_clock (f : Counters → Counters) (s : State) : (count f s).clock = s.clock := rfl
@[simp] theorem count_rooms (f : Counters → Counters) (s : State) : (count f s).rooms = s.rooms := rfl
@[simp] theorem count_kitchens (f : Counters → Counters) (s : State) :
    (count f s).kitchens = s.kitchens := rfl
@[simp] theorem count_distances (f : Counters → Counters) (s : State) :
    (count f s).distances = s.distances := rfl
@[simp] theorem count_menu (f : Counters → Counters) (s : State) : (count f s).menu = s.menu := rfl
@[simp] theorem count_policy (f : Counters → Counters) (s : State) : (count f s).policy = s.policy := rfl
@[simp] theorem count_store (f : Counters → Counters) (s : State) : (count f s).store = s.store := rfl
@[simp] theorem count_engine (f : Counters → Counters) (s : State) : (count f s).engine = s.engine := rfl
@[simp] theorem count_scanner (f : Counters → Counters) (s : State) :
    (count f s).scanner = s.scanner := rfl
@[simp] theorem count_planner (f : Counters → Counters) (s : State) :
    (count f s).planner = s.planner := rfl
@[simp] theorem count_lines (f : Counters → Counters) (s : State) : (count f s).lines = s.lines := rfl
@[simp] theorem count_link (f : Counters → Counters) (s : State) : (count f s).link = s.link := rfl
@[simp] theorem count_superv (f : Counters → Counters) (s : State) : (count f s).superv = s.superv := rfl
@[simp] theorem count_reports (f : Counters → Counters) (s : State) :
    (count f s).reports = s.reports := rfl
@[simp] theorem count_counters (f : Counters → Counters) (s : State) :
    (count f s).counters = f s.counters := rfl

/-! ### dropReport -/

@[simp] theorem dropReport_pending (s : State) : (dropReport s).pending = s.pending := rfl
@[simp] theorem dropReport_power (s : State) : (dropReport s).power = s.power := rfl
@[simp] theorem dropReport_cause (s : State) : (dropReport s).cause = s.cause := rfl
@[simp] theorem dropReport_rst (s : State) : (dropReport s).rst = s.rst := rfl
@[simp] theorem dropReport_rate (s : State) : (dropReport s).rate = s.rate := rfl
@[simp] theorem dropReport_clock (s : State) : (dropReport s).clock = s.clock := rfl
@[simp] theorem dropReport_rooms (s : State) : (dropReport s).rooms = s.rooms := rfl
@[simp] theorem dropReport_kitchens (s : State) : (dropReport s).kitchens = s.kitchens := rfl
@[simp] theorem dropReport_distances (s : State) : (dropReport s).distances = s.distances := rfl
@[simp] theorem dropReport_menu (s : State) : (dropReport s).menu = s.menu := rfl
@[simp] theorem dropReport_policy (s : State) : (dropReport s).policy = s.policy := rfl
@[simp] theorem dropReport_store (s : State) : (dropReport s).store = s.store := rfl
@[simp] theorem dropReport_engine (s : State) : (dropReport s).engine = s.engine := rfl
@[simp] theorem dropReport_scanner (s : State) : (dropReport s).scanner = s.scanner := rfl
@[simp] theorem dropReport_planner (s : State) : (dropReport s).planner = s.planner := rfl
@[simp] theorem dropReport_lines (s : State) : (dropReport s).lines = s.lines := rfl
@[simp] theorem dropReport_link (s : State) : (dropReport s).link = s.link := rfl
@[simp] theorem dropReport_superv (s : State) : (dropReport s).superv = s.superv := rfl
@[simp] theorem dropReport_reports (s : State) :
    (dropReport s).reports = { s.reports with ovf := true } := rfl
@[simp] theorem dropReport_counters (s : State) : (dropReport s).counters = s.counters.drop := rfl

/-! ### buildReply -/

@[simp] theorem buildReply_pending (k g : Nat) (r : Result) (b : List Field) (s : State) :
    (buildReply k g r b s).pending = s.pending := rfl
@[simp] theorem buildReply_power (k g : Nat) (r : Result) (b : List Field) (s : State) :
    (buildReply k g r b s).power = s.power := rfl
@[simp] theorem buildReply_cause (k g : Nat) (r : Result) (b : List Field) (s : State) :
    (buildReply k g r b s).cause = s.cause := rfl
@[simp] theorem buildReply_rst (k g : Nat) (r : Result) (b : List Field) (s : State) :
    (buildReply k g r b s).rst = s.rst := rfl
@[simp] theorem buildReply_rate (k g : Nat) (r : Result) (b : List Field) (s : State) :
    (buildReply k g r b s).rate = s.rate := rfl
@[simp] theorem buildReply_clock (k g : Nat) (r : Result) (b : List Field) (s : State) :
    (buildReply k g r b s).clock = s.clock := rfl
@[simp] theorem buildReply_rooms (k g : Nat) (r : Result) (b : List Field) (s : State) :
    (buildReply k g r b s).rooms = s.rooms := rfl
@[simp] theorem buildReply_kitchens (k g : Nat) (r : Result) (b : List Field) (s : State) :
    (buildReply k g r b s).kitchens = s.kitchens := rfl
@[simp] theorem buildReply_distances (k g : Nat) (r : Result) (b : List Field) (s : State) :
    (buildReply k g r b s).distances = s.distances := rfl
@[simp] theorem buildReply_menu (k g : Nat) (r : Result) (b : List Field) (s : State) :
    (buildReply k g r b s).menu = s.menu := rfl
@[simp] theorem buildReply_policy (k g : Nat) (r : Result) (b : List Field) (s : State) :
    (buildReply k g r b s).policy = s.policy := rfl
@[simp] theorem buildReply_store (k g : Nat) (r : Result) (b : List Field) (s : State) :
    (buildReply k g r b s).store = s.store := rfl
@[simp] theorem buildReply_engine (k g : Nat) (r : Result) (b : List Field) (s : State) :
    (buildReply k g r b s).engine = s.engine := rfl
@[simp] theorem buildReply_scanner (k g : Nat) (r : Result) (b : List Field) (s : State) :
    (buildReply k g r b s).scanner = s.scanner := rfl
@[simp] theorem buildReply_planner (k g : Nat) (r : Result) (b : List Field) (s : State) :
    (buildReply k g r b s).planner = s.planner := rfl
@[simp] theorem buildReply_lines (k g : Nat) (r : Result) (b : List Field) (s : State) :
    (buildReply k g r b s).lines = s.lines := rfl
@[simp] theorem buildReply_link (k g : Nat) (r : Result) (b : List Field) (s : State) :
    (buildReply k g r b s).link = { s.link with tx := s.link.tx ++ [⟨k, g, s.summary, r, b⟩] } := rfl
@[simp] theorem buildReply_superv (k g : Nat) (r : Result) (b : List Field) (s : State) :
    (buildReply k g r b s).superv = s.superv := rfl
@[simp] theorem buildReply_reports (k g : Nat) (r : Result) (b : List Field) (s : State) :
    (buildReply k g r b s).reports = s.reports := rfl
@[simp] theorem buildReply_counters (k g : Nat) (r : Result) (b : List Field) (s : State) :
    (buildReply k g r b s).counters = s.counters := rfl

/-! ### clearSlot -/

@[simp] theorem clearSlot_pending (s : State) : (clearSlot s).pending = s.pending := rfl
@[simp] theorem clearSlot_power (s : State) : (clearSlot s).power = s.power := rfl
@[simp] theorem clearSlot_cause (s : State) : (clearSlot s).cause = s.cause := rfl
@[simp] theorem clearSlot_rst (s : State) : (clearSlot s).rst = s.rst := rfl
@[simp] theorem clearSlot_rate (s : State) : (clearSlot s).rate = s.rate := rfl
@[simp] theorem clearSlot_clock (s : State) : (clearSlot s).clock = s.clock := rfl
@[simp] theorem clearSlot_rooms (s : State) : (clearSlot s).rooms = s.rooms := rfl
@[simp] theorem clearSlot_kitchens (s : State) : (clearSlot s).kitchens = s.kitchens := rfl
@[simp] theorem clearSlot_distances (s : State) : (clearSlot s).distances = s.distances := rfl
@[simp] theorem clearSlot_menu (s : State) : (clearSlot s).menu = s.menu := rfl
@[simp] theorem clearSlot_policy (s : State) : (clearSlot s).policy = s.policy := rfl
@[simp] theorem clearSlot_store (s : State) : (clearSlot s).store = s.store := rfl
@[simp] theorem clearSlot_engine (s : State) : (clearSlot s).engine = s.engine := rfl
@[simp] theorem clearSlot_scanner (s : State) : (clearSlot s).scanner = s.scanner := rfl
@[simp] theorem clearSlot_planner (s : State) : (clearSlot s).planner = s.planner := rfl
@[simp] theorem clearSlot_lines (s : State) : (clearSlot s).lines = s.lines := rfl
@[simp] theorem clearSlot_link (s : State) : (clearSlot s).link = { s.link with slot := none } := rfl
@[simp] theorem clearSlot_superv (s : State) : (clearSlot s).superv = s.superv := rfl
@[simp] theorem clearSlot_reports (s : State) : (clearSlot s).reports = s.reports := rfl
@[simp] theorem clearSlot_counters (s : State) : (clearSlot s).counters = s.counters := rfl

/-! ### flushBusy -/

@[simp] theorem flushBusy_pending (s : State) : (flushBusy s).pending = s.pending := rfl
@[simp] theorem flushBusy_power (s : State) : (flushBusy s).power = s.power := rfl
@[simp] theorem flushBusy_cause (s : State) : (flushBusy s).cause = s.cause := rfl
@[simp] theorem flushBusy_rst (s : State) : (flushBusy s).rst = s.rst := rfl
@[simp] theorem flushBusy_rate (s : State) : (flushBusy s).rate = s.rate := rfl
@[simp] theorem flushBusy_clock (s : State) : (flushBusy s).clock = s.clock := rfl
@[simp] theorem flushBusy_rooms (s : State) : (flushBusy s).rooms = s.rooms := rfl
@[simp] theorem flushBusy_kitchens (s : State) : (flushBusy s).kitchens = s.kitchens := rfl
@[simp] theorem flushBusy_distances (s : State) : (flushBusy s).distances = s.distances := rfl
@[simp] theorem flushBusy_menu (s : State) : (flushBusy s).menu = s.menu := rfl
@[simp] theorem flushBusy_policy (s : State) : (flushBusy s).policy = s.policy := rfl
@[simp] theorem flushBusy_store (s : State) : (flushBusy s).store = s.store := rfl
@[simp] theorem flushBusy_engine (s : State) : (flushBusy s).engine = s.engine := rfl
@[simp] theorem flushBusy_scanner (s : State) : (flushBusy s).scanner = s.scanner := rfl
@[simp] theorem flushBusy_planner (s : State) : (flushBusy s).planner = s.planner := rfl
@[simp] theorem flushBusy_lines (s : State) : (flushBusy s).lines = s.lines := rfl
@[simp] theorem flushBusy_link (s : State) :
    (flushBusy s).link = { s.link with
      owed := [], tx := s.link.tx ++ s.link.owed.map (fun e => ⟨e.1, e.2, s.summary, .busy, []⟩) } := rfl
@[simp] theorem flushBusy_superv (s : State) : (flushBusy s).superv = s.superv := rfl
@[simp] theorem flushBusy_reports (s : State) : (flushBusy s).reports = s.reports := rfl
@[simp] theorem flushBusy_counters (s : State) : (flushBusy s).counters = s.counters := rfl

/-! ### setStage -/

@[simp] theorem setStage_pending (g : Stage) (s : State) : (setStage g s).pending = s.pending := rfl
@[simp] theorem setStage_power (g : Stage) (s : State) : (setStage g s).power = s.power := rfl
@[simp] theorem setStage_cause (g : Stage) (s : State) : (setStage g s).cause = s.cause := rfl
@[simp] theorem setStage_rst (g : Stage) (s : State) : (setStage g s).rst = s.rst := rfl
@[simp] theorem setStage_rate (g : Stage) (s : State) : (setStage g s).rate = s.rate := rfl
@[simp] theorem setStage_clock (g : Stage) (s : State) : (setStage g s).clock = s.clock := rfl
@[simp] theorem setStage_rooms (g : Stage) (s : State) : (setStage g s).rooms = s.rooms := rfl
@[simp] theorem setStage_kitchens (g : Stage) (s : State) : (setStage g s).kitchens = s.kitchens := rfl
@[simp] theorem setStage_distances (g : Stage) (s : State) :
    (setStage g s).distances = s.distances := rfl
@[simp] theorem setStage_menu (g : Stage) (s : State) : (setStage g s).menu = s.menu := rfl
@[simp] theorem setStage_policy (g : Stage) (s : State) : (setStage g s).policy = s.policy := rfl
@[simp] theorem setStage_store (g : Stage) (s : State) : (setStage g s).store = s.store := rfl
@[simp] theorem setStage_engine (g : Stage) (s : State) : (setStage g s).engine = s.engine := rfl
@[simp] theorem setStage_scanner (g : Stage) (s : State) : (setStage g s).scanner = s.scanner := rfl
@[simp] theorem setStage_planner (g : Stage) (s : State) : (setStage g s).planner = s.planner := rfl
@[simp] theorem setStage_lines (g : Stage) (s : State) : (setStage g s).lines = s.lines := rfl
@[simp] theorem setStage_link (g : Stage) (s : State) :
    (setStage g s).link = { s.link with slot := s.link.slot.map (fun sl => { sl with stage := g }) } := rfl
@[simp] theorem setStage_superv (g : Stage) (s : State) : (setStage g s).superv = s.superv := rfl
@[simp] theorem setStage_reports (g : Stage) (s : State) : (setStage g s).reports = s.reports := rfl
@[simp] theorem setStage_counters (g : Stage) (s : State) : (setStage g s).counters = s.counters := rfl

/-! ### setRx -/

@[simp] theorem setRx_pending (r : Receiver) (s : State) : (setRx r s).pending = s.pending := rfl
@[simp] theorem setRx_power (r : Receiver) (s : State) : (setRx r s).power = s.power := rfl
@[simp] theorem setRx_cause (r : Receiver) (s : State) : (setRx r s).cause = s.cause := rfl
@[simp] theorem setRx_rst (r : Receiver) (s : State) : (setRx r s).rst = s.rst := rfl
@[simp] theorem setRx_rate (r : Receiver) (s : State) : (setRx r s).rate = s.rate := rfl
@[simp] theorem setRx_clock (r : Receiver) (s : State) : (setRx r s).clock = s.clock := rfl
@[simp] theorem setRx_rooms (r : Receiver) (s : State) : (setRx r s).rooms = s.rooms := rfl
@[simp] theorem setRx_kitchens (r : Receiver) (s : State) : (setRx r s).kitchens = s.kitchens := rfl
@[simp] theorem setRx_distances (r : Receiver) (s : State) : (setRx r s).distances = s.distances := rfl
@[simp] theorem setRx_menu (r : Receiver) (s : State) : (setRx r s).menu = s.menu := rfl
@[simp] theorem setRx_policy (r : Receiver) (s : State) : (setRx r s).policy = s.policy := rfl
@[simp] theorem setRx_store (r : Receiver) (s : State) : (setRx r s).store = s.store := rfl
@[simp] theorem setRx_engine (r : Receiver) (s : State) : (setRx r s).engine = s.engine := rfl
@[simp] theorem setRx_scanner (r : Receiver) (s : State) : (setRx r s).scanner = s.scanner := rfl
@[simp] theorem setRx_planner (r : Receiver) (s : State) : (setRx r s).planner = s.planner := rfl
@[simp] theorem setRx_lines (r : Receiver) (s : State) : (setRx r s).lines = s.lines := rfl
@[simp] theorem setRx_link (r : Receiver) (s : State) : (setRx r s).link = { s.link with rx := r } := rfl
@[simp] theorem setRx_superv (r : Receiver) (s : State) : (setRx r s).superv = s.superv := rfl
@[simp] theorem setRx_reports (r : Receiver) (s : State) : (setRx r s).reports = s.reports := rfl
@[simp] theorem setRx_counters (r : Receiver) (s : State) : (setRx r s).counters = s.counters := rfl

/-! ### markTrim -/

@[simp] theorem markTrim_pending (s : State) : (markTrim s).pending = s.pending := rfl
@[simp] theorem markTrim_power (s : State) : (markTrim s).power = s.power := rfl
@[simp] theorem markTrim_cause (s : State) : (markTrim s).cause = s.cause := rfl
@[simp] theorem markTrim_rst (s : State) : (markTrim s).rst = s.rst := rfl
@[simp] theorem markTrim_rate (s : State) : (markTrim s).rate = s.rate := rfl
@[simp] theorem markTrim_clock (s : State) : (markTrim s).clock = s.clock := rfl
@[simp] theorem markTrim_rooms (s : State) : (markTrim s).rooms = s.rooms := rfl
@[simp] theorem markTrim_kitchens (s : State) : (markTrim s).kitchens = s.kitchens := rfl
@[simp] theorem markTrim_distances (s : State) : (markTrim s).distances = s.distances := rfl
@[simp] theorem markTrim_menu (s : State) : (markTrim s).menu = s.menu := rfl
@[simp] theorem markTrim_policy (s : State) : (markTrim s).policy = s.policy := rfl
@[simp] theorem markTrim_store (s : State) : (markTrim s).store = s.store := rfl
@[simp] theorem markTrim_engine (s : State) : (markTrim s).engine = s.engine := rfl
@[simp] theorem markTrim_scanner (s : State) : (markTrim s).scanner = s.scanner := rfl
@[simp] theorem markTrim_planner (s : State) : (markTrim s).planner = s.planner := rfl
@[simp] theorem markTrim_lines (s : State) : (markTrim s).lines = s.lines := rfl
@[simp] theorem markTrim_superv (s : State) : (markTrim s).superv = s.superv := rfl
@[simp] theorem markTrim_reports (s : State) : (markTrim s).reports = s.reports := rfl
@[simp] theorem markTrim_counters (s : State) : (markTrim s).counters = s.counters := rfl
@[simp] theorem markTrim_link (s : State) :
    (markTrim s).link = { s.link with trimmed := s.clock.now.map boundaryOf } := rfl

/-! ### sentReplies -/

@[simp] theorem sentReplies_pending (s : State) : (sentReplies s).pending = s.pending := rfl
@[simp] theorem sentReplies_power (s : State) : (sentReplies s).power = s.power := rfl
@[simp] theorem sentReplies_cause (s : State) : (sentReplies s).cause = s.cause := rfl
@[simp] theorem sentReplies_rst (s : State) : (sentReplies s).rst = s.rst := rfl
@[simp] theorem sentReplies_rate (s : State) : (sentReplies s).rate = s.rate := rfl
@[simp] theorem sentReplies_clock (s : State) : (sentReplies s).clock = s.clock := rfl
@[simp] theorem sentReplies_rooms (s : State) : (sentReplies s).rooms = s.rooms := rfl
@[simp] theorem sentReplies_kitchens (s : State) : (sentReplies s).kitchens = s.kitchens := rfl
@[simp] theorem sentReplies_distances (s : State) : (sentReplies s).distances = s.distances := rfl
@[simp] theorem sentReplies_menu (s : State) : (sentReplies s).menu = s.menu := rfl
@[simp] theorem sentReplies_policy (s : State) : (sentReplies s).policy = s.policy := rfl
@[simp] theorem sentReplies_store (s : State) : (sentReplies s).store = s.store := rfl
@[simp] theorem sentReplies_engine (s : State) : (sentReplies s).engine = s.engine := rfl
@[simp] theorem sentReplies_scanner (s : State) : (sentReplies s).scanner = s.scanner := rfl
@[simp] theorem sentReplies_planner (s : State) : (sentReplies s).planner = s.planner := rfl
@[simp] theorem sentReplies_lines (s : State) : (sentReplies s).lines = s.lines := rfl
@[simp] theorem sentReplies_link (s : State) : (sentReplies s).link = { s.link with tx := [] } := rfl
@[simp] theorem sentReplies_superv (s : State) : (sentReplies s).superv = s.superv := rfl
@[simp] theorem sentReplies_reports (s : State) : (sentReplies s).reports = s.reports := rfl
@[simp] theorem sentReplies_counters (s : State) : (sentReplies s).counters = s.counters := rfl

/-! ### setBooking -/

@[simp] theorem setBooking_pending (i : Nat) (b : Booking) (s : State) :
    (setBooking i b s).pending = s.pending := rfl
@[simp] theorem setBooking_power (i : Nat) (b : Booking) (s : State) :
    (setBooking i b s).power = s.power := rfl
@[simp] theorem setBooking_cause (i : Nat) (b : Booking) (s : State) :
    (setBooking i b s).cause = s.cause := rfl
@[simp] theorem setBooking_rst (i : Nat) (b : Booking) (s : State) :
    (setBooking i b s).rst = s.rst := rfl
@[simp] theorem setBooking_rate (i : Nat) (b : Booking) (s : State) :
    (setBooking i b s).rate = s.rate := rfl
@[simp] theorem setBooking_clock (i : Nat) (b : Booking) (s : State) :
    (setBooking i b s).clock = s.clock := rfl
@[simp] theorem setBooking_rooms (i : Nat) (b : Booking) (s : State) :
    (setBooking i b s).rooms = s.rooms := rfl
@[simp] theorem setBooking_kitchens (i : Nat) (b : Booking) (s : State) :
    (setBooking i b s).kitchens = s.kitchens := rfl
@[simp] theorem setBooking_distances (i : Nat) (b : Booking) (s : State) :
    (setBooking i b s).distances = s.distances := rfl
@[simp] theorem setBooking_menu (i : Nat) (b : Booking) (s : State) :
    (setBooking i b s).menu = s.menu := rfl
@[simp] theorem setBooking_policy (i : Nat) (b : Booking) (s : State) :
    (setBooking i b s).policy = s.policy := rfl
@[simp] theorem setBooking_store (i : Nat) (b : Booking) (s : State) :
    (setBooking i b s).store = { s.store with
      records := s.store.records.set ⟨0, none⟩ i ⟨(recordAt s i).gen, some b⟩ } := rfl
@[simp] theorem setBooking_engine (i : Nat) (b : Booking) (s : State) :
    (setBooking i b s).engine = s.engine := rfl
@[simp] theorem setBooking_scanner (i : Nat) (b : Booking) (s : State) :
    (setBooking i b s).scanner = s.scanner := rfl
@[simp] theorem setBooking_planner (i : Nat) (b : Booking) (s : State) :
    (setBooking i b s).planner = s.planner := rfl
@[simp] theorem setBooking_lines (i : Nat) (b : Booking) (s : State) :
    (setBooking i b s).lines = s.lines := rfl
@[simp] theorem setBooking_link (i : Nat) (b : Booking) (s : State) :
    (setBooking i b s).link = s.link := rfl
@[simp] theorem setBooking_superv (i : Nat) (b : Booking) (s : State) :
    (setBooking i b s).superv = s.superv := rfl
@[simp] theorem setBooking_reports (i : Nat) (b : Booking) (s : State) :
    (setBooking i b s).reports = s.reports := rfl
@[simp] theorem setBooking_counters (i : Nat) (b : Booking) (s : State) :
    (setBooking i b s).counters = s.counters := rfl

/-! ### setRoomList -/

@[simp] theorem setRoomList_pending (r : Nat) (l : List Nat) (s : State) :
    (setRoomList r l s).pending = s.pending := rfl
@[simp] theorem setRoomList_power (r : Nat) (l : List Nat) (s : State) :
    (setRoomList r l s).power = s.power := rfl
@[simp] theorem setRoomList_cause (r : Nat) (l : List Nat) (s : State) :
    (setRoomList r l s).cause = s.cause := rfl
@[simp] theorem setRoomList_rst (r : Nat) (l : List Nat) (s : State) :
    (setRoomList r l s).rst = s.rst := rfl
@[simp] theorem setRoomList_rate (r : Nat) (l : List Nat) (s : State) :
    (setRoomList r l s).rate = s.rate := rfl
@[simp] theorem setRoomList_clock (r : Nat) (l : List Nat) (s : State) :
    (setRoomList r l s).clock = s.clock := rfl
@[simp] theorem setRoomList_rooms (r : Nat) (l : List Nat) (s : State) :
    (setRoomList r l s).rooms = s.rooms := rfl
@[simp] theorem setRoomList_kitchens (r : Nat) (l : List Nat) (s : State) :
    (setRoomList r l s).kitchens = s.kitchens := rfl
@[simp] theorem setRoomList_distances (r : Nat) (l : List Nat) (s : State) :
    (setRoomList r l s).distances = s.distances := rfl
@[simp] theorem setRoomList_menu (r : Nat) (l : List Nat) (s : State) :
    (setRoomList r l s).menu = s.menu := rfl
@[simp] theorem setRoomList_policy (r : Nat) (l : List Nat) (s : State) :
    (setRoomList r l s).policy = s.policy := rfl
@[simp] theorem setRoomList_store (r : Nat) (l : List Nat) (s : State) :
    (setRoomList r l s).store = { s.store with lists := s.store.lists.set [] r l } := rfl
@[simp] theorem setRoomList_engine (r : Nat) (l : List Nat) (s : State) :
    (setRoomList r l s).engine = s.engine := rfl
@[simp] theorem setRoomList_scanner (r : Nat) (l : List Nat) (s : State) :
    (setRoomList r l s).scanner = s.scanner := rfl
@[simp] theorem setRoomList_planner (r : Nat) (l : List Nat) (s : State) :
    (setRoomList r l s).planner = s.planner := rfl
@[simp] theorem setRoomList_lines (r : Nat) (l : List Nat) (s : State) :
    (setRoomList r l s).lines = s.lines := rfl
@[simp] theorem setRoomList_link (r : Nat) (l : List Nat) (s : State) :
    (setRoomList r l s).link = s.link := rfl
@[simp] theorem setRoomList_superv (r : Nat) (l : List Nat) (s : State) :
    (setRoomList r l s).superv = s.superv := rfl
@[simp] theorem setRoomList_reports (r : Nat) (l : List Nat) (s : State) :
    (setRoomList r l s).reports = s.reports := rfl
@[simp] theorem setRoomList_counters (r : Nat) (l : List Nat) (s : State) :
    (setRoomList r l s).counters = s.counters := rfl

/-! ### setHolds -/

@[simp] theorem setHolds_pending (l : List Handle) (s : State) :
    (setHolds l s).pending = s.pending := rfl
@[simp] theorem setHolds_power (l : List Handle) (s : State) : (setHolds l s).power = s.power := rfl
@[simp] theorem setHolds_cause (l : List Handle) (s : State) : (setHolds l s).cause = s.cause := rfl
@[simp] theorem setHolds_rst (l : List Handle) (s : State) : (setHolds l s).rst = s.rst := rfl
@[simp] theorem setHolds_rate (l : List Handle) (s : State) : (setHolds l s).rate = s.rate := rfl
@[simp] theorem setHolds_clock (l : List Handle) (s : State) : (setHolds l s).clock = s.clock := rfl
@[simp] theorem setHolds_rooms (l : List Handle) (s : State) : (setHolds l s).rooms = s.rooms := rfl
@[simp] theorem setHolds_kitchens (l : List Handle) (s : State) :
    (setHolds l s).kitchens = s.kitchens := rfl
@[simp] theorem setHolds_distances (l : List Handle) (s : State) :
    (setHolds l s).distances = s.distances := rfl
@[simp] theorem setHolds_menu (l : List Handle) (s : State) : (setHolds l s).menu = s.menu := rfl
@[simp] theorem setHolds_policy (l : List Handle) (s : State) : (setHolds l s).policy = s.policy := rfl
@[simp] theorem setHolds_store (l : List Handle) (s : State) :
    (setHolds l s).store = { s.store with holds := l } := rfl
@[simp] theorem setHolds_engine (l : List Handle) (s : State) : (setHolds l s).engine = s.engine := rfl
@[simp] theorem setHolds_scanner (l : List Handle) (s : State) :
    (setHolds l s).scanner = s.scanner := rfl
@[simp] theorem setHolds_planner (l : List Handle) (s : State) :
    (setHolds l s).planner = s.planner := rfl
@[simp] theorem setHolds_lines (l : List Handle) (s : State) : (setHolds l s).lines = s.lines := rfl
@[simp] theorem setHolds_link (l : List Handle) (s : State) : (setHolds l s).link = s.link := rfl
@[simp] theorem setHolds_superv (l : List Handle) (s : State) : (setHolds l s).superv = s.superv := rfl
@[simp] theorem setHolds_reports (l : List Handle) (s : State) :
    (setHolds l s).reports = s.reports := rfl
@[simp] theorem setHolds_counters (l : List Handle) (s : State) :
    (setHolds l s).counters = s.counters := rfl

/-! ### releaseRecord -/

@[simp] theorem releaseRecord_pending (i : Nat) (s : State) :
    (releaseRecord i s).pending = s.pending := rfl
@[simp] theorem releaseRecord_power (i : Nat) (s : State) : (releaseRecord i s).power = s.power := rfl
@[simp] theorem releaseRecord_cause (i : Nat) (s : State) : (releaseRecord i s).cause = s.cause := rfl
@[simp] theorem releaseRecord_rst (i : Nat) (s : State) : (releaseRecord i s).rst = s.rst := rfl
@[simp] theorem releaseRecord_rate (i : Nat) (s : State) : (releaseRecord i s).rate = s.rate := rfl
@[simp] theorem releaseRecord_clock (i : Nat) (s : State) : (releaseRecord i s).clock = s.clock := rfl
@[simp] theorem releaseRecord_rooms (i : Nat) (s : State) : (releaseRecord i s).rooms = s.rooms := rfl
@[simp] theorem releaseRecord_kitchens (i : Nat) (s : State) :
    (releaseRecord i s).kitchens = s.kitchens := rfl
@[simp] theorem releaseRecord_distances (i : Nat) (s : State) :
    (releaseRecord i s).distances = s.distances := rfl
@[simp] theorem releaseRecord_menu (i : Nat) (s : State) : (releaseRecord i s).menu = s.menu := rfl
@[simp] theorem releaseRecord_policy (i : Nat) (s : State) : (releaseRecord i s).policy = s.policy := rfl
@[simp] theorem releaseRecord_store (i : Nat) (s : State) :
    (releaseRecord i s).store = { s.store with
      records := s.store.records.set ⟨0, none⟩ i ⟨((recordAt s i).gen + 1) % 64, none⟩
      free := s.store.free ++ [i]
      episode := false } := rfl
@[simp] theorem releaseRecord_engine (i : Nat) (s : State) : (releaseRecord i s).engine = s.engine := rfl
@[simp] theorem releaseRecord_scanner (i : Nat) (s : State) :
    (releaseRecord i s).scanner = s.scanner := rfl
@[simp] theorem releaseRecord_planner (i : Nat) (s : State) :
    (releaseRecord i s).planner = s.planner := rfl
@[simp] theorem releaseRecord_lines (i : Nat) (s : State) : (releaseRecord i s).lines = s.lines := rfl
@[simp] theorem releaseRecord_link (i : Nat) (s : State) : (releaseRecord i s).link = s.link := rfl
@[simp] theorem releaseRecord_superv (i : Nat) (s : State) : (releaseRecord i s).superv = s.superv := rfl
@[simp] theorem releaseRecord_reports (i : Nat) (s : State) :
    (releaseRecord i s).reports = s.reports := rfl
@[simp] theorem releaseRecord_counters (i : Nat) (s : State) :
    (releaseRecord i s).counters = s.counters := rfl

/-! ### provisional -/

@[simp] theorem provisional_pending (f : Nat → Nat) (s : State) :
    (provisional f s).pending = s.pending := rfl
@[simp] theorem provisional_power (f : Nat → Nat) (s : State) : (provisional f s).power = s.power := rfl
@[simp] theorem provisional_cause (f : Nat → Nat) (s : State) : (provisional f s).cause = s.cause := rfl
@[simp] theorem provisional_rst (f : Nat → Nat) (s : State) : (provisional f s).rst = s.rst := rfl
@[simp] theorem provisional_rate (f : Nat → Nat) (s : State) : (provisional f s).rate = s.rate := rfl
@[simp] theorem provisional_clock (f : Nat → Nat) (s : State) : (provisional f s).clock = s.clock := rfl
@[simp] theorem provisional_rooms (f : Nat → Nat) (s : State) : (provisional f s).rooms = s.rooms := rfl
@[simp] theorem provisional_kitchens (f : Nat → Nat) (s : State) :
    (provisional f s).kitchens = s.kitchens := rfl
@[simp] theorem provisional_distances (f : Nat → Nat) (s : State) :
    (provisional f s).distances = s.distances := rfl
@[simp] theorem provisional_menu (f : Nat → Nat) (s : State) : (provisional f s).menu = s.menu := rfl
@[simp] theorem provisional_policy (f : Nat → Nat) (s : State) :
    (provisional f s).policy = s.policy := rfl
@[simp] theorem provisional_store (f : Nat → Nat) (s : State) : (provisional f s).store = s.store := rfl
@[simp] theorem provisional_engine (f : Nat → Nat) (s : State) :
    (provisional f s).engine = s.engine := rfl
@[simp] theorem provisional_scanner (f : Nat → Nat) (s : State) :
    (provisional f s).scanner = s.scanner := rfl
@[simp] theorem provisional_planner (f : Nat → Nat) (s : State) :
    (provisional f s).planner = s.planner := rfl
@[simp] theorem provisional_lines (f : Nat → Nat) (s : State) : (provisional f s).lines = s.lines := rfl
@[simp] theorem provisional_link (f : Nat → Nat) (s : State) : (provisional f s).link = s.link := rfl
@[simp] theorem provisional_superv (f : Nat → Nat) (s : State) :
    (provisional f s).superv = { s.superv with provisional := f s.superv.provisional } := rfl
@[simp] theorem provisional_reports (f : Nat → Nat) (s : State) :
    (provisional f s).reports = s.reports := rfl
@[simp] theorem provisional_counters (f : Nat → Nat) (s : State) :
    (provisional f s).counters = s.counters := rfl

/-! ### setLastEnd -/

@[simp] theorem setLastEnd_pending (r : Nat) (t : Option CTime) (s : State) :
    (setLastEnd r t s).pending = s.pending := rfl
@[simp] theorem setLastEnd_power (r : Nat) (t : Option CTime) (s : State) :
    (setLastEnd r t s).power = s.power := rfl
@[simp] theorem setLastEnd_cause (r : Nat) (t : Option CTime) (s : State) :
    (setLastEnd r t s).cause = s.cause := rfl
@[simp] theorem setLastEnd_rst (r : Nat) (t : Option CTime) (s : State) :
    (setLastEnd r t s).rst = s.rst := rfl
@[simp] theorem setLastEnd_rate (r : Nat) (t : Option CTime) (s : State) :
    (setLastEnd r t s).rate = s.rate := rfl
@[simp] theorem setLastEnd_clock (r : Nat) (t : Option CTime) (s : State) :
    (setLastEnd r t s).clock = s.clock := rfl
@[simp] theorem setLastEnd_rooms (r : Nat) (t : Option CTime) (s : State) :
    (setLastEnd r t s).rooms = s.rooms := rfl
@[simp] theorem setLastEnd_kitchens (r : Nat) (t : Option CTime) (s : State) :
    (setLastEnd r t s).kitchens = s.kitchens := rfl
@[simp] theorem setLastEnd_distances (r : Nat) (t : Option CTime) (s : State) :
    (setLastEnd r t s).distances = s.distances := rfl
@[simp] theorem setLastEnd_menu (r : Nat) (t : Option CTime) (s : State) :
    (setLastEnd r t s).menu = s.menu := rfl
@[simp] theorem setLastEnd_policy (r : Nat) (t : Option CTime) (s : State) :
    (setLastEnd r t s).policy = s.policy := rfl
@[simp] theorem setLastEnd_store (r : Nat) (t : Option CTime) (s : State) :
    (setLastEnd r t s).store = s.store := rfl
@[simp] theorem setLastEnd_engine (r : Nat) (t : Option CTime) (s : State) :
    (setLastEnd r t s).engine = { s.engine with lastEnd := s.engine.lastEnd.set none r t } := rfl
@[simp] theorem setLastEnd_scanner (r : Nat) (t : Option CTime) (s : State) :
    (setLastEnd r t s).scanner = s.scanner := rfl
@[simp] theorem setLastEnd_planner (r : Nat) (t : Option CTime) (s : State) :
    (setLastEnd r t s).planner = s.planner := rfl
@[simp] theorem setLastEnd_lines (r : Nat) (t : Option CTime) (s : State) :
    (setLastEnd r t s).lines = s.lines := rfl
@[simp] theorem setLastEnd_link (r : Nat) (t : Option CTime) (s : State) :
    (setLastEnd r t s).link = s.link := rfl
@[simp] theorem setLastEnd_superv (r : Nat) (t : Option CTime) (s : State) :
    (setLastEnd r t s).superv = s.superv := rfl
@[simp] theorem setLastEnd_reports (r : Nat) (t : Option CTime) (s : State) :
    (setLastEnd r t s).reports = s.reports := rfl
@[simp] theorem setLastEnd_counters (r : Nat) (t : Option CTime) (s : State) :
    (setLastEnd r t s).counters = s.counters := rfl

/-! ### keepFacts -/

@[simp] theorem keepFacts_pending (r : Nat) (s : State) : (keepFacts r s).pending = s.pending := rfl
@[simp] theorem keepFacts_power (r : Nat) (s : State) : (keepFacts r s).power = s.power := rfl
@[simp] theorem keepFacts_cause (r : Nat) (s : State) : (keepFacts r s).cause = s.cause := rfl
@[simp] theorem keepFacts_rst (r : Nat) (s : State) : (keepFacts r s).rst = s.rst := rfl
@[simp] theorem keepFacts_rate (r : Nat) (s : State) : (keepFacts r s).rate = s.rate := rfl
@[simp] theorem keepFacts_clock (r : Nat) (s : State) : (keepFacts r s).clock = s.clock := rfl
@[simp] theorem keepFacts_rooms (r : Nat) (s : State) : (keepFacts r s).rooms = s.rooms := rfl
@[simp] theorem keepFacts_kitchens (r : Nat) (s : State) : (keepFacts r s).kitchens = s.kitchens := rfl
@[simp] theorem keepFacts_distances (r : Nat) (s : State) :
    (keepFacts r s).distances = s.distances := rfl
@[simp] theorem keepFacts_menu (r : Nat) (s : State) : (keepFacts r s).menu = s.menu := rfl
@[simp] theorem keepFacts_policy (r : Nat) (s : State) : (keepFacts r s).policy = s.policy := rfl
@[simp] theorem keepFacts_store (r : Nat) (s : State) : (keepFacts r s).store = s.store := rfl
@[simp] theorem keepFacts_engine (r : Nat) (s : State) :
    (keepFacts r s).engine = { s.engine with kept := s.engine.kept.set none r (some (factsOf s r)) } := rfl
@[simp] theorem keepFacts_scanner (r : Nat) (s : State) : (keepFacts r s).scanner = s.scanner := rfl
@[simp] theorem keepFacts_planner (r : Nat) (s : State) : (keepFacts r s).planner = s.planner := rfl
@[simp] theorem keepFacts_lines (r : Nat) (s : State) : (keepFacts r s).lines = s.lines := rfl
@[simp] theorem keepFacts_link (r : Nat) (s : State) : (keepFacts r s).link = s.link := rfl
@[simp] theorem keepFacts_superv (r : Nat) (s : State) : (keepFacts r s).superv = s.superv := rfl
@[simp] theorem keepFacts_reports (r : Nat) (s : State) : (keepFacts r s).reports = s.reports := rfl
@[simp] theorem keepFacts_counters (r : Nat) (s : State) : (keepFacts r s).counters = s.counters := rfl

/-! ### discardStaged -/

@[simp] theorem discardStaged_pending (s : State) : (discardStaged s).pending = s.pending := rfl
@[simp] theorem discardStaged_power (s : State) : (discardStaged s).power = s.power := rfl
@[simp] theorem discardStaged_cause (s : State) : (discardStaged s).cause = s.cause := rfl
@[simp] theorem discardStaged_rst (s : State) : (discardStaged s).rst = s.rst := rfl
@[simp] theorem discardStaged_rate (s : State) : (discardStaged s).rate = s.rate := rfl
@[simp] theorem discardStaged_clock (s : State) : (discardStaged s).clock = s.clock := rfl
@[simp] theorem discardStaged_rooms (s : State) : (discardStaged s).rooms = s.rooms := rfl
@[simp] theorem discardStaged_kitchens (s : State) : (discardStaged s).kitchens = s.kitchens := rfl
@[simp] theorem discardStaged_distances (s : State) : (discardStaged s).distances = s.distances := rfl
@[simp] theorem discardStaged_menu (s : State) : (discardStaged s).menu = s.menu := rfl
@[simp] theorem discardStaged_policy (s : State) : (discardStaged s).policy = s.policy := rfl
@[simp] theorem discardStaged_store (s : State) : (discardStaged s).store = s.store := rfl
@[simp] theorem discardStaged_engine (s : State) :
    (discardStaged s).engine = { s.engine with staged := none } := rfl
@[simp] theorem discardStaged_scanner (s : State) : (discardStaged s).scanner = s.scanner := rfl
@[simp] theorem discardStaged_planner (s : State) : (discardStaged s).planner = s.planner := rfl
@[simp] theorem discardStaged_lines (s : State) : (discardStaged s).lines = s.lines := rfl
@[simp] theorem discardStaged_link (s : State) : (discardStaged s).link = s.link := rfl
@[simp] theorem discardStaged_superv (s : State) : (discardStaged s).superv = s.superv := rfl
@[simp] theorem discardStaged_reports (s : State) : (discardStaged s).reports = s.reports := rfl
@[simp] theorem discardStaged_counters (s : State) : (discardStaged s).counters = s.counters := rfl

/-! ### setEngineNow -/

@[simp] theorem setEngineNow_pending (t : CTime) (s : State) :
    (setEngineNow t s).pending = s.pending := rfl
@[simp] theorem setEngineNow_power (t : CTime) (s : State) : (setEngineNow t s).power = s.power := rfl
@[simp] theorem setEngineNow_cause (t : CTime) (s : State) : (setEngineNow t s).cause = s.cause := rfl
@[simp] theorem setEngineNow_rst (t : CTime) (s : State) : (setEngineNow t s).rst = s.rst := rfl
@[simp] theorem setEngineNow_rate (t : CTime) (s : State) : (setEngineNow t s).rate = s.rate := rfl
@[simp] theorem setEngineNow_clock (t : CTime) (s : State) : (setEngineNow t s).clock = s.clock := rfl
@[simp] theorem setEngineNow_rooms (t : CTime) (s : State) : (setEngineNow t s).rooms = s.rooms := rfl
@[simp] theorem setEngineNow_kitchens (t : CTime) (s : State) :
    (setEngineNow t s).kitchens = s.kitchens := rfl
@[simp] theorem setEngineNow_distances (t : CTime) (s : State) :
    (setEngineNow t s).distances = s.distances := rfl
@[simp] theorem setEngineNow_menu (t : CTime) (s : State) : (setEngineNow t s).menu = s.menu := rfl
@[simp] theorem setEngineNow_policy (t : CTime) (s : State) : (setEngineNow t s).policy = s.policy := rfl
@[simp] theorem setEngineNow_store (t : CTime) (s : State) : (setEngineNow t s).store = s.store := rfl
@[simp] theorem setEngineNow_engine (t : CTime) (s : State) :
    (setEngineNow t s).engine = { s.engine with now := some t } := rfl
@[simp] theorem setEngineNow_scanner (t : CTime) (s : State) :
    (setEngineNow t s).scanner = s.scanner := rfl
@[simp] theorem setEngineNow_planner (t : CTime) (s : State) :
    (setEngineNow t s).planner = s.planner := rfl
@[simp] theorem setEngineNow_lines (t : CTime) (s : State) : (setEngineNow t s).lines = s.lines := rfl
@[simp] theorem setEngineNow_link (t : CTime) (s : State) : (setEngineNow t s).link = s.link := rfl
@[simp] theorem setEngineNow_superv (t : CTime) (s : State) : (setEngineNow t s).superv = s.superv := rfl
@[simp] theorem setEngineNow_reports (t : CTime) (s : State) :
    (setEngineNow t s).reports = s.reports := rfl
@[simp] theorem setEngineNow_counters (t : CTime) (s : State) :
    (setEngineNow t s).counters = s.counters := rfl

/-! ### setRoom -/

@[simp] theorem setRoom_pending (r : Nat) (e : Option RoomEntry) (s : State) :
    (setRoom r e s).pending = s.pending := rfl
@[simp] theorem setRoom_power (r : Nat) (e : Option RoomEntry) (s : State) :
    (setRoom r e s).power = s.power := rfl
@[simp] theorem setRoom_cause (r : Nat) (e : Option RoomEntry) (s : State) :
    (setRoom r e s).cause = s.cause := rfl
@[simp] theorem setRoom_rst (r : Nat) (e : Option RoomEntry) (s : State) :
    (setRoom r e s).rst = s.rst := rfl
@[simp] theorem setRoom_rate (r : Nat) (e : Option RoomEntry) (s : State) :
    (setRoom r e s).rate = s.rate := rfl
@[simp] theorem setRoom_clock (r : Nat) (e : Option RoomEntry) (s : State) :
    (setRoom r e s).clock = s.clock := rfl
@[simp] theorem setRoom_rooms (r : Nat) (e : Option RoomEntry) (s : State) :
    (setRoom r e s).rooms = s.rooms.set none r e := rfl
@[simp] theorem setRoom_kitchens (r : Nat) (e : Option RoomEntry) (s : State) :
    (setRoom r e s).kitchens = s.kitchens := rfl
@[simp] theorem setRoom_distances (r : Nat) (e : Option RoomEntry) (s : State) :
    (setRoom r e s).distances = s.distances := rfl
@[simp] theorem setRoom_menu (r : Nat) (e : Option RoomEntry) (s : State) :
    (setRoom r e s).menu = s.menu := rfl
@[simp] theorem setRoom_policy (r : Nat) (e : Option RoomEntry) (s : State) :
    (setRoom r e s).policy = s.policy := rfl
@[simp] theorem setRoom_store (r : Nat) (e : Option RoomEntry) (s : State) :
    (setRoom r e s).store = s.store := rfl
@[simp] theorem setRoom_engine (r : Nat) (e : Option RoomEntry) (s : State) :
    (setRoom r e s).engine = s.engine := rfl
@[simp] theorem setRoom_scanner (r : Nat) (e : Option RoomEntry) (s : State) :
    (setRoom r e s).scanner = s.scanner := rfl
@[simp] theorem setRoom_planner (r : Nat) (e : Option RoomEntry) (s : State) :
    (setRoom r e s).planner = s.planner := rfl
@[simp] theorem setRoom_lines (r : Nat) (e : Option RoomEntry) (s : State) :
    (setRoom r e s).lines = s.lines := rfl
@[simp] theorem setRoom_link (r : Nat) (e : Option RoomEntry) (s : State) :
    (setRoom r e s).link = s.link := rfl
@[simp] theorem setRoom_superv (r : Nat) (e : Option RoomEntry) (s : State) :
    (setRoom r e s).superv = s.superv := rfl
@[simp] theorem setRoom_reports (r : Nat) (e : Option RoomEntry) (s : State) :
    (setRoom r e s).reports = s.reports := rfl
@[simp] theorem setRoom_counters (r : Nat) (e : Option RoomEntry) (s : State) :
    (setRoom r e s).counters = s.counters := rfl

/-! ### modifyCell -/

@[simp] theorem modifyCell_pending (k : Nat) (f : LoadCell → LoadCell) (h : Int) (s : State) :
    (modifyCell k f h s).pending = s.pending := rfl
@[simp] theorem modifyCell_power (k : Nat) (f : LoadCell → LoadCell) (h : Int) (s : State) :
    (modifyCell k f h s).power = s.power := rfl
@[simp] theorem modifyCell_cause (k : Nat) (f : LoadCell → LoadCell) (h : Int) (s : State) :
    (modifyCell k f h s).cause = s.cause := rfl
@[simp] theorem modifyCell_rst (k : Nat) (f : LoadCell → LoadCell) (h : Int) (s : State) :
    (modifyCell k f h s).rst = s.rst := rfl
@[simp] theorem modifyCell_rate (k : Nat) (f : LoadCell → LoadCell) (h : Int) (s : State) :
    (modifyCell k f h s).rate = s.rate := rfl
@[simp] theorem modifyCell_clock (k : Nat) (f : LoadCell → LoadCell) (h : Int) (s : State) :
    (modifyCell k f h s).clock = s.clock := rfl
@[simp] theorem modifyCell_rooms (k : Nat) (f : LoadCell → LoadCell) (h : Int) (s : State) :
    (modifyCell k f h s).rooms = s.rooms := rfl
@[simp] theorem modifyCell_kitchens (k : Nat) (f : LoadCell → LoadCell) (h : Int) (s : State) :
    (modifyCell k f h s).kitchens = s.kitchens := rfl
@[simp] theorem modifyCell_distances (k : Nat) (f : LoadCell → LoadCell) (h : Int) (s : State) :
    (modifyCell k f h s).distances = s.distances := rfl
@[simp] theorem modifyCell_menu (k : Nat) (f : LoadCell → LoadCell) (h : Int) (s : State) :
    (modifyCell k f h s).menu = s.menu := rfl
@[simp] theorem modifyCell_policy (k : Nat) (f : LoadCell → LoadCell) (h : Int) (s : State) :
    (modifyCell k f h s).policy = s.policy := rfl
@[simp] theorem modifyCell_store (k : Nat) (f : LoadCell → LoadCell) (h : Int) (s : State) :
    (modifyCell k f h s).store = s.store := rfl
@[simp] theorem modifyCell_engine (k : Nat) (f : LoadCell → LoadCell) (h : Int) (s : State) :
    (modifyCell k f h s).engine = s.engine := rfl
@[simp] theorem modifyCell_scanner (k : Nat) (f : LoadCell → LoadCell) (h : Int) (s : State) :
    (modifyCell k f h s).scanner = s.scanner := rfl
@[simp] theorem modifyCell_planner (k : Nat) (f : LoadCell → LoadCell) (h : Int) (s : State) :
    (modifyCell k f h s).planner = { s.planner with
      load := s.planner.load.modify noLoad (loadKey (plannerDay s) k h) f } := rfl
@[simp] theorem modifyCell_lines (k : Nat) (f : LoadCell → LoadCell) (h : Int) (s : State) :
    (modifyCell k f h s).lines = s.lines := rfl
@[simp] theorem modifyCell_link (k : Nat) (f : LoadCell → LoadCell) (h : Int) (s : State) :
    (modifyCell k f h s).link = s.link := rfl
@[simp] theorem modifyCell_superv (k : Nat) (f : LoadCell → LoadCell) (h : Int) (s : State) :
    (modifyCell k f h s).superv = s.superv := rfl
@[simp] theorem modifyCell_reports (k : Nat) (f : LoadCell → LoadCell) (h : Int) (s : State) :
    (modifyCell k f h s).reports = s.reports := rfl
@[simp] theorem modifyCell_counters (k : Nat) (f : LoadCell → LoadCell) (h : Int) (s : State) :
    (modifyCell k f h s).counters = s.counters := rfl

/-! ### setOrder -/

@[simp] theorem setOrder_pending (i : Nat) (o : Order) (s : State) :
    (setOrder i o s).pending = s.pending := rfl
@[simp] theorem setOrder_power (i : Nat) (o : Order) (s : State) :
    (setOrder i o s).power = s.power := rfl
@[simp] theorem setOrder_cause (i : Nat) (o : Order) (s : State) :
    (setOrder i o s).cause = s.cause := rfl
@[simp] theorem setOrder_rst (i : Nat) (o : Order) (s : State) : (setOrder i o s).rst = s.rst := rfl
@[simp] theorem setOrder_rate (i : Nat) (o : Order) (s : State) : (setOrder i o s).rate = s.rate := rfl
@[simp] theorem setOrder_clock (i : Nat) (o : Order) (s : State) :
    (setOrder i o s).clock = s.clock := rfl
@[simp] theorem setOrder_rooms (i : Nat) (o : Order) (s : State) :
    (setOrder i o s).rooms = s.rooms := rfl
@[simp] theorem setOrder_kitchens (i : Nat) (o : Order) (s : State) :
    (setOrder i o s).kitchens = s.kitchens := rfl
@[simp] theorem setOrder_distances (i : Nat) (o : Order) (s : State) :
    (setOrder i o s).distances = s.distances := rfl
@[simp] theorem setOrder_menu (i : Nat) (o : Order) (s : State) : (setOrder i o s).menu = s.menu := rfl
@[simp] theorem setOrder_policy (i : Nat) (o : Order) (s : State) :
    (setOrder i o s).policy = s.policy := rfl
@[simp] theorem setOrder_store (i : Nat) (o : Order) (s : State) :
    (setOrder i o s).store = s.store := rfl
@[simp] theorem setOrder_engine (i : Nat) (o : Order) (s : State) :
    (setOrder i o s).engine = s.engine := rfl
@[simp] theorem setOrder_scanner (i : Nat) (o : Order) (s : State) :
    (setOrder i o s).scanner = s.scanner := rfl
@[simp] theorem setOrder_planner (i : Nat) (o : Order) (s : State) :
    (setOrder i o s).planner = { s.planner with
      records := s.planner.records.set ⟨0, none⟩ i ⟨(orderRecord s i).gen, some o⟩ } := rfl
@[simp] theorem setOrder_lines (i : Nat) (o : Order) (s : State) :
    (setOrder i o s).lines = s.lines := rfl
@[simp] theorem setOrder_link (i : Nat) (o : Order) (s : State) : (setOrder i o s).link = s.link := rfl
@[simp] theorem setOrder_superv (i : Nat) (o : Order) (s : State) :
    (setOrder i o s).superv = s.superv := rfl
@[simp] theorem setOrder_reports (i : Nat) (o : Order) (s : State) :
    (setOrder i o s).reports = s.reports := rfl
@[simp] theorem setOrder_counters (i : Nat) (o : Order) (s : State) :
    (setOrder i o s).counters = s.counters := rfl

/-! ### setProduction -/

@[simp] theorem setProduction_pending (k : Nat) (l : List Nat) (s : State) :
    (setProduction k l s).pending = s.pending := rfl
@[simp] theorem setProduction_power (k : Nat) (l : List Nat) (s : State) :
    (setProduction k l s).power = s.power := rfl
@[simp] theorem setProduction_cause (k : Nat) (l : List Nat) (s : State) :
    (setProduction k l s).cause = s.cause := rfl
@[simp] theorem setProduction_rst (k : Nat) (l : List Nat) (s : State) :
    (setProduction k l s).rst = s.rst := rfl
@[simp] theorem setProduction_rate (k : Nat) (l : List Nat) (s : State) :
    (setProduction k l s).rate = s.rate := rfl
@[simp] theorem setProduction_clock (k : Nat) (l : List Nat) (s : State) :
    (setProduction k l s).clock = s.clock := rfl
@[simp] theorem setProduction_rooms (k : Nat) (l : List Nat) (s : State) :
    (setProduction k l s).rooms = s.rooms := rfl
@[simp] theorem setProduction_kitchens (k : Nat) (l : List Nat) (s : State) :
    (setProduction k l s).kitchens = s.kitchens := rfl
@[simp] theorem setProduction_distances (k : Nat) (l : List Nat) (s : State) :
    (setProduction k l s).distances = s.distances := rfl
@[simp] theorem setProduction_menu (k : Nat) (l : List Nat) (s : State) :
    (setProduction k l s).menu = s.menu := rfl
@[simp] theorem setProduction_policy (k : Nat) (l : List Nat) (s : State) :
    (setProduction k l s).policy = s.policy := rfl
@[simp] theorem setProduction_store (k : Nat) (l : List Nat) (s : State) :
    (setProduction k l s).store = s.store := rfl
@[simp] theorem setProduction_engine (k : Nat) (l : List Nat) (s : State) :
    (setProduction k l s).engine = s.engine := rfl
@[simp] theorem setProduction_scanner (k : Nat) (l : List Nat) (s : State) :
    (setProduction k l s).scanner = s.scanner := rfl
@[simp] theorem setProduction_planner (k : Nat) (l : List Nat) (s : State) :
    (setProduction k l s).planner = { s.planner with lists := s.planner.lists.set [] k l } := rfl
@[simp] theorem setProduction_lines (k : Nat) (l : List Nat) (s : State) :
    (setProduction k l s).lines = s.lines := rfl
@[simp] theorem setProduction_link (k : Nat) (l : List Nat) (s : State) :
    (setProduction k l s).link = s.link := rfl
@[simp] theorem setProduction_superv (k : Nat) (l : List Nat) (s : State) :
    (setProduction k l s).superv = s.superv := rfl
@[simp] theorem setProduction_reports (k : Nat) (l : List Nat) (s : State) :
    (setProduction k l s).reports = s.reports := rfl
@[simp] theorem setProduction_counters (k : Nat) (l : List Nat) (s : State) :
    (setProduction k l s).counters = s.counters := rfl

/-! ### nextPlacing -/

@[simp] theorem nextPlacing_pending (s : State) : (nextPlacing s).pending = s.pending := rfl
@[simp] theorem nextPlacing_power (s : State) : (nextPlacing s).power = s.power := rfl
@[simp] theorem nextPlacing_cause (s : State) : (nextPlacing s).cause = s.cause := rfl
@[simp] theorem nextPlacing_rst (s : State) : (nextPlacing s).rst = s.rst := rfl
@[simp] theorem nextPlacing_rate (s : State) : (nextPlacing s).rate = s.rate := rfl
@[simp] theorem nextPlacing_clock (s : State) : (nextPlacing s).clock = s.clock := rfl
@[simp] theorem nextPlacing_rooms (s : State) : (nextPlacing s).rooms = s.rooms := rfl
@[simp] theorem nextPlacing_kitchens (s : State) : (nextPlacing s).kitchens = s.kitchens := rfl
@[simp] theorem nextPlacing_distances (s : State) : (nextPlacing s).distances = s.distances := rfl
@[simp] theorem nextPlacing_menu (s : State) : (nextPlacing s).menu = s.menu := rfl
@[simp] theorem nextPlacing_policy (s : State) : (nextPlacing s).policy = s.policy := rfl
@[simp] theorem nextPlacing_store (s : State) : (nextPlacing s).store = s.store := rfl
@[simp] theorem nextPlacing_engine (s : State) : (nextPlacing s).engine = s.engine := rfl
@[simp] theorem nextPlacing_scanner (s : State) : (nextPlacing s).scanner = s.scanner := rfl
@[simp] theorem nextPlacing_planner (s : State) :
    (nextPlacing s).planner = { s.planner with placing := s.planner.placing + 1 } := rfl
@[simp] theorem nextPlacing_lines (s : State) : (nextPlacing s).lines = s.lines := rfl
@[simp] theorem nextPlacing_link (s : State) : (nextPlacing s).link = s.link := rfl
@[simp] theorem nextPlacing_superv (s : State) : (nextPlacing s).superv = s.superv := rfl
@[simp] theorem nextPlacing_reports (s : State) : (nextPlacing s).reports = s.reports := rfl
@[simp] theorem nextPlacing_counters (s : State) : (nextPlacing s).counters = s.counters := rfl

/-! ### releaseOrder -/

@[simp] theorem releaseOrder_pending (i : Nat) (s : State) :
    (releaseOrder i s).pending = s.pending := rfl
@[simp] theorem releaseOrder_power (i : Nat) (s : State) : (releaseOrder i s).power = s.power := rfl
@[simp] theorem releaseOrder_cause (i : Nat) (s : State) : (releaseOrder i s).cause = s.cause := rfl
@[simp] theorem releaseOrder_rst (i : Nat) (s : State) : (releaseOrder i s).rst = s.rst := rfl
@[simp] theorem releaseOrder_rate (i : Nat) (s : State) : (releaseOrder i s).rate = s.rate := rfl
@[simp] theorem releaseOrder_clock (i : Nat) (s : State) : (releaseOrder i s).clock = s.clock := rfl
@[simp] theorem releaseOrder_rooms (i : Nat) (s : State) : (releaseOrder i s).rooms = s.rooms := rfl
@[simp] theorem releaseOrder_kitchens (i : Nat) (s : State) :
    (releaseOrder i s).kitchens = s.kitchens := rfl
@[simp] theorem releaseOrder_distances (i : Nat) (s : State) :
    (releaseOrder i s).distances = s.distances := rfl
@[simp] theorem releaseOrder_menu (i : Nat) (s : State) : (releaseOrder i s).menu = s.menu := rfl
@[simp] theorem releaseOrder_policy (i : Nat) (s : State) : (releaseOrder i s).policy = s.policy := rfl
@[simp] theorem releaseOrder_store (i : Nat) (s : State) : (releaseOrder i s).store = s.store := rfl
@[simp] theorem releaseOrder_engine (i : Nat) (s : State) : (releaseOrder i s).engine = s.engine := rfl
@[simp] theorem releaseOrder_scanner (i : Nat) (s : State) :
    (releaseOrder i s).scanner = s.scanner := rfl
@[simp] theorem releaseOrder_planner (i : Nat) (s : State) :
    (releaseOrder i s).planner = { s.planner with
      records := s.planner.records.set ⟨0, none⟩ i ⟨((orderRecord s i).gen + 1) % 64, none⟩
      free := s.planner.free ++ [i]
      episode := false } := rfl
@[simp] theorem releaseOrder_lines (i : Nat) (s : State) : (releaseOrder i s).lines = s.lines := rfl
@[simp] theorem releaseOrder_link (i : Nat) (s : State) : (releaseOrder i s).link = s.link := rfl
@[simp] theorem releaseOrder_superv (i : Nat) (s : State) : (releaseOrder i s).superv = s.superv := rfl
@[simp] theorem releaseOrder_reports (i : Nat) (s : State) :
    (releaseOrder i s).reports = s.reports := rfl
@[simp] theorem releaseOrder_counters (i : Nat) (s : State) :
    (releaseOrder i s).counters = s.counters := rfl

/-! ### setJob -/

@[simp] theorem setJob_pending (j : Option Job) (s : State) : (setJob j s).pending = s.pending := rfl
@[simp] theorem setJob_power (j : Option Job) (s : State) : (setJob j s).power = s.power := rfl
@[simp] theorem setJob_cause (j : Option Job) (s : State) : (setJob j s).cause = s.cause := rfl
@[simp] theorem setJob_rst (j : Option Job) (s : State) : (setJob j s).rst = s.rst := rfl
@[simp] theorem setJob_rate (j : Option Job) (s : State) : (setJob j s).rate = s.rate := rfl
@[simp] theorem setJob_clock (j : Option Job) (s : State) : (setJob j s).clock = s.clock := rfl
@[simp] theorem setJob_rooms (j : Option Job) (s : State) : (setJob j s).rooms = s.rooms := rfl
@[simp] theorem setJob_kitchens (j : Option Job) (s : State) : (setJob j s).kitchens = s.kitchens := rfl
@[simp] theorem setJob_distances (j : Option Job) (s : State) :
    (setJob j s).distances = s.distances := rfl
@[simp] theorem setJob_menu (j : Option Job) (s : State) : (setJob j s).menu = s.menu := rfl
@[simp] theorem setJob_policy (j : Option Job) (s : State) : (setJob j s).policy = s.policy := rfl
@[simp] theorem setJob_store (j : Option Job) (s : State) : (setJob j s).store = s.store := rfl
@[simp] theorem setJob_engine (j : Option Job) (s : State) : (setJob j s).engine = s.engine := rfl
@[simp] theorem setJob_scanner (j : Option Job) (s : State) : (setJob j s).scanner = s.scanner := rfl
@[simp] theorem setJob_planner (j : Option Job) (s : State) :
    (setJob j s).planner = { s.planner with job := j } := rfl
@[simp] theorem setJob_lines (j : Option Job) (s : State) : (setJob j s).lines = s.lines := rfl
@[simp] theorem setJob_link (j : Option Job) (s : State) : (setJob j s).link = s.link := rfl
@[simp] theorem setJob_superv (j : Option Job) (s : State) : (setJob j s).superv = s.superv := rfl
@[simp] theorem setJob_reports (j : Option Job) (s : State) : (setJob j s).reports = s.reports := rfl
@[simp] theorem setJob_counters (j : Option Job) (s : State) : (setJob j s).counters = s.counters := rfl

/-! ### setPlannerNow -/

@[simp] theorem setPlannerNow_pending (t : CTime) (s : State) :
    (setPlannerNow t s).pending = s.pending := rfl
@[simp] theorem setPlannerNow_power (t : CTime) (s : State) : (setPlannerNow t s).power = s.power := rfl
@[simp] theorem setPlannerNow_cause (t : CTime) (s : State) : (setPlannerNow t s).cause = s.cause := rfl
@[simp] theorem setPlannerNow_rst (t : CTime) (s : State) : (setPlannerNow t s).rst = s.rst := rfl
@[simp] theorem setPlannerNow_rate (t : CTime) (s : State) : (setPlannerNow t s).rate = s.rate := rfl
@[simp] theorem setPlannerNow_clock (t : CTime) (s : State) : (setPlannerNow t s).clock = s.clock := rfl
@[simp] theorem setPlannerNow_rooms (t : CTime) (s : State) : (setPlannerNow t s).rooms = s.rooms := rfl
@[simp] theorem setPlannerNow_kitchens (t : CTime) (s : State) :
    (setPlannerNow t s).kitchens = s.kitchens := rfl
@[simp] theorem setPlannerNow_distances (t : CTime) (s : State) :
    (setPlannerNow t s).distances = s.distances := rfl
@[simp] theorem setPlannerNow_menu (t : CTime) (s : State) : (setPlannerNow t s).menu = s.menu := rfl
@[simp] theorem setPlannerNow_policy (t : CTime) (s : State) :
    (setPlannerNow t s).policy = s.policy := rfl
@[simp] theorem setPlannerNow_store (t : CTime) (s : State) : (setPlannerNow t s).store = s.store := rfl
@[simp] theorem setPlannerNow_engine (t : CTime) (s : State) :
    (setPlannerNow t s).engine = s.engine := rfl
@[simp] theorem setPlannerNow_scanner (t : CTime) (s : State) :
    (setPlannerNow t s).scanner = s.scanner := rfl
@[simp] theorem setPlannerNow_planner (t : CTime) (s : State) :
    (setPlannerNow t s).planner = { s.planner with now := some t } := rfl
@[simp] theorem setPlannerNow_lines (t : CTime) (s : State) : (setPlannerNow t s).lines = s.lines := rfl
@[simp] theorem setPlannerNow_link (t : CTime) (s : State) : (setPlannerNow t s).link = s.link := rfl
@[simp] theorem setPlannerNow_superv (t : CTime) (s : State) :
    (setPlannerNow t s).superv = s.superv := rfl
@[simp] theorem setPlannerNow_reports (t : CTime) (s : State) :
    (setPlannerNow t s).reports = s.reports := rfl
@[simp] theorem setPlannerNow_counters (t : CTime) (s : State) :
    (setPlannerNow t s).counters = s.counters := rfl

/-! ### setCount -/

@[simp] theorem setCount_pending (k : Counting) (s : State) : (setCount k s).pending = s.pending := rfl
@[simp] theorem setCount_power (k : Counting) (s : State) : (setCount k s).power = s.power := rfl
@[simp] theorem setCount_cause (k : Counting) (s : State) : (setCount k s).cause = s.cause := rfl
@[simp] theorem setCount_rst (k : Counting) (s : State) : (setCount k s).rst = s.rst := rfl
@[simp] theorem setCount_rate (k : Counting) (s : State) : (setCount k s).rate = s.rate := rfl
@[simp] theorem setCount_clock (k : Counting) (s : State) :
    (setCount k s).clock = { s.clock with count := some k } := rfl
@[simp] theorem setCount_rooms (k : Counting) (s : State) : (setCount k s).rooms = s.rooms := rfl
@[simp] theorem setCount_kitchens (k : Counting) (s : State) :
    (setCount k s).kitchens = s.kitchens := rfl
@[simp] theorem setCount_distances (k : Counting) (s : State) :
    (setCount k s).distances = s.distances := rfl
@[simp] theorem setCount_menu (k : Counting) (s : State) : (setCount k s).menu = s.menu := rfl
@[simp] theorem setCount_policy (k : Counting) (s : State) : (setCount k s).policy = s.policy := rfl
@[simp] theorem setCount_store (k : Counting) (s : State) : (setCount k s).store = s.store := rfl
@[simp] theorem setCount_engine (k : Counting) (s : State) : (setCount k s).engine = s.engine := rfl
@[simp] theorem setCount_scanner (k : Counting) (s : State) : (setCount k s).scanner = s.scanner := rfl
@[simp] theorem setCount_planner (k : Counting) (s : State) : (setCount k s).planner = s.planner := rfl
@[simp] theorem setCount_lines (k : Counting) (s : State) : (setCount k s).lines = s.lines := rfl
@[simp] theorem setCount_link (k : Counting) (s : State) : (setCount k s).link = s.link := rfl
@[simp] theorem setCount_superv (k : Counting) (s : State) : (setCount k s).superv = s.superv := rfl
@[simp] theorem setCount_reports (k : Counting) (s : State) : (setCount k s).reports = s.reports := rfl
@[simp] theorem setCount_counters (k : Counting) (s : State) :
    (setCount k s).counters = s.counters := rfl

/-! ### resume -/

@[simp] theorem resume_pending (s : State) : (resume s).pending = s.pending := rfl
@[simp] theorem resume_power (s : State) : (resume s).power = s.power := rfl
@[simp] theorem resume_cause (s : State) : (resume s).cause = s.cause := rfl
@[simp] theorem resume_rst (s : State) : (resume s).rst = s.rst := rfl
@[simp] theorem resume_rate (s : State) : (resume s).rate = s.rate := rfl
@[simp] theorem resume_clock (s : State) :
    (resume s).clock = { s.clock with state := .running, held := none } := rfl
@[simp] theorem resume_rooms (s : State) : (resume s).rooms = s.rooms := rfl
@[simp] theorem resume_kitchens (s : State) : (resume s).kitchens = s.kitchens := rfl
@[simp] theorem resume_distances (s : State) : (resume s).distances = s.distances := rfl
@[simp] theorem resume_menu (s : State) : (resume s).menu = s.menu := rfl
@[simp] theorem resume_policy (s : State) : (resume s).policy = s.policy := rfl
@[simp] theorem resume_store (s : State) : (resume s).store = s.store := rfl
@[simp] theorem resume_engine (s : State) : (resume s).engine = s.engine := rfl
@[simp] theorem resume_scanner (s : State) : (resume s).scanner = s.scanner := rfl
@[simp] theorem resume_planner (s : State) : (resume s).planner = s.planner := rfl
@[simp] theorem resume_lines (s : State) : (resume s).lines = s.lines := rfl
@[simp] theorem resume_link (s : State) : (resume s).link = s.link := rfl
@[simp] theorem resume_superv (s : State) : (resume s).superv = s.superv := rfl
@[simp] theorem resume_reports (s : State) : (resume s).reports = s.reports := rfl
@[simp] theorem resume_counters (s : State) : (resume s).counters = s.counters := rfl

/-! ### removeEvents -/

@[simp] theorem removeEvents_pending (n : Nat) (s : State) :
    (removeEvents n s).pending = s.pending := rfl
@[simp] theorem removeEvents_power (n : Nat) (s : State) : (removeEvents n s).power = s.power := rfl
@[simp] theorem removeEvents_cause (n : Nat) (s : State) : (removeEvents n s).cause = s.cause := rfl
@[simp] theorem removeEvents_rst (n : Nat) (s : State) : (removeEvents n s).rst = s.rst := rfl
@[simp] theorem removeEvents_rate (n : Nat) (s : State) : (removeEvents n s).rate = s.rate := rfl
@[simp] theorem removeEvents_clock (n : Nat) (s : State) : (removeEvents n s).clock = s.clock := rfl
@[simp] theorem removeEvents_rooms (n : Nat) (s : State) : (removeEvents n s).rooms = s.rooms := rfl
@[simp] theorem removeEvents_kitchens (n : Nat) (s : State) :
    (removeEvents n s).kitchens = s.kitchens := rfl
@[simp] theorem removeEvents_distances (n : Nat) (s : State) :
    (removeEvents n s).distances = s.distances := rfl
@[simp] theorem removeEvents_menu (n : Nat) (s : State) : (removeEvents n s).menu = s.menu := rfl
@[simp] theorem removeEvents_policy (n : Nat) (s : State) : (removeEvents n s).policy = s.policy := rfl
@[simp] theorem removeEvents_store (n : Nat) (s : State) : (removeEvents n s).store = s.store := rfl
@[simp] theorem removeEvents_engine (n : Nat) (s : State) : (removeEvents n s).engine = s.engine := rfl
@[simp] theorem removeEvents_scanner (n : Nat) (s : State) :
    (removeEvents n s).scanner = s.scanner := rfl
@[simp] theorem removeEvents_planner (n : Nat) (s : State) :
    (removeEvents n s).planner = s.planner := rfl
@[simp] theorem removeEvents_lines (n : Nat) (s : State) : (removeEvents n s).lines = s.lines := rfl
@[simp] theorem removeEvents_link (n : Nat) (s : State) : (removeEvents n s).link = s.link := rfl
@[simp] theorem removeEvents_superv (n : Nat) (s : State) : (removeEvents n s).superv = s.superv := rfl
@[simp] theorem removeEvents_reports (n : Nat) (s : State) :
    (removeEvents n s).reports = { s.reports with events := s.reports.events.drop n } := rfl
@[simp] theorem removeEvents_counters (n : Nat) (s : State) :
    (removeEvents n s).counters = s.counters := rfl

/-! ### removeExceptions -/

@[simp] theorem removeExceptions_pending (n : Nat) (s : State) :
    (removeExceptions n s).pending = s.pending := rfl
@[simp] theorem removeExceptions_power (n : Nat) (s : State) :
    (removeExceptions n s).power = s.power := rfl
@[simp] theorem removeExceptions_cause (n : Nat) (s : State) :
    (removeExceptions n s).cause = s.cause := rfl
@[simp] theorem removeExceptions_rst (n : Nat) (s : State) : (removeExceptions n s).rst = s.rst := rfl
@[simp] theorem removeExceptions_rate (n : Nat) (s : State) : (removeExceptions n s).rate = s.rate := rfl
@[simp] theorem removeExceptions_clock (n : Nat) (s : State) :
    (removeExceptions n s).clock = s.clock := rfl
@[simp] theorem removeExceptions_rooms (n : Nat) (s : State) :
    (removeExceptions n s).rooms = s.rooms := rfl
@[simp] theorem removeExceptions_kitchens (n : Nat) (s : State) :
    (removeExceptions n s).kitchens = s.kitchens := rfl
@[simp] theorem removeExceptions_distances (n : Nat) (s : State) :
    (removeExceptions n s).distances = s.distances := rfl
@[simp] theorem removeExceptions_menu (n : Nat) (s : State) : (removeExceptions n s).menu = s.menu := rfl
@[simp] theorem removeExceptions_policy (n : Nat) (s : State) :
    (removeExceptions n s).policy = s.policy := rfl
@[simp] theorem removeExceptions_store (n : Nat) (s : State) :
    (removeExceptions n s).store = s.store := rfl
@[simp] theorem removeExceptions_engine (n : Nat) (s : State) :
    (removeExceptions n s).engine = s.engine := rfl
@[simp] theorem removeExceptions_scanner (n : Nat) (s : State) :
    (removeExceptions n s).scanner = s.scanner := rfl
@[simp] theorem removeExceptions_planner (n : Nat) (s : State) :
    (removeExceptions n s).planner = s.planner := rfl
@[simp] theorem removeExceptions_lines (n : Nat) (s : State) :
    (removeExceptions n s).lines = s.lines := rfl
@[simp] theorem removeExceptions_link (n : Nat) (s : State) : (removeExceptions n s).link = s.link := rfl
@[simp] theorem removeExceptions_superv (n : Nat) (s : State) :
    (removeExceptions n s).superv = s.superv := rfl
@[simp] theorem removeExceptions_reports (n : Nat) (s : State) :
    (removeExceptions n s).reports = { s.reports with exceptions := s.reports.exceptions.drop n } := rfl
@[simp] theorem removeExceptions_counters (n : Nat) (s : State) :
    (removeExceptions n s).counters = s.counters := rfl

/-! ### clearOvf -/

@[simp] theorem clearOvf_pending (s : State) : (clearOvf s).pending = s.pending := rfl
@[simp] theorem clearOvf_power (s : State) : (clearOvf s).power = s.power := rfl
@[simp] theorem clearOvf_cause (s : State) : (clearOvf s).cause = s.cause := rfl
@[simp] theorem clearOvf_rst (s : State) : (clearOvf s).rst = s.rst := rfl
@[simp] theorem clearOvf_rate (s : State) : (clearOvf s).rate = s.rate := rfl
@[simp] theorem clearOvf_clock (s : State) : (clearOvf s).clock = s.clock := rfl
@[simp] theorem clearOvf_rooms (s : State) : (clearOvf s).rooms = s.rooms := rfl
@[simp] theorem clearOvf_kitchens (s : State) : (clearOvf s).kitchens = s.kitchens := rfl
@[simp] theorem clearOvf_distances (s : State) : (clearOvf s).distances = s.distances := rfl
@[simp] theorem clearOvf_menu (s : State) : (clearOvf s).menu = s.menu := rfl
@[simp] theorem clearOvf_policy (s : State) : (clearOvf s).policy = s.policy := rfl
@[simp] theorem clearOvf_store (s : State) : (clearOvf s).store = s.store := rfl
@[simp] theorem clearOvf_engine (s : State) : (clearOvf s).engine = s.engine := rfl
@[simp] theorem clearOvf_scanner (s : State) : (clearOvf s).scanner = s.scanner := rfl
@[simp] theorem clearOvf_planner (s : State) : (clearOvf s).planner = s.planner := rfl
@[simp] theorem clearOvf_lines (s : State) : (clearOvf s).lines = s.lines := rfl
@[simp] theorem clearOvf_link (s : State) : (clearOvf s).link = s.link := rfl
@[simp] theorem clearOvf_superv (s : State) : (clearOvf s).superv = s.superv := rfl
@[simp] theorem clearOvf_reports (s : State) :
    (clearOvf s).reports = { s.reports with ovf := false } := rfl
@[simp] theorem clearOvf_counters (s : State) : (clearOvf s).counters = s.counters := rfl

/-! ### clearCounters -/

@[simp] theorem clearCounters_pending (s : State) : (clearCounters s).pending = s.pending := rfl
@[simp] theorem clearCounters_power (s : State) : (clearCounters s).power = s.power := rfl
@[simp] theorem clearCounters_cause (s : State) : (clearCounters s).cause = s.cause := rfl
@[simp] theorem clearCounters_rst (s : State) : (clearCounters s).rst = s.rst := rfl
@[simp] theorem clearCounters_rate (s : State) : (clearCounters s).rate = s.rate := rfl
@[simp] theorem clearCounters_clock (s : State) : (clearCounters s).clock = s.clock := rfl
@[simp] theorem clearCounters_rooms (s : State) : (clearCounters s).rooms = s.rooms := rfl
@[simp] theorem clearCounters_kitchens (s : State) : (clearCounters s).kitchens = s.kitchens := rfl
@[simp] theorem clearCounters_distances (s : State) : (clearCounters s).distances = s.distances := rfl
@[simp] theorem clearCounters_menu (s : State) : (clearCounters s).menu = s.menu := rfl
@[simp] theorem clearCounters_policy (s : State) : (clearCounters s).policy = s.policy := rfl
@[simp] theorem clearCounters_store (s : State) : (clearCounters s).store = s.store := rfl
@[simp] theorem clearCounters_engine (s : State) : (clearCounters s).engine = s.engine := rfl
@[simp] theorem clearCounters_scanner (s : State) : (clearCounters s).scanner = s.scanner := rfl
@[simp] theorem clearCounters_planner (s : State) : (clearCounters s).planner = s.planner := rfl
@[simp] theorem clearCounters_lines (s : State) : (clearCounters s).lines = s.lines := rfl
@[simp] theorem clearCounters_link (s : State) : (clearCounters s).link = s.link := rfl
@[simp] theorem clearCounters_superv (s : State) : (clearCounters s).superv = s.superv := rfl
@[simp] theorem clearCounters_reports (s : State) : (clearCounters s).reports = s.reports := rfl
@[simp] theorem clearCounters_counters (s : State) : (clearCounters s).counters = .reset := rfl

/-! ### takeExpiry -/

@[simp] theorem takeExpiry_pending (s : State) :
    (takeExpiry s).pending = s.pending := rfl
@[simp] theorem takeExpiry_power (s : State) : (takeExpiry s).power = s.power := rfl
@[simp] theorem takeExpiry_cause (s : State) : (takeExpiry s).cause = s.cause := rfl
@[simp] theorem takeExpiry_rst (s : State) : (takeExpiry s).rst = s.rst := rfl
@[simp] theorem takeExpiry_rate (s : State) : (takeExpiry s).rate = s.rate := rfl
@[simp] theorem takeExpiry_clock (s : State) : (takeExpiry s).clock = s.clock := rfl
@[simp] theorem takeExpiry_rooms (s : State) : (takeExpiry s).rooms = s.rooms := rfl
@[simp] theorem takeExpiry_kitchens (s : State) :
    (takeExpiry s).kitchens = s.kitchens := rfl
@[simp] theorem takeExpiry_distances (s : State) :
    (takeExpiry s).distances = s.distances := rfl
@[simp] theorem takeExpiry_menu (s : State) : (takeExpiry s).menu = s.menu := rfl
@[simp] theorem takeExpiry_policy (s : State) : (takeExpiry s).policy = s.policy := rfl
@[simp] theorem takeExpiry_store (s : State) : (takeExpiry s).store = s.store := rfl
@[simp] theorem takeExpiry_engine (s : State) : (takeExpiry s).engine = s.engine := rfl
@[simp] theorem takeExpiry_scanner (s : State) :
    (takeExpiry s).scanner = s.scanner := rfl
@[simp] theorem takeExpiry_planner (s : State) :
    (takeExpiry s).planner = s.planner := rfl
@[simp] theorem takeExpiry_lines (s : State) : (takeExpiry s).lines = s.lines := rfl
@[simp] theorem takeExpiry_link (s : State) : (takeExpiry s).link = s.link := rfl
@[simp] theorem takeExpiry_superv (s : State) :
    (takeExpiry s).superv = { s.superv with due := s.superv.due - 1 } := rfl
@[simp] theorem takeExpiry_reports (s : State) :
    (takeExpiry s).reports = s.reports := rfl
@[simp] theorem takeExpiry_counters (s : State) :
    (takeExpiry s).counters = s.counters := rfl

/-! ### Derived operations: the fields each leaves as they were -/

@[simp] theorem postEvent_frame (r : EventRecord) (s : State) :
    (postEvent r s).pending = s.pending ∧ (postEvent r s).power = s.power ∧
    (postEvent r s).cause = s.cause ∧ (postEvent r s).rst = s.rst ∧
    (postEvent r s).rate = s.rate ∧ (postEvent r s).clock = s.clock ∧
    (postEvent r s).rooms = s.rooms ∧ (postEvent r s).kitchens = s.kitchens ∧
    (postEvent r s).distances = s.distances ∧ (postEvent r s).menu = s.menu ∧
    (postEvent r s).policy = s.policy ∧ (postEvent r s).store = s.store ∧
    (postEvent r s).engine = s.engine ∧ (postEvent r s).scanner = s.scanner ∧
    (postEvent r s).planner = s.planner ∧ (postEvent r s).lines = s.lines ∧
    (postEvent r s).link = s.link ∧ (postEvent r s).superv = s.superv := by
  unfold postEvent; split <;> [split; skip] <;> simp

@[simp] theorem postException_frame (k : ExcKind) (now : Option CTime) (s : State) :
    (postException k now s).pending = s.pending ∧ (postException k now s).power = s.power ∧
    (postException k now s).cause = s.cause ∧ (postException k now s).rst = s.rst ∧
    (postException k now s).rate = s.rate ∧ (postException k now s).clock = s.clock ∧
    (postException k now s).rooms = s.rooms ∧ (postException k now s).kitchens = s.kitchens ∧
    (postException k now s).distances = s.distances ∧ (postException k now s).menu = s.menu ∧
    (postException k now s).policy = s.policy ∧ (postException k now s).store = s.store ∧
    (postException k now s).engine = s.engine ∧ (postException k now s).scanner = s.scanner ∧
    (postException k now s).planner = s.planner ∧ (postException k now s).lines = s.lines ∧
    (postException k now s).link = s.link ∧ (postException k now s).superv = s.superv := by
  unfold postException; split <;> simp

@[simp] theorem finish_frame (r : Result) (b : List Field) (s : State) :
    (finish r b s).pending = s.pending ∧ (finish r b s).power = s.power ∧
    (finish r b s).cause = s.cause ∧ (finish r b s).rst = s.rst ∧
    (finish r b s).rate = s.rate ∧ (finish r b s).clock = s.clock ∧
    (finish r b s).rooms = s.rooms ∧ (finish r b s).kitchens = s.kitchens ∧
    (finish r b s).distances = s.distances ∧ (finish r b s).menu = s.menu ∧
    (finish r b s).policy = s.policy ∧ (finish r b s).store = s.store ∧
    (finish r b s).engine = s.engine ∧ (finish r b s).scanner = s.scanner ∧
    (finish r b s).planner = s.planner ∧ (finish r b s).lines = s.lines ∧
    (finish r b s).superv = s.superv ∧ (finish r b s).reports = s.reports ∧
    (finish r b s).counters = s.counters := by
  unfold finish finishThen; split <;> simp

@[simp] theorem requestDisplay_frame (r : Nat) (s : State) :
    (requestDisplay r s).pending = s.pending ∧ (requestDisplay r s).power = s.power ∧
    (requestDisplay r s).cause = s.cause ∧ (requestDisplay r s).rst = s.rst ∧
    (requestDisplay r s).rate = s.rate ∧ (requestDisplay r s).clock = s.clock ∧
    (requestDisplay r s).rooms = s.rooms ∧ (requestDisplay r s).kitchens = s.kitchens ∧
    (requestDisplay r s).distances = s.distances ∧ (requestDisplay r s).menu = s.menu ∧
    (requestDisplay r s).policy = s.policy ∧ (requestDisplay r s).store = s.store ∧
    (requestDisplay r s).engine = s.engine ∧ (requestDisplay r s).scanner = s.scanner ∧
    (requestDisplay r s).planner = s.planner ∧ (requestDisplay r s).link = s.link ∧
    (requestDisplay r s).superv = s.superv ∧ (requestDisplay r s).reports = s.reports ∧
    (requestDisplay r s).counters = s.counters := by
  unfold requestDisplay; split <;> simp

@[simp] theorem evalDisplay_frame (r : Nat) (s : State) :
    (evalDisplay r s).pending = s.pending ∧ (evalDisplay r s).power = s.power ∧
    (evalDisplay r s).cause = s.cause ∧ (evalDisplay r s).rst = s.rst ∧
    (evalDisplay r s).rate = s.rate ∧ (evalDisplay r s).clock = s.clock ∧
    (evalDisplay r s).rooms = s.rooms ∧ (evalDisplay r s).kitchens = s.kitchens ∧
    (evalDisplay r s).distances = s.distances ∧ (evalDisplay r s).menu = s.menu ∧
    (evalDisplay r s).policy = s.policy ∧ (evalDisplay r s).store = s.store ∧
    (evalDisplay r s).scanner = s.scanner ∧ (evalDisplay r s).planner = s.planner ∧
    (evalDisplay r s).link = s.link ∧ (evalDisplay r s).superv = s.superv ∧
    (evalDisplay r s).reports = s.reports ∧ (evalDisplay r s).counters = s.counters := by
  unfold evalDisplay; split <;> simp

@[simp] theorem openEpisode_frame (r : Nat) (c : Option (Fin 4 × Nat)) (s : State) :
    (openEpisode r c s).pending = s.pending ∧ (openEpisode r c s).power = s.power ∧
    (openEpisode r c s).cause = s.cause ∧ (openEpisode r c s).rst = s.rst ∧
    (openEpisode r c s).rate = s.rate ∧ (openEpisode r c s).clock = s.clock ∧
    (openEpisode r c s).rooms = s.rooms ∧ (openEpisode r c s).kitchens = s.kitchens ∧
    (openEpisode r c s).distances = s.distances ∧ (openEpisode r c s).menu = s.menu ∧
    (openEpisode r c s).policy = s.policy ∧ (openEpisode r c s).engine = s.engine ∧
    (openEpisode r c s).scanner = s.scanner ∧ (openEpisode r c s).planner = s.planner ∧
    (openEpisode r c s).lines = s.lines ∧ (openEpisode r c s).link = s.link ∧
    (openEpisode r c s).superv = s.superv := by
  unfold openEpisode; split <;> simp

@[simp] theorem handOver_frame (h : Handle) (b : Booking) (o : Terminal) (s : State) :
    (handOver h b o s).pending = s.pending ∧ (handOver h b o s).power = s.power ∧
    (handOver h b o s).cause = s.cause ∧ (handOver h b o s).rst = s.rst ∧
    (handOver h b o s).rate = s.rate ∧ (handOver h b o s).clock = s.clock ∧
    (handOver h b o s).rooms = s.rooms ∧ (handOver h b o s).kitchens = s.kitchens ∧
    (handOver h b o s).distances = s.distances ∧ (handOver h b o s).menu = s.menu ∧
    (handOver h b o s).policy = s.policy ∧ (handOver h b o s).store = s.store ∧
    (handOver h b o s).engine = s.engine ∧ (handOver h b o s).scanner = s.scanner ∧
    (handOver h b o s).lines = s.lines ∧ (handOver h b o s).link = s.link ∧
    (handOver h b o s).superv = s.superv ∧ (handOver h b o s).reports = s.reports ∧
    (handOver h b o s).counters = s.counters := by
  unfold handOver; split <;> simp

@[simp] theorem linkNotice_frame (i : Nat) (o : Order) (s : State) :
    (linkNotice i o s).pending = s.pending ∧ (linkNotice i o s).power = s.power ∧
    (linkNotice i o s).cause = s.cause ∧ (linkNotice i o s).rst = s.rst ∧
    (linkNotice i o s).rate = s.rate ∧ (linkNotice i o s).clock = s.clock ∧
    (linkNotice i o s).rooms = s.rooms ∧ (linkNotice i o s).kitchens = s.kitchens ∧
    (linkNotice i o s).distances = s.distances ∧ (linkNotice i o s).menu = s.menu ∧
    (linkNotice i o s).policy = s.policy ∧ (linkNotice i o s).store = s.store ∧
    (linkNotice i o s).scanner = s.scanner ∧ (linkNotice i o s).planner = s.planner ∧
    (linkNotice i o s).lines = s.lines ∧ (linkNotice i o s).link = s.link ∧
    (linkNotice i o s).superv = s.superv ∧ (linkNotice i o s).reports = s.reports ∧
    (linkNotice i o s).counters = s.counters := by
  unfold linkNotice; split <;> simp

@[simp] theorem displayNotice_frame (i : Nat) (o : Order) (s : State) :
    (displayNotice i o s).pending = s.pending ∧ (displayNotice i o s).power = s.power ∧
    (displayNotice i o s).cause = s.cause ∧ (displayNotice i o s).rst = s.rst ∧
    (displayNotice i o s).rate = s.rate ∧ (displayNotice i o s).clock = s.clock ∧
    (displayNotice i o s).rooms = s.rooms ∧ (displayNotice i o s).kitchens = s.kitchens ∧
    (displayNotice i o s).distances = s.distances ∧ (displayNotice i o s).menu = s.menu ∧
    (displayNotice i o s).policy = s.policy ∧ (displayNotice i o s).store = s.store ∧
    (displayNotice i o s).scanner = s.scanner ∧ (displayNotice i o s).planner = s.planner ∧
    (displayNotice i o s).lines = s.lines ∧ (displayNotice i o s).link = s.link ∧
    (displayNotice i o s).superv = s.superv ∧ (displayNotice i o s).reports = s.reports ∧
    (displayNotice i o s).counters = s.counters := by
  unfold displayNotice; split <;> simp

@[simp] theorem countRefusal_frame (r : Result) (s : State) :
    (countRefusal r s).pending = s.pending ∧ (countRefusal r s).power = s.power ∧
    (countRefusal r s).cause = s.cause ∧ (countRefusal r s).rst = s.rst ∧
    (countRefusal r s).rate = s.rate ∧ (countRefusal r s).clock = s.clock ∧
    (countRefusal r s).rooms = s.rooms ∧ (countRefusal r s).kitchens = s.kitchens ∧
    (countRefusal r s).distances = s.distances ∧ (countRefusal r s).menu = s.menu ∧
    (countRefusal r s).policy = s.policy ∧ (countRefusal r s).store = s.store ∧
    (countRefusal r s).engine = s.engine ∧ (countRefusal r s).scanner = s.scanner ∧
    (countRefusal r s).planner = s.planner ∧ (countRefusal r s).lines = s.lines ∧
    (countRefusal r s).link = s.link ∧ (countRefusal r s).superv = s.superv ∧
    (countRefusal r s).reports = s.reports := by
  unfold countRefusal; split <;> simp

@[simp] theorem refuseHost_frame (r : Result) (b : List Field) (s : State) :
    (refuseHost r b s).pending = s.pending ∧ (refuseHost r b s).power = s.power ∧
    (refuseHost r b s).cause = s.cause ∧ (refuseHost r b s).rst = s.rst ∧
    (refuseHost r b s).rate = s.rate ∧ (refuseHost r b s).clock = s.clock ∧
    (refuseHost r b s).rooms = s.rooms ∧ (refuseHost r b s).kitchens = s.kitchens ∧
    (refuseHost r b s).distances = s.distances ∧ (refuseHost r b s).menu = s.menu ∧
    (refuseHost r b s).policy = s.policy ∧ (refuseHost r b s).store = s.store ∧
    (refuseHost r b s).engine = s.engine ∧ (refuseHost r b s).scanner = s.scanner ∧
    (refuseHost r b s).planner = s.planner ∧ (refuseHost r b s).lines = s.lines ∧
    (refuseHost r b s).superv = s.superv ∧ (refuseHost r b s).reports = s.reports := by
  simp [refuseHost]

end Sys2Proof.Machine
end

