-- ==== Sys2Proof/Laws/Tables.lean ====
section
/-! SUPPORT. The laws of the part's tables: a read after a write, and the canonical form kept by every
table operation. -/

namespace Sys2Proof.Machine

variable {α : Type}

/-! ### The four-line record -/

@[simp] theorem Quad.get_set (q : Quad α) (l m : Fin 4) (v : α) :
    (q.set l v).get m = if m = l then v else q.get m := by
  fin_cases l <;> fin_cases m <;> rfl

@[simp] theorem Quad.get_map {β : Type} (f : α → β) (q : Quad α) (l : Fin 4) :
    (q.map f).get l = f (q.get l) := by fin_cases l <;> rfl

@[simp] theorem Quad.set_get (q : Quad α) (l : Fin 4) : q.set l (q.get l) = q := by
  fin_cases l <;> rfl

@[simp] theorem Quad.set_set (q : Quad α) (l : Fin 4) (v w : α) : (q.set l v).set l w = q.set l w := by
  fin_cases l <;> rfl

theorem Quad.ext_get {p q : Quad α} (h : ∀ l, p.get l = q.get l) : p = q := by
  obtain ⟨a, b, c, d⟩ := p
  obtain ⟨a', b', c', d'⟩ := q
  have h0 := h 0; have h1 := h 1; have h2 := h 2; have h3 := h 3
  simp only [Quad.get] at h0 h1 h2 h3
  simp [h0, h1, h2, h3]

/-! ### Reads -/

@[simp] theorem Table.get_empty (d : α) (k : Nat) : (Table.empty : Table α).get d k = d := rfl

theorem Table.lookup_cons (d : α) (e : Nat × α) (es : List (Nat × α)) (k : Nat) :
    Table.lookup d (e :: es) k = if e.1 = k then e.2 else Table.lookup d es k := rfl

/-- A key below every listed one reads as the unlisted value. -/
theorem Table.lookup_of_lt (d : α) :
    ∀ (es : List (Nat × α)) (k : Nat), (∀ e ∈ es, k < e.1) → Table.lookup d es k = d
  | [], _, _ => rfl
  | e :: es, k, h => by
    have h1 : e.1 ≠ k := by have := h e (by simp); omega
    rw [Table.lookup_cons, if_neg h1]
    exact Table.lookup_of_lt d es k (fun e' he => h e' (by simp [he]))

/-- In a rising list, the tail lies above the head. -/
theorem Table.head_lt {e : Nat × α} {es : List (Nat × α)}
    (h : ((e :: es).map Prod.fst).Pairwise (· < ·)) : ∀ e' ∈ es, e.1 < e'.1 := by
  simp only [List.map_cons, List.pairwise_cons, List.mem_map] at h
  exact fun e' he => h.1 _ ⟨e', he, rfl⟩

theorem Table.tail_rising {e : Nat × α} {es : List (Nat × α)}
    (h : ((e :: es).map Prod.fst).Pairwise (· < ·)) : (es.map Prod.fst).Pairwise (· < ·) := by
  simp only [List.map_cons, List.pairwise_cons] at h
  exact h.2

/-- A listed key reads its entry. -/
theorem Table.lookup_of_mem (d : α) : ∀ (es : List (Nat × α)) (e : Nat × α),
    (es.map Prod.fst).Pairwise (· < ·) → e ∈ es → Table.lookup d es e.1 = e.2
  | [], _, _, he => by simp at he
  | a :: es, e, h, he => by
    rcases List.mem_cons.1 he with rfl | he
    · simp [Table.lookup_cons]
    · have h1 : a.1 ≠ e.1 := by have := Table.head_lt h e he; omega
      rw [Table.lookup_cons, if_neg h1]
      exact Table.lookup_of_mem d es e (Table.tail_rising h) he

variable [DecidableEq α]

/-- One insertion: the key written reads the value, every other key as before. -/
theorem Table.lookup_insert (d : α) : ∀ (es : List (Nat × α)) (k k' : Nat) (v : α),
    (es.map Prod.fst).Pairwise (· < ·) →
    Table.lookup d (Table.insert d es k v) k' = if k' = k then v else Table.lookup d es k'
  | [], k, k', v, _ => by
    unfold Table.insert
    split <;> simp [Table.lookup] <;> grind
  | e :: es, k, k', v, h => by
    have hl := Table.head_lt h
    have ih := Table.lookup_insert d es k k' v (Table.tail_rising h)
    have hd := Table.lookup_of_lt d es k
    obtain ⟨e1, e2⟩ := e
    unfold Table.insert
    simp only at hl
    split
    · rename_i hk
      have hz : Table.lookup d ((e1, e2) :: es) k = d :=
        Table.lookup_of_lt d _ k (by
          intro e' he
          rcases List.mem_cons.1 he with rfl | he
          · exact hk
          · have := hl e' he; omega)
      split
      · rename_i hv
        by_cases hkk : k' = k
        · subst hkk; simp [hz, hv]
        · simp [hkk]
      · simp [Table.lookup_cons]; grind
    · split
      · rename_i hk hkk
        subst hkk
        have hz := hd (fun e' he => hl e' he)
        split
        · rename_i hv
          by_cases hk2 : k' = k
          · subst hk2; simp [hz, hv]
          · simp [hk2, Table.lookup_cons, Ne.symm hk2]
        · simp [Table.lookup_cons]; grind
      · simp only [Table.lookup_cons, ih]
        grind

/-- Insertion lists no key but those listed and the one written. -/
theorem Table.mem_insert (d : α) : ∀ (es : List (Nat × α)) (k : Nat) (v : α) (e : Nat × α),
    e ∈ Table.insert d es k v → (e = (k, v) ∧ v ≠ d) ∨ e ∈ es
  | [], k, v, e, h => by
    unfold Table.insert at h; split at h <;> simp_all
  | a :: es, k, v, e, h => by
    have ih := Table.mem_insert d es k v e
    unfold Table.insert at h
    grind

/-- Insertion keeps the keys rising. -/
theorem Table.insert_rising (d : α) : ∀ (es : List (Nat × α)) (k : Nat) (v : α),
    (es.map Prod.fst).Pairwise (· < ·) → ((Table.insert d es k v).map Prod.fst).Pairwise (· < ·)
  | [], k, v, _ => by unfold Table.insert; split <;> simp
  | a :: es, k, v, h => by
    have ih := Table.insert_rising d es k v (Table.tail_rising h)
    have hl := Table.head_lt h
    have hm := Table.mem_insert d es k v
    unfold Table.insert
    split
    · split
      · exact h
      · refine List.pairwise_cons.2 ⟨fun x hx => ?_, h⟩
        obtain ⟨e', he, rfl⟩ := List.mem_map.1 hx
        rcases List.mem_cons.1 he with rfl | he
        · assumption
        · have := hl e' he; omega
    · split
      · split
        · exact Table.tail_rising h
        · rename_i hk _
          subst hk
          exact List.pairwise_cons.2
            ⟨fun x hx => by obtain ⟨e', he, rfl⟩ := List.mem_map.1 hx; exact hl e' he,
              Table.tail_rising h⟩
      · refine List.pairwise_cons.2 ⟨fun x hx => ?_, ih⟩
        obtain ⟨e', he, rfl⟩ := List.mem_map.1 hx
        rcases hm e' he with ⟨rfl, _⟩ | he
        · simp only; omega
        · exact hl e' he

/-! ### The canonical form -/

@[simp] theorem Table.empty_wf (d : α) : (Table.empty : Table α).wf d := by
  simp [Table.wf, Table.empty]

/-- A read after a write. -/
theorem Table.get_set {t : Table α} {d : α} (h : t.wf d) (k k' : Nat) (v : α) :
    (t.set d k v).get d k' = if k' = k then v else t.get d k' :=
  Table.lookup_insert d t.entries k k' v h.1

theorem Table.set_wf {t : Table α} {d : α} (h : t.wf d) (k : Nat) (v : α) : (t.set d k v).wf d := by
  refine ⟨Table.insert_rising d _ k v h.1, fun e he => ?_⟩
  rcases Table.mem_insert d t.entries k v e he with ⟨rfl, hv⟩ | he
  · exact hv
  · exact h.2 e he

theorem Table.modify_wf {t : Table α} {d : α} (h : t.wf d) (k : Nat) (f : α → α) :
    (t.modify d k f).wf d := Table.set_wf h _ _

theorem Table.get_modify {t : Table α} {d : α} (h : t.wf d) (k k' : Nat) (f : α → α) :
    (t.modify d k f).get d k' = if k' = k then f (t.get d k) else t.get d k' :=
  Table.get_set h _ _ _

theorem Table.clear_wf {t : Table α} {d : α} (h : t.wf d) (p : Nat → Bool) : (t.clear p).wf d :=
  ⟨h.1.sublist ((List.filter_sublist).map Prod.fst), fun e he => h.2 e (List.mem_filter.1 he).1⟩

end Sys2Proof.Machine
end

