-- ==== Sys2Proof/Laws/Ops.lean ====
section
/-! SUPPORT. What each shared operation can do, once: the lemmas later proofs cite in place of unfolding. -/

namespace Sys2Proof.Machine

/-! ### Taking work -/

/-- Work is taken from the engine's intake exactly when the part runs and it stands at the head. -/
theorem takeEngine_eq_some {w : EngineWork} {s t : State} :
    takeEngine w s = some t ↔ s.power = .running ∧ ∃ rest, s.engine.intake = w :: rest ∧
      t = { s with engine := { s.engine with intake := rest } } := by
  unfold takeEngine
  split
  · split
    · split <;> simp_all [eq_comm]
    · simp_all
  · simp_all

/-- Work is taken from the planner's intake exactly when no computation is in flight as well. -/
theorem takePlanner_eq_some {w : PlannerWork} {s t : State} :
    takePlanner w s = some t ↔ s.power = .running ∧ s.planner.job = none ∧
      ∃ rest, s.planner.intake = w :: rest ∧
      t = { s with planner := { s.planner with intake := rest } } := by
  unfold takePlanner
  split
  · split
    · split <;> simp_all [eq_comm]
    · simp_all
  · simp_all

/-- Work is taken from a line's intake exactly when the part runs and it stands at the head. -/
theorem takeLine_eq_some {l : Fin 4} {w : LineWork} {s t : State} :
    takeLine l w s = some t ↔ s.power = .running ∧ ∃ rest, (s.lines.get l).intake = w :: rest ∧
      t = updLine l (fun ln => { ln with intake := rest }) s := by
  unfold takeLine
  split
  · rename_i hp
    split
    · rename_i w' rest hi
      split
      · rename_i hw
        subst hw
        simp [hp, hi, eq_comm]
      · rename_i hw
        simp [hi, hw]
    · rename_i hi
      simp [hi]
  · rename_i hp
    simp [hp]

/-- A step that takes work always answers a next state. -/
theorem whenTaken_next (o : Option State) (run : State → State) (s : State) :
    whenTaken o run s = .next ((o.map run).getD s) := by cases o <;> rfl

@[simp] theorem whenTaken_some (t : State) (run : State → State) (s : State) :
    whenTaken (some t) run s = .next (run t) := rfl

@[simp] theorem whenTaken_none (run : State → State) (s : State) : whenTaken none run s = .next s := rfl

/-- A host request taken runs its work. -/
theorem hostStep_of_take {r : HostRequest} {run : State → State} {s u : State}
    (h : takeHost r s = some u) : hostStep r run s = .next (run u) := by
  simp [hostStep, h]

/-- Engine work at the head of the intake runs. -/
theorem whenTaken_engine {w : EngineWork} {rest : List EngineWork} {run : State → State} {s : State}
    (hp : s.power = .running) (h : s.engine.intake = w :: rest) :
    whenTaken (takeEngine w s) run s =
      .next (run { s with engine := { s.engine with intake := rest } }) := by
  rw [takeEngine_eq_some.2 ⟨hp, rest, h, rfl⟩]; rfl

/-- Planner work at the head of the intake runs, with no computation in flight. -/
theorem whenTaken_planner {w : PlannerWork} {rest : List PlannerWork} {run : State → State} {s : State}
    (hp : s.power = .running) (hj : s.planner.job = none) (h : s.planner.intake = w :: rest) :
    whenTaken (takePlanner w s) run s =
      .next (run { s with planner := { s.planner with intake := rest } }) := by
  rw [takePlanner_eq_some.2 ⟨hp, hj, rest, h, rfl⟩]; rfl

/-- A controller's work at the head of its intake runs. -/
theorem whenTaken_line {l : Fin 4} {w : LineWork} {rest : List LineWork} {run : State → State}
    {s : State} (hp : s.power = .running) (h : (s.lines.get l).intake = w :: rest) :
    whenTaken (takeLine l w s) run s = .next (run (updLine l (fun ln => { ln with intake := rest }) s)) := by
  rw [takeLine_eq_some.2 ⟨hp, rest, h, rfl⟩]; rfl

/-! ### Replies -/

/-- With the slot empty no reply is built. -/
theorem finishThen_none {s : State} (h : s.link.slot = none) (r : Result) (b : List Field)
    (f : State → State) : finishThen r b f s = s := by simp [finishThen, h]

/-- The reply to the request in service, and the BUSY replies behind it: the slot and the owed-BUSY list
are empty after. -/
theorem finish_link {s : State} {sl : Slot} (h : s.link.slot = some sl) (r : Result) (b : List Field) :
    (finish r b s).link = { s.link with
      slot := none
      owed := []
      tx := s.link.tx ++ ⟨sl.kind, sl.tag, s.summary, r, b⟩ ::
        s.link.owed.map (fun e => ⟨e.1, e.2, s.summary, .busy, []⟩) } := by
  unfold finish finishThen
  rw [h]
  have e1 : (clearSlot s).summary = s.summary := rfl
  have e2 : ∀ k g, (buildReply k g r b (clearSlot s)).summary = s.summary := fun _ _ => rfl
  simp [e1, e2]

/-! ### Reports -/

/-- What a post to the Event Queue can do: nothing, one record more, or a dropped record. -/
theorem postEvent_cases (r : EventRecord) (s : State) :
    postEvent r s = s ∨
    (s.reports.events.length < Config.eventQueue ∧
      postEvent r s = { s with reports := { s.reports with events := s.reports.events ++ [r] } }) ∨
    (¬ s.reports.events.length < Config.eventQueue ∧ postEvent r s = dropReport s) := by
  unfold postEvent
  split
  · split <;> simp_all
  · simp

/-- What a post to the Exception Queue can do: one record more, or a dropped record. -/
theorem postException_cases (k : ExcKind) (now : Option CTime) (s : State) :
    (s.reports.exceptions.length < Config.exceptionQueue ∧ postException k now s =
      { s with reports := { s.reports with exceptions := s.reports.exceptions ++ [⟨k, now⟩] } }) ∨
    (¬ s.reports.exceptions.length < Config.exceptionQueue ∧ postException k now s = dropReport s) := by
  unfold postException
  split <;> simp_all

/-- A counter of 16 bits stays one. -/
theorem saturate_le {n : Nat} (h : n ≤ 65535) : saturate n ≤ 65535 := by
  unfold saturate; split <;> omega

/-! ### Lines -/

/-- A change of line `l` leaves every other line as it was. -/
@[simp] theorem updLine_get (l m : Fin 4) (f : Line → Line) (s : State) :
    (updLine l f s).lines.get m = if m = l then f (s.lines.get l) else s.lines.get m := by
  simp [updLine]

/-- What a display request can do: one line gains work, or nothing. -/
theorem requestDisplay_cases (r : Nat) (s : State) :
    requestDisplay r s = s ∨ ∃ b, bindingOf s r = some b ∧
      requestDisplay r s = sendLine b.line (.display r) s := by
  unfold requestDisplay
  split <;> simp_all

/-! ### Bookings -/

/-- A read of a booking record after a write of one. -/
theorem recordAt_setBooking {s : State} (h : s.store.records.wf ⟨0, none⟩) (i j : Nat) (b : Booking) :
    recordAt (setBooking i b s) j = if j = i then ⟨(recordAt s i).gen, some b⟩ else recordAt s j := by
  simp [recordAt, setBooking, Table.get_set h]

/-- A read of a booking record after one is freed. -/
theorem recordAt_releaseRecord {s : State} (h : s.store.records.wf ⟨0, none⟩) (i j : Nat) :
    recordAt (releaseRecord i s) j =
      if j = i then ⟨((recordAt s i).gen + 1) % 64, none⟩ else recordAt s j := by
  simp [recordAt, releaseRecord, Table.get_set h]

/-- What an allocation answers: none on an empty free list, else the head record. -/
theorem allocate_index {b : Booking} {s t : State} {i : Nat} (h : allocate b s = some (i, t)) :
    ∃ rest, s.store.free = i :: rest := by
  unfold allocate at h
  split at h
  · simp at h
  · rename_i j rest hf
    simp only [Option.some.injEq, Prod.mk.injEq] at h
    exact ⟨rest, by rw [hf, h.1]⟩

/-! ### Orders -/

/-- A read of an order record after a write of one. -/
theorem orderRecord_setOrder {s : State} (h : s.planner.records.wf ⟨0, none⟩) (i j : Nat) (o : Order) :
    orderRecord (setOrder i o s) j =
      if j = i then ⟨(orderRecord s i).gen, some o⟩ else orderRecord s j := by
  simp [orderRecord, setOrder, Table.get_set h]

/-- A read of an order record after one is freed. -/
theorem orderRecord_releaseOrder {s : State} (h : s.planner.records.wf ⟨0, none⟩) (i j : Nat) :
    orderRecord (releaseOrder i s) j =
      if j = i then ⟨((orderRecord s i).gen + 1) % 64, none⟩ else orderRecord s j := by
  simp [orderRecord, releaseOrder, Table.get_set h]

/-! ### Timers, an End at a booking that ends now, and the indicator of an order -/

/-- A tick of the step timer leaves the position. -/
@[simp] theorem Scanner.tick_position (step : Nat) (sc : Scanner) : (sc.tick step).position = sc.position := by
  unfold Scanner.tick
  split <;> [rfl; (split <;> rfl)]

/-- A step timer that is stopped stays stopped, and owes no step. -/
theorem Scanner.tick_stopped {sc : Scanner} (h : sc.timer = none) (step : Nat) : sc.tick step = sc := by
  unfold Scanner.tick
  rw [h]

/-- A tick of the supervision timer leaves the counter, the link state and the provisional count. -/
theorem Supervision.tick_frame (seconds : Nat) (v : Supervision) :
    v.tick seconds = { v with timer := (v.tick seconds).timer, due := (v.tick seconds).due } := by
  unfold Supervision.tick
  split <;> rfl

/-- An End at a booking whose end already stands at now + 1 changes nothing (R46). -/
theorem endAndShow_ended {b : Booking} {now : CTime} (h : b.fin = shiftTime now 1) (room i : Nat) (s : State) :
    endAndShow room i b now s = s := if_pos h

/-- An End that moves the end is followed by the room's display evaluation (R46, R57). -/
theorem endAndShow_moves {b : Booking} {now : CTime} (h : b.fin ≠ shiftTime now 1) (room i : Nat) (s : State) :
    endAndShow room i b now s = evalDisplay room (endNow i b now s) := if_neg h

/-- An order whose booking link is absent gives no indicator (R101). -/
theorem orderIndicator_unlinked {o : Order} (h : o.booking = none) : orderIndicator o = .none := by
  simp [orderIndicator, h]

/-- An accepted LoadRoom that changes nothing a panel shows leaves the lines and the kept facts (R13, R57). -/
theorem displayLoad_same {old new : Option RoomEntry}
    (hb : old.bind RoomEntry.binding = new.bind RoomEntry.binding)
    (hs : old.map RoomEntry.inService = new.map RoomEntry.inService)
    (hl : old.map RoomEntry.label = new.map RoomEntry.label)
    (ht : old.map RoomEntry.turnaround = new.map RoomEntry.turnaround) (room : Nat) (s : State) :
    displayLoad room old new s = s := by
  simp [displayLoad, hb, hs, hl, ht]

/-- What a display holds does not depend on the panel lines (R163). -/
theorem displayOf_lines (s : State) (x : Quad Line) (room : Option Nat) (g : Nat) :
    displayOf { s with lines := x } room g = displayOf s room g := rfl

/-- What a controller places in its downlinks depends on its own line and on nothing the lines of the state hold
(R163, R165). -/
theorem fillDownlinks_lines (s : State) (x : Quad Line) (quiet : Bool) (ln : Line) :
    fillDownlinks { s with lines := x } quiet ln = fillDownlinks s quiet ln := by
  have : placeDisplay { s with lines := x } quiet = placeDisplay s quiet := by
    funext f p
    simp only [placeDisplay, displayOf_lines]
  unfold fillDownlinks serveQueue
  rw [this]

/-- A forward trim takes every step of the clock that the moved counting time calls for, and marks the last boundary when
it has produced one (R7, log 41). -/
theorem trimForward_eq (k : Counting) (s : State) : trimForward k s =
    if entriesDue (resumeDue (setCount k s)).clock = 0 then settleClock (setCount k s)
    else markTrim (settleClock (setCount k s)) := by
  by_cases h : entriesDue (resumeDue (setCount k s)).clock = 0
  · simp [trimForward, settleClock, enterDue, h]
  · simp [trimForward, settleClock, h]

/-- A frame is taken exactly when the part runs, no reset waits, no boundary work of an answered forward trim waits, and
it stands at the head of those received (R7, R170, R181). -/
theorem nextFrame_eq_some {f : Frame} {s t : State} : nextFrame f s = some t ↔
    s.power = .running ∧ s.link.resetWait = none ∧ trimWaits s = false ∧ ∃ rest, s.link.frames = f :: rest ∧
      t = { s with link := { s.link with frames := rest, trimmed := none } } := by
  unfold nextFrame
  split
  · rename_i h
    split
    · rename_i f' rest hf
      split
      · rename_i e
        subst e
        simp [h, hf, eq_comm]
      · rename_i e
        simp [hf, e]
    · rename_i hf
      simp [hf]
  · rename_i h
    simp only [reduceCtorEq, false_iff]
    rintro ⟨h1, h2, h3, _⟩
    exact h ⟨h1, h2, h3⟩

/-- Boundary work of a forward trim waits exactly when its last boundary stands in some owner's intake (R7). -/
theorem trimWaits_eq_true {s : State} : trimWaits s = true ↔ ∃ b, s.link.trimmed = some b ∧
    (.boundary b ∈ s.engine.intake ∨ .boundary b ∈ s.planner.intake ∨
      ∃ l : Fin 4, .boundary b ∈ (s.lines.get l).intake) := by
  simp [trimWaits, boundaryWaits, Option.any_eq_true]

end Sys2Proof.Machine
end

