-- ==== Sys2Proof/Laws/Answers.lean ====
section
/-! SUPPORT. Requests taken and answered: what the predicates of Safety say of the shared operations. -/

namespace Sys2Proof.Machine

/-! ### Taking a host request -/

/-- A request just taken leaves the slot full, with the request in it. -/
theorem takeHost_slot {r q : HostRequest} {k g : Nat} {st : Stage} {s u : State}
    (h : takeHost r s = some u) (hs : s.link.slot = some ⟨k, g, q, st⟩) :
    u.link.slot = some ⟨k, g, q, .taken⟩ := by
  unfold takeHost takeFromOwner at h
  split at h
  · split at h
    · simp only [Option.map_some, Option.some.injEq] at h
      subst h; simp [hs]
    · simp at h
  · obtain ⟨v, hv, rfl⟩ := Option.map_eq_some_iff.1 h
    obtain ⟨_, rest, _, rfl⟩ := takeEngine_eq_some.1 hv
    simp [hs]
  · obtain ⟨v, hv, rfl⟩ := Option.map_eq_some_iff.1 h
    obtain ⟨_, _, rest, _, rfl⟩ := takePlanner_eq_some.1 hv
    simp [hs]
  · obtain ⟨v, hv, rfl⟩ := Option.map_eq_some_iff.1 h
    obtain ⟨_, rest, _, rfl⟩ := takeLine_eq_some.1 hv
    simp [hs]

/-- After `Taken`, the slot is full. -/
theorem Taken.slot {r : HostRequest} {s u : State} (h : Taken r s u) :
    ∃ sl, u.link.slot = some sl := by
  obtain ⟨⟨k, g, hs⟩, ht⟩ := h
  exact ⟨_, takeHost_slot ht hs⟩

/-- The step of a request that is taken runs its work. -/
theorem Taken.hostStep {r : HostRequest} {s u : State} (h : Taken r s u) (run : State → State) :
    hostStep r run s = .next (run u) := hostStep_of_take h.2

/-- Taking a host request touches the intakes and the slot alone: every table reads as before. -/
theorem Taken.frame {r : HostRequest} {s u : State} (h : Taken r s u) :
    Apart s u ∧ u.store = s.store ∧ u.superv = s.superv ∧ u.reports = s.reports ∧
      u.counters = s.counters := by
  have ht := h.2
  unfold takeHost takeFromOwner at ht
  split at ht
  · split at ht
    · simp only [Option.map_some, Option.some.injEq] at ht
      subst ht; simp [Apart]
    · simp at ht
  · obtain ⟨v, hv, rfl⟩ := Option.map_eq_some_iff.1 ht
    obtain ⟨_, rest, _, rfl⟩ := takeEngine_eq_some.1 hv
    simp [Apart]
  · obtain ⟨v, hv, rfl⟩ := Option.map_eq_some_iff.1 ht
    obtain ⟨_, _, rest, _, rfl⟩ := takePlanner_eq_some.1 hv
    simp [Apart]
  · obtain ⟨v, hv, rfl⟩ := Option.map_eq_some_iff.1 ht
    obtain ⟨_, rest, _, rfl⟩ := takeLine_eq_some.1 hv
    simp [Apart]

/-! ### Answering -/

/-- The summary byte does not read the link. -/
@[simp] theorem finish_summary (r : Result) (b : List Field) (s : State) :
    (finish r b s).summary = s.summary := by
  unfold State.summary
  simp

/-- A finish over a state with the same link answers the request. -/
theorem answered_finish {u w : State} {sl : Slot} (hs : u.link.slot = some sl) (hl : w.link = u.link)
    (r : Result) (b : List Field) : Answered u (finish r b w) r b := by
  refine ⟨sl, hs, ?_⟩
  rw [finish_link (by rw [hl]; exact hs), hl, finish_summary]

/-- The state after a finish is the state before, but for the link. -/
theorem finish_eq (r : Result) (b : List Field) (s : State) :
    finish r b s = { s with link := (finish r b s).link } := by
  unfold finish finishThen
  split <;> rfl

/-- A request whose work is one finish is answered, and changes nothing but the link. -/
theorem repliesOnly_of_finish {c : Instr} {s u : State} {r : Result} {b : List Field}
    (hu : ∃ sl, u.link.slot = some sl) (h : exec c s = .next (finish r b u)) :
    RepliesOnly c s u r b := by
  obtain ⟨sl, hsl⟩ := hu
  exact ⟨_, h, finish_eq r b u, answered_finish hsl rfl r b⟩

/-- The refusal counters. -/
theorem countRefusal_eq (r : Result) (s : State) :
    countRefusal r s = { s with counters := refusedCounters s.counters r } := by
  unfold countRefusal refusedCounters
  split <;> simp_all [count, Counters.bookingRefusal, Counters.noRoom]

/-- A request whose work is one refusal by the engine is refused so. -/
theorem refusedByEngine_of_refuse {c : Instr} {s u : State} {r : Result} {b : List Field}
    (hu : ∃ sl, u.link.slot = some sl) (h : exec c s = .next (refuseHost r b u)) :
    RefusedByEngine c s u r b := by
  obtain ⟨sl, hsl⟩ := hu
  refine ⟨_, h, answered_finish hsl (by simp) r b, ?_⟩
  unfold refuseHost
  rw [finish_eq, countRefusal_eq]

end Sys2Proof.Machine
end

