-- ==== Sys2Proof/Laws/Lines.lean ====
section
/-! SUPPORT. What the deferred list, and a change of every position, can do to a line: the lemmas that tie the model's
operations to the predicates of Safety. -/

namespace Sys2Proof.Machine

/-! ### Changes of positions -/

/-- A change of one position leaves the rest of the line. -/
theorem Line.modifyAt_eq (p : Nat) (f : Position → Position) (a : Line) :
    a.modifyAt p f = { a with positions := (a.modifyAt p f).positions } := rfl

/-- A read of a position after a change of one. -/
theorem Line.at_modifyAt {a : Line} (h : a.positions.wf .reset) (p p' : Nat) (f : Position → Position) :
    (a.modifyAt p f).at p' = if p' = p then f (a.at p) else a.at p' :=
  Table.get_modify h p p' f

/-- A change of one position after another, over a list of positions without repetition. -/
theorem Line.foldl_modifyAt (f : Nat → Position → Position) : ∀ (ps : List Nat) (a : Line), ps.Nodup →
    a.positions.wf .reset → ∀ b, b = ps.foldl (fun ln p => ln.modifyAt p (f p)) a →
    b = { a with positions := b.positions } ∧ b.positions.wf .reset ∧
    ∀ p, b.at p = if p ∈ ps then f p (a.at p) else a.at p
  | [], a, _, h, b, hb => by subst hb; exact ⟨rfl, h, fun p => by simp⟩
  | q :: ps, a, hn, h, b, hb => by
    obtain ⟨hq, hn⟩ := List.nodup_cons.1 hn
    obtain ⟨h1, h2, h3⟩ := Line.foldl_modifyAt f ps (a.modifyAt q (f q)) hn (Table.modify_wf h q _) b hb
    refine ⟨by rw [h1]; rfl, h2, fun p => ?_⟩
    rw [h3 p, Line.at_modifyAt h]
    by_cases e : p = q
    · subst e; simp [hq]
    · simp [e]

/-- The 48 positions are those from 1 to 48. -/
theorem mem_positionNumbers {p : Nat} : p ∈ positionNumbers ↔ 1 ≤ p ∧ p ≤ 48 := by
  simp only [positionNumbers, Config.positions, List.mem_map, List.mem_range]
  exact ⟨by rintro ⟨i, hi, rfl⟩; omega, fun h => ⟨p - 1, by omega, by omega⟩⟩

/-- A change of every position leaves the rest of the line, and is read position by position. -/
theorem Line.modifyAll_spec (f : Nat → Position → Position) {a : Line} (h : a.positions.wf .reset) :
    a.modifyAll f = { a with positions := (a.modifyAll f).positions } ∧
    (a.modifyAll f).positions.wf .reset ∧
    ∀ p, (a.modifyAll f).at p = if 1 ≤ p ∧ p ≤ 48 then f p (a.at p) else a.at p := by
  have hn : positionNumbers.Nodup := by decide
  obtain ⟨h1, h2, h3⟩ := Line.foldl_modifyAt f positionNumbers a hn h _ rfl
  exact ⟨h1, h2, fun p => by rw [Line.modifyAll, h3 p]; simp [mem_positionNumbers]⟩

/-! ### The deferred list (R119) -/

/-- A position is entered in the queue once. -/
theorem Line.enqueue_eq (p : Nat) (a : Line) :
    a.enqueue p = { a with queue := if p ∈ a.queue then a.queue else a.queue ++ [p] } := by
  unfold Line.enqueue; split <;> rfl

/-- What a clear does to one position (R145). -/
theorem clearedPosition_eq (q : Position) : clearedPosition q = if q.health = .returned then
    { q with cause := none, health := if q.misses = 0 then .present else .suspect } else q := by
  unfold clearedPosition; split <;> [(split <;> simp_all); rfl]

/-- The first position bound to a room. -/
theorem Line.positionOf_eq_some {room p : Nat} {a : Line} : a.positionOf room = some p ↔
    (1 ≤ p ∧ p ≤ 48) ∧ (a.at p).bound = some room ∧ ∀ p', 1 ≤ p' → p' < p → (a.at p').bound ≠ some room := by
  simp only [Line.positionOf, positionNumbers, Config.positions, List.find?_map, Option.map_eq_some_iff,
    List.find?_range_eq_some, Function.comp_apply, decide_eq_true_eq, List.mem_range, Bool.not_eq_true',
    decide_eq_false_iff_not]
  constructor
  · rintro ⟨i, ⟨h1, h2, h3⟩, rfl⟩
    refine ⟨by omega, h1, fun p' hp hlt => ?_⟩
    have := h3 (p' - 1) (by omega)
    rwa [Nat.sub_add_cancel hp] at this
  · rintro ⟨⟨h1, h2⟩, h3, h4⟩
    refine ⟨p - 1, ⟨by rwa [Nat.sub_add_cancel h1], by omega, fun j hj => h4 (j + 1) (by omega) (by omega)⟩, by omega⟩

/-- No position of the 48 is bound to a room that none names. -/
theorem Line.positionOf_eq_none {room : Nat} {a : Line} : a.positionOf room = none ↔
    ∀ p, 1 ≤ p → p ≤ 48 → (a.at p).bound ≠ some room := by
  simp only [Line.positionOf, List.find?_eq_none, mem_positionNumbers, decide_eq_true_eq]
  exact ⟨fun h p h1 h2 => h p ⟨h1, h2⟩, fun h p hp => h p hp.1 hp.2⟩

/-- One item applied is what DeferredApplied says, and keeps the position table in its form. -/
theorem Line.applyDeferred_spec (d : Deferred) {a : Line} (h : a.positions.wf .reset) :
    DeferredApplied d a (a.applyDeferred d) ∧ (a.applyDeferred d).positions.wf .reset := by
  match d with
  | .binding p room =>
    have e : a.applyDeferred (.binding p room) = Line.enqueue p (a.modifyAt p (fun q =>
      { q with bound := room, unack := if room.isSome then q.unack else none })) := rfl
    rw [e, Line.enqueue_eq]
    refine ⟨?_, Table.modify_wf h p _⟩
    cases room <;> rfl
  | .display room =>
    have e : a.applyDeferred (.display room) = a.displayRoom room := rfl
    rw [e, Line.displayRoom]
    split
    · rename_i p hp
      rw [Line.positionOf_eq_some] at hp
      obtain ⟨⟨h1, h2⟩, h3, h4⟩ := hp
      rw [Line.enqueue_eq]
      refine ⟨⟨fun p' g1 g2 g3 g4 => ?_, fun g => absurd h3 (g p h1 h2)⟩, h⟩
      have : p' = p := by
        rcases Nat.lt_trichotomy p' p with hlt | he | hgt
        · exact absurd g3 (h4 p' g1 hlt)
        · exact he
        · exact absurd h3 (g4 p h1 hgt)
      rw [this]
    · rename_i hp
      rw [Line.positionOf_eq_none] at hp
      exact ⟨⟨fun p' g1 g2 g3 => absurd g3 (hp p' g1 g2), fun _ => rfl⟩, h⟩
  | .clear (some p) =>
    have e : a.applyDeferred (.clear (some p)) = a.modifyAt p clearedPosition := rfl
    rw [e]
    refine ⟨⟨rfl, fun p' => ?_⟩, Table.modify_wf h p _⟩
    rw [Line.at_modifyAt h, clearedPosition_eq]
    by_cases e : p' = p
    · subst e; simp
    · simp [e, Ne.symm e]
  | .clear none =>
    have e : a.applyDeferred (.clear none) =
      { a.modifyAll (fun _ q => clearedPosition q) with clearAll := true } := rfl
    obtain ⟨h1, h2, h3⟩ := Line.modifyAll_spec (fun _ q => clearedPosition q) h
    rw [e]
    refine ⟨⟨by rw [h1]; rfl, fun p' => ?_⟩, h2⟩
    refine (h3 p').trans ?_
    simp only [clearedPosition_eq, reduceCtorEq, false_or, true_and]
    by_cases g : 1 ≤ p' ∧ p' ≤ 48 <;> simp [g]

/-- Items applied one after another are what DeferredRun says. -/
theorem Line.foldl_applyDeferred_spec : ∀ (ds : List Deferred) {a : Line}, a.positions.wf .reset →
    DeferredRun ds a (ds.foldl (fun ln d => ln.applyDeferred d) a) ∧
    (ds.foldl (fun ln d => ln.applyDeferred d) a).positions.wf .reset
  | [], _, h => ⟨rfl, h⟩
  | d :: ds, _, h =>
    have h1 := Line.applyDeferred_spec d h
    have h2 := Line.foldl_applyDeferred_spec ds h1.2
    ⟨⟨_, h1.1, h2.1⟩, h2.2⟩

/-- The deferred list applied (R119). -/
theorem Line.applyDeferredList_spec {a : Line} (h : a.positions.wf .reset) :
    DeferredRun a.deferred { a with deferred := [] } a.applyDeferredList ∧
    a.applyDeferredList.positions.wf .reset :=
  Line.foldl_applyDeferred_spec a.deferred (a := { a with deferred := [] }) h

/-! ### Entry into OFFLINE (R130) -/

/-- The entry into OFFLINE is what WentOffline says. -/
theorem Line.goOffline_spec {a : Line} (h : a.positions.wf .reset) :
    WentOffline a a.goOffline ∧ a.goOffline.positions.wf .reset := by
  obtain ⟨h1, h2, h3⟩ := Line.modifyAll_spec (fun _ q => offlinePosition q) (a := a.stopPoll.endCycle) h
  refine ⟨⟨?_, h3⟩, h2⟩
  have hd : (fun d => !Deferred.isClear d) = fun d => match d with
      | .clear _ => false
      | .binding _ _ | .display _ => true := by funext d; cases d <;> rfl
  unfold Line.goOffline
  dsimp only
  rw [hd]
  generalize a.stopPoll.endCycle.modifyAll (fun _ q => offlinePosition q) = b at h1
  rw [h1]
  rfl

/-! ### Entry into FAULTED (R131) -/

/-- The entry into FAULTED is what Faulted says. -/
theorem Line.goFaulted_spec (cause : FaultCause) {a : Line} (h : a.positions.wf .reset) :
    Faulted cause a (a.goFaulted cause) ∧ (a.goFaulted cause).positions.wf .reset := by
  obtain ⟨h1, h2, h3⟩ := Line.modifyAll_spec (fun _ q => { q with litUntil := none }) (a := a.stopPoll.endCycle) h
  obtain ⟨h4, h5⟩ := Line.applyDeferredList_spec (a := a.stopPoll.endCycle.darken) h2
  obtain ⟨h6, h7, h8⟩ := Line.modifyAll_spec
    (fun _ q => { q with health := .absent, cause := some .chain }) h5
  refine ⟨⟨{ a.stopPoll.endCycle.darken with deferred := [] }, a.stopPoll.endCycle.darken.applyDeferredList,
    ?_, h3, ?_, ?_, h8⟩, h7⟩
  · unfold Line.darken
    generalize a.stopPoll.endCycle.modifyAll (fun _ q => { q with litUntil := none }) = b at h1
    rw [h1]
    rfl
  · have : a.stopPoll.endCycle.darken.deferred = a.deferred := by unfold Line.darken; rw [h1]; rfl
    rwa [this] at h4
  · unfold Line.goFaulted
    dsimp only
    generalize a.stopPoll.endCycle.darken.applyDeferredList.modifyAll
      (fun _ q => { q with health := .absent, cause := some .chain }) = b at h6
    rw [h6]

end Sys2Proof.Machine
end

