-- ==== Sys2Proof/Laws/PerInstr.lean ====
section
/-! SUPPORT. Per-command lemmas: a command that is a host request is the command of that request, and the
request fits one host frame (R168, R184). -/

namespace Sys2Proof.Laws.RequestFits

open Sys2Proof.Machine

/-- A command that takes a host request is the request's own command; the request's kind is below 0x80, the
kinds of replies, and the body of a well-formed one fits the 240 bytes of a frame. -/
def Statement (i : Instr) : Prop :=
  ∀ r, requestOf i = some r → commandOf r = i ∧ (encRequest r).1 < 128 ∧
    (i.wf = true → (encRequest r).2.length ≤ 240)

@[simp] theorem enc8_length (n : Nat) : (enc8 n).length = 1 := rfl
@[simp] theorem enc16_length (n : Nat) : (enc16 n).length = 2 := rfl
@[simp] theorem enc24_length (n : Nat) : (enc24 n).length = 3 := rfl
@[simp] theorem enc32_length (n : Nat) : (enc32 n).length = 4 := rfl
@[simp] theorem encTime_length (t : CTime) : (encTime t).length = 4 := rfl
@[simp] theorem encHandle_length (h : Handle) : (encHandle h).length = 3 := rfl
@[simp] theorem encBookReq_length (q : BookReq) : (encBookReq q).length = 16 := rfl
@[simp] theorem encMoveReq_length (q : MoveReq) : (encMoveReq q).length = 16 := rfl

/-- An optional field of fixed width keeps its width. -/
theorem optLength {α : Type} (o : Option α) (f : α → List Byte) (w : Nat) (h : ∀ a, (f a).length = w) :
    ((o.map f).getD (encAbsent w)).length = w := by
  cases o <;> simp [encAbsent, h]

@[simp] theorem enc8?_length (n : Option Nat) : (enc8? n).length = 1 :=
  optLength n enc8 1 enc8_length

@[simp] theorem encTime?_length (t : Option CTime) : (encTime? t).length = 4 :=
  optLength t encTime 4 encTime_length

@[simp] theorem encFindReq_length (q : FindReq) : (encFindReq q).length = 17 := by
  simp [encFindReq]

@[simp] theorem encPolicy_length (p : PolicyReq) : (encPolicy p).length ≤ 5 := by
  cases p with
  | quietWindow w => rcases w with _ | ⟨f, t⟩ <;> simp [encPolicy, encAbsent]
  | _ => simp [encPolicy]

/-- The lines of an order take two bytes each. -/
theorem lines_length (ls : List OrderLine) :
    (ls.flatMap (fun l => enc8 l.cls ++ enc8 l.covers)).length = 2 * ls.length := by
  induction ls with
  | nil => rfl
  | cons l ls ih => simp only [List.flatMap_cons, List.length_append, ih, enc8_length, List.length_cons]; omega

theorem powerOn : Statement .powerOn := fun _ h => nomatch h

theorem supplyLowReset : Statement .supplyLowReset := fun _ h => nomatch h

theorem crystalStable (straps : Fin 4) : Statement (.crystalStable straps) := fun _ h => nomatch h

theorem timebaseTick : Statement .timebaseTick := fun _ h => nomatch h

theorem quantumEntry : Statement .quantumEntry := fun _ h => nomatch h

theorem heldQuantumReached : Statement .heldQuantumReached := fun _ h => nomatch h

theorem interByteGapExpiry : Statement .interByteGapExpiry := fun _ h => nomatch h

theorem hostByteReceived (b : Byte) (stopBit : Bool) : Statement (.hostByteReceived b stopBit) := fun _ h => nomatch h

theorem validFrame (f : Frame) : Statement (.validFrame f) := fun _ h => nomatch h

theorem resetTakesEffect : Statement .resetTakesEffect := fun _ h => nomatch h

theorem identify : Statement .identify := by
  rintro r ⟨⟩
  refine ⟨rfl, by simp [encRequest], fun h => ?_⟩
  simp [encRequest]

theorem getStatus (flags : Nat) : Statement (.getStatus flags) := by
  rintro r ⟨⟩
  refine ⟨rfl, by simp [encRequest], fun h => ?_⟩
  simp [encRequest]

theorem readReports (queue count : Nat) : Statement (.readReports queue count) := by
  rintro r ⟨⟩
  refine ⟨rfl, by simp [encRequest], fun h => ?_⟩
  simp [encRequest]

theorem readCounters (flags : Nat) : Statement (.readCounters flags) := by
  rintro r ⟨⟩
  refine ⟨rfl, by simp [encRequest], fun h => ?_⟩
  simp [encRequest]

theorem reset (scope confirm : Nat) : Statement (.reset scope confirm) := by
  rintro r ⟨⟩
  refine ⟨rfl, by simp [encRequest], fun h => ?_⟩
  simp [encRequest]

theorem setClock (day quantum ms : Nat) : Statement (.setClock day quantum ms) := by
  rintro r ⟨⟩
  refine ⟨rfl, by simp [encRequest], fun h => ?_⟩
  simp [encRequest]

theorem setPolicy (p : PolicyReq) : Statement (.setPolicy p) := by
  rintro r ⟨⟩
  refine ⟨rfl, by simp [encRequest], fun h => ?_⟩
  have := encPolicy_length p
  simp only [encRequest]; omega

theorem readPolicy : Statement .readPolicy := by
  rintro r ⟨⟩
  refine ⟨rfl, by simp [encRequest], fun h => ?_⟩
  simp [encRequest]

theorem loadRoom (room : Nat) (e : RoomSpec) : Statement (.loadRoom room e) := by
  rintro r ⟨⟩
  refine ⟨rfl, by simp [encRequest], fun h => ?_⟩
  have := optLength e.binding (fun b => enc8 b.1 ++ enc8 b.2) 2 (by simp)
  simp [encRequest, encRoomSpec, this]

theorem loadRoomEngineCheck (room : Nat) (e : RoomSpec) : Statement (.loadRoomEngineCheck room e) := fun _ h => nomatch h

theorem readRoom (room : Nat) : Statement (.readRoom room) := by
  rintro r ⟨⟩
  refine ⟨rfl, by simp [encRequest], fun h => ?_⟩
  simp [encRequest]

theorem loadKitchen (kitchen : Nat) (e : KitchenSpec) : Statement (.loadKitchen kitchen e) := by
  rintro r ⟨⟩
  refine ⟨rfl, by simp [encRequest], fun h => ?_⟩
  simp [encRequest]

theorem readKitchen (kitchen : Nat) : Statement (.readKitchen kitchen) := by
  rintro r ⟨⟩
  refine ⟨rfl, by simp [encRequest], fun h => ?_⟩
  simp [encRequest]

theorem loadDistance (kitchen building : Nat) (transit : Option Nat) : Statement (.loadDistance kitchen building transit) := by
  rintro r ⟨⟩
  refine ⟨rfl, by simp [encRequest], fun h => ?_⟩
  simp [encRequest]

theorem readDistance (kitchen : Nat) : Statement (.readDistance kitchen) := by
  rintro r ⟨⟩
  refine ⟨rfl, by simp [encRequest], fun h => ?_⟩
  simp [encRequest]

theorem loadMenuClass (cls weight lead holdLimit : Nat) : Statement (.loadMenuClass cls weight lead holdLimit) := by
  rintro r ⟨⟩
  refine ⟨rfl, by simp [encRequest], fun h => ?_⟩
  simp [encRequest]

theorem readMenuClass (cls : Nat) : Statement (.readMenuClass cls) := by
  rintro r ⟨⟩
  refine ⟨rfl, by simp [encRequest], fun h => ?_⟩
  simp [encRequest]

theorem hold (q : BookReq) (holdTime : Nat) : Statement (.hold q holdTime) := by
  rintro r ⟨⟩
  refine ⟨rfl, by simp [encRequest], fun h => ?_⟩
  simp [encRequest]

theorem book (q : BookReq) : Statement (.book q) := by
  rintro r ⟨⟩
  refine ⟨rfl, by simp [encRequest], fun h => ?_⟩
  simp [encRequest]

theorem confirm (h : Handle) : Statement (.confirm h) := by
  rintro r ⟨⟩
  refine ⟨rfl, by simp [encRequest], fun h => ?_⟩
  simp [encRequest]

theorem cancel (h : Handle) (flags : Nat) : Statement (.cancel h flags) := by
  rintro r ⟨⟩
  refine ⟨rfl, by simp [encRequest], fun h => ?_⟩
  simp [encRequest]

theorem endBooking (h : Handle) : Statement (.endBooking h) := by
  rintro r ⟨⟩
  refine ⟨rfl, by simp [encRequest], fun h => ?_⟩
  simp [encRequest]

theorem checkIn (h : Handle) (badge : Token) : Statement (.checkIn h badge) := by
  rintro r ⟨⟩
  refine ⟨rfl, by simp [encRequest], fun h => ?_⟩
  simp [encRequest]

theorem move (q : MoveReq) : Statement (.move q) := by
  rintro r ⟨⟩
  refine ⟨rfl, by simp [encRequest], fun h => ?_⟩
  simp [encRequest]

theorem roomNotice (order : Handle) (room : Nat) : Statement (.roomNotice order room) := fun _ h => nomatch h

theorem findRoom (q : FindReq) : Statement (.findRoom q) := by
  rintro r ⟨⟩
  refine ⟨rfl, by simp [encRequest], fun h => ?_⟩
  simp [encRequest]

theorem queryRoom (room day : Nat) (continuation : Option CTime) : Statement (.queryRoom room day continuation) := by
  rintro r ⟨⟩
  refine ⟨rfl, by simp [encRequest], fun h => ?_⟩
  simp [encRequest]

theorem queryBooking (h : Handle) : Statement (.queryBooking h) := by
  rintro r ⟨⟩
  refine ⟨rfl, by simp [encRequest], fun h => ?_⟩
  simp [encRequest]

theorem acceptProvisional (h : Handle) : Statement (.acceptProvisional h) := by
  rintro r ⟨⟩
  refine ⟨rfl, by simp [encRequest], fun h => ?_⟩
  simp [encRequest]

theorem placeOrder (h : Handle) (count : Nat) (lines : List OrderLine) : Statement (.placeOrder h count lines) := by
  rintro r ⟨⟩
  refine ⟨rfl, by simp [encRequest], fun h => ?_⟩
  simp only [Instr.wf, linesFieldOk, Bool.and_eq_true, decide_eq_true_eq] at h
  simp only [encRequest, List.length_append, lines_length]
  simp; omega

theorem admissionComputation (booking : Handle) (serving : CTime) (room count : Nat) (lines : List OrderLine) : Statement (.admissionComputation booking serving room count lines) := fun _ h => nomatch h

theorem admissionCompletion : Statement .admissionCompletion := fun _ h => nomatch h

theorem engineTakesAdmissionAnswer (booking : Handle) (a : AdmissionAnswer) : Statement (.engineTakesAdmissionAnswer booking a) := fun _ h => nomatch h

theorem refitComputation (booking order : Handle) (serving : CTime) (room : Nat) (drop : Bool) : Statement (.refitComputation booking order serving room drop) := fun _ h => nomatch h

theorem refitCompletion : Statement .refitCompletion := fun _ h => nomatch h

theorem engineTakesRefitAnswer (booking : Handle) (a : RefitAnswer) : Statement (.engineTakesRefitAnswer booking a) := fun _ h => nomatch h

theorem queryOrder (h : Handle) : Statement (.queryOrder h) := by
  rintro r ⟨⟩
  refine ⟨rfl, by simp [encRequest], fun h => ?_⟩
  simp [encRequest]

theorem cancelOrder (h : Handle) : Statement (.cancelOrder h) := by
  rintro r ⟨⟩
  refine ⟨rfl, by simp [encRequest], fun h => ?_⟩
  simp [encRequest]

theorem confirmDelivery (h : Handle) : Statement (.confirmDelivery h) := by
  rintro r ⟨⟩
  refine ⟨rfl, by simp [encRequest], fun h => ?_⟩
  simp [encRequest]

theorem readLoad (kitchen : Nat) (first : CTime) (count : Nat) : Statement (.readLoad kitchen first count) := by
  rintro r ⟨⟩
  refine ⟨rfl, by simp [encRequest], fun h => ?_⟩
  simp [encRequest]

theorem readProduction (kitchen : Nat) (continuation : Option (CTime × Nat)) (count : Nat) : Statement (.readProduction kitchen continuation count) := by
  rintro r ⟨⟩
  refine ⟨rfl, by simp [encRequest], fun h => ?_⟩
  have := optLength continuation (fun p => encTime p.1 ++ enc16 p.2) 6 (by simp)
  simp [encRequest, this]

theorem kitchenChange (kitchen capacity carts : Nat) : Statement (.kitchenChange kitchen capacity carts) := fun _ h => nomatch h

theorem bookingHandoff (order booking : Handle) (kind : HandoffKind) : Statement (.bookingHandoff order booking kind) := fun _ h => nomatch h

theorem linkNotice (booking order : Handle) : Statement (.linkNotice booking order) := fun _ h => nomatch h

theorem displayNotice (booking order : Handle) : Statement (.displayNotice booking order) := fun _ h => nomatch h

theorem engineBoundaryWork (b : Boundary) : Statement (.engineBoundaryWork b) := fun _ h => nomatch h

theorem plannerBoundaryWork (b : Boundary) : Statement (.plannerBoundaryWork b) := fun _ h => nomatch h

theorem controllerBoundaryWork (line : Fin 4) (b : Boundary) : Statement (.controllerBoundaryWork line b) := fun _ h => nomatch h

theorem scanStepExpiry : Statement .scanStepExpiry := fun _ h => nomatch h

theorem roomVisit (room : Nat) : Statement (.roomVisit room) := fun _ h => nomatch h

theorem occupancyNotice (room : Nat) : Statement (.occupancyNotice room) := fun _ h => nomatch h

theorem walkup (src : PanelSrc) (room len : Nat) (badge : Token) : Statement (.walkup src room len badge) := fun _ h => nomatch h

theorem panelCheckin (src : PanelSrc) (room : Nat) (badge : Token) : Statement (.panelCheckin src room badge) := fun _ h => nomatch h

theorem extend (src : PanelSrc) (room k : Nat) : Statement (.extend src room k) := fun _ h => nomatch h

theorem panelEnd (src : PanelSrc) (room : Nat) : Statement (.panelEnd src room) := fun _ h => nomatch h

theorem cateringReceived (src : PanelSrc) (room : Nat) (badge : Token) : Statement (.cateringReceived src room badge) := fun _ h => nomatch h

theorem startChain (line : Nat) : Statement (.startChain line) := by
  rintro r ⟨⟩
  refine ⟨rfl, by simp [encRequest], fun h => ?_⟩
  simp [encRequest]

theorem stopChain (line : Nat) : Statement (.stopChain line) := by
  rintro r ⟨⟩
  refine ⟨rfl, by simp [encRequest], fun h => ?_⟩
  simp [encRequest]

theorem chainMode (line mode : Nat) : Statement (.chainMode line mode) := by
  rintro r ⟨⟩
  refine ⟨rfl, by simp [encRequest], fun h => ?_⟩
  simp [encRequest]

theorem clearPanelFault (line : Nat) (pos : Option Nat) : Statement (.clearPanelFault line pos) := by
  rintro r ⟨⟩
  refine ⟨rfl, by simp [encRequest], fun h => ?_⟩
  simp [encRequest]

theorem readChain (line : Nat) : Statement (.readChain line) := by
  rintro r ⟨⟩
  refine ⟨rfl, by simp [encRequest], fun h => ?_⟩
  simp [encRequest]

theorem readPosition (line pos : Nat) : Statement (.readPosition line pos) := by
  rintro r ⟨⟩
  refine ⟨rfl, by simp [encRequest], fun h => ?_⟩
  simp [encRequest]

theorem readLineHealth (line : Nat) : Statement (.readLineHealth line) := by
  rintro r ⟨⟩
  refine ⟨rfl, by simp [encRequest], fun h => ?_⟩
  simp [encRequest]

theorem pollTimerExpiry (line : Fin 4) : Statement (.pollTimerExpiry line) := fun _ h => nomatch h

theorem attentionWirePulled (line : Fin 4) : Statement (.attentionWirePulled line) := fun _ h => nomatch h

theorem cycleReturn (line : Fin 4) (frame : List Byte) : Statement (.cycleReturn line frame) := fun _ h => nomatch h

theorem cycleTimeout (line : Fin 4) : Statement (.cycleTimeout line) := fun _ h => nomatch h

theorem panelAnswer (line : Fin 4) (pos reqno : Nat) (a : PanelAnswer) : Statement (.panelAnswer line pos reqno a) := fun _ h => nomatch h

theorem displayUpdateRequest (line : Fin 4) (room : Nat) : Statement (.displayUpdateRequest line room) := fun _ h => nomatch h

theorem bindingChange (line : Fin 4) (pos : Nat) (room : Option Nat) : Statement (.bindingChange line pos room) := fun _ h => nomatch h

theorem supervisionTimerExpiry : Statement .supervisionTimerExpiry := fun _ h => nomatch h

theorem attentionWireReleased (line : Fin 4) : Statement (.attentionWireReleased line) := fun _ h => nomatch h

theorem supplyRestored : Statement .supplyRestored := fun _ h => nomatch h

end Sys2Proof.Laws.RequestFits
end

