-- ==== Sys2Proof/Tests/Slice0.lean ====
section
/-! SUPPORT. The author's own tests: ill-formed commands refused, worked figures of the manual, and for every
statement with hypotheses a state that meets them. -/

namespace Sys2Proof.Tests

open Sys2Proof Sys2Proof.Machine

/-! ### Ill-formed commands, one for each check -/

theorem test_wf_byte : (Instr.getStatus 256).wf = false := by decide
theorem test_wf_half : (Instr.readRoom 65536).wf = false := by decide
theorem test_wf_three_bytes : (Instr.setClock 0 0 16777216).wf = false := by decide
theorem test_wf_time_field : (Instr.readLoad 0 ⟨0, 65536⟩ 1).wf = false := by decide
theorem test_wf_handle_field : (Instr.confirm ⟨0, 256⟩).wf = false := by decide
theorem test_wf_boundary_time : (Instr.engineBoundaryWork ⟨⟨0, 288⟩, false⟩).wf = false := by decide
theorem test_wf_boundary_rollover : (Instr.plannerBoundaryWork ⟨⟨0, 0⟩, false⟩).wf = false := by decide
theorem test_wf_booking_handle : (Instr.linkNotice ⟨2048, 0⟩ ⟨0, 0⟩).wf = false := by decide
theorem test_wf_order_handle : (Instr.displayNotice ⟨0, 0⟩ ⟨768, 0⟩).wf = false := by decide
theorem test_wf_room : (Instr.roomVisit 512).wf = false := by decide
theorem test_wf_position : (Instr.bindingChange 0 49 none).wf = false := by decide
theorem test_wf_source : (Instr.panelEnd ⟨0, 0, 0⟩ 5).wf = false := by decide
theorem test_wf_order_lines : (Instr.placeOrder ⟨0, 0⟩ 1 [⟨0, 256⟩]).wf = false := by decide
theorem test_wf_room_entry : (Instr.loadRoom 0 ⟨0, 1, 0, 0, none, some (255, 255), 0, 0⟩).wf = false := by
  decide
theorem test_wf_kitchen_entry : (Instr.loadKitchen 0 ⟨256, 0, 0, 0⟩).wf = false := by decide
theorem test_wf_policy : (Instr.setPolicy (.quietWindow (some (65535, 65535)))).wf = false := by decide
theorem test_wf_book : (Instr.book ⟨65536, ⟨0, 0⟩, ⟨0, 3⟩, 1, 0⟩).wf = false := by decide
theorem test_wf_move : (Instr.move ⟨⟨0, 0⟩, 0, ⟨0, 0⟩, ⟨0, 3⟩, 0, 256⟩).wf = false := by decide
theorem test_wf_find : (Instr.findRoom ⟨some 255, ⟨0, 0⟩, ⟨0, 3⟩, 1, 0, 0, 0⟩).wf = false := by decide
theorem test_wf_frame : (Instr.validFrame ⟨256, 0, []⟩).wf = false := by decide
theorem test_wf_admission : (Instr.engineTakesAdmissionAnswer ⟨0, 0⟩ (.refused .ok none)).wf = false := by
  decide
theorem test_wf_refit : (Instr.engineTakesRefitAnswer ⟨0, 0⟩ (.fit 8 0 ⟨0, 0⟩ ⟨0, 0⟩)).wf = false := by
  decide
theorem test_wf_continuation : (Instr.queryRoom 0 0 (some ⟨65535, 65535⟩)).wf = false := by decide
theorem test_wf_kitchen_change : (Instr.kitchenChange 8 0 0).wf = false := by decide
theorem test_wf_distance : (Instr.loadDistance 0 0 (some 255)).wf = false := by decide

/-! ### Figures the manual works out -/

/-- §1.6: the offset of 00:05:30 of day 413 from 23:58:00 of day 412. -/
theorem test_offset : msFrom ⟨⟨413, 1⟩, 30000⟩ ⟨⟨412, 287⟩, 180000⟩ = 450000 := by decide

/-- §1.6: the index of A's start before the rollover and after it. -/
theorem test_horizon : horizonIndex 412 ⟨412, 276⟩ = 276 ∧ horizonIndex 413 ⟨412, 276⟩ = -12 := by decide

/-- §5.6: the shares of 46 prep units over 6 quanta. -/
theorem test_shares : (List.range 6).map (share 46 6) = [8, 8, 8, 8, 7, 7] := by decide

/-- R86: a cart that leaves at 117 with transit 2 is busy from 117 to 122. -/
theorem test_cart_span : cartQuanta 117 2 = [117, 118, 119, 120, 121, 122] := by decide

/-- §7.11: quanta 240 and 71 lie in the window from 240 to 72, quantum 72 does not. -/
theorem test_window : inWindow (some (240, 72)) 240 = true ∧ inWindow (some (240, 72)) 71 = true ∧
    inWindow (some (240, 72)) 72 = false := by decide

/-- R18: 24 lies midway between 16 and 32, and the larger is taken. -/
theorem test_nearest_step : nearestStep 24 = 32 ∧ nearestStep 1 = 16 ∧ nearestStep 65535 = 1024 := by decide

/-- §10.8: the record of order (88, 2), room 31, in production in quantum 108 of day 0 on kitchen 1, for
booking (417, 5): 16 bytes. -/
theorem test_event_record :
    (EventRecord.mk .orderInProduction ⟨0, 108⟩ 31 ⟨88, 2⟩ (.num 1) (.handle ⟨417, 5⟩)).wire =
      [0x07, 0x00, 0x00, 0x36, 0x07, 0xC2, 0x00, 0x58, 0, 0, 0, 1, 0x01, 0xA1, 0x05, 0] := by decide

/-- R131, §10.8: a chain fault of line 2 by ECHO, hop count 7, tag 3, in quantum 150 of day 40. -/
theorem test_exception_record : (ExcRecord.mk (.chainFault 2 .echo (some 7) 3) (some ⟨40, 150⟩)).wire =
    [0x01, 0, 40, 0, 150, 2, 0, 0, 7, 3, 0, 0, 0, 0, 0, 0] := by decide

/-- §10.8: a SetClock to day 413, quantum 1, millisecond 30,000, by its kind and its 7 bytes. -/
theorem test_setclock_frame : decodeRequest ⟨0x06, 9, [0x01, 0x9D, 0x00, 0x01, 0x00, 0x75, 0x30]⟩ =
    .request (.setClock 413 1 30000) := by decide

/-- R170: an unknown kind, and a kind with a body of the wrong length. -/
theorem test_refused_frames : decodeRequest ⟨0x09, 1, []⟩ = .unknownKind ∧
    decodeRequest ⟨0x06, 1, [0]⟩ = .badLength := by decide

/-- R120, §10.8: the header of a census frame of tag 1 in CENSUS, and its length. -/
theorem test_cycle_frame : (OutFrame.mk 1 true false false .empty).wire.take 3 = [0xE7, 0x0C, 0x00] := by
  decide

/-- R152: an uplink slot with presence, touch and toggle set, WALKUP of 16 quanta. -/
theorem test_uplink : uplinkAt (List.replicate 867 0 ++ [0xC1, 1, 16, 0, 0, 0, 9, 7]) 1 =
    some ⟨true, false, 1, true, 16, 9, 7⟩ := by decide +kernel

/-! ### Small states -/

/-- The now of the small states: day 100, quantum 96. -/
def nowT : CTime := ⟨100, 96⟩

/-- Two rooms in use: room 5 with a panel at line 0 position 3, room 9 without. -/
def room5 : RoomEntry := ⟨2, 10, 1, 0, some 1, some ⟨0, 3⟩, true, 0⟩
def room9 : RoomEntry := ⟨2, 4, 0, 0, none, none, true, 0⟩

/-- A part with the clock RUNNING, two rooms, a panel PRESENT, two free booking records and two free order
records. -/
def base : State := { State.reset with
  clock := ⟨.running, some ⟨nowT, 0⟩, some nowT, none⟩
  rooms := ⟨[(5, some room5), (9, some room9)]⟩
  distances := ⟨[(2, some 1)]⟩
  kitchens := ⟨[(0, ⟨40, 2, 72, 240⟩)]⟩
  menu := ⟨[(4, ⟨8, 3, 6⟩)]⟩
  store := ⟨.empty, [0, 1], .empty, [], false⟩
  engine := { Engine.reset with now := some nowT }
  scanner := ⟨0, some ⟨64, 64⟩, 1⟩
  planner := { Planner.reset with now := some nowT, limits := ⟨[(0, ⟨40, 2⟩)]⟩, free := [0, 1] }
  lines := ⟨{ Line.reset with
      now := some nowT, chain := .running
      positions := ⟨[(3, { Position.reset with bound := some 5, health := .present })]⟩ },
    { Line.reset with now := some nowT }, { Line.reset with now := some nowT },
    { Line.reset with now := some nowT }⟩ }

/-- A booking of room 5 from 100 to 110. -/
def booking : Booking :=
  ⟨5, ⟨100, 100⟩, ⟨100, 110⟩, .confirmed, 4, 7, .host, false, none, none, none, none⟩

/-- The small state with one booking, of record 0 and generation 3. -/
def booked (b : Booking) : State :=
  { base with store := ⟨⟨[(0, ⟨3, some b⟩)]⟩, [1], ⟨[(5, [0])]⟩, [], false⟩ }

/-- The small state with the booking in record 0 and another in record 1, of room `r`. -/
def bookedTwice (a b : Booking) (r : Nat) : State :=
  { base with store := ⟨⟨[(0, ⟨3, some a⟩), (1, ⟨0, some b⟩)]⟩, [],
      ⟨if r = 5 then [(5, [0, 1])] else [(5, [0]), (r, [1])]⟩, [], false⟩ }

/-- An order for the booking: window 100 to 102, departure 104, transit 1, on kitchen 0. -/
def order : Order :=
  ⟨some ⟨0, 3⟩, ⟨100, 106⟩, 0, 1, [⟨4, 20⟩], 16, 3, 1, ⟨100, 100⟩, ⟨100, 104⟩, .planned, false, 0, 5⟩

/-- A state with the order in record 0, generation 2, of kitchen 0's production list. -/
def ordered (o : Order) (s : State) : State :=
  { s with planner := { s.planner with
      records := ⟨[(0, ⟨2, some o⟩)]⟩, lists := ⟨[(0, [0])]⟩, free := [1], placing := 1 } }

/-- A state with a request handed to its owner, and the state in which the owner has taken it. -/
def asked (r : HostRequest) (s : State) : State :=
  handTo r { s with link := { s.link with slot := some ⟨0x20, 7, r, .handed⟩ } }
def served (r : HostRequest) (s : State) : State :=
  { s with link := { s.link with slot := some ⟨0x20, 7, r, .taken⟩ } }

/-- Nothing waits at any block, and the part runs. -/
abbrev Idle (s : State) : Prop :=
  s.power = .running ∧ s.planner.job = none ∧ s.engine.intake = [] ∧ s.planner.intake = [] ∧
  ∀ l : Fin 4, (s.lines.get l).intake = []

/-- A request asked of an idle part can be taken. -/
theorem taken_asked {s : State} (h : Idle s) (r : HostRequest) : Taken r (asked r s) (served r s) := by
  obtain ⟨hp, hj, he, hi, hl⟩ := h
  refine ⟨⟨0x20, 7, ?_⟩, ?_⟩
  · unfold InService asked handTo
    split <;> rfl
  · unfold takeHost takeFromOwner asked handTo
    split
    · rename_i ho
      simp [hp, handed, setStage, served]
    · rename_i ho
      have : ({ s.engine with intake := [] } : Engine) = s.engine := by rw [← he]
      simp [takeEngine, sendEngine, hp, he, setStage, served, this]
    · rename_i ho
      have : ({ s.planner with intake := [] } : Planner) = s.planner := by rw [← hi]
      have hc : s.power = .running ∧ s.planner.job = none := ⟨hp, hj⟩
      simp only [takePlanner, sendPlanner, if_pos hc, hi, if_true, List.nil_append, Option.map_some,
        setStage, served, this]
    · rename_i l ho
      have : ({ s.lines.get l with intake := [] } : Line) = s.lines.get l := by rw [← hl l]
      simp [takeLine, sendLine, updLine, Line.arrive, hp, hl, setStage, served, this]

/-- A state in which a piece of work waits for the engine, the planner or a controller. -/
def forEngine (w : EngineWork) (s : State) : State := sendEngine w s
def forPlanner (w : PlannerWork) (s : State) : State := sendPlanner w s
def forLine (l : Fin 4) (w : LineWork) (s : State) : State := sendLine l w s

theorem taken_engine {s : State} (h : Idle s) (w : EngineWork) :
    takeEngine w (forEngine w s) = some s := by
  obtain ⟨hp, _, he, _, _⟩ := h
  have : ({ s.engine with intake := [] } : Engine) = s.engine := by rw [← he]
  simp only [takeEngine, forEngine, sendEngine, he, List.nil_append, if_true, this, if_pos hp]

theorem taken_planner {s : State} (h : Idle s) (w : PlannerWork) :
    takePlanner w (forPlanner w s) = some s := by
  obtain ⟨hp, hj, _, hi, _⟩ := h
  have : ({ s.planner with intake := [] } : Planner) = s.planner := by rw [← hi]
  simp only [takePlanner, forPlanner, sendPlanner, hi, List.nil_append, if_true, this, if_pos (And.intro hp hj)]

theorem taken_line {s : State} (h : Idle s) (l : Fin 4) (w : LineWork) :
    takeLine l w (forLine l w s) = some s := by
  obtain ⟨hp, _, _, _, hl⟩ := h
  have : ({ s.lines.get l with intake := [] } : Line) = s.lines.get l := by rw [← hl l]
  simp [takeLine, forLine, sendLine, updLine, Line.arrive, if_pos hp, hl, this]

/-- A pin event is taken when nothing waits, and when it waits at the head. -/
theorem pin_idle {s : State} (h : Idle s) (l : Fin 4) (w : LineWork) : PinTaken l w s s :=
  .inr ⟨h.1, h.2.2.2.2 l, rfl⟩
theorem pin_waits {s : State} (h : Idle s) (l : Fin 4) (w : LineWork) : PinTaken l w (forLine l w s) s :=
  .inl (taken_line h l w)

theorem idle_reset : Idle State.reset := by decide
theorem idle_base : Idle base := by decide
theorem idle_booked (b : Booking) : Idle (booked b) := idle_base
theorem idle_ordered (o : Order) (b : Booking) : Idle (ordered o (booked b)) := by
  exact ⟨rfl, rfl, rfl, rfl, idle_base.2.2.2.2⟩

theorem canonical_base : TablesCanonical base := by unfold TablesCanonical; decide
theorem canonical_booked (b : Booking) : TablesCanonical (booked b) := by
  obtain ⟨h1, h2, h3, h4, _, _, h7, h8, h9, h10, h11, h12, h13⟩ := canonical_base
  exact ⟨h1, h2, h3, h4, ⟨by simp [booked], by simp [booked]⟩, ⟨by simp [booked], by simp [booked]⟩, h7, h8,
    h9, h10, h11, h12, h13⟩
theorem canonical_ordered (o : Order) (b : Booking) : TablesCanonical (ordered o (booked b)) := by
  obtain ⟨h1, h2, h3, h4, h5, h6, h7, h8, h9, h10, _, _, h13⟩ := canonical_booked b
  exact ⟨h1, h2, h3, h4, h5, h6, h7, h8, h9, h10, ⟨by simp [ordered], by simp [ordered]⟩,
    ⟨by simp [ordered], by simp [ordered]⟩, h13⟩

/-- The tables stay canonical, and nothing waits, under a change of one line that keeps both. -/
theorem canonical_line {s : State} (h : TablesCanonical s) (l : Fin 4) (f : Line → Line)
    (hf : (f (s.lines.get l)).positions.wf .reset) : TablesCanonical (updLine l f s) := by
  obtain ⟨h1, h2, h3, h4, h5, h6, h7, h8, h9, h10, h11, h12, h13⟩ := h
  refine ⟨h1, h2, h3, h4, h5, h6, h7, h8, h9, h10, h11, h12, fun m => ?_⟩
  by_cases e : m = l
  · subst e; simpa [updLine] using hf
  · simpa [updLine, e, Ne.symm e] using h13 m
theorem idle_line {s : State} (h : Idle s) (l : Fin 4) (f : Line → Line) (hf : (f (s.lines.get l)).intake = []) :
    Idle (updLine l f s) := by
  refine ⟨h.1, h.2.1, h.2.2.1, h.2.2.2.1, fun m => ?_⟩
  by_cases e : m = l
  · subst e; simpa [updLine] using hf
  · simpa [updLine, e, Ne.symm e] using h.2.2.2.2 m
theorem canonical_forLine {s : State} (h : TablesCanonical s) (l : Fin 4) (w : LineWork) :
    TablesCanonical (forLine l w s) :=
  canonical_line h l _ (h.2.2.2.2.2.2.2.2.2.2.2.2 l)
theorem canonical_asked {s : State} (h : TablesCanonical s) (r : HostRequest) :
    TablesCanonical (asked r s) := by
  unfold asked handTo
  split
  · exact h
  · exact h
  · exact h
  · exact canonical_line h _ _ (h.2.2.2.2.2.2.2.2.2.2.2.2 _)

/-! ### Witnesses: for each statement with hypotheses, a state that meets them, clause by clause -/

theorem witness_StepRunsTheFrontCommand : ∃ s : State, s.pending = [] := ⟨State.reset, rfl⟩

theorem witness_EveryCommandAnswers : ∃ (c : Instr) (s : State), s.power ≠ .running ∧ isPin c = false :=
  ⟨.timebaseTick, { State.reset with power := .off }, by decide⟩

theorem witness_PowerSequence : (∃ s : State, s.power = .running) ∧ (∃ s : State, s.power = .waiting .power) ∧
    ∃ s : State, s.power = .heldLow .supplyLow :=
  ⟨⟨State.reset, rfl⟩, ⟨{ State.reset with power := .waiting .power }, rfl⟩,
    ⟨{ State.reset with power := .heldLow .supplyLow }, rfl⟩⟩

theorem witness_ResetScopes :
    (∃ s u, Taken (.reset 0 0xC4) s u) ∧ (∃ s u, Taken (.reset 1 0xC4) s u) ∧
    (∃ s u, Taken (.reset 2 0xC4) s u) ∧ (∃ s u, Taken (.reset 0 0xC5) s u) ∧
    (∃ s : State, s.power = .running ∧ s.link.resetWait = some .full) ∧
    ∃ s : State, s.power = .running ∧ s.link.resetWait = some .warm ∧ TablesCanonical s :=
  ⟨⟨_, _, taken_asked idle_base _⟩, ⟨_, _, taken_asked idle_base _⟩, ⟨_, _, taken_asked idle_base _⟩,
    ⟨_, _, taken_asked idle_base _⟩,
    ⟨{ base with link := { Link.reset with resetWait := some .full } }, rfl, rfl⟩,
    ⟨{ base with link := { Link.reset with resetWait := some .warm } }, rfl, rfl, canonical_base⟩⟩

theorem witness_ResetLeavesLinkAndReports :
    (∃ s, ResetBy .powerOn s .power) ∧ (∃ s, ResetBy .supplyLowReset s .supplyLow) ∧
    (∃ s, ResetBy (.crystalStable 3) s .supplyLow) ∧ (∃ s, ResetBy .resetTakesEffect s .full) ∧
    ∃ s, ResetBy .resetTakesEffect s .warm :=
  ⟨⟨base, rfl⟩, ⟨base, rfl, rfl⟩, ⟨{ base with power := .waiting .supplyLow }, rfl, .inr rfl⟩,
    ⟨{ base with link := { Link.reset with resetWait := some .full } }, rfl, .inl ⟨rfl, rfl⟩⟩,
    ⟨{ base with link := { Link.reset with resetWait := some .warm } }, rfl, .inr ⟨rfl, rfl⟩⟩⟩

theorem witness_TicksAndQuantumEntries :
    (∃ s : State, s.power = .running ∧ s.clock.state = .unset) ∧
    (∃ s : State, s.power = .running ∧ s.clock.state ≠ .unset) ∧
    (∃ (s : State) (k : Counting) (now : CTime), s.power = .running ∧ s.clock.state = .running ∧
      s.clock.count = some k ∧ s.clock.now = some now ∧ 0 < quantaFrom k.time now) ∧
    (∃ (s : State) (k : Counting) (held : CTime), s.power = .running ∧ s.clock.state = .held ∧
      s.clock.count = some k ∧ s.clock.held = some held ∧ quantaFrom k.time held = 0) ∧
    (∀ n ∈ [1, 2], ∃ (s : State) (x : StepTimer), s.power = .running ∧ s.scanner.timer = some x ∧
      x.left = n ∧ s.superv.timer = n) ∧
    ∃ (s : State) (got : List Byte), s.power = .running ∧ s.link.rx = .inFrame got 20 :=
  ⟨⟨State.reset, rfl, rfl⟩, ⟨base, rfl, by decide⟩,
    ⟨{ base with clock := ⟨.running, some ⟨⟨101, 0⟩, 0⟩, some ⟨100, 287⟩, none⟩ }, _, _, rfl, rfl, rfl, rfl,
      by decide⟩,
    ⟨{ base with clock := ⟨.held, some ⟨nowT, 0⟩, some nowT, some nowT⟩ }, _, _, rfl, rfl, rfl, rfl, by decide⟩,
    fun n _ => ⟨{ base with scanner := ⟨0, some ⟨64, n⟩, 0⟩, superv := ⟨0, .linked, n, 0, 0⟩ }, ⟨64, n⟩, rfl, rfl,
      rfl, rfl⟩,
    ⟨{ base with link := { Link.reset with rx := .inFrame [1] 20 } }, [1], rfl, rfl⟩⟩

theorem witness_SetClockSetsTheClock :
    (∃ s u, Taken (.setClock 0 288 0) s u) ∧ (∃ s u, Taken (.setClock 0 0 300000) s u) ∧
    ∃ s u, Taken (.setClock 0 287 299999) s u ∧ u.clock.state = .unset :=
  ⟨⟨_, _, taken_asked idle_base _⟩, ⟨_, _, taken_asked idle_base _⟩, ⟨_, _, taken_asked idle_reset _, rfl⟩⟩

/-- SetClock on `base`, whose counting time is day 100, quantum 96, millisecond 0: offsets 0, 600,000, 600,001,
-600,000; and, with 50,000 ms counted, a backward trim within the quantum. -/
theorem witness_SetClockByOffset :
    (∃ (d q m : Nat) (s u : State) (c : Counting), Taken (.setClock d q m) s u ∧ q ≤ 287 ∧ m ≤ 299999 ∧
      u.clock = ⟨.running, some c, some nowT, none⟩ ∧ quantaFrom c.time nowT ≤ 0 ∧ timeOk nowT = true ∧
      msFrom ⟨⟨d, q⟩, m⟩ c = 0) ∧
    (∃ (d q m : Nat) (s u : State) (c : Counting), Taken (.setClock d q m) s u ∧ q ≤ 287 ∧ m ≤ 299999 ∧
      u.clock = ⟨.running, some c, some nowT, none⟩ ∧ quantaFrom c.time nowT ≤ 0 ∧
      600000 < msFrom ⟨⟨d, q⟩, m⟩ c) ∧
    (∃ (d q m : Nat) (s u : State) (c : Counting), Taken (.setClock d q m) s u ∧ q ≤ 287 ∧ m ≤ 299999 ∧
      u.clock = ⟨.running, some c, some nowT, none⟩ ∧ quantaFrom c.time nowT ≤ 0 ∧
      msFrom ⟨⟨d, q⟩, m⟩ c = 600000) ∧
    (∃ (d q m : Nat) (s u : State) (c : Counting), Taken (.setClock d q m) s u ∧ q ≤ 287 ∧ m ≤ 299999 ∧
      u.clock = ⟨.running, some c, some nowT, none⟩ ∧ quantaFrom c.time nowT ≤ 0 ∧
      msFrom ⟨⟨d, q⟩, m⟩ c < 0 ∧ (⟨d, q⟩ : CTime) = nowT) ∧
    ∃ (d q m : Nat) (s u : State) (c : Counting), Taken (.setClock d q m) s u ∧ q ≤ 287 ∧ m ≤ 299999 ∧
      u.clock = ⟨.running, some c, some nowT, none⟩ ∧ quantaFrom c.time nowT ≤ 0 ∧
      msFrom ⟨⟨d, q⟩, m⟩ c = -600000 ∧ (⟨d, q⟩ : CTime) ≠ nowT :=
  ⟨⟨100, 96, 0, _, _, ⟨nowT, 0⟩, taken_asked idle_base _, by decide, by decide, rfl, by decide, by decide,
      by decide⟩,
    ⟨100, 98, 1, _, _, ⟨nowT, 0⟩, taken_asked idle_base _, by decide, by decide, rfl, by decide, by decide⟩,
    ⟨100, 98, 0, _, _, ⟨nowT, 0⟩, taken_asked idle_base _, by decide, by decide, rfl, by decide, by decide⟩,
    ⟨100, 96, 0, _, _, ⟨nowT, 50000⟩,
      taken_asked (s := { base with clock := ⟨.running, some ⟨nowT, 50000⟩, some nowT, none⟩ }) idle_base _,
      by decide, by decide, rfl, by decide, by decide, by decide⟩,
    ⟨100, 94, 0, _, _, ⟨nowT, 0⟩, taken_asked idle_base _, by decide, by decide, rfl, by decide, by decide,
      by decide⟩⟩

/-- A clock held at quantum 96 with the counting time at quantum 95. -/
def heldBase : State :=
  { base with clock := ⟨.held, some ⟨⟨100, 95⟩, 0⟩, some nowT, some nowT⟩ }

theorem witness_SetClockWhileHeld :
    ∀ x ∈ [(95, 0), (97, 1), (95, 299999), (96, 0), (93, 0), (94, 0)], ∃ s u,
      Taken (.setClock 100 x.1 x.2) s u ∧ x.1 ≤ 287 ∧ x.2 ≤ 299999 ∧
      u.clock = ⟨.held, some ⟨⟨100, 95⟩, 0⟩, some nowT, some nowT⟩ ∧
      quantaFrom (⟨100, 95⟩ : CTime) nowT < 0 ∧ timeOk nowT = true := by
  intro x hx
  refine ⟨_, _, taken_asked (s := heldBase) idle_base _, ?_, ?_, rfl, by decide, by decide⟩ <;>
    revert x <;> decide

theorem witness_ClockStaysLegal : ClockLegal base.clock ∧ ∃ t, step base = .next t :=
  ⟨⟨⟨_, rfl, by decide, by decide⟩, ⟨_, rfl, by decide⟩, rfl⟩, _, rfl⟩

theorem witness_outside_resets :
    ∃ (c : Instr) (s t : State), exec c s = .next t ∧ isReset c = false ∧ movesClock c = false ∧
      loadsModel c = false :=
  ⟨.scanStepExpiry, base, _, rfl, by decide⟩

/-! The host link -/

theorem witness_HostFrameReceived : (∀ body : List Byte, body.length = 240 → frameOk ⟨255, 255, body⟩ = true) ∧
    base.power = .running ∧ base.link.rx = .hunting :=
  ⟨fun body h => by simp [frameOk, byteOk, h], rfl, rfl⟩

theorem witness_RequestRoundTrip :
    (commandOf (.setClock 65535 65535 16777215)).wf = true ∧
    (.setClock 65535 65535 16777215 : HostRequest) ≠ .setPolicy .unreadable := by decide

theorem witness_ReceiverDropsBadFrames :
    (∃ s : State, s.power = .running ∧ s.link.rx = .hunting) ∧
    (∃ s : State, s.power = .running ∧ s.link.rx = .inFrame [0] 20) ∧
    ∃ s : State, s.power = .running ∧ s.link.rx = .inFrame [0] 21 :=
  ⟨⟨base, rfl, rfl⟩, ⟨{ base with link := { Link.reset with rx := .inFrame [0] 20 } }, rfl, rfl⟩,
    ⟨{ base with link := { Link.reset with rx := .inFrame [0] 21 } }, rfl, rfl⟩⟩

/-- A part whose forward trim into quantum 97 has been answered, its boundary work waiting at line 3 alone. -/
def trimmed : State :=
  forLine 3 (.boundary ⟨⟨100, 97⟩, false⟩)
    { base with link := { Link.reset with frames := [⟨1, 2, []⟩], trimmed := some ⟨⟨100, 97⟩, false⟩ } }

theorem witness_FrameMeetsTheSlot :
    (∃ b l, trimmed.link.trimmed = some b ∧ .boundary b ∈ (trimmed.lines.get l).intake) ∧
    (∃ b, { trimmed with lines := base.lines }.link.trimmed = some b ∧
      .boundary b ∉ { trimmed with lines := base.lines }.engine.intake) ∧
    (∃ (f : Frame) (s : State), s.power = .running ∧ s.link.resetWait = none ∧ s.link.frames = [f] ∧
      s.link.slot.isSome = true) ∧
    (∃ (f : Frame) (s : State), s.power = .running ∧ s.link.resetWait = none ∧ s.link.frames = [f] ∧
      s.link.slot = none ∧ decodeRequest f = .unknownKind) ∧
    (∃ (f : Frame) (s : State), s.power = .running ∧ s.link.resetWait = none ∧ s.link.frames = [f] ∧
      s.link.slot = none ∧ decodeRequest f = .badLength) ∧
    ∃ (f : Frame) (s : State), s.power = .running ∧ s.link.resetWait = none ∧ s.link.frames = [f] ∧
      s.link.slot = none ∧ decodeRequest f = .request .identify :=
  ⟨⟨_, 3, rfl, List.mem_singleton.2 rfl⟩, ⟨_, rfl, by decide⟩, ⟨⟨1, 2, []⟩, { base with link := { Link.reset with
        frames := [⟨1, 2, []⟩], slot := some ⟨1, 1, .identify, .handed⟩ } }, rfl, rfl, rfl, rfl⟩,
    ⟨⟨9, 2, []⟩, { base with link := { Link.reset with frames := [⟨9, 2, []⟩] } }, rfl, rfl, rfl, rfl,
      by decide⟩,
    ⟨⟨1, 2, [0]⟩, { base with link := { Link.reset with frames := [⟨1, 2, [0]⟩] } }, rfl, rfl, rfl, rfl,
      by decide⟩,
    ⟨⟨1, 2, []⟩, { base with link := { Link.reset with frames := [⟨1, 2, []⟩] } }, rfl, rfl, rfl, rfl,
      by decide⟩⟩

theorem witness_OneReplyPerRequest :
    ∃ (c : Instr) (s t : State) (sl : Slot), isReset c = false ∧ s.link.slot = some sl ∧ exec c s = .next t :=
  ⟨.identify, asked .identify base, _, ⟨0x20, 7, .identify, .handed⟩, by decide, rfl,
    (taken_asked idle_base .identify).hostStep _⟩

theorem witness_IdentifyReply : ∃ s u, Taken .identify s u := ⟨_, _, taken_asked idle_base _⟩

theorem witness_StatusReportsAndCountersRead :
    ∀ r ∈ [HostRequest.getStatus 1, .getStatus 2, .readReports 0 12, .readReports 0 13, .readReports 1 8,
      .readReports 1 9, .readReports 2 0, .readCounters 1, .readCounters 2], ∃ s u, Taken r s u :=
  fun r _ => ⟨_, _, taken_asked idle_base r⟩

theorem witness_SupervisionExpiry : ∀ n ∈ [1, 2, 3], ∃ s : State, s.power = .running ∧ 0 < s.superv.due ∧
    s.superv.counter = n :=
  fun n _ => ⟨{ base with superv := ⟨n, .linked, 1, 0, 1⟩ }, rfl, Nat.one_pos, rfl⟩

theorem witness_SummaryByte : TablesCanonical base := canonical_base

theorem policyInRange_reset : PolicyInRange State.reset.policy := by
  simp [PolicyInRange, State.reset, Policy.default]

theorem witness_SizesAndPolicyStayInRange :
    WithinSizes State.reset ∧ PolicyInRange State.reset.policy ∧ ∃ t, step State.reset = .next t :=
  ⟨by unfold WithinSizes; decide, policyInRange_reset, _, rfl⟩

theorem witness_TablesStayCanonical : TablesCanonical base ∧ ∃ t, step base = .next t := ⟨canonical_base, _, rfl⟩

/-! The Campus Model Store -/

theorem witness_SetPolicyClamps :
    (∃ s u, Taken (.setPolicy (.absentAction 3)) s u) ∧ (∃ s u, Taken (.setPolicy (.absentReport 2)) s u) ∧
    (∃ s u, Taken (.setPolicy (.grace 6)) s u ∧ 1 ≤ 6 ∧ 6 ≤ 6) ∧
    (∃ s u, Taken (.setPolicy (.grace 7)) s u ∧ ¬(7 ≤ 6)) ∧ 16 ∈ [16, 32, 64, 128, 256, 512, 1024] :=
  ⟨⟨_, _, taken_asked idle_base _⟩, ⟨_, _, taken_asked idle_base _⟩,
    ⟨_, _, taken_asked idle_base _, by decide, by decide⟩, ⟨_, _, taken_asked idle_base _, by decide⟩, by decide⟩

theorem witness_ReadsAnswerWhatStands :
    (∀ r ∈ [HostRequest.readPolicy, .readRoom 511, .readRoom 512, .readKitchen 7, .readDistance 8,
      .readMenuClass 31, .queryOrder ⟨767, 63⟩, .readLoad 7 ⟨100, 287⟩ 48, .readLoad 0 ⟨108, 0⟩ 1,
      .readProduction 7 none 8, .readProduction 7 (some (⟨100, 287⟩, 0)) 8, .readProduction 7 (some (⟨100, 288⟩, 0)) 8,
      .readChain 4, .readPosition 4 1, .readLineHealth 4], ∃ s u, Taken r s u) ∧
    ∀ l : Fin 4, ∀ p ∈ [0, 1, 48, 49], (∃ s u, Taken (.readChain l.val) s u) ∧
      (∃ s u, Taken (.readPosition l.val p) s u) ∧ ∃ s u, Taken (.readLineHealth l.val) s u :=
  ⟨fun r _ => ⟨_, _, taken_asked idle_base r⟩, fun _ _ _ => ⟨⟨_, _, taken_asked idle_base _⟩,
    ⟨_, _, taken_asked idle_base _⟩, ⟨_, _, taken_asked idle_base _⟩⟩⟩

theorem witness_TableLoads :
    ∀ r ∈ [HostRequest.loadDistance 7 23 (some 12), .loadDistance 7 23 (some 13), .loadMenuClass 31 255 24 8,
      .loadMenuClass 31 1 25 8, .loadKitchen 7 ⟨255, 8, 0, 288⟩, .loadKitchen 7 ⟨255, 9, 0, 288⟩],
      ∃ s u, Taken r s u ∧ TablesCanonical s :=
  fun r _ => ⟨_, _, taken_asked idle_base r, canonical_asked canonical_base r⟩

/-- A room entry with no binding, one bound where room 5 is, and the unused entry. -/
def spec (b : Nat) (bind : Option (Nat × Nat)) : RoomSpec := ⟨b, 500, 6, 7, none, bind, 0, 0⟩

theorem witness_RoomLoads :
    (∃ s u, Taken (.loadRoom 511 (spec 23 none)) s u) ∧ (∃ s u, Taken (.loadRoom 512 (spec 23 none)) s u) ∧
    (∀ n ∈ [31, 23], ∃ s u e, takeEngine (.loadRoomCheck 5 (spec n none)) s = some u ∧
      u.link.slot.isSome = true ∧ TablesCanonical s ∧ specEntry (spec n none) = some e ∧
      (e = none ↔ n = 31)) ∧
    (∃ u, u = served .readPolicy (booked booking) ∧ reservations u 5 none ≠ []) ∧
    (∃ s u n a b, takeEngine (.loadRoomCheck 5 (spec 23 none)) s = some u ∧ u.link.slot.isSome = true ∧
      specEntry (spec 23 none) = some (some n) ∧ n.binding = none ∧ turnaround u 5 < n.turnaround ∧
      reservations u 5 none = [] ++ a :: b :: [] ∧ idx u b.start < idx u a.fin + n.turnaround) ∧
    (∀ x ∈ [(⟨2, 10, 1, 0, some 1, some (0, 3), 1, 0⟩ : RoomSpec), ⟨2, 10, 1, 0, some 1, some (0, 3), 0, 7⟩,
      ⟨2, 10, 2, 0, some 1, some (0, 3), 0, 0⟩, ⟨3, 11, 1, 1, none, some (0, 3), 0, 0⟩], ∃ s e,
      takeEngine (.loadRoomCheck 5 x) s = some (served .readPolicy base) ∧ specEntry x = some (some e) ∧
      e.binding = bindingOf base 5) ∧
    ∃ n b, specEntry (spec 23 (some (0, 3))) = some (some n) ∧ n.binding = some b ∧
      bindingOf base 5 = some b ∧ ∀ r', r' ≠ 9 → bindingOf base r' = some b → 5 ≤ r' := by
  have known : ∀ x : RoomSpec, ∃ s, takeEngine (.loadRoomCheck 5 x) s = some (served .readPolicy base) :=
    fun x => ⟨_, taken_engine (s := served .readPolicy base) idle_base _⟩
  refine ⟨⟨_, _, taken_asked idle_base _⟩, ⟨_, _, taken_asked idle_base _⟩, ?_, ⟨_, rfl, by decide⟩,
    ⟨_, served .readPolicy (bookedTwice booking { booking with start := ⟨100, 112⟩, fin := ⟨100, 120⟩ } 5),
      _, ⟨booking.start, booking.fin⟩, ⟨⟨100, 112⟩, ⟨100, 120⟩⟩,
      taken_engine (s := served .readPolicy
        (bookedTwice booking { booking with start := ⟨100, 112⟩, fin := ⟨100, 120⟩ } 5)) idle_base _,
      rfl, rfl, rfl, by decide, by decide, by decide⟩, fun x hx => ?_, ?_⟩
  rotate_left
  · obtain ⟨s, hs⟩ := known x
    simp only [List.mem_cons, List.not_mem_nil, or_false] at hx
    obtain rfl | rfl | rfl | rfl := hx <;> exact ⟨s, _, hs, rfl, rfl⟩
  rotate_left
  · intro n hn
    simp only [List.mem_cons, List.not_mem_nil, or_false] at hn
    obtain rfl | rfl := hn
    · exact ⟨_, _, none, taken_engine (s := served .readPolicy base) idle_base _, rfl, canonical_base, by decide,
        by decide⟩
    · exact ⟨_, _, _, taken_engine (s := served .readPolicy base) idle_base _, rfl, canonical_base, rfl, by decide⟩
  · refine ⟨_, ⟨0, 3⟩, rfl, rfl, rfl, ?_⟩
    intro r' h9 hb
    by_cases h : r' = 5
    · omega
    · exfalso
      have : ∀ k, k ≠ 5 → k ≠ 9 → base.rooms.get none k = none := by
        intro k h5 h9; simp [base, Table.get, Table.lookup, Ne.symm h5, Ne.symm h9]
      simp [bindingOf, roomAt, this r' h h9] at hb

theorem witness_KitchenChangeMarks : ∃ s u, takePlanner (.kitchenChange 7 255 8) s = some u ∧
    u.link.slot.isSome = true ∧ TablesCanonical s ∧ 0 < plannerIdx u ∧ plannerIdx u ≤ 2303 :=
  ⟨_, _, taken_planner (s := served .readPolicy base) idle_base _, rfl, canonical_base, by decide, by decide⟩

/-! The Reservation Engine -/

/-- A span of room 5 that starts now and ends 3 quanta later, for 10 people. -/
def req : BookReq := ⟨5, nowT, ⟨100, 99⟩, 10, 1⟩

theorem admissible_base : Admissible base 5 nowT ⟨100, 99⟩ 10 :=
  ⟨room5, nowT, rfl, rfl, by decide, rfl, by decide, by decide, by decide, by decide, by decide, by
    unfold NoConflict; decide⟩

theorem witness_BookingsCreated :
    (∃ (q : BookReq) (s u : State), Taken (.book q) s u ∧ TablesCanonical s ∧ FieldsInRange q ∧
      Admissible u q.room q.start q.fin q.attendees ∧ u.store.free = [0, 1]) ∧
    ∃ (q : BookReq) (n : Nat) (now : CTime) (s u : State), Taken (.hold q n) s u ∧ TablesCanonical s ∧
      FieldsInRange q ∧ 1 ≤ n ∧ n ≤ u.policy.holdLimit ∧ Admissible u q.room q.start q.fin q.attendees ∧
      engineNow u = some now ∧ u.store.holds.length < 64 ∧ u.store.free = [0, 1] :=
  ⟨⟨req, _, _, taken_asked idle_base _, canonical_asked canonical_base _, by decide, admissible_base, rfl⟩,
    ⟨req, 3, nowT, _, _, taken_asked idle_base _, canonical_asked canonical_base _, by decide, by decide,
      by decide, admissible_base, rfl, by decide, rfl⟩⟩

theorem witness_NewBookingsDoNotConflict :
    ∃ (c : Instr) (s t : State) (b : Booking), TablesCanonical s ∧ exec c s = .next t ∧
      bookingAt s 0 = none ∧ bookingAt t 0 = some b :=
  ⟨.book req, asked (.book req) base, _, _, canonical_asked canonical_base _,
    (taken_asked idle_base (.book req)).hostStep (doBook req), rfl, rfl⟩

/-- The small state with the pool empty, or with 64 holds. -/
def poolEmpty : State := { base with store := { base.store with free := [] } }
def holdsFull : State := { base with store := { base.store with holds := List.replicate 64 ⟨0, 0⟩ } }

/-- Requests that meet each check of the chain in turn, by Book and by Hold: an attendance of 501, a room above 511,
a room not in use, lengths of 2 and 145, a start before now, 11 people in 10 seats, a reservation, an admissible span
with 64 holds, and one with the pool empty. A refused hold time is the last. -/
theorem witness_EngineRefusals :
    (∀ n : Nat, ∀ q : BookReq, ∀ s ∈ [base, booked booking, poolEmpty, holdsFull], ∀ r ∈ [HostRequest.book q, .hold q n],
      Taken r (asked r s) (served r s)) ∧
    (∀ q ∈ [{ req with attendees := 501 }, { req with start := ⟨100, 288⟩ }], ¬ FieldsInRange q) ∧
    (∀ q ∈ [req, { req with room := 6 }, { req with fin := ⟨100, 98⟩ }, { req with start := ⟨100, 95⟩ },
      { req with attendees := 11 }], FieldsInRange q) ∧
    roomAt base 6 = none ∧ idx base ⟨100, 98⟩ - idx base nowT = 2 ∧ idx base ⟨100, 95⟩ < idx base nowT ∧
    engineNow State.reset = none ∧
    firstConflict (booked booking) 5 ⟨⟨100, 101⟩, ⟨100, 104⟩⟩ none = some ⟨100, 100⟩ ∧
    Admissible base req.room req.start req.fin req.attendees ∧ poolEmpty.store.free = [] ∧
    64 ≤ holdsFull.store.holds.length ∧ (∀ n ∈ [0, 4], ¬(1 ≤ n ∧ n ≤ base.policy.holdLimit)) ∧
    (1 ≤ 3 ∧ 3 ≤ base.policy.holdLimit) ∧
    (∀ h ∈ [Handle.mk 2048 0, ⟨0, 64⟩, ⟨0, 2⟩], ∃ s u, Taken (.confirm h) s u) ∧
    ∃ s u b, Taken (.confirm ⟨0, 3⟩) s u ∧ recordAt u 0 = ⟨3, some b⟩ ∧ b.pending ≠ none := by
  refine ⟨fun n q s hs r _ => taken_asked ?_ r, by decide, by decide, by decide, by decide, by decide, rfl, by decide,
    admissible_base, rfl, by simp [holdsFull], by decide, by decide,
    fun _ _ => ⟨_, _, taken_asked (idle_booked booking) _⟩,
    ⟨_, _, _, taken_asked (idle_booked { booking with pending := some .orderPending }) _, rfl, by decide⟩⟩
  simp only [List.mem_cons, List.not_mem_nil, or_false] at hs
  obtain rfl | rfl | rfl | rfl := hs <;> exact idle_base

/-- The booking in each state, and under the conditions the clauses name. -/
theorem witness_ConfirmCancelEndCheckIn :
    ∀ b ∈ [booking, { booking with state := .tentative, expiry := some ⟨100, 98⟩ },
        { booking with state := .checkedIn, start := nowT }, { booking with order := some ⟨0, 2⟩ },
        { booking with start := ⟨100, 97⟩ }, { booking with start := nowT, fin := ⟨100, 97⟩ }],
      ∀ n ∈ [0, 1, 2],
      (∃ s u, Taken (.confirm ⟨0, 3⟩) s u ∧ TablesCanonical s ∧ Names u ⟨0, 3⟩ b) ∧
      (∃ s u, Taken (.cancel ⟨0, 3⟩ n) s u ∧ TablesCanonical s ∧ Names u ⟨0, 3⟩ b) ∧
      (∃ s u, Taken (.endBooking ⟨0, 3⟩) s u ∧ TablesCanonical s ∧ Names u ⟨0, 3⟩ b ∧
        engineNow u = some nowT) ∧
      ∃ s u, Taken (.checkIn ⟨0, 3⟩ 9) s u ∧ TablesCanonical s ∧ Names u ⟨0, 3⟩ b ∧
        engineNow u = some nowT := by
  intro b hb n _
  have hp : b.pending = none := by revert b; decide
  have hn : ∀ r : HostRequest, Names (served r (booked b)) ⟨0, 3⟩ b :=
    fun r => ⟨by decide, by decide, rfl, hp⟩
  exact ⟨⟨_, _, taken_asked (idle_booked b) _, canonical_asked (canonical_booked b) _, hn _⟩,
    ⟨_, _, taken_asked (idle_booked b) _, canonical_asked (canonical_booked b) _, hn _⟩,
    ⟨_, _, taken_asked (idle_booked b) _, canonical_asked (canonical_booked b) _, hn _, rfl⟩,
    ⟨_, _, taken_asked (idle_booked b) _, canonical_asked (canonical_booked b) _, hn _, rfl⟩⟩

theorem witness_FreeingABooking : ∀ out ∈ [Terminal.ended, .cancelled, .expired, .released nowT],
    TablesCanonical (booked booking) ∧ recordAt (booked booking) 0 = ⟨3, some booking⟩ ∧
      ∃ t, t = freeBooking 0 booking out (booked booking) :=
  fun _ _ => ⟨canonical_booked _, rfl, _, rfl⟩

theorem witness_QueriesAndAcceptance :
    (∀ n ∈ [511, 512, 5, 6], ∀ q ∈ [287, 288], ∃ s u, Taken (.queryRoom n 100 (some ⟨100, q⟩)) s u) ∧
    (∀ h ∈ [Handle.mk 2047 63, ⟨2048, 0⟩, ⟨0, 3⟩], ∃ s u, Taken (.queryBooking h) s u) ∧
    ∀ p : Bool, ∃ s u b, Taken (.acceptProvisional ⟨0, 3⟩) s u ∧ TablesCanonical s ∧ Names u ⟨0, 3⟩ b ∧
      b.provisional = p :=
  ⟨fun _ _ _ _ => ⟨_, _, taken_asked (idle_booked booking) _⟩,
    fun _ _ => ⟨_, _, taken_asked (idle_booked booking) _⟩,
    fun p => ⟨_, _, _, taken_asked (idle_booked { booking with provisional := p }) _,
      canonical_asked (canonical_booked _) _, ⟨by decide, by decide, rfl, rfl⟩, rfl⟩⟩

/-- A move of the booking to room `r`, start `q` of day 100, 10 quanta long, for `n` people. -/
def moved (r q n : Nat) : MoveReq := ⟨⟨0, 3⟩, r, ⟨100, q⟩, ⟨100, q + 10⟩, n, 0⟩

/-- The booking with an order linked. -/
def catered : Booking := { booking with order := some ⟨0, 2⟩ }

/-- Moves that meet each check in turn: a room above 511, a room not in use, a length of 2, a start before now, too
many people, a reservation of room 9, the present values, a new start with an order, a new room. -/
theorem witness_MoveWork :
    (∀ (r q n : Nat), ∀ b ∈ [booking, catered], ∃ s u, Taken (.move (moved r q n)) s u ∧ TablesCanonical s ∧
      Names u (moved r q n).booking b ∧ u = served (.move (moved r q n)) (booked b)) ∧
    511 < (moved 512 100 4).room ∧ roomAt (booked booking) 6 = none ∧
    (roomAt (booked booking) 9).map RoomEntry.inService = some true ∧
    idx base ⟨100, 102⟩ - idx base ⟨100, 100⟩ = 2 ∧ idx (booked booking) ⟨100, 95⟩ < idx (booked booking) nowT ∧
    ((roomAt (booked booking) 9).map RoomEntry.seats).getD 0 < 5 ∧
    firstConflict (bookedTwice booking { booking with room := 9 } 9) 9 ⟨⟨100, 100⟩, ⟨100, 110⟩⟩ (some 0) =
      some ⟨100, 100⟩ ∧
    firstConflict (booked booking) 5 ⟨⟨100, 100⟩, ⟨100, 110⟩⟩ (some 0) = none ∧
    firstConflict (booked catered) 5 ⟨⟨100, 102⟩, ⟨100, 112⟩⟩ (some 0) = none ∧
    firstConflict (booked catered) 9 ⟨⟨100, 100⟩, ⟨100, 110⟩⟩ (some 0) = none := by
  refine ⟨?_, by decide, by decide, by decide, by decide, by decide, by decide, by decide, by decide⟩
  intro r q n b hb
  have hp : b.pending = none := by revert b; decide
  exact ⟨_, _, taken_asked (idle_booked b) _, canonical_asked (canonical_booked b) _,
    ⟨by simp [moved], by simp [moved], rfl, hp⟩, rfl⟩

/-- A FindRoom for `n` people from now, with flags `f`. -/
def find (n f : Nat) : FindReq := ⟨some 2, nowT, ⟨100, 99⟩, n, 1, 3, f⟩

theorem witness_FindRoomChoosesTheSmallest : ∀ f ∈ [0, 1],
    (∃ s u, Taken (.findRoom (find 11 f)) s u ∧ TablesCanonical s ∧ engineNow u = some nowT ∧
      3 ≤ idx u (find 11 f).fin - idx u (find 11 f).start ∧ ∀ r e, ¬ RoomFits u (find 11 f) r e) ∧
    (∃ s u, Taken (.findRoom (find 4 f)) s u ∧ TablesCanonical s ∧ RoomFits u (find 4 f) 9 room9 ∧
      (∀ r' e', RoomFits u (find 4 f) r' e' → room9.seats < e'.seats ∨ (room9.seats = e'.seats ∧ 9 ≤ r')) ∧
      u.store.holds.length < 64 ∧ u.store.free = [0, 1]) ∧
    (∃ s u, Taken (.findRoom (find 4 f)) s u ∧ 64 ≤ u.store.holds.length) ∧
    (∃ s u, Taken (.findRoom (find 4 f)) s u ∧ RoomFits u (find 4 f) 9 room9 ∧ u.store.holds.length < 64 ∧
      u.store.free = []) ∧
    (∀ q ∈ [find 0 f, find 501 f, { find 4 f with fin := ⟨100, 98⟩ }, { find 4 f with start := ⟨100, 95⟩ }],
      ∃ s u, Taken (.findRoom q) s u ∧ engineNow u = some nowT) ∧
    ∃ s u, Taken (.findRoom (find 4 f)) s u ∧ engineNow u = none := by
  intro f _
  have key : ∀ k, k ≠ 5 → k ≠ 9 → base.rooms.get none k = none := by
    intro k h5 h9; simp [base, Table.get, Table.lookup, Ne.symm h5, Ne.symm h9]
  have len : (3 : Int) ≤ idx base ⟨100, 99⟩ - idx base nowT := by decide
  have fits : RoomFits base (find 4 0) 9 room9 :=
    ⟨rfl, by intro b hb; cases hb; rfl, rfl, by decide, by decide, by unfold NoConflict; decide⟩
  refine ⟨⟨_, _, taken_asked idle_base _, canonical_asked canonical_base _, rfl, len, ?_⟩,
    ⟨_, _, taken_asked idle_base _, canonical_asked canonical_base _, fits, ?_, Nat.zero_lt_succ _, rfl⟩,
    ⟨_, _, taken_asked (s := holdsFull) idle_base _, by simp [served, holdsFull]⟩,
    ⟨_, _, taken_asked (s := poolEmpty) idle_base _, fits, Nat.zero_lt_succ _, rfl⟩,
    fun _ _ => ⟨_, _, taken_asked idle_base _, rfl⟩, ⟨_, _, taken_asked idle_reset _, rfl⟩⟩
  · rintro r e ⟨h1, _, _, _, h5, _⟩
    have h1' : base.rooms.get none r = some e := h1
    have h5' : 11 ≤ e.seats := h5
    by_cases e5 : r = 5
    · subst e5; cases h1'; exact absurd h5' (by decide)
    · by_cases e9 : r = 9
      · subst e9; cases h1'; exact absurd h5' (by decide)
      · rw [key r e5 e9] at h1'; cases h1'
  · rintro r e ⟨h1, _⟩
    have h1' : base.rooms.get none r = some e := h1
    by_cases e5 : r = 5
    · subst e5; cases h1'; exact .inl (by decide)
    · by_cases e9 : r = 9
      · subst e9; cases h1'; exact .inr ⟨rfl, by decide⟩
      · rw [key r e5 e9] at h1'; cases h1'

theorem witness_PlaceOrderAndItsAnswer :
    (∀ b ∈ [booking, catered, { booking with state := .checkedIn }], ∃ s u,
      Taken (.placeOrder ⟨0, 3⟩ 1 [⟨4, 20⟩]) s u ∧ TablesCanonical s ∧ Names u ⟨0, 3⟩ b) ∧
    ∀ a ∈ [AdmissionAnswer.admitted ⟨0, 2⟩ 0 1 ⟨100, 100⟩ ⟨100, 104⟩ 16 3, .refused .noKitchenCapacity none],
      ∀ b ∈ [booking, { booking with fin := nowT }], ∃ s u,
        takeEngine (.admissionAnswer ⟨0, 3⟩ a) s = some u ∧ u.link.slot.isSome = true ∧ TablesCanonical s ∧
        bookingAt u 0 = some b ∧ engineNow u = some nowT ∧ (OutcomeDue u b nowT ↔ b.fin = nowT) := by
  refine ⟨fun b hb => ?_, fun a _ b hb => ?_⟩
  · have hp : b.pending = none := by revert b; decide
    exact ⟨_, _, taken_asked (idle_booked b) _, canonical_asked (canonical_booked b) _, by decide, by decide, rfl,
      hp⟩
  · refine ⟨_, _, taken_engine (s := served .readPolicy (booked b)) idle_base _, rfl, canonical_booked b, rfl,
      rfl, ?_⟩
    simp only [List.mem_cons, List.not_mem_nil, or_false] at hb
    obtain rfl | rfl := hb
    · exact ⟨fun h => by
        rcases h with ⟨h, _⟩ | h
        · exact absurd h (by decide)
        · exact absurd h (by decide), fun h => absurd h (by decide)⟩
    · exact ⟨fun _ => rfl, fun _ => .inr (by decide)⟩

/-- The catered booking under MOVE_PENDING, its move staged to quantum 102. -/
def staging : State :=
  { booked { catered with pending := some .movePending } with
    engine := { base.engine with staged := some ⟨⟨0, 3⟩, 5, ⟨100, 102⟩, ⟨100, 112⟩, 0⟩ } }

theorem witness_RefitAnswers :
    (∀ a ∈ [RefitAnswer.fit 0 1 ⟨100, 100⟩ ⟨100, 104⟩, .dropped .cancelled], ∃ s u g b,
      takeEngine (.refitAnswer ⟨0, 3⟩ a) s = some u ∧ u.link.slot.isSome = true ∧ TablesCanonical s ∧
      u.engine.staged = some g ∧ g.booking.index = 0 ∧ bookingAt u 0 = some b ∧ engineNow u = some nowT) ∧
    ∀ a ∈ [RefitAnswer.committed, .noFit ⟨.carts, 0, .none, 0⟩], ∃ s u b,
      takeEngine (.refitAnswer ⟨0, 3⟩ a) s = some u ∧ u.link.slot.isSome = true ∧ TablesCanonical s ∧
      bookingAt u 0 = some b ∧ engineNow u = some nowT := by
  have hc : TablesCanonical staging := canonical_booked _
  exact ⟨fun _ _ => ⟨_, _, _, _, taken_engine (s := served .readPolicy staging) idle_base _, rfl, hc, rfl,
    rfl, rfl, rfl⟩, fun _ _ => ⟨_, _, _, taken_engine (s := served .readPolicy staging) idle_base _, rfl, hc,
    rfl, rfl⟩⟩

theorem witness_EngineBoundaryTakesEveryOutcomeDue : ∃ b s u, takeEngine (.boundary b) s = some u ∧
    TablesCanonical s ∧ b = ⟨⟨100, 110⟩, false⟩ ∧ bookingAt u 0 = some booking :=
  ⟨_, _, _, taken_engine (idle_booked booking) _, canonical_booked booking, rfl, rfl⟩

theorem witness_BookingPoolStaysExact :
    TablesCanonical base ∧ BookingPoolExact State.reset ∧ ∃ t, step State.reset = .next t := by
  have hf : State.reset.store.free = List.range Config.bookingRecords := by
    simp only [State.reset, Store.reset]
  refine ⟨canonical_base, ⟨hf ▸ List.nodup_range, fun i h => ?_, fun i => ?_⟩, _, rfl⟩
  · exact absurd h (by
      have : bookingAt State.reset i = none := rfl
      simp [this])
  · have : bookingAt State.reset i = none := rfl
    rw [hf, List.mem_range]
    simp [this, Config.bookingRecords]

theorem witness_ScannerAndVisits :
    (∃ s : State, s.power = .running ∧ 0 < s.scanner.due) ∧
    (∃ s : State, s.power = .running ∧ s.scanner.due = 0) ∧
    (∀ b ∈ [{ booking with start := ⟨100, 94⟩ }, { booking with start := ⟨100, 95⟩ }], ∃ s u,
      takeEngine (.visit 5) s = some u ∧ TablesCanonical s ∧ currentBooking u 5 = some (0, b) ∧
      engineNow u = some nowT) ∧
    ∃ s u, takeEngine (.visit 5) s = some u ∧ currentBooking u 5 = none := by
  refine ⟨⟨base, rfl, Nat.one_pos⟩, ⟨State.reset, rfl, rfl⟩, fun b hb => ?_, ⟨_, _,
    taken_engine (idle_booked booking) _, by decide⟩⟩
  refine ⟨_, _, taken_engine (idle_booked b) _, canonical_booked b, ?_, rfl⟩
  revert b; decide

theorem witness_CheckInsWithoutTheHost :
    (∀ x ∈ [base, State.reset], ∃ s s', (roomBookings x 5 = [] ∨ engineNow x = none) ∧
      takeEngine (.occupancy 5) s = some x ∧ takeEngine (.checkin ⟨0, 3, 1⟩ 5 9) s' = some x) ∧
    ∀ b ∈ [{ booking with start := ⟨100, 97⟩ }, { booking with start := ⟨100, 98⟩ }], ∃ s u s',
      (roomBookings u 5).head? = some (0, b) ∧ engineNow u = some nowT ∧
      takeEngine (.occupancy 5) s = some u ∧ TablesCanonical s ∧
      takeEngine (.checkin ⟨0, 3, 1⟩ 5 9) s' = some u ∧ TablesCanonical s' := by
  refine ⟨fun x hx => ?_, fun b _ => ⟨_, booked b, _, rfl, rfl, taken_engine (idle_booked b) _, canonical_booked b,
    taken_engine (idle_booked b) _, canonical_booked b⟩⟩
  simp only [List.mem_cons, List.not_mem_nil, or_false] at hx
  obtain rfl | rfl := hx
  · exact ⟨_, _, .inl rfl, taken_engine idle_base _, taken_engine idle_base _⟩
  · exact ⟨_, _, .inr rfl, taken_engine idle_reset _, taken_engine idle_reset _⟩

/-- The booking checked in and current. -/
def current : Booking := { booking with state := .checkedIn, start := nowT }

theorem witness_PanelBookingRequests :
    (∀ n ∈ [2, 3, 12, 13], ∀ r ∈ [5, 6], ∃ s u, takeEngine (.walkup ⟨0, 3, 1⟩ r n 9) s = some u ∧
      TablesCanonical s ∧ engineNow u = some nowT ∧ u.store.free = [0, 1]) ∧
    (∃ s u, takeEngine (.walkup ⟨0, 3, 1⟩ 5 3 9) s = some u ∧ TablesCanonical s ∧ u.store.free = []) ∧
    (firstConflict base 5 ⟨nowT, shiftTime nowT 3⟩ none = none ∧
      firstConflict (booked booking) 5 ⟨nowT, shiftTime nowT 6⟩ none = some ⟨100, 100⟩) ∧
    (∀ k ∈ [0, 1, 200], ∀ b ∈ [current, { current with pending := some .movePending }], ∃ s u,
      takeEngine (.extend ⟨0, 3, 1⟩ 5 k) s = some u ∧ TablesCanonical s ∧
      currentBooking u 5 = some (0, b) ∧ engineNow u = some nowT) ∧
    (firstConflict (booked current) 5 ⟨nowT, shiftTime current.fin 1⟩ (some 0) = none ∧
      144 < idx base (shiftTime current.fin 200) - idx base nowT) ∧
    (∀ b ∈ [current, { current with state := .tentative }, { current with fin := ⟨100, 97⟩ }], ∃ s u,
      takeEngine (.panelEnd ⟨0, 3, 1⟩ 5) s = some u ∧
      TablesCanonical s ∧ currentBooking u 5 = some (0, b) ∧ engineNow u = some nowT) ∧
    currentBooking base 5 = none := by
  refine ⟨fun n _ r _ => ⟨_, _, taken_engine idle_base _, canonical_base, rfl, rfl⟩,
    ⟨_, _, taken_engine (s := poolEmpty) idle_base _, canonical_base, rfl⟩, by decide, fun k _ b hb => ?_,
    by decide, fun b hb => ?_, rfl⟩
  all_goals
    refine ⟨_, _, taken_engine (idle_booked b) _, canonical_booked b, ?_, rfl⟩
    revert b; decide

/-- The state whose slot holds a CancelOrder that waits for the link notice of order (0, 2). -/
def waiting : State :=
  { booked catered with link := { Link.reset with
      slot := some ⟨0x32, 7, .cancelOrder ⟨0, 2⟩, .afterLink ⟨0, 2⟩ [.u8 7]⟩ } }

theorem witness_PlannerNotices :
    (∃ s u b, takeEngine (.linkNotice ⟨0, 3⟩ ⟨0, 2⟩) s = some u ∧ TablesCanonical s ∧
      liveBooking u ⟨0, 3⟩ = some b ∧ b.order = some ⟨0, 2⟩ ∧ u.link.slot = none) ∧
    (∃ s u k g r body, takeEngine (.linkNotice ⟨0, 3⟩ ⟨0, 2⟩) s = some u ∧ TablesCanonical s ∧
      u.link.slot = some ⟨k, g, r, .afterLink ⟨0, 2⟩ body⟩) ∧
    (∃ s u, takeEngine (.linkNotice ⟨0, 4⟩ ⟨0, 2⟩) s = some u ∧ liveBooking u ⟨0, 4⟩ = none) ∧
    (∃ s u b x, takeEngine (.displayNotice ⟨0, 3⟩ ⟨0, 2⟩) s = some u ∧ liveBooking u ⟨0, 3⟩ = some b ∧
      b.order = some ⟨0, 2⟩ ∧ bindingOf u b.room = some x) ∧
    ∃ s u, takeEngine (.displayNotice ⟨0, 4⟩ ⟨0, 2⟩) s = some u ∧ liveBooking u ⟨0, 4⟩ = none :=
  ⟨⟨_, _, _, taken_engine (idle_booked catered) _, canonical_booked _, rfl, rfl, rfl⟩,
    ⟨_, _, _, _, _, _, taken_engine (s := waiting) idle_base _, canonical_booked catered, rfl⟩,
    ⟨_, _, taken_engine (idle_booked catered) _, rfl⟩,
    ⟨_, _, _, _, taken_engine (idle_booked catered) _, rfl, rfl, rfl⟩,
    ⟨_, _, taken_engine (idle_booked catered) _, rfl⟩⟩

/-! The Catering Planner -/

/-- A computation for the booking: 16 prep units over 3 quanta, at most one quantum of shift. -/
def job (k : JobKind) (room : Nat) : Job := ⟨k, ⟨0, 3⟩, ⟨100, 110⟩, room, [⟨4, 20⟩], 16, 3, 1⟩

/-- A placement is found for room 5; a refusal of its primary kitchen for each reason of R92, the alternate out of reach:
no transit, 6 quanta to the serving time (D − n = 96, now), an opening that ends at 100, no cart, and a capacity of 3
under shares of 6, 5 and 5, a deficit of 3; none for room 6, which is not in use. -/
theorem witness_PlacementIsFirstFit :
    (∃ p, search base none (job .admission 5) = .ok p) ∧
    search { base with distances := .empty } none (job .admission 5) = .error ⟨.unreachable, 0, .unreachable, 0⟩ ∧
    search base none { job .admission 5 with serving := ⟨100, 101⟩ } = .error ⟨.tooLate, 0, .unreachable, 0⟩ ∧
    search { base with kitchens := ⟨[(0, ⟨40, 2, 72, 100⟩)]⟩ } none (job .admission 5) =
      .error ⟨.closed, 0, .unreachable, 0⟩ ∧
    (∀ x ∈ [(Limits.mk 40 0, Reason.carts, 0), (⟨3, 2⟩, .prep, 3)],
      search { base with planner := { base.planner with limits := ⟨[(0, x.1)]⟩ } } none (job .admission 5) =
        .error ⟨x.2.1, x.2.2, .unreachable, 0⟩) ∧
    roomAt base (job .admission 5).room = some room5 ∧ roomAt base (job .admission 6).room = none ∧ 0 < 6 :=
  ⟨⟨_, rfl⟩, rfl, rfl, rfl, fun x hx => by
    simp only [List.mem_cons, List.not_mem_nil, or_false] at hx
    obtain rfl | rfl := hx <;> rfl, rfl, rfl, by decide⟩

/-- The planner at a computation. -/
def computing (j : Job) (s : State) : State := { s with planner := { s.planner with job := some j } }

theorem witness_AdmissionAtThePlanner :
    (∀ n ∈ [0, 1, 6, 7], ∀ ls, ∃ s u, takePlanner (.admission ⟨0, 3⟩ ⟨100, 110⟩ 5 n ls) s = some u ∧
      u = base) ∧
    (∃ s u, takePlanner (.admission ⟨0, 3⟩ ⟨100, 110⟩ 5 1 [⟨4, 250⟩]) s = some u ∧ u.planner.free = []) ∧
    ((classAt base 4).weight ≠ 0 ∧ base.planner.free ≠ []) ∧
    (∃ (j : Job) (p : Placement) (s u : State), s.power = .running ∧ s.planner.job = some j ∧
      j.kind = .admission ∧ TablesCanonical s ∧ u = { s with planner := { s.planner with job := none } } ∧
      search u none j = .ok p ∧ u.planner.free = [0, 1]) ∧
    ∃ (j : Job) (r : Reasons) (s u : State), s.power = .running ∧ s.planner.job = some j ∧
      j.kind = .admission ∧ u = { s with planner := { s.planner with job := none } } ∧
      search u none j = .error r :=
  ⟨fun _ _ _ => ⟨_, _, taken_planner idle_base _, rfl⟩,
    ⟨_, _, taken_planner (s := { base with planner := { base.planner with free := [] } }) idle_base _, rfl⟩,
    by decide,
    ⟨job .admission 5, _, computing (job .admission 5) base, _, rfl, rfl, rfl, canonical_base, rfl, rfl, rfl⟩,
    ⟨job .admission 6, _, computing (job .admission 6) base, _, rfl, rfl, rfl, rfl, rfl⟩⟩

theorem witness_RefitAtThePlanner :
    (∀ o ∈ [order, { order with state := .inProduction }, { order with state := .delivered },
        { order with lines := [⟨5, 20⟩] }, { order with lines := List.replicate 6 ⟨4, 1000⟩ }], ∀ d : Bool, ∃ s u,
      takePlanner (.refit ⟨0, 3⟩ ⟨0, 2⟩ ⟨100, 110⟩ 5 d) s = some u ∧ TablesCanonical s ∧
      liveOrder u ⟨0, 2⟩ = some o) ∧
    (∃ s u, takePlanner (.refit ⟨0, 3⟩ ⟨0, 1⟩ ⟨100, 110⟩ 5 true) s = some u ∧ liveOrder u ⟨0, 1⟩ = none) ∧
    (classAt (ordered order (booked catered)) 4).weight ≠ 0 ∧
    (classAt (ordered order (booked catered)) 5).weight = 0 ∧
    (∃ (j : Job) (d : Bool) (p : Placement) (s u : State), s.power = .running ∧ s.planner.job = some j ∧
      j.kind = .refit ⟨0, 2⟩ d ∧ TablesCanonical s ∧ u = { s with planner := { s.planner with job := none } } ∧
      liveOrder u ⟨0, 2⟩ = some order ∧ search u (some order) j = .ok p) ∧
    ∀ d : Bool, ∃ (j : Job) (r : Reasons) (s u : State), s.power = .running ∧ s.planner.job = some j ∧
      j.kind = .refit ⟨0, 2⟩ d ∧ TablesCanonical s ∧ u = { s with planner := { s.planner with job := none } } ∧
      liveOrder u ⟨0, 2⟩ = some order ∧ search u (some order) j = .error r :=
  ⟨fun o _ _ => ⟨_, _, taken_planner (idle_ordered o catered) _, canonical_ordered o catered, rfl⟩,
    ⟨_, _, taken_planner (idle_ordered order catered) _, rfl⟩, by decide, by decide,
    ⟨job (.refit ⟨0, 2⟩ false) 5, false, _, computing (job (.refit ⟨0, 2⟩ false) 5) (ordered order (booked catered)),
      _, rfl, rfl, rfl, canonical_ordered order catered, rfl, rfl, rfl⟩,
    fun d => ⟨job (.refit ⟨0, 2⟩ d) 6, _, computing (job (.refit ⟨0, 2⟩ d) 6) (ordered order (booked catered)),
      _, rfl, rfl, rfl, canonical_ordered order catered, rfl, rfl, rfl⟩⟩

/-- The order in each state, linked and unlinked. -/
def orders : List Order :=
  [order, { order with booking := none }, { order with state := .inProduction }, { order with state := .delivered }]

theorem witness_OrderWithdrawal :
    (∀ h ∈ [Handle.mk 768 0, ⟨0, 64⟩, ⟨0, 1⟩], ∃ s u, Taken (.cancelOrder h) s u ∧ TablesCanonical s) ∧
    ∀ o ∈ orders,
      (∃ s u, Taken (.cancelOrder ⟨0, 2⟩) s u ∧ TablesCanonical s ∧ liveOrder u ⟨0, 2⟩ = some o) ∧
      ∀ k : HandoffKind, ∃ s u, takePlanner (.handoff ⟨0, 2⟩ ⟨0, 3⟩ k) s = some u ∧ TablesCanonical s ∧
        liveOrder u ⟨0, 2⟩ = some o :=
  ⟨fun _ _ => ⟨_, _, taken_asked (idle_ordered order catered) _,
      canonical_asked (canonical_ordered order catered) _⟩,
    fun o _ => ⟨⟨_, _, taken_asked (idle_ordered o catered) _, canonical_asked (canonical_ordered o catered) _,
      rfl⟩, fun _ => ⟨_, _, taken_planner (idle_ordered o catered) _, canonical_ordered o catered, rfl⟩⟩⟩

/-- The placement of the witnesses' order lies within the horizon, as LoadMoved asks. -/
theorem witness_LoadMoved : 0 ≤ pidx (ordered order (booked catered)) order.departure ∧
    pidx (ordered order (booked catered)) order.departure + 2 * order.transit + 1 ≤ 2303 ∧
    0 ≤ pidx (ordered order (booked catered)) order.window ∧
    pidx (ordered order (booked catered)) order.window + order.len ≤ 2304 := by decide

/-- An order on its way whose serving time is `q`. -/
def onItsWay (q : Nat) : Order := { order with state := .dispatched, serving := ⟨100, q⟩ }

theorem witness_DeliveryAndRoomNotices :
    (∀ h ∈ [Handle.mk 767 63, ⟨768, 0⟩, ⟨0, 64⟩, ⟨0, 1⟩], ∃ s u, Taken (.confirmDelivery h) s u ∧
      TablesCanonical s ∧ liveOrder u h = none) ∧
    (∀ o ∈ orders ++ [onItsWay 97], ∃ s u, Taken (.confirmDelivery ⟨0, 2⟩) s u ∧ TablesCanonical s ∧
      liveOrder u ⟨0, 2⟩ = some o) ∧
    (∃ s u, takePlanner (.receipt ⟨0, 3, 1⟩ 5 9) s = some u ∧ TablesCanonical s ∧
      orderAt u 0 = some (onItsWay 97) ∧ 0 ∈ (List.range 8).flatMap (production u) ∧
      (onItsWay 97).room = 5 ∧ pidx u (onItsWay 97).serving = plannerIdx u + 1 ∧
      ∀ i' o', orderAt u i' = some o' → i' ∈ (List.range 8).flatMap (production u) → i' = 0) ∧
    (∃ s u, takePlanner (.receipt ⟨0, 3, 1⟩ 5 9) s = some u ∧ TablesCanonical s ∧
      ∀ i o, orderAt u i = some o → i ∈ (List.range 8).flatMap (production u) → o.room = 5 →
        plannerIdx u + 1 < pidx u o.serving) ∧
    ∀ h ∈ [Handle.mk 0 2, ⟨0, 3⟩], ∃ s u, takePlanner (.roomNotice h 9) s = some u := by
  have lists : ∀ o : Order, (List.range 8).flatMap (production (ordered o (booked catered))) = [0] := fun o => rfl
  have mem : ∀ (o : Order) (i : Nat), i ∈ (List.range 8).flatMap (production (ordered o (booked catered))) →
      i = 0 := by
    intro o i hi; rw [lists o] at hi; simpa using hi
  refine ⟨fun h hh => ⟨_, served (.confirmDelivery h) (ordered order (booked catered)),
      taken_asked (idle_ordered order catered) _, canonical_asked (canonical_ordered order catered) _, by
        revert h; decide⟩,
    fun o _ => ⟨_, _, taken_asked (idle_ordered o catered) _,
      canonical_asked (canonical_ordered o catered) _, rfl⟩,
    ⟨_, _, taken_planner (idle_ordered (onItsWay 97) catered) _, canonical_ordered _ _, rfl, ?_, rfl, by decide,
      fun i' _ _ hi => mem _ i' hi⟩,
    ⟨_, _, taken_planner (idle_ordered (onItsWay 98) catered) _, canonical_ordered _ _, ?_⟩,
    fun _ _ => ⟨_, _, taken_planner (idle_ordered order catered) _⟩⟩
  · rw [lists]; simp
  · intro i o ho hi _
    have h0 := mem _ i hi
    subst h0
    have : o = onItsWay 98 := by
      have h : orderAt (ordered (onItsWay 98) (booked catered)) 0 = some (onItsWay 98) := rfl
      exact Option.some.inj (ho.symm.trans h)
    subst this
    decide

/-- A boundary at which the order is in each state, linked or not; and the rows that its times meet: the window at
100, the departure at 104, serving 106, the cart back at 108. -/
theorem witness_PlannerBoundaryTakesEveryStepDue :
    (∀ r : Bool, ∀ q ∈ [0, 100, 104, 108, 287], ∀ st : OrderState, ∀ k ∈ [none, some ⟨0, 3⟩], ∃ s u o,
      o = { order with state := st, booking := k } ∧
      takePlanner (.boundary ⟨⟨100, q⟩, r⟩) s = some u ∧ TablesCanonical s ∧ u.clock.state ≠ .unset ∧ q ≤ 287 ∧
      orderAt u 0 = some o ∧ 0 ∈ production u 0) ∧
    afterRows (setPlannerNow ⟨100, 100⟩ base) order = some { order with state := .inProduction } ∧
    afterRows (setPlannerNow ⟨100, 101⟩ base) order = some order ∧
    afterRows (setPlannerNow ⟨100, 108⟩ base) { order with state := .dispatched } = none := by
  refine ⟨fun r q hq st k _ => ?_, by decide, by decide, by decide⟩
  exact ⟨_, _, { order with state := st, booking := k }, rfl, taken_planner (idle_ordered _ catered) _,
    canonical_ordered _ catered, ClockState.noConfusion, by revert q; decide, rfl, List.mem_singleton.2 rfl⟩

theorem witness_OrderPoolStaysExact :
    TablesCanonical base ∧ OrderPoolExact State.reset ∧ ∃ t, step State.reset = .next t := by
  have hf : State.reset.planner.free = List.range Config.orderRecords := by
    simp only [State.reset, Planner.reset]
  refine ⟨canonical_base, ⟨hf ▸ List.nodup_range, fun i h => ?_, fun i => ?_⟩, _, rfl⟩
  · exact absurd h (by
      have : orderAt State.reset i = none := rfl
      simp [this])
  · have : orderAt State.reset i = none := rfl
    rw [hf, List.mem_range]
    simp [this, Config.orderRecords]

/-! The panel lines -/

/-- Line 0 in a chain state, a cycle in flight or not. -/
def chained (c : Chain) (f : Option (Nat × CycleKind)) : State :=
  updLine 0 (fun ln => { ln with chain := c, inFlight := f }) base

theorem canonical_chained (c : Chain) (f : Option (Nat × CycleKind)) : TablesCanonical (chained c f) :=
  canonical_line canonical_base 0 _ (canonical_base.2.2.2.2.2.2.2.2.2.2.2.2 0)
theorem idle_chained (c : Chain) (f : Option (Nat × CycleKind)) : Idle (chained c f) :=
  idle_line idle_base 0 _ rfl

/-- Line 0 so, with one more change that leaves its positions and its intake. -/
theorem canonical_also (f : Line → Line) (c : Chain) (x : Option (Nat × CycleKind))
    (hf : ∀ a, (f a).positions = a.positions := by intro _; rfl) : TablesCanonical (updLine 0 f (chained c x)) :=
  canonical_line (canonical_chained c x) 0 f (by
    rw [hf]; exact (canonical_chained c x).2.2.2.2.2.2.2.2.2.2.2.2 0)

theorem witness_ChainRequests :
    (∀ r ∈ [HostRequest.startChain 4, .stopChain 4, .chainMode 0 2, .clearPanelFault 0 (some 49)],
      ∃ s u, Taken r s u) ∧
    ∀ c : Chain, ∀ f ∈ [none, some (1, CycleKind.ordinary)],
      ∀ r ∈ [HostRequest.startChain 0, .stopChain 0, .chainMode 0 0, .chainMode 0 1, .clearPanelFault 0 none,
        .clearPanelFault 0 (some 48)],
      ∃ s u, Taken r s u ∧ TablesCanonical s ∧ (u.lines.get 0).chain = c ∧ (u.lines.get 0).inFlight = f :=
  ⟨fun _ _ => ⟨_, _, taken_asked idle_base _⟩, fun c f _ r _ => ⟨_, _, taken_asked (idle_chained c f) r,
    canonical_asked (canonical_chained c f) r, rfl, rfl⟩⟩

theorem witness_CycleCalls :
    (∀ c : Chain, ∀ f ∈ [none, some (1, CycleKind.ordinary)], ∃ s u, takeLine 0 .pollExpiry s = some u ∧
      TablesCanonical s ∧ (u.lines.get 0).chain = c ∧ (u.lines.get 0).inFlight = f) ∧
    (∀ c : Chain, ∀ f ∈ [none, some (1, CycleKind.ordinary)], ∃ s : State, s.power = .running ∧
      (s.lines.get 0).wire = false ∧ (s.lines.get 0).intake = [] ∧ TablesCanonical s ∧
      (s.lines.get 0).chain = c ∧ (s.lines.get 0).inFlight = f) ∧
    (∀ c : Chain, ∀ f ∈ [none, some (1, CycleKind.ordinary)], ∃ s u, takeLine 0 .wirePulled s = some u ∧
      TablesCanonical s ∧ (u.lines.get 0).chain = c ∧ (u.lines.get 0).inFlight = f) ∧
    (∃ s : State, s.power ≠ .running) ∧
    (∃ s : State, s.power = .running ∧ (s.lines.get 0).wire = false ∧
      (s.lines.get 0).intake = [.pollExpiry]) ∧
    ∃ s : State, (s.lines.get 0).wire = true ∧ ∀ ws, (s.lines.get 0).intake ≠ .wirePulled :: ws :=
  ⟨fun c f _ => ⟨_, _, taken_line (idle_chained c f) 0 _, canonical_forLine (canonical_chained c f) 0 _, rfl,
      rfl⟩,
    fun c f _ => ⟨chained c f, rfl, rfl, rfl, canonical_chained c f, rfl, rfl⟩,
    fun c f _ => ⟨_, _, taken_line (idle_chained c f) 0 _, canonical_forLine (canonical_chained c f) 0 _, rfl, rfl⟩,
    ⟨{ base with power := .off }, Power.noConfusion⟩,
    ⟨forLine 0 .pollExpiry base, rfl, rfl, rfl⟩,
    ⟨setWire 0 true base, rfl, fun _ h => nomatch h⟩⟩

/-- A returned frame of tag `t` and hop count `n`, every uplink UNANSWERED. -/
def returned (t n : Nat) : List Byte :=
  0xE7 :: BitVec.ofNat 8 (t * 8) :: BitVec.ofNat 8 n :: List.replicate 1248 0

theorem witness_CycleEnds :
    (∃ s ws, (s : State).power = .running ∧ (s.lines.get 0).intake = .pollExpiry :: ws) ∧
    (∀ bytes, PinTaken 0 (.frame bytes) base base ∧ PinTaken 0 (.frame bytes) (forLine 0 (.frame bytes) base) base ∧
      (base.lines.get 0).inFlight = none) ∧
    (∃ s u, takeLine 0 .cycleExpiry s = some u ∧ (u.lines.get 0).inFlight = none) ∧
    (∀ n : Nat, (returned 1 n).length = 1251) ∧
    (([] : List Byte).length < 1251 ∧ ([0xA5, 8].getD 0 0 : Byte).toNat ≠ 0xE7 ∧
      ((returned 2 0).getD 1 0).toNat / 8 ≠ 1) ∧
    (∀ n ∈ [0, 1, 48], ((returned 1 n).getD 0 0).toNat = 0xE7 ∧ ((returned 1 n).getD 1 0).toNat / 8 = 1 ∧
      ((returned 1 n).getD 2 0).toNat = n) ∧
    (∀ (bytes : List Byte) (c : Chain) (k : CycleKind) (d : Bool), ∃ s : State, PinTaken 0 (.frame bytes) s s ∧
      PinTaken 0 (.frame bytes) (forLine 0 (.frame bytes) s) s ∧
      TablesCanonical s ∧ (s.lines.get 0).inFlight = some (1, k) ∧ (s.lines.get 0).chain = c ∧
      (s.lines.get 0).startDue = d ∧ (s.lines.get 0).deferred = [.display 5, .clear none, .binding 48 (some 5)] ∧
      boundNumbers (s.lines.get 0) = [3]) ∧
    ∀ (c : Chain) (k : CycleKind), ∀ n ∈ [0, 1], ∃ s u, takeLine 0 .cycleExpiry s = some u ∧ TablesCanonical s ∧
      (u.lines.get 0).inFlight = some (1, k) ∧ (u.lines.get 0).chain = c ∧ (u.lines.get 0).echoFails = n := by
  refine ⟨⟨forLine 0 .pollExpiry base, [], rfl, rfl⟩, fun _ => ⟨pin_idle idle_base 0 _, pin_waits idle_base 0 _, rfl⟩,
    ⟨_, _, taken_line idle_base 0 _, rfl⟩,
    fun n => by simp only [returned, List.length_cons, List.length_replicate], ⟨by decide, by decide, by decide⟩,
    fun n hn => ?_,
    fun bytes c k d => ⟨updLine 0 (fun ln => { ln with
        startDue := d, deferred := [.display 5, .clear none, .binding 48 (some 5)] }) (chained c (some (1, k))),
      pin_idle (idle_line (idle_chained _ _) 0 _ rfl) 0 _, pin_waits (idle_line (idle_chained _ _) 0 _ rfl) 0 _,
      canonical_also _ _ _, rfl, rfl, rfl, rfl, rfl⟩,
    fun c k n _ => ⟨_, updLine 0 (fun ln => { ln with echoFails := n }) (chained c (some (1, k))),
      taken_line (idle_line (idle_chained _ _) 0 _ rfl) 0 _, canonical_forLine (canonical_also _ _ _) 0 _, rfl, rfl,
      rfl⟩⟩
  simp only [List.mem_cons, List.not_mem_nil, or_false] at hn
  obtain rfl | rfl | rfl := hn <;> exact ⟨rfl, rfl, rfl⟩

theorem witness_HealthUpdates : ∀ h : Health, ∀ m ∈ [0, 1, 2, 15], ∀ q,
    q = { Position.reset with bound := some 5, health := h, misses := m } →
    (∃ s : State, TablesCanonical s ∧ q = (s.lines.get 0).at 3 ∧ s.policy.deglitch = 3 ∧
      s.policy.absentReport = true ∧ s.reports.exceptions.length < 32) := by
  intro h m _ q hq
  subst hq
  exact ⟨updLine 0 (fun ln => { ln with
      positions := ⟨[(3, { Position.reset with bound := some 5, health := h, misses := m })]⟩ }) base,
    canonical_line canonical_base 0 _ ⟨by simp, by simp [Position.reset]⟩, rfl, rfl, rfl, Nat.zero_lt_succ _⟩

/-- The base with one position of line 0 replaced. -/
def positioned (q : Position) : State :=
  updLine 0 (fun ln => { ln with positions := ⟨[(3, q)]⟩ }) base

theorem witness_UplinksAndDownlinks :
    (∀ b ∈ [none, some 5], ∀ t ∈ [some true, some false],
      ∀ last ∈ [LastReply.pending 7, .reply ⟨.accepted, 2, true, none⟩ true,
        .reply ⟨.accepted, 2, true, none⟩ false], ∀ lit ∈ [none, some nowT], ∀ q,
      q = { Position.reset with bound := b, toggle := t, last := last, litUntil := lit } →
      TablesCanonical (positioned q) ∧ ((positioned q).lines.get 0).at 3 = q) ∧
    [3, 4].Nodup ∧ 1 ≤ 3 ∧ 3 ≤ 48 := by
  refine ⟨fun b _ t ht last _ lit _ q hq => ⟨?_, rfl⟩, by decide, by decide, by decide⟩
  have hne : q ≠ Position.reset := by
    intro h
    have h1 : t = none := by rw [hq] at h; exact congrArg Position.toggle h
    subst h1
    simp at ht
  exact canonical_line canonical_base 0 _ ⟨by simp, by simpa using hne⟩

/-- Cycles of tag 1 ended by a whole frame in each chain state, a clear held or not; and a running count one short
of 3. -/
theorem witness_CompletedCycleUplinks :
    (∀ bytes : List Byte, ∀ c : Chain, ∀ d ∈ [[], [Deferred.clear none], [.display 5, .clear (some 3)]], ∃ s : State,
      PinTaken 0 (.frame bytes) s s ∧ TablesCanonical s ∧ (s.lines.get 0).chain = c ∧
      (s.lines.get 0).inFlight = some (1, .ordinary) ∧ (s.lines.get 0).deferred = d ∧ s.link.slot ≠ none) ∧
    (∃ bytes x, uplinkAt bytes 3 = some x ∧ x.touch = true ∧ x.occupancy = true) ∧
    ∃ a : Line, a.positions.wf .reset ∧ (a.at 3).unack = some 2 :=
  ⟨fun bytes c d _ => ⟨served (.clearPanelFault 0 none) (updLine 0 (fun ln => { ln with deferred := d })
      (chained c (some (1, .ordinary)))),
      .inr ⟨rfl, rfl, rfl⟩,
      canonical_also (fun ln => { ln with deferred := d }) c (some (1, .ordinary)), rfl, rfl, rfl,
      by simp [served]⟩,
    ⟨List.replicate 883 0 ++ [0xE1, 1, 16, 0, 0, 0, 9, 7], ⟨true, true, 1, true, 16, 9, 7⟩, by decide +kernel,
      rfl, rfl⟩,
    ⟨{ Line.reset with positions := ⟨[(3, { Position.reset with unack := some 2 })]⟩ }, by decide, by decide⟩⟩

theorem witness_ControllerWork :
    (∀ f ∈ [none, some (1, CycleKind.ordinary)], ∀ r ∈ [5, 6], ∃ s u, takeLine 0 (.display r) s = some u ∧
      (u.lines.get 0).inFlight = f) ∧
    ((base.lines.get 0).at 3).bound = some 5 ∧
    (∀ f ∈ [none, some (1, CycleKind.ordinary)], ∀ r ∈ [none, some 5], ∃ s u,
      takeLine 0 (.binding 48 r) s = some u ∧ (u.lines.get 0).inFlight = f) ∧
    (∃ s u, takeLine 0 (.answer 3 1 ⟨1, .accepted, none⟩) s = some u ∧ ((u.lines.get 0).at 3).last ≠ .pending 1) ∧
    (∃ s u, takeLine 0 (.answer 4 1 ⟨1, .accepted, none⟩) s = some u ∧ ((u.lines.get 0).at 4).last = .pending 1) ∧
    ∀ c : Chain, ∀ f ∈ [none, some (1, CycleKind.ordinary)], ∀ w : Bool, ∀ q ∈ [71, 72, 240], ∃ s u,
      takeLine 0 (.boundary ⟨⟨100, q⟩, false⟩) s = some u ∧
      TablesCanonical s ∧ (u.lines.get 0).chain = c ∧ (u.lines.get 0).inFlight = f ∧
      (u.lines.get 0).window = w ∧ u.policy.quietWindow = some (240, 72) := by
  refine ⟨fun f _ r _ => ⟨_, _, taken_line (idle_chained .running f) 0 _, rfl⟩, rfl,
    fun f _ r _ => ⟨_, _, taken_line (idle_chained .running f) 0 _, rfl⟩,
    ⟨_, _, taken_line idle_base 0 _, by decide⟩,
    ⟨_, updLine 0 (Line.setLast 4 (.pending 1)) base, taken_line (idle_line idle_base 0 _ rfl) 0 _, rfl⟩,
    fun c f _ w q _ => ?_⟩
  have hi : Idle { updLine 0 (fun ln => { ln with window := w }) (chained c f) with
      policy := { Policy.default with quietWindow := some (240, 72) } } :=
    idle_line (idle_chained c f) 0 (fun ln => { ln with window := w }) rfl
  refine ⟨_, _, taken_line hi 0 _, canonical_forLine ?_ 0 _, rfl, rfl, rfl, rfl⟩
  exact canonical_also (fun ln => { ln with window := w }) c f

theorem witness_LinesStayLegal : LinesLegal base ∧ ∃ t, step base = .next t :=
  ⟨by unfold LinesLegal LineLegal; decide, _, rfl⟩

theorem witness_BlocksWriteOnlyTheirOwn :
    (∃ c s t, exec c s = .next t ∧ isEngineWork c = true) ∧ (∃ c s t, exec c s = .next t ∧ isPlannerWork c = true) ∧
    ∃ c s t, exec c s = .next t ∧ lineOfWork c = some 3 :=
  ⟨⟨.roomVisit 5, forEngine (.visit 5) base, _, rfl, rfl⟩, ⟨.admissionCompletion, base, _, rfl, rfl⟩,
    ⟨.readChain 3, base, _, rfl, rfl⟩⟩

/-- Records, data and frames at the ends of the ranges the layouts admit. -/
theorem witness_WireLayouts :
    (∀ e ∈ [(⟨.orderCancelled, ⟨65535, 511⟩, 511, ⟨65535, 63⟩, .none, .none⟩ : EventRecord),
      ⟨.bookingConfirmed, ⟨0, 0⟩, 0, ⟨0, 0⟩, .none, .none⟩], e.now.day ≤ 65535 ∧ e.now.quantum ≤ 511 ∧
        e.room ≤ 511 ∧ e.subject.gen ≤ 63 ∧ e.subject.index ≤ 65535) ∧
    (∀ f ∈ [(⟨31, true, true, true, .empty⟩ : OutFrame), ⟨0, false, false, false, .empty⟩], f.tag ≤ 31) ∧
    ∀ p ∈ [1, 48], 1 ≤ p ∧ p ≤ 48 := by decide

/-! ### One step of the part -/

/-- The next state of a command; a command answers one always. -/
def after (c : Instr) (s : State) : State :=
  match exec c s with
  | .next t => t
  | _ => s

/-- R7: after the reply to a forward trim of 300,000 ms into quantum 97, a frame waits for the boundary work. -/
theorem test_trim_holds_frames :
    (after (.setClock 100 97 0) (asked (.setClock 100 97 0) base)).link.trimmed = some ⟨⟨100, 97⟩, false⟩ ∧
    (after (.validFrame ⟨1, 2, []⟩) trimmed).link.slot = none ∧
    ((after (.validFrame ⟨1, 2, []⟩) { trimmed with lines := base.lines }).link.slot.map Slot.req) =
      some .identify := by decide

/-- R18, R184: an event mask with every bit set is answered OK with bits 13 to 15 zero. -/
theorem test_event_mask :
    ((after (.setPolicy (.eventMask 0xFFFF)) (asked (.setPolicy (.eventMask 0xFFFF)) base)).link.tx.map
      (fun r => (r.result, r.body.flatMap Field.wire))) = [(.ok, [0x1F, 0xFF])] := by decide

/-- R119, R127, R144, R164: behind an echo failure the deferred list is applied in arrival order. -/
theorem test_deferred_list :
    ((after (.cycleTimeout 0) (forLine 0 .cycleExpiry (updLine 0 (fun ln => { ln with
      deferred := [.binding 48 (some 6), .display 5, .display 6] })
      (chained .running (some (1, .ordinary)))))).lines.get 0).queue = [48, 3] := by decide

/-- §2.9, R22: a Book is given the head of the free list. -/
theorem test_book_takes_the_head : (after (.book req) (asked (.book req) base)).store.free = [1] ∧
    roomList (after (.book req) (asked (.book req) base)) 5 = [0] := by decide

/-- R37, R38: a span inside a booking is refused CONFLICT, naming the booking's start. -/
theorem test_book_conflict :
    ((after (.book { req with start := ⟨100, 101⟩, fin := ⟨100, 104⟩ })
      (asked (.book { req with start := ⟨100, 101⟩, fin := ⟨100, 104⟩ }) (booked booking))).link.tx.map
      (fun r => (r.result, r.body))) = [(.conflict, [.time ⟨100, 100⟩])] := by decide

/-- §2.9, R23: a cancelled booking's record goes to the tail, its generation one further on. -/
theorem test_cancel_frees : recordAt (after (.cancel ⟨0, 3⟩ 0) (asked (.cancel ⟨0, 3⟩ 0) (booked booking))) 0 =
    ⟨4, none⟩ ∧
    (after (.cancel ⟨0, 3⟩ 0) (asked (.cancel ⟨0, 3⟩ 0) (booked booking))).store.free = [1, 0] := by decide

/-- §7.10: a StartChain on line 1 sends a census of tag 1, timeout 50 ms, poll timer 250 ms. -/
theorem test_start_chain :
    ((after (.startChain 1) (asked (.startChain 1) base)).lines.get 1).inFlight = some (1, .census) ∧
    ((after (.startChain 1) (asked (.startChain 1) base)).lines.get 1).pollTimer = some 250 := by decide

/-- §11.5: the third expiry of the supervision timer finds the host lost, after 10 s. -/
theorem test_host_lost : (after .supervisionTimerExpiry
    { base with superv := ⟨2, .linked, 10000, 0, 1⟩ }).reports.exceptions = [⟨.hostLost 10, some nowT⟩] := by decide

/-- R3, R5: SetClock sets an unset clock, and the summary bit CLOCK of its reply is clear. -/
theorem test_set_clock :
    (after (.setClock 413 1 30000) (asked (.setClock 413 1 30000) { base with clock := Clock.reset })).clock =
      ⟨.running, some ⟨⟨413, 1⟩, 30000⟩, some ⟨413, 1⟩, none⟩ := by decide

end Sys2Proof.Tests
end

