-- ==== Sys2Proof/Proofs/Writes.lean ====
section
/-! PROOFS. What a piece of work writes: one relation between the state before and the state after, with a rule
for each operation that all blocks share. The frame of a block's work (R60, R76, R119) and the invariants on
sizes and tables are read off it. -/

namespace Sys2Proof.Machine

/-! ### The invariants that a piece of work keeps -/

/-- The sizes, the ranges of the policies and the canonical form of the tables are kept from `s` to `t`. -/
structure Sound (s t : State) : Prop where
  sizes : WithinSizes s → WithinSizes t
  policy : PolicyInRange s.policy → PolicyInRange t.policy
  tables : TablesCanonical s → TablesCanonical t

@[refl] theorem Sound.refl (s : State) : Sound s s := ⟨id, id, id⟩

theorem Sound.trans {s t u : State} (h : Sound s t) (h' : Sound t u) : Sound s u :=
  ⟨h'.sizes ∘ h.sizes, h'.policy ∘ h.policy, h'.tables ∘ h.tables⟩

/-- A state that agrees in what the three invariants read. -/
theorem Sound.of_eq {s t : State} (hr : t.reports = s.reports) (ho : t.link.owed.length ≤ s.link.owed.length)
    (hst : t.store = s.store) (hv : t.superv.counter = s.superv.counter) (hc : t.counters = s.counters)
    (hp : t.policy = s.policy)
    (hm : t.rooms = s.rooms ∧ t.kitchens = s.kitchens ∧ t.distances = s.distances ∧ t.menu = s.menu)
    (he : t.engine.lastEnd = s.engine.lastEnd ∧ t.engine.kept = s.engine.kept)
    (hq : t.planner.load = s.planner.load ∧ t.planner.limits = s.planner.limits ∧
      t.planner.records = s.planner.records ∧ t.planner.lists = s.planner.lists)
    (hl : ∀ l, (t.lines.get l).positions = (s.lines.get l).positions) : Sound s t where
  sizes h := by
    obtain ⟨h1, h2, h3, h4⟩ := h
    refine ⟨hr ▸ h1, hr ▸ h2, by omega, ?_⟩
    rwa [hst, hv, hc]
  policy h := hp ▸ h
  tables h := by
    obtain ⟨h1, h2, h3, h4, h5, h6, h7, h8, h9, h10, h11, h12, h13⟩ := h
    obtain ⟨m1, m2, m3, m4⟩ := hm
    obtain ⟨q1, q2, q3, q4⟩ := hq
    refine ⟨m1 ▸ h1, m2 ▸ h2, m3 ▸ h3, m4 ▸ h4, hst ▸ h5, hst ▸ h6, he.1 ▸ h7, he.2 ▸ h8, q1 ▸ h9, q2 ▸ h10,
      q3 ▸ h11, q4 ▸ h12, fun l => hl l ▸ h13 l⟩

/-! ### The blocks, and what each may write -/

/-- The three kinds of block whose work O59 speaks of. -/
inductive Block where
  | engine
  | planner
  | line (l : Fin 4)

/-- A piece of work of block `b` takes `s` to `t`: it writes what the block owns, the link, the reports and the
counters, and elsewhere no more than work that joins an intake; and it keeps the invariants. -/
structure Writes (b : Block) (s t : State) : Prop where
  apart : Apart s t
  superv : SupervisionApart s t
  engine : b ≠ .engine → EngineGained s t ∧ t.store = s.store ∧ t.superv = s.superv
  planner : b ≠ .planner → PlannerGained s t
  lines : ∀ l, b ≠ .line l → LineGained (s.lines.get l) (t.lines.get l)
  others : ∀ l m, b = .line l → m ≠ l → t.lines.get m = s.lines.get m
  sound : Sound s t

theorem LineGained.refl (a : Line) : LineGained a a := ⟨[], by simp⟩

theorem LineGained.trans {a b c : Line} (h : LineGained a b) (h' : LineGained b c) : LineGained a c := by
  obtain ⟨w, rfl⟩ := h
  obtain ⟨w', rfl⟩ := h'
  exact ⟨w ++ w', by simp⟩

@[simp] theorem Line.arrive_gained (w : LineWork) (a : Line) : LineGained a (a.arrive w) := ⟨[w], rfl⟩

theorem EngineGained.refl (s : State) : EngineGained s s := ⟨[], by simp⟩

theorem EngineGained.trans {s t u : State} (h : EngineGained s t) (h' : EngineGained t u) : EngineGained s u := by
  obtain ⟨w, hw⟩ := h
  obtain ⟨w', hw'⟩ := h'
  exact ⟨w ++ w', by simp [hw', hw]⟩

theorem PlannerGained.refl (s : State) : PlannerGained s s := ⟨[], by simp⟩

theorem PlannerGained.trans {s t u : State} (h : PlannerGained s t) (h' : PlannerGained t u) :
    PlannerGained s u := by
  obtain ⟨w, hw⟩ := h
  obtain ⟨w', hw'⟩ := h'
  exact ⟨w ++ w', by simp [hw', hw]⟩

theorem Apart.refl (s : State) : Apart s s := ⟨rfl, rfl, rfl, rfl, rfl, rfl, rfl, rfl, rfl, rfl, rfl⟩

theorem Apart.trans {s t u : State} (h : Apart s t) (h' : Apart t u) : Apart s u := by
  simp_all only [Apart, and_self]

namespace Writes

variable {b : Block} {s t u : State}

@[refl] theorem refl (b : Block) (s : State) : Writes b s s where
  apart := Apart.refl s
  superv := rfl
  engine _ := ⟨EngineGained.refl s, rfl, rfl⟩
  planner _ := PlannerGained.refl s
  lines _ _ := LineGained.refl _
  others _ _ _ _ := rfl
  sound := Sound.refl s

theorem trans (h : Writes b s t) (h' : Writes b t u) : Writes b s u where
  apart := h.apart.trans h'.apart
  superv := by
    have h1 := h.superv
    have h2 := h'.superv
    simp only [SupervisionApart] at h1 h2 ⊢
    rw [h2, h1]
  engine hb :=
    have ⟨h1, h2, h3⟩ := h.engine hb
    have ⟨h1', h2', h3'⟩ := h'.engine hb
    ⟨h1.trans h1', h2'.trans h2, h3'.trans h3⟩
  planner hb := (h.planner hb).trans (h'.planner hb)
  lines l hb := (h.lines l hb).trans (h'.lines l hb)
  others l m hb hm := (h'.others l m hb hm).trans (h.others l m hb hm)
  sound := h.sound.trans h'.sound

/-! ### One rule for each part of the state that a piece of work may write -/

/-- The host link written, no BUSY reply more being owed. -/
theorem setLink (h : Writes b s t) {L : Link} (hL : L.owed.length ≤ t.link.owed.length) :
    Writes b s { t with link := L } :=
  h.trans
    { refl b t with
      apart := Apart.refl t
      superv := rfl
      engine := fun _ => ⟨EngineGained.refl t, rfl, rfl⟩
      planner := fun _ => PlannerGained.refl t
      sound := Sound.of_eq rfl hL rfl rfl rfl rfl ⟨rfl, rfl, rfl, rfl⟩ ⟨rfl, rfl⟩ ⟨rfl, rfl, rfl, rfl⟩ fun _ => rfl }

/-- The report queues and the counters written, within their sizes. -/
theorem setReports (h : Writes b s t) {R : Reports} {C : Counters}
    (hw : WithinSizes t → WithinSizes { t with reports := R, counters := C }) :
    Writes b s { t with reports := R, counters := C } :=
  h.trans
    { apart := Apart.refl t
      superv := rfl
      engine := fun _ => ⟨EngineGained.refl t, rfl, rfl⟩
      planner := fun _ => PlannerGained.refl t
      lines := fun _ _ => LineGained.refl _
      others := fun _ _ _ _ => rfl
      sound := ⟨hw, id, id⟩ }

/-- The Booking Store written by the engine, its Hold List within its size and its tables canonical. -/
theorem setStore (h : Writes .engine s t) {S : Store} (hh : t.store.holds.length ≤ 64 → S.holds.length ≤ 64)
    (hr : t.store.records.wf ⟨0, none⟩ → S.records.wf ⟨0, none⟩) (hl : t.store.lists.wf [] → S.lists.wf []) :
    Writes .engine s { t with store := S } :=
  h.trans
    { apart := Apart.refl t
      superv := rfl
      engine := fun hb => absurd rfl hb
      planner := fun _ => PlannerGained.refl t
      lines := fun _ _ => LineGained.refl _
      others := fun _ _ _ _ => rfl
      sound :=
        { sizes := fun ⟨h1, h2, h3, h4, h5⟩ => ⟨h1, h2, h3, hh h4, h5⟩
          policy := id
          tables := fun ⟨h1, h2, h3, h4, h5, h6, h7⟩ => ⟨h1, h2, h3, h4, hr h5, hl h6, h7⟩ } }

/-- The engine's own state written by the engine, its tables canonical. -/
theorem setEngine (h : Writes .engine s t) {E : Engine} (he : t.engine.lastEnd.wf none → E.lastEnd.wf none)
    (hk : t.engine.kept.wf none → E.kept.wf none) : Writes .engine s { t with engine := E } :=
  h.trans
    { apart := Apart.refl t
      superv := rfl
      engine := fun hb => absurd rfl hb
      planner := fun _ => PlannerGained.refl t
      lines := fun _ _ => LineGained.refl _
      others := fun _ _ _ _ => rfl
      sound :=
        { sizes := id
          policy := id
          tables := fun ⟨h1, h2, h3, h4, h5, h6, h7, h8, h9⟩ => ⟨h1, h2, h3, h4, h5, h6, he h7, hk h8, h9⟩ } }

/-- The provisional count written by the engine. -/
theorem provisional (h : Writes .engine s t) (f : Nat → Nat) : Writes .engine s (provisional f t) :=
  h.trans
    { apart := Apart.refl t
      superv := rfl
      engine := fun hb => absurd rfl hb
      planner := fun _ => PlannerGained.refl t
      lines := fun _ _ => LineGained.refl _
      others := fun _ _ _ _ => rfl
      sound := ⟨id, id, id⟩ }

/-- The planner's own state written by the planner, its tables canonical. -/
theorem setPlanner (h : Writes .planner s t) {P : Planner} (h1 : t.planner.load.wf noLoad → P.load.wf noLoad)
    (h2 : t.planner.limits.wf ⟨0, 0⟩ → P.limits.wf ⟨0, 0⟩)
    (h3 : t.planner.records.wf ⟨0, none⟩ → P.records.wf ⟨0, none⟩)
    (h4 : t.planner.lists.wf [] → P.lists.wf []) : Writes .planner s { t with planner := P } :=
  h.trans
    { apart := Apart.refl t
      superv := rfl
      engine := fun _ => ⟨EngineGained.refl t, rfl, rfl⟩
      planner := fun hb => absurd rfl hb
      lines := fun _ _ => LineGained.refl _
      others := fun _ _ _ _ => rfl
      sound :=
        { sizes := id
          policy := id
          tables := fun ⟨g1, g2, g3, g4, g5, g6, g7, g8, g9, g10, g11, g12, g13⟩ =>
            ⟨g1, g2, g3, g4, g5, g6, g7, g8, h1 g9, h2 g10, h3 g11, h4 g12, g13⟩ } }

/-- A line written by its own controller, its position table canonical. -/
theorem updLine {l : Fin 4} (h : Writes (.line l) s t) {f : Line → Line}
    (hf : (t.lines.get l).positions.wf .reset → (f (t.lines.get l)).positions.wf .reset) :
    Writes (.line l) s (updLine l f t) :=
  h.trans
    { apart := Apart.refl t
      superv := rfl
      engine := fun _ => ⟨EngineGained.refl t, rfl, rfl⟩
      planner := fun _ => PlannerGained.refl t
      lines := fun m hm => by
        have : m ≠ l := fun e => hm (e ▸ rfl)
        simpa [this] using LineGained.refl _
      others := fun l' m hl hm => by
        cases hl
        simp [hm]
      sound :=
        { sizes := id
          policy := id
          tables := fun ⟨g1, g2, g3, g4, g5, g6, g7, g8, g9, g10, g11, g12, g13⟩ =>
            ⟨g1, g2, g3, g4, g5, g6, g7, g8, g9, g10, g11, g12, fun m => by
              by_cases hm : m = l
              · subst hm; simpa using hf (g13 m)
              · simpa [hm] using g13 m⟩ } }

/-! ### Work sent to another block -/

theorem sendEngine (h : Writes b s t) (w : EngineWork) : Writes b s (sendEngine w t) :=
  h.trans
    { apart := Apart.refl t
      superv := rfl
      engine := fun _ => ⟨⟨[w], rfl⟩, rfl, rfl⟩
      planner := fun _ => PlannerGained.refl t
      lines := fun _ _ => LineGained.refl _
      others := fun _ _ _ _ => rfl
      sound := ⟨id, id, id⟩ }

theorem sendPlanner (h : Writes b s t) (w : PlannerWork) : Writes b s (sendPlanner w t) :=
  h.trans
    { apart := Apart.refl t
      superv := rfl
      engine := fun _ => ⟨EngineGained.refl t, rfl, rfl⟩
      planner := fun _ => ⟨[w], rfl⟩
      lines := fun _ _ => LineGained.refl _
      others := fun _ _ _ _ => rfl
      sound := ⟨id, id, id⟩ }

/-- Work joins a line's intake; a controller sends none to another line. -/
theorem sendLine (h : Writes b s t) (hb : ∀ l, b ≠ .line l) (l : Fin 4) (w : LineWork) :
    Writes b s (sendLine l w t) :=
  h.trans
    { apart := Apart.refl t
      superv := rfl
      engine := fun _ => ⟨EngineGained.refl t, rfl, rfl⟩
      planner := fun _ => PlannerGained.refl t
      lines := fun m _ => by
        by_cases hm : m = l
        · subst hm; simp [Machine.sendLine]
        · simpa [Machine.sendLine, hm] using LineGained.refl _
      others := fun _ _ hl _ => absurd hl (hb _)
      sound := Sound.of_eq rfl le_rfl rfl rfl rfl rfl ⟨rfl, rfl, rfl, rfl⟩ ⟨rfl, rfl⟩ ⟨rfl, rfl, rfl, rfl⟩ fun m => by
        by_cases hm : m = l
        · subst hm; simp [Machine.sendLine, Line.arrive]
        · simp [Machine.sendLine, hm] }

/-! ### Control: a test, and a list walked -/

/-- Either branch of a test. -/
theorem ite {c : Prop} [Decidable c] (h : c → Writes b s t) (h' : ¬ c → Writes b s u) :
    Writes b s (if c then t else u) := by
  split
  · exact h ‹_›
  · exact h' ‹_›

/-- A list walked, each element by a step that keeps the relation. -/
theorem foldl {α : Type} {f : State → α → State} (hf : ∀ t a, Writes b s t → Writes b s (f t a)) (xs : List α)
    (h : Writes b s t) : Writes b s (xs.foldl f t) :=
  List.foldlRecOn xs f h fun _ ht a _ => hf _ a ht

/-! ### Replies, counters and reports -/

theorem clearSlot (h : Writes b s t) : Writes b s (clearSlot t) := h.setLink le_rfl

theorem buildReply (h : Writes b s t) (k g : Nat) (r : Result) (body : List Field) :
    Writes b s (buildReply k g r body t) := h.setLink le_rfl

theorem flushBusy (h : Writes b s t) : Writes b s (flushBusy t) := h.setLink (Nat.zero_le _)

theorem finishThen {f : State → State} (h : Writes b s t) (hf : ∀ u, Writes b s u → Writes b s (f u)) (r : Result)
    (body : List Field) : Writes b s (finishThen r body f t) := by
  unfold Machine.finishThen
  split
  · exact h
  · exact (hf _ (h.clearSlot.buildReply ..)).flushBusy

theorem finish (h : Writes b s t) (r : Result) (body : List Field) : Writes b s (finish r body t) :=
  h.finishThen (fun _ => id) r body

theorem setStage (h : Writes b s t) (st : Stage) : Writes b s (setStage st t) := h.setLink le_rfl

/-- A counter that keeps every counter within 16 bits. -/
theorem count (h : Writes b s t) {f : Counters → Counters}
    (hf : WithinSizes t → WithinSizes { t with counters := f t.counters }) : Writes b s (count f t) :=
  h.setReports (R := t.reports) hf

theorem countRefusal (h : Writes b s t) (r : Result) : Writes b s (countRefusal r t) := by
  rw [countRefusal_eq]
  refine h.setReports (R := t.reports) fun ⟨h1, h2, h3, h4, h5, h6, h7, h8, h9, h10⟩ =>
    ⟨h1, h2, h3, h4, h5, h6, h7, ?_, saturate_le h9, h10⟩
  simp only [refusedCounters]
  split
  · exact saturate_le h8
  · exact h8

theorem refuseHost (h : Writes b s t) (r : Result) (body : List Field) : Writes b s (refuseHost r body t) :=
  (h.countRefusal r).finish r body

theorem countCateringRefusal (h : Writes b s t) : Writes b s (Machine.count Counters.cateringRefusal t) :=
  h.count fun ⟨h1, h2, h3, h4, h5, h6, h7, h8, h9, h10, h11⟩ =>
    ⟨h1, h2, h3, h4, h5, h6, h7, h8, h9, saturate_le h10, h11⟩

theorem countRelease (h : Writes b s t) : Writes b s (Machine.count Counters.release t) :=
  h.count fun ⟨h1, h2, h3, h4, h5, h6, h7, h8, h9, h10, h11, h12⟩ =>
    ⟨h1, h2, h3, h4, h5, h6, h7, h8, h9, h10, saturate_le h11, h12⟩

theorem countEcho (h : Writes b s t) (l : Fin 4) : Writes b s (Machine.count (Counters.echo l) t) :=
  h.count fun ⟨h1, h2, h3, h4, h5, h6, h7, h8, h9, h10, h11, h12, h13⟩ =>
    ⟨h1, h2, h3, h4, h5, h6, h7, h8, h9, h10, h11, h12, fun m => ⟨by
      by_cases hm : m = l
      · subst hm; simpa [Counters.echo] using saturate_le (h13 m).1
      · simpa [Counters.echo, hm] using (h13 m).1, (h13 m).2⟩⟩

theorem countMiss (h : Writes b s t) (l : Fin 4) : Writes b s (Machine.count (Counters.miss l) t) :=
  h.count fun ⟨h1, h2, h3, h4, h5, h6, h7, h8, h9, h10, h11, h12, h13⟩ =>
    ⟨h1, h2, h3, h4, h5, h6, h7, h8, h9, h10, h11, h12, fun m => ⟨(h13 m).1, by
      by_cases hm : m = l
      · subst hm; simpa [Counters.miss] using saturate_le (h13 m).2
      · simpa [Counters.miss, hm] using (h13 m).2⟩⟩

theorem dropReport (h : Writes b s t) : Writes b s (dropReport t) :=
  h.setReports fun ⟨h1, h2, h3, h4, h5, h6, h7, h8, h9, h10, h11, h12, h13⟩ =>
    ⟨h1, h2, h3, h4, h5, h6, h7, h8, h9, h10, h11, saturate_le h12, h13⟩

theorem postEvent (h : Writes b s t) (r : EventRecord) : Writes b s (postEvent r t) := by
  rcases postEvent_cases r t with e | ⟨hlt, e⟩ | ⟨_, e⟩ <;> rw [e]
  · exact h
  · refine h.setReports (C := t.counters) fun ⟨_, h2⟩ => ⟨?_, h2⟩
    simp only [Config.eventQueue] at hlt
    simp; omega
  · exact h.dropReport

theorem postException (h : Writes b s t) (k : ExcKind) (now : Option CTime) :
    Writes b s (postException k now t) := by
  rcases postException_cases k now t with ⟨hlt, e⟩ | ⟨_, e⟩ <;> rw [e]
  · refine h.setReports (C := t.counters) fun ⟨h1, _, h2⟩ => ⟨h1, ?_, h2⟩
    simp only [Config.exceptionQueue] at hlt
    simp; omega
  · exact h.dropReport

end Writes

end Sys2Proof.Machine
end

