-- ==== Sys2Proof/Proofs/EngineWrites.lean ====
section
/-! PROOFS. What the Reservation Engine's operations write (chapters 2 to 4, 9): one rule for each operation,
the rule of a piece of work built from those of the operations it runs. -/

namespace Sys2Proof.Machine

@[simp] theorem length_insertBy {α : Type} (key : α → Int) (x : α) :
    ∀ l : List α, (insertBy key x l).length = l.length + 1
  | [] => rfl
  | y :: rest => by
    unfold insertBy
    split
    · simp
    · simp [length_insertBy key x rest]

/-- With the checks of a hold passed, the Hold List has room (R32). -/
theorem holds_lt_of_checkHolds {s : State} (h : checkHolds s = none) : s.store.holds.length < 64 := by
  by_contra hn
  simp [checkHolds, require, Config.holdEntries, hn] at h

namespace Writes

variable {s t u : State}

/-! ### The Booking Store -/

theorem setBooking (h : Writes .engine s t) (i : Nat) (b : Booking) : Writes .engine s (setBooking i b t) :=
  h.setStore id (Table.set_wf · _ _) id

theorem setRoomList (h : Writes .engine s t) (r : Nat) (l : List Nat) : Writes .engine s (setRoomList r l t) :=
  h.setStore id id (Table.set_wf · _ _)

theorem enterRoomList (h : Writes .engine s t) (r i : Nat) : Writes .engine s (enterRoomList r i t) := h.setRoomList _ _

theorem leaveRoomList (h : Writes .engine s t) (r i : Nat) : Writes .engine s (leaveRoomList r i t) := h.setRoomList _ _

theorem leaveHolds (h : Writes .engine s t) (x : Handle) : Writes .engine s (leaveHolds x t) :=
  h.setStore (List.length_filter_le _ _).trans id id

/-- A hold is entered behind the check that the Hold List has room (R32). -/
theorem enterHolds (h : Writes .engine s t) (hh : t.store.holds.length < 64) (x : Handle) :
    Writes .engine s (enterHolds x t) :=
  h.setStore (fun _ => by simp; omega) id id

theorem releaseRecord (h : Writes .engine s t) (i : Nat) : Writes .engine s (releaseRecord i t) :=
  h.setStore id (Table.set_wf · _ _) id

/-- An allocation, behind the check of R32 when it enters a hold (R22). -/
theorem allocate (h : Writes .engine s t) {b : Booking} {i : Nat} (ha : allocate b t = some (i, u))
    (hh : b.state = .tentative → t.store.holds.length < 64) : Writes .engine s u := by
  unfold Machine.allocate at ha
  split at ha
  · simp at ha
  · rename_i j rest hf
    simp only [Option.some.injEq, Prod.mk.injEq] at ha
    obtain ⟨rfl, rfl⟩ := ha
    have h1 := ((h.setStore (S := { t.store with free := rest }) id id id).setBooking j b).enterRoomList b.room j
    have h2 := fun x => ite (c := b.state = .tentative) (fun e => h1.enterHolds (hh e) x) (fun _ => h1)
    exact ite (fun _ => (h2 _).provisional _) (fun _ => h2 _)

theorem openEpisode (h : Writes .engine s t) (room : Nat) (src : Option (Fin 4 × Nat)) :
    Writes .engine s (openEpisode room src t) :=
  ite (fun _ => h) fun _ => (h.setStore (S := { t.store with episode := true }) id id id).postException _ _

theorem setLastEnd (h : Writes .engine s t) (r : Nat) (x : Option CTime) : Writes .engine s (setLastEnd r x t) :=
  h.setEngine (Table.set_wf · _ _) id

/-! ### Freeing (R23) -/

theorem handOver (h : Writes .engine s t) (x : Handle) (b : Booking) (out : Terminal) :
    Writes .engine s (handOver x b out t) := by
  unfold Machine.handOver
  split
  · exact h.sendPlanner _
  · exact h

theorem freeBooking (h : Writes .engine s t) (i : Nat) (b : Booking) (out : Terminal) :
    Writes .engine s (freeBooking i b out t) := by
  have h1 := (h.handOver (handleOf t i) b out).leaveRoomList b.room i
  have h2 := ite (c := b.state = .tentative) (fun _ => h1.leaveHolds (handleOf t i)) (fun _ => h1)
  have h3 := ite (c := b.provisional = true) (fun _ => h2.provisional (· - 1)) (fun _ => h2)
  have h4 := ite (c := out = .ended) (fun _ => (h3.releaseRecord i).setLastEnd b.room (some b.fin))
    (fun _ => h3.releaseRecord i)
  unfold Machine.freeBooking
  dsimp only
  split
  · exact h4.postEvent _
  · exact h4

theorem deferredOutcome (h : Writes .engine s t) (i : Nat) : Writes .engine s (deferredOutcome i t) := by
  unfold Machine.deferredOutcome
  split
  · exact ite (fun _ => h.freeBooking ..) fun _ => ite (fun _ => h.freeBooking ..) fun _ => h
  · exact h

/-! ### Displays (R57) -/

theorem keepFacts (h : Writes .engine s t) (r : Nat) : Writes .engine s (keepFacts r t) :=
  h.setEngine id (Table.set_wf · _ _)

theorem requestDisplay (h : Writes .engine s t) (r : Nat) : Writes .engine s (requestDisplay r t) := by
  unfold Machine.requestDisplay
  split
  · exact h.sendLine nofun _ _
  · exact h

theorem evalDisplay (h : Writes .engine s t) (r : Nat) : Writes .engine s (evalDisplay r t) :=
  ite (fun _ => h) fun _ => (h.keepFacts r).requestDisplay r

theorem evalAllDisplays (h : Writes .engine s t) : Writes .engine s (evalAllDisplays t) :=
  h.foldl (fun _ _ h => h.evalDisplay _) _

/-! ### The requests of chapter 3 -/

theorem refuseTurned (h : Writes .engine s t) (room : Nat) (x : Turned) (body : List Field) :
    Writes .engine s (refuseTurned room x body t) :=
  (ite (fun _ => h.openEpisode ..) fun _ => h).refuseHost _ _

/-- A request that names a booking: what its own work writes. -/
theorem withBooking (h : Writes .engine s t) (x : Handle) {run : Booking → State → State}
    (hr : ∀ b, Writes .engine s (run b t)) : Writes .engine s (withBooking x run t) := by
  unfold Machine.withBooking
  split
  · exact h.refuseHost _ _
  · exact h.refuseHost _ _
  · exact ite (fun _ => h.refuseHost _ _) fun _ => hr _

theorem createAndReply (h : Writes .engine s t) {b : Booking} (hh : b.state = .tentative → t.store.holds.length < 64)
    (body : Handle → List Field) : Writes .engine s (createAndReply b body t) := by
  unfold Machine.createAndReply
  split
  · exact h
  · rename_i ha
    exact ((h.allocate ha hh).evalDisplay _).finish _ _

theorem doHold (h : Writes .engine s t) (q : BookReq) (n : Nat) : Writes .engine s (doHold q n t) := by
  unfold Machine.doHold
  refine ite (fun _ => h.refuseHost _ _) fun _ => ?_
  split
  · exact h.refuseTurned ..
  · rename_i hc
    simp only [Option.or_eq_none_iff] at hc
    exact h.createAndReply (fun _ => holds_lt_of_checkHolds hc.2.1) _

theorem doBook (h : Writes .engine s t) (q : BookReq) : Writes .engine s (doBook q t) := by
  unfold Machine.doBook
  refine ite (fun _ => h.refuseHost _ _) fun _ => ?_
  split
  · exact h.refuseTurned ..
  · exact h.createAndReply (by simp [hostBooking]) _

theorem doConfirm (h : Writes .engine s t) (x : Handle) : Writes .engine s (doConfirm x t) :=
  h.withBooking x fun _ =>
    ite (fun _ => (((h.setBooking _ _).leaveHolds x).evalDisplay _).finish _ _) fun _ => h.refuseHost _ _

theorem doCancel (h : Writes .engine s t) (x : Handle) (n : Nat) : Writes .engine s (doCancel x n t) :=
  h.withBooking x fun _ =>
    ite (fun _ => h.refuseHost _ _) fun _ => ite (fun _ => h.refuseHost _ _) fun _ => ite (fun _ => h.refuseHost _ _)
      fun _ => ((h.freeBooking ..).evalDisplay _).finish _ _

theorem endAndShow (h : Writes .engine s t) (room i : Nat) (b : Booking) (now : CTime) :
    Writes .engine s (endAndShow room i b now t) :=
  ite (fun _ => h) fun _ => (h.setBooking _ _).evalDisplay _

theorem doEnd (h : Writes .engine s t) (x : Handle) : Writes .engine s (doEnd x t) :=
  h.withBooking x fun b => by
    split
    · exact h.refuseHost _ _
    · exact ite (fun _ => h.refuseHost _ _) fun _ => (h.endAndShow ..).finish _ _

theorem doCheckIn (h : Writes .engine s t) (x : Handle) (badge : Token) : Writes .engine s (doCheckIn x badge t) :=
  h.withBooking x fun b => by
    split
    · exact h.refuseHost _ _
    · exact ite (fun _ => ((h.setBooking _ _).evalDisplay _).finish _ _) fun _ => h.refuseHost _ _

theorem commitMove (h : Writes .engine s t) (i : Nat) (b : Booking) (room : Nat) (sp : Span) (n : Nat) :
    Writes .engine s (commitMove i b room sp n t) :=
  ite (fun _ => h.setBooking _ _) fun _ => ((h.setRoomList _ _).setBooking _ _).setRoomList _ _

theorem evalMove (h : Writes .engine s t) (old new : Nat) : Writes .engine s (evalMove old new t) :=
  ite (fun _ => h.evalDisplay _) fun _ => (h.evalDisplay _).evalDisplay _

theorem noticeRoom (h : Writes .engine s t) (b : Booking) (room : Nat) :
    Writes .engine s (noticeRoom b room t) := by
  unfold Machine.noticeRoom
  split
  · exact ite (fun _ => h) fun _ => h.sendPlanner _
  · exact h

theorem stageMove (h : Writes .engine s t) (q : MoveReq) (b : Booking) (o : Handle) :
    Writes .engine s (stageMove q b o t) :=
  (((h.setBooking _ _).setEngine
    (E := { t.engine with staged := some ⟨q.booking, q.room, q.start, q.fin, q.attendees⟩ }) id id).sendPlanner
      _).evalDisplay _

theorem doMoveChecked (h : Writes .engine s t) (q : MoveReq) (b : Booking) :
    Writes .engine s (doMoveChecked q b t) := by
  refine ite (fun _ => h.finish _ _) fun _ => ?_
  split
  · exact ite (fun _ => (((h.commitMove ..).noticeRoom _ _).evalMove _ _).finish _ _) fun _ => h.stageMove ..
  · exact ((h.commitMove ..).evalMove _ _).finish _ _

theorem doMove (h : Writes .engine s t) (q : MoveReq) : Writes .engine s (doMove q t) :=
  h.withBooking _ fun b => ite (fun _ => h.refuseHost _ _) fun _ => by
    split
    · exact h.refuseTurned ..
    · exact h.doMoveChecked ..

theorem doFindRoom (h : Writes .engine s t) (q : FindReq) : Writes .engine s (doFindRoom q t) := by
  refine ite (fun _ => h.refuseHost _ _) fun _ => ?_
  split
  · exact h.refuseTurned ..
  · split
    · exact h.refuseHost _ _
    · refine ite (fun _ => h.finish _ _) fun _ => ?_
      split
      · exact h.refuseTurned ..
      · rename_i hc
        simp only [Option.or_eq_none_iff] at hc
        exact h.createAndReply (fun _ => holds_lt_of_checkHolds hc.1) _

theorem doQueryRoom (h : Writes .engine s t) (room day : Nat) (c : Option CTime) :
    Writes .engine s (doQueryRoom room day c t) :=
  ite (fun _ => h.refuseHost _ _) fun _ => ite (fun _ => h.refuseHost _ _) fun _ => h.finish _ _

theorem doQueryBooking (h : Writes .engine s t) (x : Handle) : Writes .engine s (doQueryBooking x t) := by
  unfold Machine.doQueryBooking
  split
  · exact h.finish _ _
  · exact h.refuseHost _ _
  · exact h.refuseHost _ _

theorem doAcceptProvisional (h : Writes .engine s t) (x : Handle) : Writes .engine s (doAcceptProvisional x t) :=
  h.withBooking x fun _ =>
    ite (fun _ => (((h.setBooking _ _).provisional _).evalDisplay _).finish _ _) fun _ => h.refuseHost _ _

theorem doPlaceOrder (h : Writes .engine s t) (x : Handle) (n : Nat) (ls : List OrderLine) :
    Writes .engine s (doPlaceOrder x n ls t) :=
  h.withBooking x fun _ =>
    ite (fun _ => h.refuseHost _ _) fun _ => ite (fun _ => h.refuseHost _ _) fun _ =>
      ((h.setBooking _ _).sendPlanner _).evalDisplay _

/-! ### The planner's answers and notices -/

theorem clearMark (h : Writes .engine s t) (i : Nat) (f : Booking → Booking) :
    Writes .engine s (clearMark i f t) := by
  unfold Machine.clearMark
  split
  · exact h.setBooking _ _
  · exact h

theorem settleAdmission (h : Writes .engine s t) (x : Handle) (o : Option Handle) :
    Writes .engine s (settleAdmission x o t) :=
  ((ite (fun _ => (h.clearMark _ _).requestDisplay _) fun _ => h.clearMark _ _).deferredOutcome _).evalDisplay _

theorem doAdmissionAnswer (h : Writes .engine s t) (x : Handle) (a : AdmissionAnswer) :
    Writes .engine s (doAdmissionAnswer x a t) := by
  cases a with
  | admitted => exact (h.settleAdmission _ _).finish _ _
  | refused => exact (h.settleAdmission _ _).countCateringRefusal.finish _ _

theorem commitStaged (h : Writes .engine s t) (g : Staged) (k : Bool) : Writes .engine s (commitStaged g k t) := by
  unfold Machine.commitStaged
  split
  · exact h.commitMove ..
  · exact h

theorem settleRefit (h : Writes .engine s t) (x : Handle) (old new : Nat) :
    Writes .engine s (settleRefit x old new t) :=
  (((h.clearMark _ _).setEngine (E := { (Machine.clearMark _ _ t).engine with staged := none }) id id).deferredOutcome
    _).evalMove _ _

theorem refuseMove (h : Writes .engine s t) (x : Handle) (r : Result) (body : List Field) :
    Writes .engine s (refuseMove x r body t) :=
  (h.settleRefit ..).countCateringRefusal.refuseHost _ _

theorem commitRefit (h : Writes .engine s t) (x : Handle) (k : Bool) (body : Staged → List Field) :
    Writes .engine s (commitRefit x k body t) := by
  unfold Machine.commitRefit
  split
  · exact ((h.commitStaged _ _).settleRefit ..).finish _ _
  · exact ((h.clearMark _ _).evalDisplay _).finish _ _

theorem doRefitAnswer (h : Writes .engine s t) (x : Handle) (a : RefitAnswer) :
    Writes .engine s (doRefitAnswer x a t) := by
  cases a with
  | fit | dropped => exact h.commitRefit ..
  | noFit | committed => exact h.refuseMove ..

theorem replyAfterLink (h : Writes .engine s t) (o : Handle) : Writes .engine s (replyAfterLink o t) := by
  unfold Machine.replyAfterLink
  split
  · split
    · exact ite (fun _ => h.finish _ _) fun _ => h
    · exact h
  · exact h

theorem doLinkNotice (h : Writes .engine s t) (x o : Handle) : Writes .engine s (doLinkNotice x o t) := by
  refine replyAfterLink ?_ o
  split
  · exact ite (fun _ => (h.setBooking _ _).evalDisplay _) fun _ => h
  · exact h

theorem doDisplayNotice (h : Writes .engine s t) (x o : Handle) : Writes .engine s (doDisplayNotice x o t) :=
  ite (fun _ => h.requestDisplay _) fun _ => h

/-! ### Boundary work, visits and occupancy -/

theorem expireHold (h : Writes .engine s t) (now : CTime) (x : Handle) : Writes .engine s (expireHold now x t) := by
  unfold Machine.expireHold
  split
  · exact ite (fun _ => h.freeBooking ..) fun _ => h
  · exact h

theorem endBookingAt (h : Writes .engine s t) (now : CTime) (i : Nat) :
    Writes .engine s (endBookingAt now i t) := by
  unfold Machine.endBookingAt
  split
  · exact ite (fun _ => h.freeBooking ..) fun _ => h
  · exact h

theorem doEngineBoundary (h : Writes .engine s t) (b : Boundary) : Writes .engine s (doEngineBoundary b t) := by
  have h1 := h.setEngine (E := { t.engine with now := some b.now }) id id
  have h2 := h1.foldl (f := fun s x => Machine.expireHold b.now x s) (fun _ _ h => h.expireHold _ _) t.store.holds
  exact evalAllDisplays (h2.foldl (fun _ _ h => h.foldl (fun _ _ h => h.endBookingAt _ _) _) _)

theorem doRoomVisit (h : Writes .engine s t) (r : Nat) : Writes .engine s (doRoomVisit r t) := by
  unfold Machine.doRoomVisit
  split
  · exact ite (fun _ => (h.freeBooking ..).countRelease.evalDisplay _) fun _ => h
  · exact h

theorem checkInReported (h : Writes .engine s t) (i : Nat) (b : Booking) (now : CTime) (src : Nat) (badge : Token) :
    Writes .engine s (checkInReported i b now src badge t) :=
  (h.setBooking _ _).postEvent _

theorem doOccupancy (h : Writes .engine s t) (r : Nat) : Writes .engine s (doOccupancy r t) := by
  refine ite (fun _ => ?_) fun _ => h
  split
  · exact (h.checkInReported ..).evalDisplay _
  · exact h

/-! ### Panel requests -/

/-- The answer to a panel request, sent by the engine or the planner. -/
theorem answerPanel {b : Block} (h : Writes b s t) (hb : ∀ l, b ≠ .line l) (src : PanelSrc) (kind : Nat)
    (code : PanelCode) (time : Option CTime) : Writes b s (answerPanel src kind code time t) :=
  h.sendLine hb _ _

theorem refusePanel (h : Writes .engine s t) (src : PanelSrc) (kind : Nat) (x : Turned) :
    Writes .engine s (refusePanel src kind x t) :=
  (h.countRefusal _).answerPanel nofun ..

theorem admitWalkup (h : Writes .engine s t) (src : PanelSrc) (room len : Nat) (badge : Token) (code : PanelCode) :
    Writes .engine s (admitWalkup src room len badge code t) := by
  unfold Machine.admitWalkup
  dsimp only
  split
  · exact h
  · rename_i ha
    exact (((h.allocate ha nofun).postEvent _).answerPanel nofun ..).evalDisplay _

theorem doWalkup (h : Writes .engine s t) (src : PanelSrc) (room len : Nat) (badge : Token) :
    Writes .engine s (doWalkup src room len badge t) := by
  refine ite (fun _ => h.refusePanel ..) fun _ => ?_
  dsimp only
  split
  · exact (ite (fun _ => h.openEpisode ..) fun _ => h).refusePanel ..
  · exact h.admitWalkup ..

theorem doPanelCheckin (h : Writes .engine s t) (src : PanelSrc) (room : Nat) (badge : Token) :
    Writes .engine s (doPanelCheckin src room badge t) := by
  unfold Machine.doPanelCheckin
  split
  · exact ((h.checkInReported ..).answerPanel nofun ..).evalDisplay _
  · exact h.refusePanel ..

theorem doExtend (h : Writes .engine s t) (src : PanelSrc) (room k : Nat) :
    Writes .engine s (doExtend src room k t) := by
  unfold Machine.doExtend
  split
  · refine ite (fun _ => h.refusePanel ..) fun _ => ite (fun _ => h.refusePanel ..) fun _ => ?_
    dsimp only
    split
    · exact h.refusePanel ..
    · exact (((h.setBooking _ _).postEvent _).answerPanel nofun ..).evalDisplay _
  · exact h.refusePanel ..

theorem doPanelEnd (h : Writes .engine s t) (src : PanelSrc) (room : Nat) :
    Writes .engine s (doPanelEnd src room t) := by
  unfold Machine.doPanelEnd
  split
  · exact ite (fun _ => h.refusePanel ..) fun _ => (h.answerPanel nofun ..).endAndShow ..
  · exact h.refusePanel ..

end Writes

end Sys2Proof.Machine
end

