-- ==== Sys2Proof/Proofs/PlannerWrites.lean ====
section
/-! PROOFS. What the Catering Planner's operations write (chapters 5 and 6): one rule for each operation, the
rule of a piece of work built from those of the operations it runs. -/

namespace Sys2Proof.Machine

/-- A kitchen change keeps the Load Table in its form (R97). -/
theorem remark_wf {s : State} (h : s.planner.load.wf noLoad) (k : Nat) (lim : Limits) :
    (remark k lim s).planner.load.wf noLoad :=
  List.foldlRecOn (motive := fun t : Table LoadCell => t.wf noLoad) _ _ h fun t ht e _ => by
    split
    · exact Table.set_wf ht _ _
    · exact ht

namespace Writes

variable {s t : State}

/-! ### The Load Table -/

theorem modifyCell (h : Writes .planner s t) (k : Nat) (f : LoadCell → LoadCell) (x : Int) :
    Writes .planner s (modifyCell k f x t) :=
  h.setPlanner (Table.modify_wf · _ _) id id id

theorem modifyCells (h : Writes .planner s t) (k : Nat) (f : LoadCell → LoadCell) (xs : List Int) :
    Writes .planner s (modifyCells k f xs t) :=
  h.foldl (fun _ _ h => h.modifyCell ..) xs

theorem addShares (h : Writes .planner s t) (k load n : Nat) (w : Int) :
    Writes .planner s (addShares k load n w t) :=
  h.foldl (fun _ _ h => h.modifyCell ..) _

theorem takeShares (h : Writes .planner s t) (k load n : Nat) (w : Int) :
    Writes .planner s (takeShares k load n w t) :=
  h.foldl (fun _ _ h => h.modifyCell ..) _

theorem placeLoad (h : Writes .planner s t) (o : Order) : Writes .planner s (placeLoad o t) :=
  (h.addShares ..).modifyCells ..

theorem releaseCarts (h : Writes .planner s t) (o : Order) : Writes .planner s (releaseCarts o t) :=
  (h.modifyCells ..).modifyCells ..

theorem removeLoad (h : Writes .planner s t) (o : Order) : Writes .planner s (removeLoad o t) :=
  (h.takeShares ..).modifyCells ..

theorem testOrderMarks (h : Writes .planner s t) (o : Order) : Writes .planner s (testOrderMarks o t) :=
  (h.modifyCells ..).modifyCells ..

/-! ### Order records and production lists -/

theorem setOrder (h : Writes .planner s t) (i : Nat) (o : Order) : Writes .planner s (setOrder i o t) :=
  h.setPlanner id id (Table.set_wf · _ _) id

theorem releaseOrder (h : Writes .planner s t) (i : Nat) : Writes .planner s (releaseOrder i t) :=
  h.setPlanner id id (Table.set_wf · _ _) id

theorem enterProduction (h : Writes .planner s t) (k i : Nat) : Writes .planner s (enterProduction k i t) :=
  h.setPlanner id id id (Table.set_wf · _ _)

theorem leaveProduction (h : Writes .planner s t) (k i : Nat) : Writes .planner s (leaveProduction k i t) :=
  h.setPlanner id id id (Table.set_wf · _ _)

theorem nextPlacing (h : Writes .planner s t) : Writes .planner s (nextPlacing t) := h.setPlanner id id id id

theorem setJob (h : Writes .planner s t) (j : Option Job) : Writes .planner s (setJob j t) := h.setPlanner id id id id

theorem linkNotice (h : Writes .planner s t) (i : Nat) (o : Order) : Writes .planner s (linkNotice i o t) := by
  unfold Machine.linkNotice
  split
  · exact h.sendEngine _
  · exact h

theorem displayNotice (h : Writes .planner s t) (i : Nat) (o : Order) :
    Writes .planner s (displayNotice i o t) := by
  unfold Machine.displayNotice
  split
  · exact h.sendEngine _
  · exact h

theorem freeOrder (h : Writes .planner s t) (i : Nat) (o : Order) (e : Option EventRecord) :
    Writes .planner s (freeOrder i o e t) := by
  have h1 := ((h.leaveProduction o.kitchen i).linkNotice i o).releaseOrder i
  unfold Machine.freeOrder
  split
  · exact h1.postEvent _
  · exact h1

theorem cancelOrder (h : Writes .planner s t) (i : Nat) (o : Order) (e : Option EventRecord) :
    Writes .planner s (cancelOrder i o e t) :=
  ((h.removeLoad o).testOrderMarks o).freeOrder ..

theorem wasteOrder (h : Writes .planner s t) (i : Nat) (o : Order) : Writes .planner s (wasteOrder i o t) :=
  ((h.releaseCarts o).setOrder ..).linkNotice ..

/-! ### Admission and refit -/

theorem openOrderEpisode (h : Writes .planner s t) (room : Nat) : Writes .planner s (openOrderEpisode room t) :=
  ite (fun _ => h) fun _ =>
    (h.setPlanner (P := { t.planner with episode := true }) id id id id).postException _ _

theorem doAdmissionComputation (h : Writes .planner s t) (x : Handle) (serving : CTime) (room n : Nat)
    (ls : List OrderLine) : Writes .planner s (doAdmissionComputation x serving room n ls t) :=
  ite (fun _ => h.sendEngine _) fun _ => ite (fun _ => (h.openOrderEpisode _).sendEngine _) fun _ =>
    ite (fun _ => h.sendEngine _) fun _ => h.setJob _

theorem commitAdmission (h : Writes .planner s t) (j : Job) (p : Placement) :
    Writes .planner s (commitAdmission j p t) := by
  unfold Machine.commitAdmission
  split
  · exact (h.openOrderEpisode _).sendEngine _
  · rename_i rest _
    exact (((((h.setPlanner (P := { t.planner with free := rest }) id id id id).setOrder ..).nextPlacing).placeLoad
      _).enterProduction ..).sendEngine _

theorem doAdmissionCompletion (h : Writes .planner s t) (j : Job) :
    Writes .planner s (doAdmissionCompletion j t) := by
  unfold Machine.doAdmissionCompletion
  split
  · exact h.commitAdmission ..
  · exact h.sendEngine _

theorem noFit (h : Writes .planner s t) (x : Handle) (i : Nat) (o : Order) (drop : Bool) (r : Reasons) :
    Writes .planner s (noFit x i o drop r t) :=
  ite (fun _ => (h.cancelOrder ..).sendEngine _) fun _ => h.sendEngine _

theorem doRefitComputation (h : Writes .planner s t) (x o : Handle) (serving : CTime) (room : Nat) (drop : Bool) :
    Writes .planner s (doRefitComputation x o serving room drop t) := by
  unfold Machine.doRefitComputation
  split
  · exact h.sendEngine _
  · split
    · exact ite (fun _ => h.noFit ..) fun _ => h.setJob _
    · exact ite (fun _ => (h.wasteOrder ..).sendEngine _) fun _ => h.sendEngine _
    · exact ite (fun _ => (h.setOrder ..).sendEngine _) fun _ => h.sendEngine _

theorem swapOrder (h : Writes .planner s t) (i : Nat) (o : Order) (j : Job) (p : Placement) :
    Writes .planner s (swapOrder i o j p t) :=
  ((((((h.removeLoad o).placeLoad _).leaveProduction ..).setOrder ..).nextPlacing).enterProduction ..).testOrderMarks _

theorem doRefitCompletion (h : Writes .planner s t) (j : Job) (o : Handle) (drop : Bool) :
    Writes .planner s (doRefitCompletion j o drop t) := by
  unfold Machine.doRefitCompletion
  split
  · exact h.sendEngine _
  · split
    · exact (h.swapOrder ..).sendEngine _
    · exact h.noFit ..

theorem doKitchenChange (h : Writes .planner s t) (k cap carts : Nat) :
    Writes .planner s (doKitchenChange k cap carts t) := by
  have h1 := h.setPlanner (P := { t.planner with limits := t.planner.limits.set ⟨0, 0⟩ k ⟨cap, carts⟩ }) id
    (Table.set_wf · _ _) id id
  have h2 : Writes .planner s (remark k ⟨cap, carts⟩ _) := h1.setPlanner (fun h => remark_wf h _ _) id id id
  exact (ite (fun _ => h2.postException _ _) fun _ => h2).finish _ _

/-! ### The life of an order -/

theorem advanceOrder (h : Writes .planner s t) (i : Nat) (o : Order) (st : OrderState) (kind : EventKind) :
    Writes .planner s (advanceOrder i o st kind t) :=
  ((h.setOrder ..).postEvent _).displayNotice ..

/-- One row of R102, tried on an order that is there. -/
theorem walkRow {row : Int → Nat → Order → State → State}
    (hr : ∀ {u} now i o, Writes .planner s u → Writes .planner s (row now i o u)) {now : Int} {i : Nat}
    (h : Writes .planner s t) : Writes .planner s (walkRow row now i t) := by
  unfold Machine.walkRow
  split
  · exact hr _ _ _ h
  · exact h

theorem walkOrder (h : Writes .planner s t) (i : Nat) : Writes .planner s (walkOrder i t) := by
  have wasted : ∀ {u} now i o, Writes .planner s u → Writes .planner s (walkWasted now i o u) :=
    fun _ _ _ h => ite (fun _ => h.freeOrder ..) fun _ => h
  have production : ∀ {u} now i o, Writes .planner s u → Writes .planner s (walkProduction now i o u) :=
    fun _ _ _ h => ite (fun _ => h.advanceOrder ..) fun _ => h
  have dispatch : ∀ {u} now i o, Writes .planner s u → Writes .planner s (walkDispatch now i o u) :=
    fun _ _ _ h => ite (fun _ => h.advanceOrder ..) fun _ => h
  have unconfirmed : ∀ {u} now i o, Writes .planner s u → Writes .planner s (walkUnconfirmed now i o u) :=
    fun _ _ _ h => ite (fun _ => (h.setOrder ..).postEvent _) fun _ => h
  have close : ∀ {u} now i o, Writes .planner s u → Writes .planner s (walkClose now i o u) :=
    fun _ _ _ h => ite (fun _ => h.freeOrder ..) fun _ => h
  exact walkRow close (walkRow unconfirmed (walkRow dispatch (walkRow production (walkRow wasted h))))

theorem doPlannerBoundary (h : Writes .planner s t) (b : Boundary) : Writes .planner s (doPlannerBoundary b t) := by
  have h1 := h.setPlanner (P := { t.planner with now := some b.now }) id id id id
  have h2 : Writes .planner s (clearPastMarks _) := h1.foldl (fun _ _ h => h.modifyCell ..) _
  have h3 : Writes .planner s (clearSlice b _) :=
    ite (fun _ => h2.setPlanner (Table.clear_wf · _) id id id) fun _ => h2
  exact h3.foldl (fun _ _ h => h.foldl (fun _ _ h => h.walkOrder _) _) _

theorem doRoomNotice (h : Writes .planner s t) (x : Handle) (room : Nat) :
    Writes .planner s (doRoomNotice x room t) := by
  unfold Machine.doRoomNotice
  split
  · exact h.setOrder ..
  · exact h

theorem deliverOrder (h : Writes .planner s t) (i : Nat) (o : Order) : Writes .planner s (deliverOrder i o t) :=
  (h.setOrder ..).displayNotice ..

theorem doCateringReceived (h : Writes .planner s t) (src : PanelSrc) (room : Nat) (badge : Token) :
    Writes .planner s (doCateringReceived src room badge t) := by
  unfold Machine.doCateringReceived
  split
  · exact ite (fun _ => ((h.postEvent _).deliverOrder ..).answerPanel nofun ..) fun _ => h.answerPanel nofun ..
  · exact h.answerPanel nofun ..

theorem refuseOrder (h : Writes .planner s t) (r : Result) : Writes .planner s (refuseOrder r t) :=
  h.countCateringRefusal.finish _ _

theorem doConfirmDelivery (h : Writes .planner s t) (x : Handle) : Writes .planner s (doConfirmDelivery x t) := by
  unfold Machine.doConfirmDelivery
  split
  · exact h.refuseOrder _
  · exact h.refuseOrder _
  · exact ite (fun _ => (h.deliverOrder ..).finish _ _) fun _ => h.refuseOrder _

theorem replyCancel (h : Writes .planner s t) (x : Handle) (o : Order) (body : List Field) :
    Writes .planner s (replyCancel x o body t) :=
  ite (fun _ => h.setStage _) fun _ => h.finish _ _

theorem doCancelOrder (h : Writes .planner s t) (x : Handle) : Writes .planner s (doCancelOrder x t) := by
  unfold Machine.doCancelOrder
  split
  · exact h.refuseOrder _
  · exact h.refuseOrder _
  · split
    · exact (h.cancelOrder ..).replyCancel ..
    · exact (h.wasteOrder ..).replyCancel ..
    · exact h.refuseOrder _

theorem doBookingHandoff (h : Writes .planner s t) (x booking : Handle) (kind : HandoffKind) :
    Writes .planner s (doBookingHandoff x booking kind t) := by
  unfold Machine.doBookingHandoff
  split
  · exact h
  · dsimp only
    split
    · exact h.cancelOrder ..
    · exact h.cancelOrder ..
    · exact h.wasteOrder ..
    · exact h.wasteOrder ..
    · exact h.setOrder ..

theorem doQueryOrder (h : Writes .planner s t) (x : Handle) : Writes .planner s (doQueryOrder x t) := by
  unfold Machine.doQueryOrder
  split <;> exact h.finish _ _

theorem doReadLoad (h : Writes .planner s t) (k : Nat) (first : CTime) (n : Nat) :
    Writes .planner s (doReadLoad k first n t) :=
  ite (fun _ => h.finish _ _) fun _ => ite (fun _ => h.finish _ _) fun _ => ite (fun _ => h.finish _ _) fun _ =>
    h.finish _ _

theorem doReadProduction (h : Writes .planner s t) (k : Nat) (c : Option (CTime × Nat)) (n : Nat) :
    Writes .planner s (doReadProduction k c n t) :=
  ite (fun _ => h.finish _ _) fun _ => h.finish _ _

end Writes

end Sys2Proof.Machine
end

