-- ==== Sys2Proof/Proofs/LineWrites.lean ====
section
/-! PROOFS. What the Panel Line Controllers' operations write (chapters 7 to 9): first what each operation on a
line does to the form of its position table, then one rule for each piece of work. -/

namespace Sys2Proof.Machine

/-! ### The position table of a line -/

/-- The position table is in its form. -/
abbrev Line.Canonical (a : Line) : Prop := a.positions.wf .reset

namespace Line.Canonical

variable {a : Line}

theorem modifyAt (h : a.Canonical) (p : Nat) (f : Position → Position) : (a.modifyAt p f).Canonical :=
  Table.modify_wf h _ _

theorem modifyAll (h : a.Canonical) (f : Nat → Position → Position) : (a.modifyAll f).Canonical :=
  (Line.modifyAll_spec f h).2.1

theorem enqueue (h : a.Canonical) (p : Nat) : (a.enqueue p).Canonical := by
  rw [Line.enqueue_eq]; exact h

theorem enqueueAll (ps : List Nat) (h : a.Canonical) : (a.enqueueAll ps).Canonical :=
  List.foldlRecOn (motive := Line.Canonical) ps _ h fun _ h _ _ => h.enqueue _

theorem applyDeferred (h : a.Canonical) (d : Deferred) : (a.applyDeferred d).Canonical :=
  (Line.applyDeferred_spec d h).2

theorem applyHeldClears (h : a.Canonical) : a.applyHeldClears.Canonical :=
  List.foldlRecOn (motive := Line.Canonical) _ _ h fun _ h _ _ => h.applyDeferred _

theorem applyOrDefer (h : a.Canonical) (d : Deferred) : (a.applyOrDefer d).Canonical := by
  unfold Line.applyOrDefer
  split
  · exact h
  · exact h.applyDeferred d

theorem applyClear (h : a.Canonical) (target : Option Nat) : (a.applyClear target).Canonical :=
  h.applyDeferred (.clear target)

theorem setCensus (h : a.Canonical) (n : Nat) : (a.setCensus n).Canonical := by
  have h1 := h.modifyAll (censusPosition n)
  unfold Line.setCensus
  generalize a.modifyAll (censusPosition n) = c at h1 ⊢
  exact enqueueAll _ (a := { c with census := some n, queue := [] }) h1

theorem enterRunning (h : a.Canonical) :
    (Line.enqueueAll a.boundPositions { a.darken with chain := .running }).Canonical := by
  have h1 : a.darken.Canonical := h.modifyAll _
  generalize a.darken = c at h1 ⊢
  exact enqueueAll _ (a := { c with chain := .running }) h1

theorem checkGeneration (h : a.Canonical) (p : Nat) (u : Option Uplink) : (a.checkGeneration p u).Canonical := by
  unfold Line.checkGeneration
  dsimp only
  split
  · exact (h.modifyAt _ _).enqueue _
  · exact h.modifyAt _ _

theorem repeatRequest (h : a.Canonical) (p : Nat) : (a.repeatRequest p).Canonical := by
  unfold Line.repeatRequest
  split
  · exact h.modifyAt _ _
  · exact h

theorem storeAnswer (h : a.Canonical) (p n : Nat) (x : PanelAnswer) : (a.storeAnswer p n x).Canonical := by
  unfold Line.storeAnswer
  dsimp only
  split
  · exact h.modifyAt _ _
  · exact h

/-! ### The downlinks of a cycle -/

theorem placeReply {f : Filling} (h : f.line.Canonical) (p : Nat) : (placeReply f p).line.Canonical := by
  unfold Machine.placeReply
  split
  · exact h.modifyAt _ _
  · exact h

theorem placeDisplay {f : Filling} (h : f.line.Canonical) (s : State) (quiet : Bool) (p : Nat) :
    (placeDisplay s quiet f p).line.Canonical := by
  unfold Machine.placeDisplay
  split
  · exact h.modifyAt _ _
  · exact h

theorem serveQueue {f : Filling} (h : f.line.Canonical) (s : State) (quiet : Bool) :
    (serveQueue s quiet f).line.Canonical :=
  List.foldlRecOn (motive := fun f : Filling => f.line.Canonical) _ _ h fun _ h _ _ => h.placeDisplay ..

theorem placeBlank {f : Filling} (h : f.line.Canonical) (p : Nat) : (placeBlank f p).line.Canonical := by
  unfold Machine.placeBlank
  split <;> exact h

theorem fillDownlinks (h : a.Canonical) (s : State) (quiet : Bool) : (fillDownlinks s quiet a).line.Canonical := by
  have h1 : (positionNumbers.foldl Machine.placeReply ⟨a, .empty⟩).line.Canonical :=
    List.foldlRecOn (motive := fun f : Filling => f.line.Canonical) _ _ h fun _ h _ _ => h.placeReply _
  have h2 := serveQueue h1 s quiet
  unfold Machine.fillDownlinks
  dsimp only
  split
  · exact List.foldlRecOn (motive := fun f : Filling => f.line.Canonical) _ _ h2 fun _ h _ _ => h.placeBlank _
  · exact h2

end Line.Canonical

namespace Writes

variable {l : Fin 4} {s t : State}

/-! ### Cycles -/

theorem startCensus (h : Writes (.line l) s t) : Writes (.line l) s (startCensus l t) := h.updLine id

theorem startOrdinary (h : Writes (.line l) s t) : Writes (.line l) s (startOrdinary l t) :=
  h.updLine (f := fun _ => Line.send _ _ _ _) fun hp => Line.Canonical.fillDownlinks hp t _

theorem startCycle (h : Writes (.line l) s t) : Writes (.line l) s (startCycle l t) := by
  unfold Machine.startCycle
  split
  · exact h.startCensus
  · exact h.startOrdinary
  · exact h.startOrdinary
  · exact h
  · exact h
  · exact h

theorem nextCycle (h : Writes (.line l) s t) : Writes (.line l) s (nextCycle l t) :=
  ite (fun _ => h.startCycle) fun _ => h

theorem callCycle (h : Writes (.line l) s t) : Writes (.line l) s (callCycle l t) :=
  ite (fun _ => h.updLine id) fun _ => h.startCycle

theorem goOffline (h : Writes (.line l) s t) : Writes (.line l) s (Machine.updLine l Line.goOffline t) :=
  h.updLine fun hp => (Line.goOffline_spec hp).2

theorem fault (h : Writes (.line l) s t) (c : FaultCause) : Writes (.line l) s (fault l c t) :=
  (h.updLine fun hp => (Line.goFaulted_spec c hp).2).postException _ _

theorem applyDeferred (h : Writes (.line l) s t) : Writes (.line l) s (applyDeferred l t) :=
  h.updLine fun hp => (Line.applyDeferredList_spec hp).2

/-- The clear held is answered behind the work that follows (R146). -/
theorem withHeldClear (h : Writes (.line l) s t) {rest : State → State}
    (hr : ∀ {u}, Writes (.line l) s u → Writes (.line l) s (rest u)) :
    Writes (.line l) s (withHeldClear l rest t) := by
  unfold Machine.withHeldClear replyClear
  dsimp only
  split
  · exact (hr h).finish _ _
  · exact hr h

theorem afterEcho (h : Writes (.line l) s t) : Writes (.line l) s (afterEcho l t) := by
  unfold Machine.afterEcho
  dsimp only
  split
  · exact h.applyDeferred.goOffline
  · exact ite (fun _ => h.fault _) fun _ => h.applyDeferred.nextCycle
  · exact ite (fun _ => h.fault _) fun _ => h.applyDeferred.nextCycle
  · exact ite (fun _ => h.fault _) fun _ => h.applyDeferred.nextCycle
  · exact h.applyDeferred
  · exact h.applyDeferred

theorem echoFailure (h : Writes (.line l) s t) : Writes (.line l) s (echoFailure l t) :=
  ((h.updLine (f := Line.failCycle) id).countEcho l).withHeldClear fun h => h.afterEcho

/-! ### The uplinks of a cycle -/

theorem reportAbsent (h : Writes (.line l) s t) (p : Nat) : Writes (.line l) s (reportAbsent l p t) := by
  unfold Machine.reportAbsent
  dsimp only
  split
  · exact ite (fun _ => h.postException _ _) fun _ => h
  · exact h

theorem reportReturned (h : Writes (.line l) s t) (p : Nat) : Writes (.line l) s (reportReturned l p t) := by
  unfold Machine.reportReturned
  dsimp only
  split
  · exact h.postException _ _
  · exact h

theorem updateHealth (h : Writes (.line l) s t) (p : Nat) (u : Option Uplink) :
    Writes (.line l) s (updateHealth l p u t) := by
  cases u with
  | none =>
    have h1 := (h.updLine fun hp => Line.Canonical.modifyAt hp p (missedPosition t.policy.deglitch)).countMiss l
    exact ite (fun _ => h1.reportAbsent _) fun _ => h1
  | some u =>
    have h1 := h.updLine fun hp => Line.Canonical.modifyAt hp p heardPosition
    exact ite (fun _ => h1.reportReturned _) fun _ => h1

theorem selfAnswer (h : Writes (.line l) s t) (p : Nat) (u : Uplink) (c : PanelCode) :
    Writes (.line l) s (selfAnswer l p u c t) :=
  h.updLine fun hp => Line.Canonical.modifyAt hp _ _

theorem handOn (h : Writes (.line l) s t) (p room : Nat) (u : Uplink) : Writes (.line l) s (handOn l p room u t) :=
  ite (fun _ => h.sendEngine _) fun _ => ite (fun _ => h.sendEngine _) fun _ => ite (fun _ => h.sendEngine _) fun _ =>
    ite (fun _ => h.sendEngine _) fun _ => ite (fun _ => h.sendPlanner _) fun _ =>
      ite (fun _ => (h.postException _ _).selfAnswer ..) fun _ => h.selfAnswer ..

theorem judgeRequest (h : Writes (.line l) s t) (p : Nat) (u : Uplink) :
    Writes (.line l) s (judgeRequest l p u t) := by
  refine ite (fun _ => h) fun _ => ite (fun _ => h.updLine fun hp => Line.Canonical.repeatRequest hp _) fun _ => ?_
  have h1 : Writes (.line l) s (Machine.updLine l (Line.newRequest p u.toggle) t) :=
    h.updLine fun hp => Line.Canonical.modifyAt hp _ _
  dsimp only
  split
  · exact h1.handOn ..
  · exact (h1.postException _ _).selfAnswer ..

theorem noticeOccupancy (h : Writes (.line l) s t) (p : Nat) (u : Uplink) :
    Writes (.line l) s (noticeOccupancy l p u t) := by
  unfold Machine.noticeOccupancy
  split
  · exact ite (fun _ => h.sendEngine _) fun _ => h
  · exact h

theorem lightPosition (h : Writes (.line l) s t) (p : Nat) (u : Uplink) :
    Writes (.line l) s (lightPosition l p u t) := by
  unfold Machine.lightPosition
  split
  · exact ite (fun _ => h.updLine fun hp => (Line.Canonical.modifyAt hp _ _).enqueue _) fun _ => h
  · exact h

theorem takeUplink (h : Writes (.line l) s t) (full quiet : Bool) (bytes : List Byte) (p : Nat) :
    Writes (.line l) s (takeUplink l full quiet bytes t p) := by
  have h1 := ite (c := (full && (t.lines.get l).boundAt p) = true) (fun _ => (h.updateHealth p (uplinkAt bytes p)).updLine
    fun hp => Line.Canonical.checkGeneration hp p (uplinkAt bytes p)) (fun _ => h)
  unfold Machine.takeUplink
  dsimp only
  split
  · exact h1
  · rename_i r _
    have h2 := (h1.judgeRequest p r).noticeOccupancy p r
    exact ite (fun _ => h2.lightPosition ..) fun _ => h2

theorem takeUplinks (h : Writes (.line l) s t) (bytes : List Byte) : Writes (.line l) s (takeUplinks l bytes t) :=
  ite (fun _ => h.foldl (fun _ _ h => h.takeUplink ..) _) fun _ => h

/-! ### The end of a cycle -/

theorem drainOrNext (h : Writes (.line l) s t) : Writes (.line l) s (drainOrNext l t) :=
  ite (fun _ => h.goOffline) fun _ => h.nextCycle

theorem completeOrdinary (h : Writes (.line l) s t) (hops : Nat) (bytes : List Byte) :
    Writes (.line l) s (completeOrdinary l hops bytes t) :=
  ((h.updLine (f := Line.completeCycle hops) id).takeUplinks bytes).withHeldClear fun h =>
    (h.updLine fun hp => Line.Canonical.applyHeldClears hp).applyDeferred.drainOrNext

theorem enterRun (h : Writes (.line l) s t) : Writes (.line l) s (enterRun l t) := by
  unfold Machine.enterRun
  exact h.updLine id

theorem completeCensus (h : Writes (.line l) s t) (hops : Nat) : Writes (.line l) s (completeCensus l hops t) := by
  have h1 := h.updLine (f := Line.completeCycle hops) id
  refine ite (fun _ => ?_) fun _ => ?_
  · exact (h1.updLine (f := fun ln => { ln with census := some 0 }) id).withHeldClear fun h => h.fault _
  · have h2 : Writes (.line l) s (reportCensus l hops _) :=
      (h1.updLine fun hp => Line.Canonical.setCensus hp hops).foldl (fun _ _ h => h.reportAbsent _) _
    exact h2.withHeldClear fun h => h.applyDeferred.enterRun.nextCycle

theorem completeCycle (h : Writes (.line l) s t) (kind : CycleKind) (hops : Nat) (bytes : List Byte) :
    Writes (.line l) s (completeCycle l kind hops bytes t) := by
  cases kind with
  | ordinary => exact h.completeOrdinary ..
  | census =>
    exact ite (fun _ => h.completeCensus _) fun _ =>
      (h.updLine (f := Line.endCycle) id).withHeldClear fun h => h.applyDeferred.drainOrNext

theorem doFrame (h : Writes (.line l) s t) (bytes : List Byte) : Writes (.line l) s (doFrame l bytes t) := by
  unfold Machine.doFrame
  split
  · exact h
  · split
    · exact h.completeCycle ..
    · exact h.echoFailure

theorem doCycleTimeout (h : Writes (.line l) s t) : Writes (.line l) s (doCycleTimeout l t) :=
  ite (fun _ => h.echoFailure) fun _ => h

theorem doPollExpiry (h : Writes (.line l) s t) : Writes (.line l) s (doPollExpiry l t) := by
  unfold Machine.doPollExpiry
  split <;> [exact h.callCycle; exact h.callCycle; exact h.callCycle; exact h; exact h; exact h]

theorem doWirePulled (h : Writes (.line l) s t) : Writes (.line l) s (doWirePulled l t) :=
  ite (fun _ => h.callCycle) fun _ => h

/-! ### Boundaries and quiet mode -/

theorem enterRunning (h : Writes (.line l) s t) : Writes (.line l) s (enterRunning l t) :=
  callCycle (h.updLine fun hp => Line.Canonical.enterRunning hp)

theorem doControllerBoundary (h : Writes (.line l) s t) (b : Boundary) :
    Writes (.line l) s (doControllerBoundary l b t) := by
  have h1 := h.updLine (f := fun ln => Line.expireLit b.now { ln with now := some b.now }) fun hp =>
    Line.Canonical.modifyAll (a := { t.lines.get l with now := some b.now }) hp _
  refine ite (fun _ => h1) fun _ => ?_
  have h2 := h1.updLine (f := fun ln => { ln with window := inWindow t.policy.quietWindow b.now.quantum }) id
  exact ite (fun _ => h2.updLine id) fun _ => ite (fun _ => h2.enterRunning) fun _ => h2

/-! ### Host requests -/

theorem replyChain (h : Writes (.line l) s t) : Writes (.line l) s (replyChain l t) := h.finish _ _

theorem doStartChain (h : Writes (.line l) s t) : Writes (.line l) s (doStartChain l t) := by
  have h1 := (h.updLine (f := fun ln => { ln with echoFails := 0, chain := .census, entered := none })
    id).startCensus.replyChain
  unfold Machine.doStartChain
  split <;> [exact h1; exact h1; exact h.finish _ _; exact h.finish _ _; exact h.finish _ _; exact h.finish _ _]

theorem doStopChain (h : Writes (.line l) s t) : Writes (.line l) s (doStopChain l t) := by
  have h1 := ite (c := (t.lines.get l).inFlight.isSome = true) (fun _ => (h.updLine (f := Line.drain) id).replyChain)
    (fun _ => h.goOffline.replyChain)
  unfold Machine.doStopChain
  split <;> [exact h1; exact h1; exact h1; exact h.goOffline.replyChain; exact h.finish _ _; exact h.finish _ _]

theorem doChainMode (h : Writes (.line l) s t) (mode : Nat) : Writes (.line l) s (doChainMode mode l t) := by
  unfold Machine.doChainMode
  split
  · exact ite (fun _ => h.replyChain) fun _ => ite (fun _ => h.finish _ _) fun _ => (h.updLine id).replyChain
  · exact ite (fun _ => h.enterRunning.replyChain) fun _ => h.replyChain
  all_goals exact h.finish _ _

theorem clearNow (h : Writes (.line l) s t) (target : Option Nat) : Writes (.line l) s (clearNow l target t) :=
  (h.updLine fun hp => Line.Canonical.applyClear hp target).finish _ _

theorem doClearPanelFault (h : Writes (.line l) s t) (target : Option Nat) :
    Writes (.line l) s (doClearPanelFault target l t) := by
  have h1 := ite (c := (t.lines.get l).inFlight.isSome = true)
    (fun _ => h.updLine (f := fun ln => { ln with deferred := ln.deferred ++ [.clear target] }) id)
    (fun _ => h.clearNow target)
  unfold Machine.doClearPanelFault
  split
  · exact h1
  · exact h1
  all_goals exact h.finish _ _

end Writes

end Sys2Proof.Machine
end

