-- ==== Sys2Proof/Proofs/BlockWork.lean ====
section
/-! PROOFS. What each command writes: the taking of work, then one case for each command of a block. -/

namespace Sys2Proof.Machine

namespace Writes

variable {b : Block} {s t u : State}

/-! ### Taking work -/

theorem of_takeEngine {w : EngineWork} (h : takeEngine w s = some u) : Writes .engine s u := by
  obtain ⟨_, rest, _, rfl⟩ := takeEngine_eq_some.1 h
  exact (refl .engine s).setEngine (E := { s.engine with intake := rest }) id id

theorem of_takePlanner {w : PlannerWork} (h : takePlanner w s = some u) : Writes .planner s u := by
  obtain ⟨_, _, rest, _, rfl⟩ := takePlanner_eq_some.1 h
  exact (refl .planner s).setPlanner (P := { s.planner with intake := rest }) id id id id

theorem of_takeLine {l : Fin 4} {w : LineWork} (h : takeLine l w s = some u) : Writes (.line l) s u := by
  obtain ⟨_, rest, _, rfl⟩ := takeLine_eq_some.1 h
  exact (refl (.line l) s).updLine (f := fun ln => { ln with intake := rest }) id

/-- The block that takes the requests of an owner; the requests of the part wait in no intake, and any block's
rules hold of their taking. -/
def Serves (b : Block) : Owner → Prop
  | .part => True
  | .engine => b = .engine
  | .planner => b = .planner
  | .line l => b = .line l

theorem of_takeHost {r : HostRequest} (hb : Serves b (ownerOf r)) (h : takeHost r s = some u) : Writes b s u := by
  obtain ⟨v, hv, rfl⟩ := Option.map_eq_some_iff.1 h
  refine setStage ?_ .taken
  unfold takeFromOwner at hv
  split at hv <;> rename_i ho <;> rw [ho] at hb
  · split at hv
    · cases hv; rfl
    · cases hv
  · cases hb; exact of_takeEngine hv
  · cases hb; exact of_takePlanner hv
  · cases hb; exact of_takeLine hv

/-! ### Steps that take work -/

/-- A step that takes work of a block, when the taking and the work write no more than the block's. -/
theorem of_whenTaken {o : Option State} {run : State → State} (ho : ∀ {u}, o = some u → Writes b s u)
    (hr : ∀ {u}, Writes b s u → Writes b s (run u)) (h : whenTaken o run s = .next t) : Writes b s t := by
  cases o with
  | none => cases h; rfl
  | some u => cases h; exact hr (ho rfl)

theorem engineStep {w : EngineWork} {run : State → State} (hr : ∀ {u}, Writes .engine s u → Writes .engine s (run u))
    (h : whenTaken (takeEngine w s) run s = .next t) : Writes .engine s t := of_whenTaken of_takeEngine hr h

theorem plannerStep {w : PlannerWork} {run : State → State}
    (hr : ∀ {u}, Writes .planner s u → Writes .planner s (run u))
    (h : whenTaken (takePlanner w s) run s = .next t) : Writes .planner s t := of_whenTaken of_takePlanner hr h

theorem lineStep {l : Fin 4} {w : LineWork} {run : State → State}
    (hr : ∀ {u}, Writes (.line l) s u → Writes (.line l) s (run u))
    (h : whenTaken (takeLine l w s) run s = .next t) : Writes (.line l) s t := of_whenTaken of_takeLine hr h

theorem hostStep {r : HostRequest} {run : State → State} (h : hostStep r run s = .next t) (hb : Serves b (ownerOf r))
    (hr : ∀ {u}, Writes b s u → Writes b s (run u)) : Writes b s t :=
  of_whenTaken (of_takeHost hb) hr h

/-- An event at a pin of a line (log 19). -/
theorem pinEvent {l : Fin 4} {w : LineWork} {run : State → State} {v : State} (hv : Writes (.line l) s v)
    (hr : ∀ {u}, Writes (.line l) s u → Writes (.line l) s (run u)) (h : pinEvent l w run v = .next t) :
    Writes (.line l) s t := by
  unfold Machine.pinEvent at h
  split at h
  · split at h
    · rename_i ht
      cases h
      exact hr (hv.trans (of_takeLine ht))
    · split at h
      · cases h; exact hr hv
      · cases h; exact hv.updLine id
  · cases h; exact hv

/-- A request for a line: the work of that line. -/
theorem lineRequest {l : Fin 4} {n : Nat} (hl : lineOf? n = some l) {run : Fin 4 → State → State}
    (h : Writes (.line l) s (run l t)) : Writes (.line l) s (lineRequest n run t) := by
  unfold Machine.lineRequest
  rwa [hl]

/-- The requests for a line are served by its controller. -/
theorem serves_line {l : Fin 4} {n : Nat} (hl : lineOf? n = some l) : Serves (.line l) (lineOwner n) := by
  unfold lineOwner
  rw [hl]
  rfl

end Writes

/-! ### The commands of each block -/

/-- A command of the Reservation Engine writes what the engine may write. -/
theorem exec_writes_engine {c : Instr} {s t : State} (hc : isEngineWork c = true) (h : exec c s = .next t) :
    Writes .engine s t := by
  cases c with
  | hold => exact .hostStep h rfl fun h => h.doHold ..
  | book => exact .hostStep h rfl fun h => h.doBook ..
  | confirm => exact .hostStep h rfl fun h => h.doConfirm ..
  | cancel => exact .hostStep h rfl fun h => h.doCancel ..
  | endBooking => exact .hostStep h rfl fun h => h.doEnd ..
  | checkIn => exact .hostStep h rfl fun h => h.doCheckIn ..
  | move => exact .hostStep h rfl fun h => h.doMove ..
  | findRoom => exact .hostStep h rfl fun h => h.doFindRoom ..
  | queryRoom => exact .hostStep h rfl fun h => h.doQueryRoom ..
  | queryBooking => exact .hostStep h rfl fun h => h.doQueryBooking ..
  | acceptProvisional => exact .hostStep h rfl fun h => h.doAcceptProvisional ..
  | placeOrder => exact .hostStep h rfl fun h => h.doPlaceOrder ..
  | engineTakesAdmissionAnswer => exact .engineStep (fun h => h.doAdmissionAnswer ..) h
  | engineTakesRefitAnswer => exact .engineStep (fun h => h.doRefitAnswer ..) h
  | linkNotice => exact .engineStep (fun h => h.doLinkNotice ..) h
  | displayNotice => exact .engineStep (fun h => h.doDisplayNotice ..) h
  | engineBoundaryWork => exact .engineStep (fun h => h.doEngineBoundary ..) h
  | roomVisit => exact .engineStep (fun h => h.doRoomVisit ..) h
  | occupancyNotice => exact .engineStep (fun h => h.doOccupancy ..) h
  | walkup => exact .engineStep (fun h => h.doWalkup ..) h
  | panelCheckin => exact .engineStep (fun h => h.doPanelCheckin ..) h
  | extend => exact .engineStep (fun h => h.doExtend ..) h
  | panelEnd => exact .engineStep (fun h => h.doPanelEnd ..) h
  | _ => cases hc

/-- A command of the Catering Planner writes what the planner may write. -/
theorem exec_writes_planner {c : Instr} {s t : State} (hc : isPlannerWork c = true) (h : exec c s = .next t) :
    Writes .planner s t := by
  cases c with
  | roomNotice => exact .plannerStep (fun h => h.doRoomNotice ..) h
  | admissionComputation => exact .plannerStep (fun h => h.doAdmissionComputation ..) h
  | admissionCompletion =>
    simp only [exec, execAdmissionCompletion] at h
    split at h
    · split at h
      · cases h; exact ((Writes.refl .planner s).setJob none).doAdmissionCompletion _
      · cases h; rfl
    · cases h; rfl
  | refitComputation => exact .plannerStep (fun h => h.doRefitComputation ..) h
  | refitCompletion =>
    simp only [exec, execRefitCompletion] at h
    split at h
    · split at h
      · cases h; exact ((Writes.refl .planner s).setJob none).doRefitCompletion ..
      · cases h; rfl
    · cases h; rfl
  | queryOrder => exact .hostStep h rfl fun h => h.doQueryOrder ..
  | cancelOrder => exact .hostStep h rfl fun h => h.doCancelOrder ..
  | confirmDelivery => exact .hostStep h rfl fun h => h.doConfirmDelivery ..
  | readLoad => exact .hostStep h rfl fun h => h.doReadLoad ..
  | readProduction => exact .hostStep h rfl fun h => h.doReadProduction ..
  | kitchenChange => exact .plannerStep (fun h => h.doKitchenChange ..) h
  | bookingHandoff => exact .plannerStep (fun h => h.doBookingHandoff ..) h
  | plannerBoundaryWork => exact .plannerStep (fun h => h.doPlannerBoundary ..) h
  | cateringReceived => exact .plannerStep (fun h => h.doCateringReceived ..) h
  | _ => cases hc

/-- A command of a Panel Line Controller writes what that controller may write. -/
theorem exec_writes_line {c : Instr} {l : Fin 4} {s t : State} (hc : lineOfWork c = some l) (h : exec c s = .next t) :
    Writes (.line l) s t := by
  cases c with
  | startChain => exact .hostStep h (Writes.serves_line hc) fun h => .lineRequest hc h.doStartChain
  | stopChain => exact .hostStep h (Writes.serves_line hc) fun h => .lineRequest hc h.doStopChain
  | chainMode =>
    exact .hostStep h (Writes.serves_line hc)
      fun h => .ite (fun _ => h.finish ..) fun _ => .lineRequest hc (h.doChainMode _)
  | clearPanelFault =>
    exact .hostStep h (Writes.serves_line hc)
      fun h => .ite (fun _ => .lineRequest hc (h.doClearPanelFault _)) fun _ => h.finish ..
  | readChain => exact .hostStep h (Writes.serves_line hc) fun h => .lineRequest hc (h.finish ..)
  | readPosition =>
    exact .hostStep h (Writes.serves_line hc)
      fun h => .ite (fun _ => .lineRequest hc (h.finish ..)) fun _ => h.finish ..
  | readLineHealth => exact .hostStep h (Writes.serves_line hc) fun h => .lineRequest hc (h.finish ..)
  | controllerBoundaryWork => cases hc; exact .lineStep (fun h => h.doControllerBoundary ..) h
  | pollTimerExpiry => cases hc; exact .lineStep (fun h => h.doPollExpiry) h
  | attentionWirePulled =>
    cases hc
    simp only [exec, execAttentionWirePulled] at h
    split at h
    · rename_i ht
      cases h; exact (Writes.of_takeLine ht).doWirePulled
    · split at h
      · cases h; rfl
      · exact .pinEvent ((Writes.refl _ s).updLine id) (fun h => h.doWirePulled) h
  | attentionWireReleased => cases hc; cases h; exact (Writes.refl _ s).updLine id
  | cycleReturn => cases hc; exact .pinEvent (.refl _ s) (fun h => h.doFrame _) h
  | cycleTimeout => cases hc; exact .lineStep (fun h => h.doCycleTimeout) h
  | panelAnswer =>
    cases hc
    exact .lineStep (fun h => h.updLine fun hp => Line.Canonical.storeAnswer hp _ _ _) h
  | displayUpdateRequest => cases hc; exact .lineStep (fun h => h.updLine fun hp => Line.Canonical.applyOrDefer hp _) h
  | bindingChange => cases hc; exact .lineStep (fun h => h.updLine fun hp => Line.Canonical.applyOrDefer hp _) h
  | _ => cases hc

end Sys2Proof.Machine
end

