-- ==== Sys2Proof/Proofs/Clock.lean ====
section
/-! PROOFS. The campus clock: what its steps do to the whole state, one equation for each (R2 to R9), and the
statements on SetClock. -/

namespace Sys2Proof.Machine

/-! ### Campus time moved -/

@[simp] theorem shiftTime_quantum_lt (t : CTime) (n : Int) : (shiftTime t n).quantum < 288 := by
  simp only [shiftTime]; omega

theorem shiftTime_zero {t : CTime} (h : timeOk t = true) : shiftTime t 0 = t := by
  obtain ⟨d, q⟩ := t
  simp only [timeOk, halfOk, Bool.and_eq_true, decide_eq_true_eq] at h
  simp only [shiftTime, CTime.mk.injEq]
  omega

theorem shiftTime_shiftTime (t : CTime) (m n : Int) : shiftTime (shiftTime t m) n = shiftTime t (m + n) := by
  simp only [shiftTime, CTime.mk.injEq]
  omega

/-! ### Boundaries sent -/

/-- The boundary events of the quanta behind `now`, in order (R4, R7). -/
def boundariesAfter (now : CTime) (n : Nat) : List Boundary :=
  (List.range n).map (fun i : Nat => boundaryOf (shiftTime now (i + 1)))

theorem boundariesAfter_succ (now : CTime) (n : Nat) :
    boundariesAfter now (n + 1) = boundariesAfter now n ++ [boundaryOf (shiftTime now (n + 1))] := by
  simp [boundariesAfter, List.range_succ]

theorem getLast?_boundariesAfter (now : CTime) (n : Nat) :
    (boundariesAfter now n).getLast? = if n = 0 then none else some (boundaryOf (shiftTime now n)) := by
  cases n with
  | zero => rfl
  | succ n => simp [boundariesAfter_succ]

/-- The state with boundary events sent, in order, to the engine, the planner and the four lines (R4). -/
def withBoundaries (bs : List Boundary) (s : State) : State :=
  { s with
    engine := { s.engine with intake := s.engine.intake ++ bs.map .boundary }
    planner := { s.planner with intake := s.planner.intake ++ bs.map .boundary }
    lines := s.lines.map (fun ln => { ln with intake := ln.intake ++ bs.map .boundary }) }

theorem sendBoundary_eq (b : Boundary) (s : State) : sendBoundary b s = withBoundaries [b] s := rfl

@[simp] theorem withBoundaries_nil (s : State) : withBoundaries [] s = s := by
  simp only [withBoundaries, List.map_nil, List.append_nil]
  rfl

@[simp] theorem withBoundaries_withBoundaries (bs cs : List Boundary) (s : State) :
    withBoundaries cs (withBoundaries bs s) = withBoundaries (bs ++ cs) s := by
  simp [withBoundaries, Quad.map]

/-! ### The steps of the clock -/

/-- The entry of a quantum, with a now known (R4). -/
theorem enterQuantum_eq {s : State} {now : CTime} (h : s.clock.now = some now) : enterQuantum s =
    withBoundaries [boundaryOf (shiftTime now 1)] { s with clock := { s.clock with now := some (shiftTime now 1) } } := by
  simp [enterQuantum, h, sendBoundary_eq]

/-- The entries of `n` quanta one after the other (R4, R7). -/
theorem foldl_enterQuantum {s : State} {now : CTime} (h : s.clock.now = some now) (hok : timeOk now = true) :
    ∀ n : Nat, (List.range n).foldl (fun s _ => enterQuantum s) s =
      withBoundaries (boundariesAfter now n) { s with clock := { s.clock with now := some (shiftTime now n) } }
  | 0 => by
    simp only [List.range_zero, List.foldl_nil, boundariesAfter, List.map_nil, withBoundaries_nil, Nat.cast_zero,
      shiftTime_zero hok, ← h]
  | n + 1 => by
    rw [List.range_succ, List.foldl_append, foldl_enterQuantum h hok n]
    rw [List.foldl_cons, List.foldl_nil, enterQuantum_eq (now := shiftTime now n) rfl, shiftTime_shiftTime,
      boundariesAfter_succ, ← withBoundaries_withBoundaries]
    rfl

/-- Every quantum entry that a counting time in RUNNING calls for, made (R4). -/
theorem enterDue_running {s : State} {k : Counting} {now : CTime} {h : Option CTime}
    (hc : s.clock = ⟨.running, some k, some now, h⟩) (hok : timeOk now = true) : enterDue s =
      withBoundaries (boundariesAfter now (quantaFrom k.time now).toNat)
        { s with clock := ⟨.running, some k, some (shiftTime now (quantaFrom k.time now).toNat), h⟩ } := by
  have hn : s.clock.now = some now := by rw [hc]
  rw [enterDue, foldl_enterQuantum hn hok, hc]
  rfl

/-- With the clock not HELD at a quantum reached, no return from HELD is due. -/
theorem resumeDue_of_not_reached {s : State} (h : heldReached s.clock = false) : resumeDue s = s := by
  simp [resumeDue, h]

/-- With no quantum entered, no entry is due. -/
theorem enterDue_of_none {s : State} (h : entriesDue s.clock = 0) : enterDue s = s := by
  simp [enterDue, h]

theorem settleClock_of_none {s : State} (hr : heldReached s.clock = false) (h : entriesDue s.clock = 0) :
    settleClock s = s := by
  rw [settleClock, resumeDue_of_not_reached hr, enterDue_of_none h]

theorem settleClock_unset {s : State} (h : s.clock.state = .unset) : settleClock s = s :=
  settleClock_of_none (by simp [heldReached, h]) (by simp [entriesDue, h])

theorem settleClock_running {s : State} {k : Counting} {now : CTime} {h : Option CTime}
    (hc : s.clock = ⟨.running, some k, some now, h⟩) (hn : quantaFrom k.time now ≤ 0) : settleClock s = s :=
  settleClock_of_none (by rw [hc]; rfl) (by rw [hc]; exact Int.toNat_eq_zero.2 hn)

theorem settleClock_held {s : State} {k : Counting} {now held : CTime}
    (hc : s.clock = ⟨.held, some k, some now, some held⟩) (hn : quantaFrom k.time held < 0) : settleClock s = s :=
  settleClock_of_none (by rw [hc]; exact decide_eq_false (by omega)) (by rw [hc]; rfl)

@[simp] theorem enterQuantum_link (s : State) : (enterQuantum s).link = s.link := by
  unfold enterQuantum
  split <;> rfl

@[simp] theorem settleClock_link (s : State) : (settleClock s).link = s.link := by
  have h1 : (resumeDue s).link = s.link := by unfold resumeDue; split <;> rfl
  rw [← h1]
  exact List.foldlRecOn (motive := fun u : State => u.link = (resumeDue s).link) _ _ rfl
    fun u hu _ _ => (enterQuantum_link u).trans hu

/-! ### A forward trim (R7) -/

/-- The state after a forward trim that passes the quanta behind `now`: the clock as it then stands, the
boundaries sent, the last one kept for the next frame to wait for (R7, log 41). -/
def trimmed (k : Counting) (now : CTime) (h : Option CTime) (s : State) : State :=
  let bs := boundariesAfter now (quantaFrom k.time now).toNat
  withBoundaries bs { s with
    clock := ⟨.running, some k, some (shiftTime now (quantaFrom k.time now).toNat), h⟩
    link := { s.link with trimmed := match bs.getLast? with
      | some b => some b
      | none => s.link.trimmed } }

/-- The quantum entries of a moved counting time, the last boundary kept when there is one. -/
theorem markTrim_enterDue {s : State} {k : Counting} {now : CTime} {h : Option CTime}
    (hc : s.clock = ⟨.running, some k, some now, h⟩) (hok : timeOk now = true) :
    (if entriesDue s.clock = 0 then s else markTrim (enterDue s)) = trimmed k now h s := by
  have hd : entriesDue s.clock = (quantaFrom k.time now).toNat := by rw [hc]; rfl
  rw [hd, enterDue_running hc hok]
  unfold trimmed
  generalize (quantaFrom k.time now).toNat = n
  dsimp only
  rw [getLast?_boundariesAfter]
  cases n with
  | zero =>
    simp only [boundariesAfter, List.range_zero, List.map_nil, withBoundaries_nil, Nat.cast_zero,
      shiftTime_zero hok, ↓reduceIte, ← hc]
  | succ n => rfl

/-- A forward trim in RUNNING (R7). -/
theorem trimForward_running {s : State} {k c : Counting} {now : CTime} {h : Option CTime}
    (hc : s.clock = ⟨.running, some c, some now, h⟩) (hok : timeOk now = true) : trimForward k s = trimmed k now h s := by
  have h1 : resumeDue (setCount k s) = setCount k s := resumeDue_of_not_reached (by simp [setCount, hc, heldReached])
  have h2 : (setCount k s).clock = ⟨.running, some k, some now, h⟩ := by simp [setCount, hc]
  unfold trimForward
  dsimp only
  rw [h1, markTrim_enterDue h2 hok]
  rfl

/-- A forward trim in HELD that reaches the held quantum (R9). -/
theorem trimForward_reached {s : State} {k c : Counting} {held : CTime}
    (hc : s.clock = ⟨.held, some c, some held, some held⟩) (hok : timeOk held = true)
    (hr : 0 ≤ quantaFrom k.time held) : trimForward k s = trimmed k held none s := by
  have h1 : resumeDue (setCount k s) = resume (setCount k s) := by simp [resumeDue, setCount, hc, heldReached, hr]
  have h2 : (resume (setCount k s)).clock = ⟨.running, some k, some held, none⟩ := by simp [resume, setCount, hc]
  unfold trimForward
  dsimp only
  rw [h1, markTrim_enterDue h2 hok]
  rfl

/-- A forward trim in HELD that stays before the held quantum (R9). -/
theorem trimForward_held {s : State} {k c : Counting} {now held : CTime}
    (hc : s.clock = ⟨.held, some c, some now, some held⟩) (hr : quantaFrom k.time held < 0) :
    trimForward k s = setCount k s := by
  have h1 : resumeDue (setCount k s) = setCount k s := resumeDue_of_not_reached (by
    simp only [setCount, hc, heldReached, decide_eq_false_iff_not]; omega)
  unfold trimForward
  dsimp only
  rw [h1]
  simp [setCount, hc, entriesDue]

/-! ### The summary bit CLOCK -/

theorem bit8_getLsbD {n : Nat} (hn : n < 8) (b : Bool) {m : Nat} (hm : m < 8) :
    (bit8 n b).getLsbD m = (b && decide (m = n)) := by
  cases b
  · simp [bit8]
  · interval_cases n <;> interval_cases m <;> rfl

/-- The summary bit CLOCK reads the clock alone (R173). -/
theorem summary_clock (s : State) : s.summary.getLsbD 2 = s.clock.flag := by
  simp only [State.summary, BitVec.getLsbD_or, bit8_getLsbD, Nat.reduceLT, Nat.reduceEqDiff, decide_true,
    decide_false, Bool.and_true, Bool.and_false, Bool.or_false, Bool.false_or]

end Sys2Proof.Machine

section Statements

open Sys2Proof Sys2Proof.Machine

/-- The SetClock reply: the state it is given, but for the link, and the request answered (R172). -/
theorem setClock_replies {c : Instr} {s u w : State} {r : Result} (hu : ∃ sl, u.link.slot = some sl)
    (hl : w.link = u.link) (h : exec c s = .next (replyClock r w)) :
    ∃ t, exec c s = .next t ∧ t = { w with link := t.link } ∧ Answered u t r (clockFields w.clock) := by
  obtain ⟨sl, hsl⟩ := hu
  exact ⟨_, h, finish_eq .., answered_finish hsl hl r _⟩

/-- The work of a SetClock that is taken (R6, log 22). -/
theorem exec_setClock {d q m : Nat} {s u : State} (h : Taken (.setClock d q m) s u) :
    exec (.setClock d q m) s = .next (doSetClock d q m (settleClock u)) := h.hostStep _

/-- Settles O8: the work of SetClock is a reply on the settled clock, or on the clock just started. -/
theorem setClockSetsTheClock : Obligations.SetClockSetsTheClock := by
  intro d q m s u h
  refine ⟨fun hbad => ?_, fun hq hm hun => ?_⟩
  · have he := exec_setClock h
    rw [doSetClock, if_pos hbad] at he
    exact setClock_replies h.slot (settleClock_link u) he
  · have he := exec_setClock h
    rw [settleClock_unset hun, doSetClock, if_neg (by omega), hun] at he
    obtain ⟨t, ht, hteq, hans⟩ := setClock_replies (w := startClock ⟨⟨d, q⟩, m⟩ u) h.slot rfl he
    have hcl : t.clock = ⟨.running, some ⟨⟨d, q⟩, m⟩, some ⟨d, q⟩, none⟩ := by rw [hteq]; rfl
    refine ⟨t, ht, hteq, ?_, hcl ▸ hans⟩
    rw [summary_clock, hcl]
    rfl

/-- A request answered that changes nothing but the link. -/
theorem repliesOnly_of_replyClock {c : Instr} {s u : State} {r : Result} (hu : ∃ sl, u.link.slot = some sl)
    (h : exec c s = .next (replyClock r u)) : RepliesOnly c s u r (clockFields u.clock) :=
  repliesOnly_of_finish hu h

/-- The reply of a forward trim (R7, R9, log 41). -/
theorem trimmed_replies {c : Instr} {s u : State} {k : Counting} {now : CTime} {h : Option CTime}
    (hu : ∃ sl, u.link.slot = some sl) (he : exec c s = .next (replyClock .ok (trimmed k now h u))) :
    ∃ t bs, exec c s = .next t ∧
      bs = (List.range (quantaFrom k.time now).toNat).map (fun (i : Nat) =>
        Boundary.mk (shiftTime now (i + 1)) (decide ((shiftTime now (i + 1)).quantum = 0))) ∧
      t = { u with
        clock := ⟨.running, some k, some (shiftTime now ((quantaFrom k.time now).toNat : Int)), h⟩
        engine := { u.engine with intake := u.engine.intake ++ bs.map .boundary }
        planner := { u.planner with intake := u.planner.intake ++ bs.map .boundary }
        lines := u.lines.map (fun ln => { ln with intake := ln.intake ++ bs.map .boundary })
        link := t.link } ∧
      Answered { u with link := { u.link with trimmed := match bs.getLast? with
        | some b => some b
        | none => u.link.trimmed } } t .ok (clockFields t.clock) := by
  obtain ⟨sl, hsl⟩ := hu
  obtain ⟨t, ht, hteq, hans⟩ := setClock_replies (w := trimmed k now h u) (u := trimmed k now h u) ⟨sl, hsl⟩ rfl he
  have hcl : t.clock = (trimmed k now h u).clock := by rw [hteq]
  exact ⟨t, _, ht, rfl, hteq, hcl ▸ hans⟩

/-- Settles O9: each class of the offset is one branch of SetClock's work in RUNNING, with no entry due. -/
theorem setClockByOffset : Obligations.SetClockByOffset := by
  intro d q m s u c now h ht hq hm hc hn hok
  have he := exec_setClock ht
  have hbad : ¬ (287 < q ∨ 299999 < m) := by omega
  simp only [settleClock_running hc hn, doSetClock, if_neg hbad, hc, setRunning] at he
  generalize msFrom ⟨⟨d, q⟩, m⟩ c = off at he ⊢
  refine ⟨fun h0 => ?_, fun hbig => ?_, fun hpos hle => ?_, fun hneg hge hsame => ?_, fun hneg hge hdiff => ?_⟩
  · rw [if_pos h0] at he
    exact repliesOnly_of_replyClock ht.slot he
  · rw [if_neg (by omega), if_pos hbig] at he
    exact repliesOnly_of_replyClock ht.slot he
  · rw [if_neg (by omega), if_neg (by omega), if_pos hpos, trimForward_running hc hok] at he
    exact trimmed_replies (k := ⟨⟨d, q⟩, m⟩) ht.slot he
  · rw [if_neg (by omega), if_neg (by omega), if_neg (by omega), if_pos hsame] at he
    obtain ⟨t, h1, h2, h3⟩ := setClock_replies (w := setCount ⟨⟨d, q⟩, m⟩ u) ht.slot rfl he
    have hcl : t.clock = (setCount ⟨⟨d, q⟩, m⟩ u).clock := by rw [h2]
    refine ⟨t, h1, ?_, hcl ▸ h3⟩
    rw [h2]
    simp only [setCount, hc]
  · rw [if_neg (by omega), if_neg (by omega), if_neg (by omega), if_neg hdiff] at he
    obtain ⟨t, h1, h2, h3⟩ := setClock_replies (w := holdClock now ⟨⟨d, q⟩, m⟩ u) ht.slot
      (by simp [holdClock, reportHeld]) he
    have hcl : t.clock = (holdClock now ⟨⟨d, q⟩, m⟩ u).clock := by rw [h2]
    refine ⟨t, h1, ?_, hcl ▸ h3⟩
    rw [h2]
    simp only [holdClock, reportHeld, hc]

/-- Settles O10: each class of the offset is one branch of SetClock's work in HELD, the held quantum not reached. -/
theorem setClockWhileHeld : Obligations.SetClockWhileHeld := by
  intro d q m s u c held ht hq hm hc hn hok
  have he := exec_setClock ht
  have hbad : ¬ (287 < q ∨ 299999 < m) := by omega
  simp only [settleClock_held hc hn, doSetClock, if_neg hbad, hc, setHeld] at he
  generalize msFrom ⟨⟨d, q⟩, m⟩ c = off at he ⊢
  refine ⟨fun h0 => ?_, fun hbig => ?_, fun hpos hle hbefore => ?_, fun hpos hle hreach => ?_, fun hneg hge hfar => ?_,
    fun hneg hge hnear => ?_⟩
  · rw [if_pos h0] at he
    exact repliesOnly_of_replyClock ht.slot he
  · rw [if_neg (by omega), if_pos hbig] at he
    exact repliesOnly_of_replyClock ht.slot he
  · rw [if_neg (by omega), if_neg (by omega), if_pos hpos, trimForward_held (k := ⟨⟨d, q⟩, m⟩) hc hbefore] at he
    obtain ⟨t, h1, h2, h3⟩ := setClock_replies (w := setCount ⟨⟨d, q⟩, m⟩ u) ht.slot rfl he
    have hcl : t.clock = (setCount ⟨⟨d, q⟩, m⟩ u).clock := by rw [h2]
    refine ⟨t, h1, ?_, hcl ▸ h3⟩
    rw [h2]
    simp only [setCount, hc]
  · rw [if_neg (by omega), if_neg (by omega), if_pos hpos, trimForward_reached (k := ⟨⟨d, q⟩, m⟩) hc hok hreach] at he
    exact trimmed_replies (k := ⟨⟨d, q⟩, m⟩) ht.slot he
  · rw [if_neg (by omega), if_neg (by omega), if_neg (by omega), if_pos hfar] at he
    exact repliesOnly_of_replyClock ht.slot he
  · rw [if_neg (by omega), if_neg (by omega), if_neg (by omega), if_neg (by omega)] at he
    obtain ⟨t, h1, h2, h3⟩ := setClock_replies (w := reportHeld held ⟨⟨d, q⟩, m⟩ (setCount ⟨⟨d, q⟩, m⟩ u)) ht.slot
      (by simp [reportHeld]) he
    have hcl : t.clock = (reportHeld held ⟨⟨d, q⟩, m⟩ (setCount ⟨⟨d, q⟩, m⟩ u)).clock := by rw [h2]
    refine ⟨t, h1, ?_, hcl ▸ h3⟩
    rw [h2]
    simp only [reportHeld, setCount, hc]

end Statements
end

