-- ==== Sys2Proof/Proofs/Steps.lean ====
section
/-! PROOFS. What each command outside the three blocks does to the clock, the Campus Model and the invariants:
the part's own work, the loads, the steps of the clock and the resets. The invariants of every step, and the
frame of every block, are assembled here. -/

namespace Sys2Proof.Machine

/-- The Campus Model and the Policy Set stand (R11 to R17). -/
def ModelStays (s t : State) : Prop :=
  t.rooms = s.rooms ∧ t.kitchens = s.kitchens ∧ t.distances = s.distances ∧ t.menu = s.menu ∧ t.policy = s.policy

theorem ModelStays.refl (s : State) : ModelStays s s := ⟨rfl, rfl, rfl, rfl, rfl⟩

theorem ModelStays.trans {s t u : State} (h : ModelStays s t) (h' : ModelStays t u) : ModelStays s u := by
  simp_all only [ModelStays, and_self]

theorem Writes.model {b : Block} {s t : State} (h : Writes b s t) : ModelStays s t := by
  obtain ⟨_, _, _, _, _, h1, h2, h3, h4, h5, _⟩ := h.apart
  exact ⟨h1, h2, h3, h4, h5⟩

theorem Writes.clock {b : Block} {s t : State} (h : Writes b s t) : t.clock = s.clock := by
  obtain ⟨_, _, _, _, h1, _⟩ := h.apart
  exact h1

/-- The counters after a reset lie within 16 bits (R177). -/
theorem WithinSizes.reset_counters : Counters.reset.linkErrors ≤ 65535 ∧ Counters.reset.busyReplies ≤ 65535 ∧
    Counters.reset.unknownRoom ≤ 65535 ∧ Counters.reset.bookingRefusals ≤ 65535 ∧
    Counters.reset.cateringRefusals ≤ 65535 ∧ Counters.reset.releases ≤ 65535 ∧ Counters.reset.dropped ≤ 65535 ∧
    ∀ l : Fin 4, Counters.reset.echoFailures.get l ≤ 65535 ∧ Counters.reset.misses.get l ≤ 65535 := by decide

/-! ### The part's own work: neither the clock nor the model moves -/

/-- The clock, the Campus Model and the Policy Set stand from `s` to `t`, and the invariants are kept. -/
structure Stays (s t : State) : Prop where
  clock : t.clock = s.clock
  model : ModelStays s t
  sound : Sound s t

theorem Writes.stays {b : Block} {s t : State} (h : Writes b s t) : Stays s t := ⟨h.clock, h.model, h.sound⟩

namespace Stays

variable {s t u : State}

@[refl] theorem refl (s : State) : Stays s s := ⟨rfl, ModelStays.refl s, Sound.refl s⟩

theorem trans (h : Stays s t) (h' : Stays t u) : Stays s u :=
  ⟨h'.clock.trans h.clock, h.model.trans h'.model, h.sound.trans h'.sound⟩

/-- A change that keeps the sizes, and moves neither the clock, nor the model, nor a table. -/
theorem of_sizes (h : Stays s t) (hc : u.clock = t.clock := by rfl) (hm : ModelStays t u := by exact ModelStays.refl _)
    (hs : WithinSizes t → WithinSizes u) (ht : TablesCanonical t → TablesCanonical u := by exact id) : Stays s u :=
  h.trans ⟨hc, hm, ⟨hs, fun hp => hm.2.2.2.2 ▸ hp, ht⟩⟩

theorem finish (h : Stays s t) (r : Result) (body : List Field) : Stays s (finish r body t) :=
  h.trans ((Writes.refl .engine t).finish r body).stays

theorem postException (h : Stays s t) (k : ExcKind) (now : Option CTime) : Stays s (postException k now t) :=
  h.trans ((Writes.refl .engine t).postException k now).stays

theorem finishThen (h : Stays s t) {f : State → State} (hf : ∀ {u}, Stays s u → Stays s (f u)) (r : Result)
    (body : List Field) : Stays s (finishThen r body f t) := by
  unfold Machine.finishThen
  split
  · exact h
  · rename_i sl _
    have h1 := hf (h.trans ((Writes.refl .engine t).clearSlot.buildReply sl.kind sl.tag r body).stays)
    exact h1.trans (Writes.refl .engine _).flushBusy.stays

theorem ite {c : Prop} [Decidable c] (h : c → Stays s t) (h' : ¬ c → Stays s u) : Stays s (if c then t else u) := by
  split
  · exact h ‹_›
  · exact h' ‹_›

theorem of_whenTaken {o : Option State} {run : State → State} (h : whenTaken o run s = .next t)
    (ho : ∀ {u}, o = some u → Stays s u) (hr : ∀ {u}, Stays s u → Stays s (run u)) : Stays s t := by
  cases o with
  | none => cases h; rfl
  | some u => cases h; exact hr (ho rfl)

/-- A request of the part taken. -/
theorem of_takeHost {r : HostRequest} (h : takeHost r s = some u) (hr : ownerOf r = .part) : Stays s u :=
  (Writes.of_takeHost (b := .engine) (by rw [hr]; trivial) h).stays

theorem hostStep {r : HostRequest} {run : State → State} (h : hostStep r run s = .next t) (ho : ownerOf r = .part)
    (hr : ∀ {u}, Stays s u → Stays s (run u)) : Stays s t :=
  of_whenTaken h (of_takeHost · ho) hr

/-! ### The receiver and the valid frame -/

theorem setRx (h : Stays s t) (r : Receiver) : Stays s (setRx r t) := h.of_sizes (hs := id)

theorem dropFrame (h : Stays s t) : Stays s (dropFrame t) :=
  (h.setRx .hunting).of_sizes (hs := fun ⟨h1, h2, h3, h4, h5, h6, h7⟩ => ⟨h1, h2, h3, h4, h5, saturate_le h6, h7⟩)

theorem huntByte (h : Stays s t) (b : Byte) (stop : Bool) : Stays s (huntByte b stop t) :=
  ite (fun _ => h.setRx _) fun _ => h

theorem frameByte (h : Stays s t) (got : List Byte) (b : Byte) (stop : Bool) : Stays s (frameByte got b stop t) :=
  ite (fun _ => h.dropFrame) fun _ =>
    ite (fun _ => ite (fun _ => h.of_sizes (hs := id)) fun _ => h.dropFrame) fun _ => h.setRx _

theorem doHostByte (h : Stays s t) (b : Byte) (stop : Bool) : Stays s (doHostByte b stop t) := by
  unfold Machine.doHostByte
  split
  · exact h.huntByte ..
  · exact ite (fun _ => h.dropFrame.huntByte ..) fun _ => h.frameByte ..

theorem reportFrame (h : Stays s t) : Stays s (reportFrame t) := by
  have h1 : Stays s { t with superv := { t.superv with counter := 0, link := .linked } } :=
    h.of_sizes (hs := fun ⟨h1, h2, h3, h4, _, h6⟩ => ⟨h1, h2, h3, h4, Nat.zero_le _, h6⟩)
  exact ite (fun _ => h1.postException _ _) fun _ => h1

theorem busyFrame (h : Stays s t) (f : Frame) : Stays s (busyFrame f t) :=
  h.of_sizes (hs := fun ⟨h1, h2, h3, h4, h5, h6, h7, h8⟩ => ⟨h1, h2, by
    change (if _ then _ else _ : List (Nat × Nat)).length ≤ 8
    split
    · rename_i hlt
      simp only [Config.owedBusy] at hlt
      simp; omega
    · exact h3, h4, h5, h6, saturate_le h7, h8⟩)

theorem handTo (h : Stays s t) (r : HostRequest) : Stays s (handTo r t) := by
  unfold Machine.handTo
  split
  · exact h
  · exact h.trans ((Writes.refl .engine t).sendEngine _).stays
  · exact h.trans ((Writes.refl .engine t).sendPlanner _).stays
  · exact h.trans ((Writes.refl .engine t).sendLine nofun _ _).stays

theorem takeFrame (h : Stays s t) (f : Frame) : Stays s (takeFrame f t) := by
  have h1 : Stays s (sentReplies t) := h.of_sizes (hs := id)
  have h2 : ∀ r, Stays s (Machine.buildReply f.kind f.tag r [] (sentReplies t)) := fun r =>
    h1.trans ((Writes.refl .engine _).buildReply ..).stays
  unfold Machine.takeFrame
  split
  · exact h.busyFrame f
  · dsimp only
    split
    · exact h2 _
    · exact h2 _
    · rename_i q _
      have h3 : Stays s { sentReplies t with
          link := { (sentReplies t).link with slot := some ⟨f.kind, f.tag, q, .handed⟩ } } :=
        h1.of_sizes (hs := id)
      exact h3.handTo q

/-! ### Status, reports, Reset and supervision -/

theorem doReadReports (h : Stays s t) (q n : Nat) : Stays s (doReadReports q n t) := by
  have hov : ∀ {u}, Stays s u → Stays s (clearOvf u) := fun h => h.of_sizes (hs := id)
  have hev : Stays s (removeEvents n t) := h.of_sizes (hs := fun ⟨h1, h2⟩ => ⟨by simp [removeEvents]; omega, h2⟩)
  have hex : Stays s (removeExceptions n t) :=
    h.of_sizes (hs := fun ⟨h1, h2, h3⟩ => ⟨h1, by simp [removeExceptions]; omega, h3⟩)
  exact ite (fun _ => hev.finishThen hov ..) fun _ => ite (fun _ => hex.finishThen hov ..) fun _ => h.finish ..

theorem clearCounters (h : Stays s t) : Stays s (clearCounters t) :=
  h.of_sizes (hs := fun ⟨h1, h2, h3, h4, h5, _⟩ => ⟨h1, h2, h3, h4, h5, WithinSizes.reset_counters⟩)

theorem doReadCounters (h : Stays s t) (n : Nat) : Stays s (doReadCounters n t) := by
  refine ite (fun _ => h.finish ..) fun _ => h.finishThen ?_ ..
  split
  · exact fun h => h.clearCounters
  · exact id

theorem doGetStatus (h : Stays s t) (n : Nat) : Stays s (doGetStatus n t) :=
  ite (fun _ => h.finish ..) fun _ =>
    (ite (t := { t with rst := false }) (fun _ => h.of_sizes (hs := id)) fun _ => h).finish ..

theorem doReset (h : Stays s t) (a b : Nat) : Stays s (doReset a b t) := by
  unfold Machine.doReset
  split
  · exact h.finish ..
  · exact (h.finish ..).of_sizes (hs := id)

theorem doSupervisionExpiry (h : Stays s t) : Stays s (doSupervisionExpiry t) := by
  have h1 : Stays s (takeExpiry t) := h.of_sizes (hs := id)
  refine ite (fun _ => h1) fun hn => ite (fun _ => ?_) fun _ => ?_
  · exact (h1.of_sizes (u := { takeExpiry t with
        superv := { (takeExpiry t).superv with counter := 3, link := .hostLost } })
      (hs := fun ⟨h1, h2, h3, h4, _, h6⟩ => ⟨h1, h2, h3, h4, le_rfl, h6⟩)).postException _ _
  · exact h1.of_sizes (hs := fun ⟨h1, h2, h3, h4, _, h6⟩ => ⟨h1, h2, h3, h4, by simp only; omega, h6⟩)

end Stays

/-! ### Loads: the model moves, its tables staying canonical -/

theorem Sound.finish {s t : State} (h : Sound s t) (r : Result) (body : List Field) : Sound s (finish r body t) :=
  h.trans ((Writes.refl .engine t).finish r body).sound

/-- The policies that a SetPolicy clamps lie in their ranges (R17, R18). -/
theorem setNumber_inRange {p : Policy} (h : PolicyInRange p) (r : PolicyReq) : PolicyInRange (setNumber p r) := by
  obtain ⟨h1, h2, h3, h4, h5, h6, h7, h8, h9, h10, h11, h12, h13, h14, h15, h16, h17, h18⟩ := h
  cases r with
  | grace => exact ⟨by simp [setNumber, clampNat], by simp [setNumber, clampNat], h3, h4, h5, h6, h7, h8, h9, h10, h11,
      h12, h13, h14, h15, h16, h17, h18⟩
  | holdLimit => exact ⟨h1, h2, by simp [setNumber, clampNat], by simp [setNumber, clampNat], h5, h6, h7, h8, h9, h10,
      h11, h12, h13, h14, h15, h16, h17, h18⟩
  | walkupMax => exact ⟨h1, h2, h3, h4, by simp [setNumber, clampNat], by simp [setNumber, clampNat], h7, h8, h9, h10,
      h11, h12, h13, h14, h15, h16, h17, h18⟩
  | scanRange => exact ⟨h1, h2, h3, h4, h5, h6, by simp [setNumber, clampRange], by simp [setNumber, clampRange, clampNat],
      h9, h10, h11, h12, h13, h14, h15, h16, h17, h18⟩
  | scanStep n =>
    refine ⟨h1, h2, h3, h4, h5, h6, h7, h8, ?_, h10, h11, h12, h13, h14, h15, h16, h17, h18⟩
    simp only [setNumber, nearestStep]
    split_ifs <;> decide
  | deglitch => exact ⟨h1, h2, h3, h4, h5, h6, h7, h8, h9, by simp [setNumber, clampNat], by simp [setNumber, clampNat],
      h12, h13, h14, h15, h16, h17, h18⟩
  | pollInterval => exact ⟨h1, h2, h3, h4, h5, h6, h7, h8, h9, h10, h11, by simp [setNumber, clampNat],
      by simp [setNumber, clampNat], h14, h15, h16, h17, h18⟩
  | quietPoll => exact ⟨h1, h2, h3, h4, h5, h6, h7, h8, h9, h10, h11, h12, h13, by simp [setNumber, clampNat],
      by simp [setNumber, clampNat], h16, h17, h18⟩
  | quietWindow w =>
    refine ⟨h1, h2, h3, h4, h5, h6, h7, h8, h9, h10, h11, h12, h13, h14, h15, h16, h17, fun f t hw => ?_⟩
    simp only [setNumber, clampWindow] at hw
    split at hw
    · cases hw
    · split at hw
      · cases hw
      · cases hw
        exact ⟨by simp [clampNat], by simp [clampNat], ‹_›⟩
  | supervision => exact ⟨h1, h2, h3, h4, h5, h6, h7, h8, h9, h10, h11, h12, h13, h14, h15, by simp [setNumber, clampNat],
      by simp [setNumber, clampNat], h18⟩
  | attentionMask | eventMask | absentAction | absentReport | autoCheckIn | unreadable =>
    exact ⟨h1, h2, h3, h4, h5, h6, h7, h8, h9, h10, h11, h12, h13, h14, h15, h16, h17, h18⟩

/-- The Policy Set after a SetPolicy is in range (R17, R18). -/
theorem setPolicyTo_inRange {p p' : Policy} (h : PolicyInRange p) {r : PolicyReq} (hr : setPolicyTo p r = some p') :
    PolicyInRange p' := by
  cases r with
  | absentAction | absentReport | autoCheckIn =>
    obtain ⟨_, _, rfl⟩ := Option.map_eq_some_iff.1 hr
    exact h
  | unreadable => cases hr
  | _ => cases hr; exact setNumber_inRange h _

theorem doSetPolicy_sound (r : PolicyReq) (s : State) : Sound s (doSetPolicy r s) := by
  unfold doSetPolicy
  split
  · exact (Sound.refl s).finish ..
  · rename_i p hp
    have h1 : Sound s { s with policy := p } := ⟨id, fun h => setPolicyTo_inRange h hp, id⟩
    exact h1.finish ..

/-- A load of the Room Table at the engine keeps the clock and the invariants (R12, R13). -/
theorem displayLoad_writes {s t : State} (h : Writes .engine s t) (room : Nat) (old new : Option RoomEntry) :
    Writes .engine s (displayLoad room old new t) := by
  have hrebind : ∀ o n, Writes .engine s (rebind room o n t) := fun o n => by
    unfold rebind
    cases o <;> cases n
    · exact h
    · exact h.sendLine nofun _ _
    · exact h.sendLine nofun _ _
    · exact (h.sendLine nofun _ _).sendLine nofun _ _
  exact .ite (fun _ => (hrebind _ _).keepFacts _) fun _ => .ite (fun _ => (h.requestDisplay _).keepFacts _) fun _ =>
    .ite (fun _ => h.evalDisplay _) fun _ => h

theorem doLoadRoomEngineCheck_sound (room : Nat) (e : RoomSpec) (s : State) :
    (doLoadRoomEngineCheck room e s).clock = s.clock ∧ Sound s (doLoadRoomEngineCheck room e s) := by
  have h0 := Writes.refl .engine s
  unfold doLoadRoomEngineCheck
  split
  · exact ⟨(h0.finish ..).clock, (h0.finish ..).sound⟩
  · rename_i x _
    split
    · exact ⟨(h0.finish ..).clock, (h0.finish ..).sound⟩
    · have h1 : Sound s (setRoom room x s) :=
        ⟨id, id, fun ⟨g1, g2⟩ => ⟨Table.set_wf g1 _ _, g2⟩⟩
      have h2 : Writes .engine (setRoom room x s) (dropLastEnd room x (setRoom room x s)) :=
        .ite (fun _ => (Writes.refl _ _).setLastEnd _ _) fun _ => .refl _ _
      have h3 := (displayLoad_writes h2 room (roomAt s room) x).finish .ok []
      exact ⟨h3.clock, h1.trans h3.sound⟩

theorem doLoadKitchen_sound (k : Nat) (e : KitchenSpec) (s : State) :
    (doLoadKitchen k e s).clock = s.clock ∧ Sound s (doLoadKitchen k e s) := by
  have h0 := Writes.refl .engine s
  unfold doLoadKitchen
  split
  · exact ⟨rfl, id, id, fun ⟨g1, g2, g3⟩ => ⟨g1, Table.set_wf g2 _ _, g3⟩⟩
  · exact ⟨(h0.finish ..).clock, (h0.finish ..).sound⟩

theorem doLoadDistance_sound (k b : Nat) (x : Option Nat) (s : State) :
    (doLoadDistance k b x s).clock = s.clock ∧ Sound s (doLoadDistance k b x s) := by
  unfold doLoadDistance
  split
  · exact ⟨by simp, (Sound.refl s).finish ..⟩
  · have h1 : Sound s { s with distances := s.distances.set none (k * Config.buildings + b) x } :=
      ⟨id, id, fun ⟨g1, g2, g3, g4⟩ => ⟨g1, g2, Table.set_wf g3 _ _, g4⟩⟩
    exact ⟨by simp, h1.finish ..⟩

theorem doLoadMenuClass_sound (c w l n : Nat) (s : State) :
    (doLoadMenuClass c w l n s).clock = s.clock ∧ Sound s (doLoadMenuClass c w l n s) := by
  unfold doLoadMenuClass
  split
  · have h1 : Sound s { s with menu := s.menu.set noClass c (classEntry w l n) } :=
      ⟨id, id, fun ⟨g1, g2, g3, g4, g5⟩ => ⟨g1, g2, g3, Table.set_wf g4 _ _, g5⟩⟩
    exact ⟨by simp, h1.finish ..⟩
  · exact ⟨by simp, (Sound.refl s).finish ..⟩

/-! ### The steps of the clock -/

/-- The clock moves from `s` to `t`: the Campus Model and the Policy Set stand, the invariants are kept, and a
legal clock stays legal. -/
structure ClockMoves (s t : State) : Prop where
  model : ModelStays s t
  sound : Sound s t
  legal : ClockLegal s.clock → ClockLegal t.clock

theorem Stays.clockMoves {s t : State} (h : Stays s t) : ClockMoves s t := ⟨h.model, h.sound, fun hl => h.clock ▸ hl⟩

namespace ClockMoves

variable {s t u : State}

@[refl] theorem refl (s : State) : ClockMoves s s := (Stays.refl s).clockMoves

theorem trans (h : ClockMoves s t) (h' : ClockMoves t u) : ClockMoves s u :=
  ⟨h.model.trans h'.model, h.sound.trans h'.sound, h'.legal ∘ h.legal⟩

/-- The clock replaced, a legal one by a legal one. -/
theorem setClock (s : State) {c : Clock} (hc : ClockLegal s.clock → ClockLegal c) :
    ClockMoves s { s with clock := c } :=
  ⟨ModelStays.refl s, ⟨id, id, id⟩, hc⟩

theorem ite {c : Prop} [Decidable c] (h : c → ClockMoves s t) (h' : ¬ c → ClockMoves s u) :
    ClockMoves s (if c then t else u) := by
  split
  · exact h ‹_›
  · exact h' ‹_›

theorem withBoundaries (bs : List Boundary) (s : State) : ClockMoves s (withBoundaries bs s) where
  model := ModelStays.refl s
  sound := Sound.of_eq rfl le_rfl rfl rfl rfl rfl ⟨rfl, rfl, rfl, rfl⟩ ⟨rfl, rfl⟩ ⟨rfl, rfl, rfl, rfl⟩ fun l => by
    simp [Machine.withBoundaries]
  legal := id

theorem replyClock (r : Result) (s : State) : ClockMoves s (replyClock r s) :=
  ((Stays.refl s).finish ..).clockMoves

/-- The counting time set, in range, on a clock that is set (R7, R8). -/
theorem setCount {s : State} {k : Counting} (hk : CountOk k) (hs : s.clock.state ≠ .unset) :
    ClockMoves s (setCount k s) := by
  refine setClock s fun h => ?_
  generalize s.clock = c at hs h ⊢
  obtain ⟨st, count, now, held⟩ := c
  cases st with
  | unset => exact absurd rfl hs
  | running => exact ⟨⟨k, rfl, hk⟩, h.2⟩
  | held => exact ⟨⟨k, rfl, hk⟩, h.2⟩

/-- The return from HELD, when the counting time calls for it (R8). -/
theorem resumeDue (s : State) : ClockMoves s (resumeDue s) := by
  refine ite (fun hr => setClock s fun h => ?_) fun _ => refl s
  generalize s.clock = c at hr h ⊢
  obtain ⟨st, count, now, held⟩ := c
  cases st with
  | unset | running => cases hr
  | held =>
    obtain ⟨hk, t, ht, -, hq⟩ := h
    exact ⟨hk, ⟨t, ht, hq⟩, rfl⟩

/-- One quantum entered, in RUNNING (R4). -/
theorem enterQuantum {s : State} (hs : s.clock.state = .running) :
    ClockMoves s (enterQuantum s) ∧ (enterQuantum s).clock.state = .running := by
  cases hn : s.clock.now with
  | none =>
    have e : Machine.enterQuantum s = s := by simp [Machine.enterQuantum, hn]
    rw [e]
    exact ⟨refl s, hs⟩
  | some now =>
    rw [enterQuantum_eq hn]
    refine ⟨(setClock s fun h => ?_).trans (withBoundaries _ _), hs⟩
    generalize s.clock = c at hs h ⊢
    obtain ⟨st, count, now', held⟩ := c
    cases hs
    exact ⟨h.1, ⟨_, rfl, Nat.le_of_lt_succ (shiftTime_quantum_lt now 1)⟩, h.2.2⟩

/-- Every quantum entry due (R4, R7). -/
theorem enterDue (s : State) : ClockMoves s (enterDue s) := by
  by_cases hd : entriesDue s.clock = 0
  · rw [enterDue_of_none hd]
  · have hs : s.clock.state = .running := by
      by_contra hne
      exact hd (by unfold entriesDue; split <;> simp_all)
    exact (List.foldlRecOn (motive := fun u => ClockMoves s u ∧ u.clock.state = .running) _ _ ⟨refl s, hs⟩
      fun u hu _ _ => ⟨hu.1.trans (enterQuantum hu.2).1, (enterQuantum hu.2).2⟩).1

theorem settleClock (s : State) : ClockMoves s (settleClock s) := (resumeDue s).trans (enterDue _)

theorem trimForward {s : State} {k : Counting} (hk : CountOk k) (hs : s.clock.state ≠ .unset) :
    ClockMoves s (trimForward k s) := by
  have h1 := (setCount hk hs).trans (settleClock _)
  have h2 : ∀ u, ClockMoves u (markTrim u) := fun u => ⟨ModelStays.refl u, ⟨id, id, id⟩, id⟩
  rw [trimForward_eq]
  exact ite (fun _ => h1) fun _ => h1.trans (h2 _)

/-- The clock set from UNSET (R5). -/
theorem startClock {k : Counting} (hk : CountOk k) (s : State) : ClockMoves s (startClock k s) where
  model := ModelStays.refl s
  sound := Sound.of_eq rfl le_rfl rfl rfl rfl rfl ⟨rfl, rfl, rfl, rfl⟩ ⟨rfl, rfl⟩ ⟨rfl, rfl, rfl, rfl⟩ fun l => by
    simp [Machine.startClock, Line.begin]
  legal _ := ⟨⟨k, rfl, hk⟩, ⟨k.time, rfl, hk.1⟩, rfl⟩

theorem reportHeld (s : State) (held : CTime) (k : Counting) : ClockMoves s (reportHeld held k s) :=
  ((Stays.refl s).postException _ _).clockMoves

/-- A SetClock in RUNNING (R6 to R8). -/
theorem setRunning {s : State} {k c : Counting} {now : CTime} (hk : CountOk k) (hs : s.clock.state = .running)
    (hn : s.clock.now = some now) : ClockMoves s (setRunning k c now s) := by
  have hu : s.clock.state ≠ .unset := by rw [hs]; decide
  have hhold : ClockMoves s (holdClock now k s) := by
    refine trans (setClock s fun h => ?_) (reportHeld _ _ _)
    generalize s.clock = c at hs hn h ⊢
    obtain ⟨st, count, now', held⟩ := c
    cases hs
    cases hn
    obtain ⟨t, ht, hq⟩ := h.2.1
    cases ht
    exact ⟨⟨k, rfl, hk⟩, now, rfl, rfl, hq⟩
  exact ite (fun _ => replyClock ..) fun _ => ite (fun _ => replyClock ..) fun _ =>
    ite (fun _ => (trimForward hk hu).trans (replyClock ..)) fun _ =>
      ite (fun _ => (setCount hk hu).trans (replyClock ..)) fun _ => hhold.trans (replyClock ..)

/-- A SetClock in HELD (R9). -/
theorem setHeld {s : State} {k c : Counting} {held : CTime} (hk : CountOk k) (hs : s.clock.state = .held) :
    ClockMoves s (setHeld k c held s) := by
  have hu : s.clock.state ≠ .unset := by rw [hs]; decide
  exact ite (fun _ => replyClock ..) fun _ => ite (fun _ => replyClock ..) fun _ =>
    ite (fun _ => (trimForward hk hu).trans (replyClock ..)) fun _ =>
      ite (fun _ => replyClock ..) fun _ => ((setCount hk hu).trans (reportHeld _ _ _)).trans (replyClock ..)

theorem doSetClock (d q m : Nat) (s : State) : ClockMoves s (doSetClock d q m s) := by
  refine ite (fun _ => replyClock ..) fun hok => ?_
  have hk : CountOk ⟨⟨d, q⟩, m⟩ := ⟨by simp only; omega, by simp only; omega⟩
  dsimp only
  split
  · exact setRunning hk ‹_› ‹_›
  · exact setHeld hk ‹_›
  · exact (startClock hk s).trans (replyClock ..)

end ClockMoves

/-! ### The tick -/

theorem Line.tick_positions (a : Line) : a.tick.positions = a.positions := by
  unfold Line.tick Line.arriveIf
  split <;> split <;> rfl

/-- A counting time one tick later is in range (R2). -/
theorem CountOk.tick {k : Counting} (h : CountOk k) : CountOk k.tick := by
  unfold Counting.tick
  split
  · exact ⟨h.1, by simp only; omega⟩
  · exact ⟨Nat.le_of_lt_succ (shiftTime_quantum_lt k.time 1), Nat.zero_le _⟩

theorem ClockLegal.tick {c : Clock} (h : ClockLegal c) : ClockLegal c.tick := by
  obtain ⟨st, count, now, held⟩ := c
  cases st with
  | unset => exact h
  | running | held =>
    obtain ⟨⟨k, rfl, hk⟩, hrest⟩ := h
    exact ⟨⟨k.tick, rfl, hk.tick⟩, hrest⟩

theorem doTick_moves (s : State) : ClockMoves s (doTick s) where
  model := ModelStays.refl s
  sound := Sound.of_eq rfl le_rfl rfl (by simp only [doTick]; rw [Supervision.tick_frame]) rfl rfl ⟨rfl, rfl, rfl, rfl⟩
    ⟨rfl, rfl⟩ ⟨rfl, rfl, rfl, rfl⟩ fun l => by simp [doTick, Line.tick_positions]
  legal h := h.tick

/-! ### Resets -/

/-- The values of a reset meet every invariant (R3, R17, R177, R183). -/
theorem reset_sound : WithinSizes State.reset ∧ PolicyInRange State.reset.policy ∧ TablesCanonical State.reset := by
  refine ⟨⟨by decide, by decide, by decide, by decide, by decide, WithinSizes.reset_counters⟩, ?_, ?_⟩
  · simp [PolicyInRange, State.reset, Policy.default]
  · have he : ∀ {α : Type} [DecidableEq α] (d : α), (Table.empty : Table α).wf d := Table.empty_wf
    refine ⟨he _, he _, he _, he _, he _, he _, he _, he _, he _, he _, he _, he _, fun l => ?_⟩
    fin_cases l <;> exact he _

theorem powerOnValues_sound (p : Power) (c : ResetCause) (rate : Fin 4) (s : State) :
    ClockLegal (powerOnValues p c rate s).clock ∧ Sound s (powerOnValues p c rate s) := by
  obtain ⟨h1, h2, h3, h4, h5, h6, h7, h8, h9, h10, h11, h12, h13, h14, h15⟩ := reset_sound
  refine ⟨⟨rfl, rfl, rfl⟩, fun _ => h1, fun _ => h2,
    fun _ => ⟨h3, h4, h5, h6, h7, h8, h9, h10, h11, h12, h13, h14, fun l => ?_⟩⟩
  simpa [powerOnValues, Line.powerOn, Line.reset] using Table.empty_wf _

/-- A line's bindings taken from the Room Table keep its position table in its form (R137). -/
theorem bindFromRooms_canonical (l : Fin 4) (rooms : Table (Option RoomEntry)) {a : Line} (h : a.Canonical) :
    (bindFromRooms l rooms a).Canonical :=
  List.foldlRecOn (motive := Line.Canonical) _ _ h fun _ h _ _ => by
    split
    · split
      · exact h.modifyAt _ _
      · exact h
    · exact h

theorem warmReset_stays (s : State) : Stays s (warmReset s) where
  clock := rfl
  model := ModelStays.refl s
  sound :=
    { sizes := fun ⟨_, _, _, h4, _⟩ =>
        ⟨Nat.zero_le _, Nat.zero_le _, Nat.zero_le _, h4, Nat.zero_le _, WithinSizes.reset_counters⟩
      policy := id
      tables := fun ⟨h1, h2, h3, h4, h5, h6, h7, _, h9, h10, h11, h12, _⟩ =>
        ⟨h1, h2, h3, h4, h5, h6, h7, Table.empty_wf _, h9, h10, h11, h12, fun l => by
          have hw : ∀ a : Line, (Line.warm l s.rooms a).Canonical := fun a =>
            bindFromRooms_canonical l s.rooms (Table.empty_wf _)
          fin_cases l <;> exact hw _⟩ }

end Sys2Proof.Machine
end

