-- ==== Sys2Proof/Proofs/Invariants.lean ====
section
/-! PROOFS. Every command, by what it does to the clock and the model; and the statements on the front of the
queue, on the frames of the blocks and on the invariants of every step. -/

namespace Sys2Proof.Machine

variable {c : Instr} {s t : State}

theorem lineOwner_none {n : Nat} (hl : lineOf? n = none) : lineOwner n = .part := by
  unfold lineOwner
  rw [hl]

/-- A request that names no line is answered by the part, and moves nothing else (R136). -/
theorem Stays.lineRequest {n : Nat} (hl : lineOf? n = none) (run : Fin 4 → State → State) (h : Stays s t) :
    Stays s (lineRequest n run t) := by
  unfold Machine.lineRequest
  rw [hl]
  exact h.finish ..

/-- The commands that neither reset the part, nor move the clock, nor load the model leave both as they are, and
keep the invariants. -/
theorem exec_stays (hr : isReset c = false) (hm : movesClock c = false) (hl : loadsModel c = false)
    (h : exec c s = .next t) : Stays s t := by
  by_cases he : isEngineWork c = true
  · exact (exec_writes_engine he h).stays
  by_cases hp : isPlannerWork c = true
  · exact (exec_writes_planner hp h).stays
  cases hw : lineOfWork c with
  | some l => exact (exec_writes_line hw h).stays
  | none =>
    have h0 := Stays.refl s
    cases c with
    | identify => exact .hostStep h rfl fun h => h.finish ..
    | getStatus => exact .hostStep h rfl fun h => h.doGetStatus _
    | readReports => exact .hostStep h rfl fun h => h.doReadReports ..
    | readCounters => exact .hostStep h rfl fun h => h.doReadCounters _
    | reset => exact .hostStep h rfl fun h => h.doReset ..
    | readPolicy => exact .hostStep h rfl fun h => h.finish ..
    | readRoom => exact .hostStep h rfl fun h => .ite (fun _ => h.finish ..) fun _ => h.finish ..
    | readKitchen => exact .hostStep h rfl fun h => .ite (fun _ => h.finish ..) fun _ => h.finish ..
    | readDistance => exact .hostStep h rfl fun h => .ite (fun _ => h.finish ..) fun _ => h.finish ..
    | readMenuClass => exact .hostStep h rfl fun h => .ite (fun _ => h.finish ..) fun _ => h.finish ..
    | loadRoom =>
      exact .hostStep h rfl fun {u} h =>
        .ite (fun _ => h.finish ..) fun _ => h.trans ((Writes.refl .engine u).sendEngine _).stays
    | startChain => exact .hostStep h (lineOwner_none hw) fun h => h.lineRequest hw _
    | stopChain => exact .hostStep h (lineOwner_none hw) fun h => h.lineRequest hw _
    | chainMode => exact .hostStep h (lineOwner_none hw) fun h => .ite (fun _ => h.finish ..) fun _ => h.lineRequest hw _
    | clearPanelFault => exact .hostStep h (lineOwner_none hw) fun h => .ite (fun _ => h.lineRequest hw _) fun _ => h.finish ..
    | readChain => exact .hostStep h (lineOwner_none hw) fun h => h.lineRequest hw _
    | readPosition => exact .hostStep h (lineOwner_none hw) fun h => .ite (fun _ => h.lineRequest hw _) fun _ => h.finish ..
    | readLineHealth => exact .hostStep h (lineOwner_none hw) fun h => h.lineRequest hw _
    | hostByteReceived b stop =>
      simp only [exec, execHostByteReceived] at h
      split at h <;> cases h
      exacts [h0.doHostByte .., h0]
    | interByteGapExpiry =>
      simp only [exec, execInterByteGapExpiry] at h
      split at h <;> cases h
      exacts [h0.dropFrame, h0]
    | validFrame f =>
      refine .of_whenTaken h (fun hf => ?_) fun h => h.reportFrame.takeFrame f
      obtain ⟨_, _, _, rest, _, rfl⟩ := nextFrame_eq_some.1 hf
      exact h0.of_sizes (hs := id)
    | supervisionTimerExpiry =>
      simp only [exec, execSupervisionTimerExpiry] at h
      split at h <;> cases h
      exacts [h0.doSupervisionExpiry, h0]
    | scanStepExpiry =>
      simp only [exec, execScanStepExpiry] at h
      split at h <;> cases h
      · have h1 : Stays s { s with scanner := (doScanStep s).scanner } := h0.of_sizes (hs := id)
        exact h1.trans ((Writes.refl .engine _).sendEngine _).stays
      · exact h0
    | _ => simp_all [isReset, movesClock, loadsModel, isEngineWork, isPlannerWork, lineOfWork]

/-- The loads leave the clock, and keep the invariants (R12 to R18). -/
theorem exec_loads (hl : loadsModel c = true) (h : exec c s = .next t) : t.clock = s.clock ∧ Sound s t := by
  have hstep : ∀ {r : HostRequest} {run : State → State}, ownerOf r = .part →
      (∀ u, (run u).clock = u.clock ∧ Sound u (run u)) → hostStep r run s = .next t → t.clock = s.clock ∧ Sound s t := by
    intro r run ho hrun h
    unfold hostStep at h
    cases hu : takeHost r s with
    | none => rw [hu] at h; cases h; exact ⟨rfl, Sound.refl s⟩
    | some u =>
      rw [hu] at h
      cases h
      have h1 := Stays.of_takeHost hu ho
      exact ⟨(hrun u).1.trans h1.clock, h1.sound.trans (hrun u).2⟩
  cases c with
  | setPolicy r =>
    refine hstep rfl (fun u => ⟨?_, doSetPolicy_sound r u⟩) h
    unfold doSetPolicy
    split <;> simp
  | loadKitchen k e => exact hstep rfl (doLoadKitchen_sound k e) h
  | loadDistance k b x => exact hstep rfl (doLoadDistance_sound k b x) h
  | loadMenuClass a w l n => exact hstep rfl (doLoadMenuClass_sound a w l n) h
  | loadRoomEngineCheck room e =>
    simp only [exec, execLoadRoomEngineCheck] at h
    cases hu : takeEngine (.loadRoomCheck room e) s with
    | none => rw [hu] at h; cases h; exact ⟨rfl, Sound.refl s⟩
    | some u =>
      rw [hu] at h
      cases h
      have h1 := Writes.of_takeEngine hu
      have h2 := doLoadRoomEngineCheck_sound room e u
      exact ⟨h2.1.trans h1.clock, h1.sound.trans h2.2⟩
  | _ => cases hl

/-- The steps that move the clock leave the model, keep the invariants, and keep a legal clock legal (R2 to R9). -/
theorem exec_moves (hm : movesClock c = true) (h : exec c s = .next t) : ClockMoves s t := by
  cases c with
  | timebaseTick =>
    simp only [exec, execTimebaseTick] at h
    split at h <;> cases h
    exacts [doTick_moves s, .refl s]
  | quantumEntry =>
    simp only [exec, execQuantumEntry] at h
    split at h <;> cases h
    · rename_i hd
      refine (ClockMoves.enterQuantum ?_).1
      by_contra hne
      exact absurd hd.2 (by unfold entriesDue; split <;> simp_all)
    · rfl
  | heldQuantumReached =>
    simp only [exec, execHeldQuantumReached] at h
    split at h <;> cases h
    · rename_i hd
      have h1 := ClockMoves.resumeDue s
      rwa [resumeDue, if_pos hd.2] at h1
    · rfl
  | setClock d q m =>
    simp only [exec, execSetClock, hostStep] at h
    cases hu : takeHost (.setClock d q m) s with
    | none => rw [hu] at h; cases h; rfl
    | some u =>
      rw [hu] at h
      cases h
      exact ((Stays.of_takeHost hu rfl).clockMoves.trans (.settleClock u)).trans (.doSetClock ..)
  | _ => cases hm

/-- A command of the supply and of resets keeps the invariants, and a legal clock legal (R3, R181, R182). -/
theorem exec_resets (hr : isReset c = true) (h : exec c s = .next t) :
    Sound s t ∧ (ClockLegal s.clock → ClockLegal t.clock) := by
  have hp := fun p k rate => powerOnValues_sound p k rate s
  have hw : ∀ p, Stays s { s with power := p } := fun p => (Stays.refl s).of_sizes (hs := id)
  have hstay : ∀ {u}, Stays s u → Sound s u ∧ (ClockLegal s.clock → ClockLegal u.clock) :=
    fun h => ⟨h.sound, h.clockMoves.legal⟩
  cases c with
  | powerOn => cases h; exact ⟨(hp ..).2, fun _ => (hp ..).1⟩
  | supplyLowReset =>
    simp only [exec, execSupplyLowReset] at h
    split at h <;> cases h
    exacts [⟨(hp ..).2, fun _ => (hp ..).1⟩, hstay (hw _), hstay (.refl s), hstay (.refl s)]
  | supplyRestored =>
    simp only [exec, execSupplyRestored] at h
    split at h <;> cases h
    exacts [hstay (hw _), hstay (.refl s), hstay (.refl s), hstay (.refl s)]
  | crystalStable =>
    simp only [exec, execCrystalStable] at h
    split at h <;> cases h
    exacts [⟨(hp ..).2, fun _ => (hp ..).1⟩, hstay (.refl s), hstay (.refl s), hstay (.refl s)]
  | resetTakesEffect =>
    simp only [exec, execResetTakesEffect] at h
    split at h <;> cases h
    exacts [⟨(hp ..).2, fun _ => (hp ..).1⟩, hstay (warmReset_stays s), hstay (.refl s)]
  | _ => cases hr

/-- Every command keeps the invariants on sizes, policies and tables, and a legal clock legal. -/
theorem exec_keeps (h : exec c s = .next t) : Sound s t ∧ (ClockLegal s.clock → ClockLegal t.clock) := by
  cases hr : isReset c with
  | true => exact exec_resets hr h
  | false =>
    cases hm : movesClock c with
    | true => exact ⟨(exec_moves hm h).sound, (exec_moves hm h).legal⟩
    | false =>
      cases hl : loadsModel c with
      | true => exact ⟨(exec_loads hl h).2, fun hc => (exec_loads hl h).1 ▸ hc⟩
      | false => exact ⟨(exec_stays hr hm hl h).sound, (exec_stays hr hm hl h).clockMoves.legal⟩

/-- Every step does so. -/
theorem step_keeps (h : step s = .next t) : Sound s t ∧ (ClockLegal s.clock → ClockLegal t.clock) := by
  unfold step at h
  split at h
  · cases h; exact ⟨Sound.refl s, id⟩
  · obtain ⟨⟨h1, h2, h3⟩, h4⟩ := exec_keeps h
    exact ⟨⟨h1, h2, h3⟩, h4⟩

/-- Every booking record is free after a reset (R22). -/
theorem reset_bookingPool : BookingPoolExact State.reset := by
  have hf : State.reset.store.free = List.range Config.bookingRecords := by simp only [State.reset, Store.reset]
  have hb : ∀ i, bookingAt State.reset i = none := fun _ => rfl
  unfold BookingPoolExact
  rw [hf]
  refine ⟨List.nodup_range, fun i hi => ?_, fun i => ?_⟩
  · rw [hb] at hi; cases hi
  · rw [hb, List.mem_range]; exact (and_iff_left rfl).symm

/-- Every order record is free after a reset (R81). -/
theorem reset_orderPool : OrderPoolExact State.reset := by
  have hf : State.reset.planner.free = List.range Config.orderRecords := by simp only [State.reset, Planner.reset]
  have ho : ∀ i, orderAt State.reset i = none := fun _ => rfl
  unfold OrderPoolExact
  rw [hf]
  refine ⟨List.nodup_range, fun i hi => ?_, fun i => ?_⟩
  · rw [ho] at hi; cases hi
  · rw [ho, List.mem_range]; exact (and_iff_left rfl).symm

end Sys2Proof.Machine

section Statements

open Sys2Proof Sys2Proof.Machine

/-- Settles O11, by the classes of commands: only the steps of the clock and the resets move the clock. -/
theorem clockStaysLegal : Obligations.ClockStaysLegal := fun _ _ hs h => (step_keeps h).2 hs

/-- Settles O21, by the rule of each operation for the sizes and the ranges. -/
theorem sizesAndPolicyStayInRange : Obligations.SizesAndPolicyStayInRange := fun _ _ hs hp h =>
  ⟨(step_keeps h).1.sizes hs, (step_keeps h).1.policy hp⟩

/-- Settles O22, by the rule of each operation for the tables it writes. -/
theorem tablesStayCanonical : Obligations.TablesStayCanonical := fun _ _ hs h => (step_keeps h).1.tables hs

/-- Settles O59: what a block's work writes is read off the rules of its operations. -/
theorem blocksWriteOnlyTheirOwn : Obligations.BlocksWriteOnlyTheirOwn := by
  intro c s t h
  refine ⟨fun hc => ?_, fun hc => ?_, fun l hc => ?_, fun hr hm => ?_, fun hr hl => ?_⟩
  · have hw := exec_writes_engine hc h
    exact ⟨hw.apart, hw.planner nofun, fun l => hw.lines l nofun, hw.superv⟩
  · have hw := exec_writes_planner hc h
    obtain ⟨he, hst, hsv⟩ := hw.engine nofun
    exact ⟨hw.apart, he, fun l => hw.lines l nofun, hst, hsv⟩
  · have hw := exec_writes_line hc h
    obtain ⟨he, hst, hsv⟩ := hw.engine nofun
    exact ⟨hw.apart, he, hw.planner nofun, hst, hsv, fun m hm => hw.others l m rfl hm⟩
  · cases hl : loadsModel c with
    | true => exact (exec_loads hl h).1
    | false => exact (exec_stays hr hm hl h).clock
  · cases hm : movesClock c with
    | true => exact (exec_moves hm h).model
    | false => exact (exec_stays hr hm hl h).model

/-- Settles O1: a step is the execution of the command in front. -/
theorem stepRunsTheFrontCommand : Obligations.StepRunsTheFrontCommand :=
  ⟨fun _ _ _ => rfl, fun s h => by unfold step; rw [h]⟩

/-- Settles O6, by the values of a reset: every queue and table empty, every pool full. -/
theorem invariantsHoldAtReset : Obligations.InvariantsHoldAtReset := by
  obtain ⟨h1, h2, h3⟩ := reset_sound
  refine ⟨⟨rfl, rfl, rfl⟩, h1, h2, h3, reset_bookingPool, reset_orderPool, fun l => ?_⟩
  have hl : State.reset.lines.get l = Line.reset := by fin_cases l <;> rfl
  rw [hl]
  exact ⟨fun _ => ⟨rfl, rfl⟩, fun _ => ⟨rfl, rfl⟩, Nat.zero_le _, Nat.zero_le _⟩

end Statements
end

