-- ==== Sys2Proof/Proofs/TicksAndFrames.lean ====
section
/-! PROOFS. The timebase tick, the two steps in which the clock enters a quantum (R2, R4, R8), and a valid frame
at the request slot (R170, R171, R186). -/

namespace Sys2Proof.Machine

/-! ### The tick -/

/-- A line's timers one tick later, and the expiries it queues: that of the cycle before that of the poll (log 20). -/
theorem Line.tick_eq (a : Line) : a.tick = { a with
    cycleTimer := a.cycleTimer.map (· - 1)
    pollTimer := a.pollTimer.map (· - 1)
    intake := a.intake ++ (if a.cycleTimer = some 1 then [.cycleExpiry] else []) ++
      (if a.pollTimer = some 1 then [.pollExpiry] else []) } := by
  unfold Line.tick Line.arriveIf Line.arrive
  by_cases hc : a.cycleTimer = some 1 <;> by_cases hp : a.pollTimer = some 1 <;> simp [hc, hp]

/-- The step timer one tick later (R62). -/
theorem Scanner.tick_running {sc : Scanner} {x : StepTimer} (h : sc.timer = some x) (step : Nat) :
    sc.tick step = if x.left ≤ 1 then { sc with timer := some ⟨step, step⟩, due := sc.due + 1 }
      else { sc with timer := some ⟨x.len, x.left - 1⟩ } := by
  unfold Scanner.tick
  rw [h]

theorem exec_tick {s : State} (h : s.power = .running) : exec .timebaseTick s = .next (doTick s) := by
  simp [exec, execTimebaseTick, h]

/-- The clock one tick later, set (R2). -/
theorem Clock.tick_set {c : Clock} (h : c.state ≠ .unset) : c.tick = { c with count := c.count.map (fun k =>
    if k.ms < 299999 then ⟨k.time, k.ms + 1⟩ else ⟨shiftTime k.time 1, 0⟩) } := by
  unfold Clock.tick
  rw [if_neg h]
  rfl

/-! ### The valid frame -/

/-- The report of a valid frame leaves the link (R186). -/
theorem reportFrame_link (s : State) : (reportFrame s).link = s.link := by
  unfold reportFrame
  dsimp only
  split <;> simp

/-- A request handed to its owner joins the owner's intake, and nothing else (R170). -/
theorem handTo_eq (q : HostRequest) (s : State) : handTo q s = { s with
    engine := if ownerOf q = .engine then { s.engine with intake := s.engine.intake ++ [.host q] } else s.engine
    planner := if ownerOf q = .planner then { s.planner with intake := s.planner.intake ++ [.host q] } else s.planner
    lines := match ownerOf q with
      | .line l => s.lines.set l { s.lines.get l with intake := (s.lines.get l).intake ++ [.host q] }
      | _ => s.lines } := by
  unfold handTo
  cases ownerOf q <;> rfl

end Sys2Proof.Machine

section Statements

open Sys2Proof Sys2Proof.Machine

/-- Settles O7: the tick timer by timer, and the two steps that enter a quantum when they are due. -/
theorem ticksAndQuantumEntries : Obligations.TicksAndQuantumEntries := by
  refine ⟨fun s hp => ⟨doTick s, exec_tick hp, rfl, fun h => Scanner.tick_stopped h _,
      fun x h => Scanner.tick_running h _, fun h => if_pos h, fun h => Clock.tick_set h, fun h => ?_, fun got gap h => ?_,
      fun l => ?_⟩, fun s k now hp hst hk hn => ?_, fun s k held hp hst hk hh => ?_⟩
  · simp only [doTick, h]; rfl
  · simp only [doTick, h]; rfl
  · simp only [doTick, Quad.get_map, Line.tick_eq]
  · have hd : entriesDue s.clock = (quantaFrom k.time now).toNat := by simp [entriesDue, hst, hk, hn]
    split
    · have h1 : s.power = .running ∧ 0 < entriesDue s.clock := ⟨hp, by omega⟩
      rw [exec, execQuantumEntry, if_pos h1, enterQuantum_eq hn]
      rfl
    · have h1 : ¬ (s.power = .running ∧ 0 < entriesDue s.clock) := by rintro ⟨-, h⟩; omega
      rw [exec, execQuantumEntry, if_neg h1]
  · have hr : heldReached s.clock = decide (0 ≤ quantaFrom k.time held) := by simp [heldReached, hst, hk, hh]
    split
    · rename_i h
      have h1 : s.power = .running ∧ heldReached s.clock = true := ⟨hp, hr.trans (decide_eq_true h)⟩
      rw [exec, execHeldQuantumReached, if_pos h1]
      rfl
    · rename_i h
      have h1 : ¬ (s.power = .running ∧ heldReached s.clock = true) := by
        rintro ⟨-, h'⟩
        exact h (of_decide_eq_true (hr.symm.trans h'))
      rw [exec, execHeldQuantumReached, if_neg h1]

/-- Settles O15: the frame waits for a trim's boundary work, and else is reported and meets the slot. -/
theorem frameMeetsTheSlot : Obligations.FrameMeetsTheSlot := by
  refine ⟨fun f b s hb hw => ?_, fun f rest s v r hp hreset htrim hf hv hr => ?_⟩
  · have hwait : trimWaits s = true := trimWaits_eq_true.2 ⟨b, hb, hw⟩
    have hn : nextFrame f s = none := by simp [nextFrame, hwait]
    rw [exec, execValidFrame, hn]
    rfl
  · have hwait : trimWaits s = false := by
      rw [Bool.eq_false_iff, ne_eq, trimWaits_eq_true]
      rintro ⟨b, hb, h⟩
      obtain ⟨h1, h2, h3⟩ := htrim b hb
      rcases h with h | h | ⟨l, h⟩
      exacts [h1 h, h2 h, h3 l h]
    have hrep : reportFrame { s with link := { s.link with frames := rest, trimmed := none } } = r := by
      rw [hr, hv]; rfl
    have hlink : r.link = { s.link with frames := rest, trimmed := none } := by rw [← hrep, reportFrame_link]
    have hslot : r.link.slot = s.link.slot := by rw [hlink]
    have hexec : exec (.validFrame f) s = .next (takeFrame f r) := by
      rw [exec, execValidFrame, nextFrame_eq_some.2 ⟨hp, hreset, hwait, rest, hf, rfl⟩, whenTaken_some, hrep]
    rw [hexec]
    refine ⟨fun hs => ?_, fun hs hd => ?_, fun hs hd => ?_, fun q hs hd => ?_⟩
    · obtain ⟨sl, hsl⟩ := Option.isSome_iff_exists.1 hs
      have howed : s.link.owed = r.link.owed := by rw [hlink]
      unfold takeFrame
      rw [hslot, hsl, howed]
      rfl
    · unfold takeFrame
      rw [hslot, hs, hd]
      rfl
    · unfold takeFrame
      rw [hslot, hs, hd]
      rfl
    · unfold takeFrame
      rw [hslot, hs, hd]
      dsimp only
      rw [enterSlot, handTo_eq]
      rfl

end Statements
end

