-- ==== Sys2Proof/Proofs/PolicyAndTables.lean ====
section
/-! PROOFS. SetPolicy and the loads of the model's tables (R14 to R18). -/

namespace Sys2Proof.Machine

/-! ### The Policy Set -/

/-- The work of a SetPolicy that is taken, a value out of every range of codes refused. -/
theorem exec_setPolicy {p : PolicyReq} {s u : State} (h : Taken (.setPolicy p) s u) :
    exec (.setPolicy p) s = .next (doSetPolicy p u) := h.hostStep _

/-- A SetPolicy that stores `want` answers CLAMPED exactly when clamping changed a value (R18). -/
theorem setPolicy_stores {p : PolicyReq} {s u : State} (h : Taken (.setPolicy p) s u) {want : Policy}
    (hw : setPolicyTo u.policy p = some want) {same : Prop} (hc : clampsValue p = true ↔ ¬ same) :
    ∃ t r, exec (.setPolicy p) s = .next t ∧ t = { u with policy := want, link := t.link } ∧
      (same → r = .ok) ∧ (¬ same → r = .clamped) ∧ Answered u t r (policyFields want p) := by
  obtain ⟨sl, hsl⟩ := h.slot
  have he := exec_setPolicy h
  rw [doSetPolicy, hw] at he
  refine ⟨_, _, he, finish_eq .., fun hs => ?_, fun hs => ?_,
    answered_finish (w := { u with policy := want }) hsl rfl ..⟩
  · rw [if_neg (fun hcl => hc.1 hcl hs)]
  · rw [if_pos (hc.2 hs)]

/-- A number is left by its clamp exactly when it lies in the range. -/
theorem clampNat_ne {lo hi n : Nat} (h : lo ≤ hi) : clampNat lo hi n ≠ n ↔ ¬ (lo ≤ n ∧ n ≤ hi) := by
  unfold clampNat; omega

theorem clampRange_ne {f l : Nat} : clampRange f l ≠ (f, l) ↔ ¬ (f ≤ l ∧ l ≤ 511) := by
  simp only [clampRange, clampNat, ne_eq, Prod.mk.injEq]; omega

theorem clampWindow_ne {f t : Nat} : clampWindow (some (f, t)) ≠ some (f, t) ↔ ¬ (f ≤ 287 ∧ t ≤ 287 ∧ f ≠ t) := by
  simp only [clampWindow, clampNat, Nat.zero_max]
  split
  · simp only [ne_eq, reduceCtorEq, not_false_eq_true, true_iff]; omega
  · simp only [ne_eq, Option.some.injEq, Prod.mk.injEq]; omega

theorem nearestStep_mem (n : Nat) : nearestStep n ∈ [16, 32, 64, 128, 256, 512, 1024] := by
  unfold nearestStep
  split_ifs <;> decide

theorem nearestStep_ne {n : Nat} : nearestStep n ≠ n ↔ n ∉ [16, 32, 64, 128, 256, 512, 1024] := by
  refine not_congr ⟨fun h => h ▸ nearestStep_mem n, fun h => ?_⟩
  simp only [List.mem_cons, List.not_mem_nil, or_false] at h
  rcases h with rfl | rfl | rfl | rfl | rfl | rfl | rfl <;> rfl

/-- No member of the scan steps lies nearer, and of two as near the larger is taken (R18). -/
theorem nearestStep_nearest (n : Nat) {m : Nat} (hm : m ∈ [16, 32, 64, 128, 256, 512, 1024]) :
    ((nearestStep n : Int) - n).natAbs ≤ ((m : Int) - n).natAbs ∧
    (((nearestStep n : Int) - n).natAbs = ((m : Int) - n).natAbs → m ≤ nearestStep n) := by
  simp only [List.mem_cons, List.not_mem_nil, or_false] at hm
  unfold nearestStep
  split_ifs <;> omega

/-! ### The tables of the model -/

/-- The reads of a kitchen, a transit and a class do not see the link. -/
theorem Taken.tables {r : HostRequest} {s u : State} (h : Taken r s u) (hs : TablesCanonical s) :
    u.kitchens.wf noKitchen ∧ u.distances.wf none ∧ u.menu.wf noClass := by
  obtain ⟨⟨_, _, _, _, _, _, hk, hd, hm, _⟩, _⟩ := h.frame
  obtain ⟨_, h2, h3, h4, _⟩ := hs
  exact ⟨hk ▸ h2, hd ▸ h3, hm ▸ h4⟩

/-- A load that replaces one entry and is answered OK. -/
theorem load_replies {c : Instr} {s u w : State} (hu : ∃ sl, u.link.slot = some sl)
    (h : exec c s = .next (finish .ok [] w))
    (hl : w.link = u.link) :
    ∃ t, exec c s = .next t ∧ Answered u t .ok [] ∧ t = { w with link := t.link } := by
  obtain ⟨sl, hsl⟩ := hu
  exact ⟨_, h, answered_finish hsl hl .., finish_eq ..⟩

end Sys2Proof.Machine

section Statements

open Sys2Proof Sys2Proof.Machine

/-- Settles O23: policy by policy, the value stored and whether clamping changed it. -/
theorem setPolicyClamps : Obligations.SetPolicyClamps := by
  refine ⟨fun p s u ht hp => ?_, fun p s u ht want same hp => ?_,
    fun n m hm => ⟨nearestStep_mem n, nearestStep_nearest n hm⟩⟩
  · have hnone : setPolicyTo u.policy p = none := by
      cases p with
      | absentAction c =>
        obtain ⟨k, rfl⟩ := Nat.exists_eq_add_of_lt (show 2 < c from hp)
        rw [show 2 + k + 1 = k + 3 by omega]
        rfl
      | absentReport c | autoCheckIn c =>
        obtain ⟨k, rfl⟩ := Nat.exists_eq_add_of_lt (show 1 < c from hp)
        rw [show 1 + k + 1 = k + 2 by omega]
        rfl
      | unreadable => rfl
      | _ => exact hp.elim
    have he := exec_setPolicy ht
    rw [doSetPolicy, hnone] at he
    exact repliesOnly_of_finish ht.slot he
  · have hnever : ∀ {same : Prop}, same → (false = true ↔ ¬ same) := fun h => by simp [h]
    cases p with
    | grace n | holdLimit n | walkupMax n | deglitch n | pollInterval n | quietPoll n | supervision n =>
      obtain ⟨rfl, hs⟩ := hp
      exact setPolicy_stores ht rfl (by rw [hs, clampsValue, decide_eq_true_iff]; exact clampNat_ne (by decide))
    | scanRange f l =>
      obtain ⟨rfl, hs⟩ := hp
      refine setPolicy_stores ht ?_ (by rw [hs, clampsValue, decide_eq_true_iff]; exact clampRange_ne)
      simp [setPolicyTo, setNumber, clampRange, clampNat]
    | scanStep n =>
      obtain ⟨rfl, hs⟩ := hp
      exact setPolicy_stores ht rfl (by rw [hs, clampsValue, decide_eq_true_iff]; exact nearestStep_ne)
    | quietWindow w =>
      cases w with
      | none => obtain ⟨rfl, hs⟩ := hp; exact setPolicy_stores ht rfl (hnever hs)
      | some w =>
        obtain ⟨f, t⟩ := w
        obtain ⟨rfl, hs⟩ := hp
        refine setPolicy_stores ht ?_ (by rw [hs, clampsValue, decide_eq_true_iff]; exact clampWindow_ne)
        simp [setPolicyTo, setNumber, clampWindow, clampNat]
    | attentionMask m | eventMask m => obtain ⟨rfl, hs⟩ := hp; exact setPolicy_stores ht rfl (hnever hs)
    | absentAction c =>
      match c, hp with
      | 0, hp | 1, hp | 2, hp => obtain ⟨rfl, hs⟩ := hp; exact setPolicy_stores ht rfl (hnever hs)
    | absentReport c | autoCheckIn c =>
      match c, hp with
      | 0, hp | 1, hp => obtain ⟨rfl, hs⟩ := hp; exact setPolicy_stores ht rfl (hnever hs)
    | unreadable => exact hp.elim

/-- Settles O25: each load is its range check and one write of its table. -/
theorem tableLoads : Obligations.TableLoads := by
  refine ⟨fun k b tr s u ht hs => ?_, fun c w l n s u ht hs => ?_, fun k e s u ht hs => ?_⟩
  · have he : exec (.loadDistance k b tr) s = .next (doLoadDistance k b tr u) := ht.hostStep _
    have hc : (7 < k ∨ 23 < b ∨ tr.any (fun n => decide (12 < n)) = true) ↔
        (7 < k ∨ 23 < b ∨ ∃ n, tr = some n ∧ 12 < n) := by
      cases tr <;> simp
    split
    · rename_i hbad
      rw [doLoadDistance, if_pos (hc.2 hbad)] at he
      exact repliesOnly_of_finish ht.slot he
    · rename_i hok
      rw [doLoadDistance, if_neg (fun h => hok (hc.1 h))] at he
      obtain ⟨t, h1, h2, h3⟩ := load_replies ht.slot he rfl
      refine ⟨t, h1, h2, by rw [h3], fun k' b' hb' => ?_⟩
      have hkey : k' * 24 + b' = k * 24 + b ↔ k' = k ∧ b' = b := by omega
      rw [h3]
      simp only [transitAt, Config.buildings, Table.get_set (ht.tables hs).2.1, hkey]
  · have he : exec (.loadMenuClass c w l n) s = .next (doLoadMenuClass c w l n u) := ht.hostStep _
    have hc : classOk c w l n = true ↔ ¬ (31 < c ∨ (w ≠ 0 ∧ (255 < w ∨ l < 1 ∨ 24 < l ∨ 8 < n))) := by
      simp only [classOk, Bool.and_eq_true, Bool.or_eq_true, decide_eq_true_iff]; omega
    split
    · rename_i hbad
      rw [doLoadMenuClass, if_neg (fun h => hc.1 h hbad)] at he
      exact repliesOnly_of_finish ht.slot he
    · rename_i hok
      rw [doLoadMenuClass, if_pos (hc.2 hok)] at he
      obtain ⟨t, h1, h2, h3⟩ := load_replies ht.slot he rfl
      refine ⟨t, h1, h2, by rw [h3], fun c' => ?_⟩
      rw [h3]
      exact Table.get_set (ht.tables hs).2.2 ..
  · have he : exec (.loadKitchen k e) s = .next (doLoadKitchen k e u) := ht.hostStep _
    have hc : kitchenOk k e = true ↔ ¬ (7 < k ∨ 255 < e.capacity ∨ 8 < e.carts ∨ 287 < e.openFrom ∨ 288 < e.openTo ∨
        e.openTo < e.openFrom) := by
      simp only [kitchenOk, decide_eq_true_iff]; omega
    split
    · rename_i hbad
      rw [doLoadKitchen, if_neg (fun h => hc.1 h hbad)] at he
      exact repliesOnly_of_finish ht.slot he
    · rename_i hok
      rw [doLoadKitchen, if_pos (hc.2 hok)] at he
      exact ⟨_, he, rfl, fun k' => Table.get_set (ht.tables hs).1 ..⟩

end Statements
end

