-- ==== Sys2Proof/Proofs/Reads.lean ====
section
/-! PROOFS. The requests that read what stands and change nothing (R19, R99, R100, R115, R136, R151). -/

namespace Sys2Proof.Machine

/-- A request that only reads: its work is one reply, whose body is the one wanted. -/
theorem Taken.reads {r : HostRequest} {c : Instr} {s u v : State} {res : Result} {body body' : List Field}
    (ht : Taken r s u) (he : exec c s = .next v) (hv : v = finish res body u) (hb : body = body') :
    RepliesOnly c s u res body' := by
  subst hb hv
  exact repliesOnly_of_finish ht.slot he

/-- The line a request names by its number. -/
theorem lineRequest_val (l : Fin 4) (run : Fin 4 → State → State) (s : State) :
    lineRequest l.val run s = run l s := by
  simp [lineRequest, lineOf?]

theorem lineRequest_big {n : Nat} (h : 3 < n) (run : Fin 4 → State → State) (s : State) :
    lineRequest n run s = finish .badField [] s := by
  simp [lineRequest, lineOf?, Nat.not_lt.2 h]

/-- The positions as the numbers behind those from 0 to 47. -/
theorem length_filter_positions (f : Nat → Bool) :
    (positionNumbers.filter f).length = ((List.range 48).filter (fun i => f (i + 1))).length := by
  simp [positionNumbers, Config.positions, List.filter_map, Function.comp_def]

theorem length_litPositions (a : Line) :
    a.litPositions.length = ((List.range 48).filter (fun i => (a.at (i + 1)).litUntil.isSome)).length :=
  length_filter_positions a.litAt

theorem boundOut_eq (a : Line) : a.boundOut = ((List.range 48).filter (fun i =>
    decide ((a.at (i + 1)).bound ≠ none ∧ (a.at (i + 1)).health ≠ .present))).length := by
  rw [Line.boundOut, Line.boundPositions, List.filter_filter, length_filter_positions]
  congr 2
  funext i
  cases h : (a.at (i + 1)).bound <;> simp [Line.boundAt, h]

end Sys2Proof.Machine

section Statements

open Sys2Proof Sys2Proof.Machine

/-- Settles O24: each read is one reply built from what stands, behind its checks. -/
theorem readsAnswerWhatStands : Obligations.ReadsAnswerWhatStands := by
  refine ⟨fun s u ht => ?_, fun r s u ht => ?_, fun k s u ht => ?_, fun k s u ht => ?_, fun c s u ht => ?_,
    fun h s u ht => ?_, fun k first n s u ht => ?_, fun k cont n s u ht => ?_, fun n p s u hn => ?_, fun l s u ht => ?_,
    fun l p s u ht => ?_, fun l s u ht => ?_⟩
  · refine ht.reads (ht.hostStep _) rfl ?_
    rw [allPolicyFields]
    cases u.policy.quietWindow <;> rfl
  · split
    · exact ht.reads (ht.hostStep _) (if_pos ‹_›) rfl
    · refine ht.reads (ht.hostStep _) (if_neg ‹_›) ?_
      cases roomAt u r with
      | none => rfl
      | some e => cases hb : e.binding <;> simp [roomFields, bindingFields, serviceCode, hb]
  · split
    · exact ht.reads (ht.hostStep _) (if_pos ‹_›) rfl
    · exact ht.reads (ht.hostStep _) (if_neg ‹_›) rfl
  · split
    · exact ht.reads (ht.hostStep _) (if_pos ‹_›) rfl
    · exact ht.reads (ht.hostStep _) (if_neg ‹_›) rfl
  · split
    · exact ht.reads (ht.hostStep _) (if_pos ‹_›) rfl
    · exact ht.reads (ht.hostStep _) (if_neg ‹_›) rfl
  · split
    · refine ht.reads (ht.hostStep _) (body := []) ?_ rfl
      simp [doQueryOrder, orderFault, *]
    · split
      · refine ht.reads (ht.hostStep _) (body := []) ?_ rfl
        simp [doQueryOrder, orderFault, *]
      · rename_i o ho
        refine ht.reads (ht.hostStep _) (body := orderFields h o ++ orderPlacement u o) ?_ ?_
        · simp [doQueryOrder, orderFault, *]
        · cases hb : o.booking <;>
            simp [orderFields, orderPlacement, handleField, share, indexField, flagField, hb]
  · split
    · exact ht.reads (ht.hostStep _) (if_pos ‹_›) rfl
    · rename_i hok
      split
      · refine ht.reads (ht.hostStep _) (body := []) ?_ rfl
        rw [doReadLoad, if_neg hok, if_pos (by simp [*])]
      · rename_i hnow
        have hsome : ¬ (plannerNow u).isNone = true := by simpa using hnow
        split
        · refine ht.reads (ht.hostStep _) (body := []) ?_ rfl
          rw [doReadLoad, if_neg hok, if_neg hsome]
          exact if_pos ‹_›
        · refine ht.reads (ht.hostStep _) ?_ rfl
          rw [doReadLoad, if_neg hok, if_neg hsome]
          exact if_neg ‹_›
  · have hc : (7 < k ∨ n < 1 ∨ 8 < n ∨ cont.any (fun c => decide (287 < c.1.quantum)) = true) ↔
        (7 < k ∨ n < 1 ∨ 8 < n ∨ ∃ c, cont = some c ∧ 287 < c.1.quantum) := by cases cont <;> simp
    split
    · exact ht.reads (ht.hostStep _) (if_pos (hc.2 ‹_›)) rfl
    · rename_i hok
      intro all hall
      refine ht.reads (ht.hostStep _) (if_neg (fun h => hok (hc.1 h))) ?_
      have hall' : ((production u k).filterMap (fun i => (orderAt u i).map (fun o => (i, o)))).filter
          (fun e => afterContinuation u cont e.2) = all := by
        rw [hall]
        cases cont <;> rfl
      rw [hall']
      have hf : productionFields u = fun e => [.handle ⟨e.1, (orderRecord u e.1).gen⟩, .u8 (orderStateCode e.2.state),
          .time e.2.window, .time e.2.departure, .time e.2.serving, .u8 e.2.len, .u8 e.2.shift, .u16 e.2.load,
          .u16 e.2.room, .u8 (if e.2.confirmed = true then 1 else 0),
          (match e.2.booking with | some b => .handle b | none => .absent 3)] := by
        funext e
        cases hb : e.2.booking <;> simp [productionFields, orderHandle, flagField, handleField, hb]
      simp only [List.length_take, hf, flagField, continuationFields, decide_eq_true_eq] <;> rfl
  · refine ⟨fun ht => ht.reads (ht.hostStep _) (lineRequest_big hn _ _) rfl,
      fun ht => ht.reads (ht.hostStep _) (body := []) ?_ rfl,
      fun ht => ht.reads (ht.hostStep _) (lineRequest_big hn _ _) rfl⟩
    split
    · exact lineRequest_big hn _ _
    · rfl
  · refine ht.reads (ht.hostStep _) (lineRequest_val ..) ?_
    rw [length_litPositions]
    cases (u.lines.get l).entered with
    | none => rfl
    | some e => cases e <;> rfl
  · have hp : positionOk p = true ↔ ¬ (p < 1 ∨ 48 < p) := by simp only [positionOk, decide_eq_true_iff]; omega
    split
    · exact ht.reads (ht.hostStep _) (if_neg (fun h => hp.1 h ‹_›)) rfl
    · refine ht.reads (ht.hostStep _) ((if_pos (hp.2 ‹_›)).trans (lineRequest_val ..)) ?_
      cases ((u.lines.get l).at p).last <;> rfl
  · refine ht.reads (ht.hostStep _) (lineRequest_val ..) ?_
    rw [boundOut_eq, positionNumbers, List.flatMap_map]
    rfl

end Statements
end

