-- ==== Sys2Proof/Proofs/EngineRequests.lean ====
section
/-! PROOFS. The engine's host requests: the handle check, the chain of admission checks, the display evaluation,
the queries and AcceptProvisional (R21, R24, R27, R38, R53 to R57). -/

namespace Sys2Proof.Machine

/-! ### The display evaluation (R57) -/

/-- What a room shows does not read the link, the lines or the facts kept. -/
theorem factsOf_congr (s : State) (K : Table (Option Facts)) (L : Quad Line) (M : Link) (r : Nat) :
    factsOf { s with engine := { s.engine with kept := K }, lines := L, link := M } r = factsOf s r := rfl

/-- A display request is `s` but for the lines. -/
theorem requestDisplay_eq (r : Nat) (s : State) :
    requestDisplay r s = { s with lines := (requestDisplay r s).lines } := by
  unfold requestDisplay
  split <;> rfl

/-- The evaluation of a room's display writes the kept facts and the lines. -/
theorem evalDisplay_eq (r : Nat) (s : State) : evalDisplay r s = { s with
    engine := { s.engine with kept := (evalDisplay r s).engine.kept }, lines := (evalDisplay r s).lines } := by
  unfold evalDisplay
  split
  · rfl
  · rw [requestDisplay_eq]; rfl

/-- After the evaluation the engine keeps what the room shows. -/
theorem evalDisplay_kept {s : State} (h : s.engine.kept.wf none) (r : Nat) :
    (evalDisplay r s).engine.kept.get none r = some (factsOf s r) := by
  unfold evalDisplay
  split
  · assumption
  · simp [keepFacts, Table.get_set h]

/-- A piece of work that ends in one evaluation and its reply: nothing but the display has changed, and the
facts kept are those shown. -/
theorem finish_evalDisplay {s t : State} (h : s.engine.kept.wf none) {r : Nat} {res : Result} {body : List Field}
    (ht : t = finish res body (evalDisplay r s)) : ButDisplay s t ∧ Shows r t := by
  have heq : t = { s with
      engine := { s.engine with kept := (evalDisplay r s).engine.kept }
      lines := (evalDisplay r s).lines
      link := t.link } := by rw [ht, finish_eq, evalDisplay_eq]
  refine ⟨⟨?_, fun l => ?_⟩, ?_⟩
  · rw [heq]
  · have := (((Writes.refl .engine s).evalDisplay r).finish res body).lines l nofun
    rwa [← ht] at this
  · unfold Shows
    rw [heq, factsOf_congr]
    exact evalDisplay_kept h r

/-! ### The summary bit PROV -/

/-- The summary bit PROV reads the provisional count alone (R173). -/
theorem summary_provisional (s : State) : s.summary.getLsbD 0 = decide (0 < s.superv.provisional) := by
  simp only [State.summary, BitVec.getLsbD_or, bit8_getLsbD, Nat.reduceLT, Nat.reduceEqDiff, decide_true,
    decide_false, Bool.and_true, Bool.and_false, Bool.or_false, Bool.false_or]

/-! ### The handle check (R21, R27) -/

variable {h : Handle} {s u : State}

theorem handleFault_range (hb : 2047 < h.index ∨ 63 < h.gen) : handleFault s h = some .badField := if_pos hb

theorem handleFault_stale (hi : h.index ≤ 2047) (hg : h.gen ≤ 63)
    (hs : (recordAt s h.index).gen ≠ h.gen ∨ bookingAt s h.index = none) : handleFault s h = some .staleHandle := by
  have hl : liveBooking s h = none := by
    unfold liveBooking
    split
    · exact hs.resolve_left (not_not_intro ‹_›)
    · rfl
  rw [handleFault, if_neg (by omega), hl]
  rfl

theorem bookingAt_of_record {b : Booking} (hr : recordAt s h.index = ⟨h.gen, some b⟩) :
    bookingAt s h.index = some b := by
  rw [bookingAt, hr]

theorem liveBooking_of_record {b : Booking} (hr : recordAt s h.index = ⟨h.gen, some b⟩) :
    liveBooking s h = some b := by
  rw [liveBooking, hr, if_pos rfl, bookingAt_of_record hr]

theorem handleFault_live {b : Booking} (hi : h.index ≤ 2047) (hg : h.gen ≤ 63)
    (hr : recordAt s h.index = ⟨h.gen, some b⟩) : handleFault s h = none := by
  rw [handleFault, if_neg (by omega), liveBooking_of_record hr]
  rfl

theorem withBooking_fault {r : Result} (hf : handleFault s h = some r) (run : Booking → State → State) :
    withBooking h run s = refuseHost r [] s := by
  unfold withBooking
  rw [hf]

theorem withBooking_busy {b : Booking} (hi : h.index ≤ 2047) (hg : h.gen ≤ 63)
    (hr : recordAt s h.index = ⟨h.gen, some b⟩) (hp : b.pending ≠ none) (run : Booking → State → State) :
    withBooking h run s = refuseHost .busy [] s := by
  unfold withBooking
  rw [handleFault_live hi hg hr, bookingAt_of_record hr]
  exact if_pos (Option.isSome_iff_ne_none.2 hp)

/-- The work of a request on the booking it names. -/
theorem withBooking_named {b : Booking} (hn : Names s h b) (run : Booking → State → State) :
    withBooking h run s = run b s := by
  obtain ⟨hi, hg, hr, hp⟩ := hn
  unfold withBooking
  rw [handleFault_live hi hg hr, bookingAt_of_record hr]
  exact if_neg (by simp [hp])

/-- The requests that name a booking by its handle. -/
def NamesBooking (r : HostRequest) (h : Handle) : Prop :=
  r = .confirm h ∨ (∃ n, r = .cancel h n) ∨ r = .endBooking h ∨ (∃ b, r = .checkIn h b) ∨
    (∃ q, r = .move q ∧ q.booking = h) ∨ r = .acceptProvisional h ∨ ∃ n ls, r = .placeOrder h n ls

/-- Each of them runs its own work behind the handle check and the test of the pending mark. -/
theorem exec_namesBooking {r : HostRequest} (hr : NamesBooking r h) (ht : Taken r s u) :
    ∃ run, exec (commandOf r) s = .next (withBooking h run u) := by
  rcases hr with rfl | ⟨n, rfl⟩ | rfl | ⟨b, rfl⟩ | ⟨q, rfl, rfl⟩ | rfl | ⟨n, ls, rfl⟩ <;> exact ⟨_, ht.hostStep _⟩

/-! ### The admission checks (R38 to R40) -/

theorem require_eq {p : Bool} {r : Result} {q : Prop} [Decidable q] (h : p = true ↔ ¬ q) :
    require p r = if q then some ⟨r, none⟩ else none := by
  unfold require
  split <;> split <;> first | rfl | (exfalso; tauto)

/-- A check in front of others. -/
theorem ite_some_or {α : Type} {q : Prop} [Decidable q] (a : α) (o : Option α) :
    (if q then some a else none).or o = if q then some a else o := by
  split <;> rfl

/-- The first of two checks of one code that fails. -/
theorem ite_ite_same {α : Type} {p q : Prop} [Decidable p] [Decidable q] (a b : α) :
    (if p then a else if q then a else b) = if p ∨ q then a else b := by
  by_cases hp : p <;> simp [hp]

/-- The checks 1 to 7, the first that fails (R38). -/
theorem checkCreate_eq (s : State) (r : Nat) (sp : Span) (n : Nat) : checkCreate s r sp n =
    if roomAt s r = none then some ⟨.noSuchRoom, none⟩
    else if ((roomAt s r).map RoomEntry.inService ≠ some true) ∨
        (s.policy.absentAction = .close ∧ panelPresent s r = false) then some ⟨.roomOutOfService, none⟩
    else if engineNow s = none then some ⟨.clockNotSet, none⟩
    else if idx s sp.fin - idx s sp.start < 3 ∨ 144 < idx s sp.fin - idx s sp.start then some ⟨.badField, none⟩
    else if idx s sp.start < ((engineNow s).map (idx s)).getD 0 ∨ 2304 < idx s sp.fin then some ⟨.outOfHorizon, none⟩
    else if ((roomAt s r).map RoomEntry.seats).getD 0 < n then some ⟨.overCapacity, none⟩
    else (firstConflict s r sp none).map (fun c => ⟨.conflict, some c⟩) := by
  have h1 : checkInUse s r = if roomAt s r = none then some ⟨.noSuchRoom, none⟩ else none :=
    require_eq Option.isSome_iff_ne_none
  have h2 : checkService s r = if ((roomAt s r).map RoomEntry.inService ≠ some true) ∨
      (s.policy.absentAction = .close ∧ panelPresent s r = false) then some ⟨.roomOutOfService, none⟩ else none :=
    require_eq (by
      rw [closedByPolicy]
      cases hr : (roomAt s r).map RoomEntry.inService <;> simp [imp_iff_not_or])
  have h3 : checkClock s = if engineNow s = none then some ⟨.clockNotSet, none⟩ else none :=
    require_eq Option.isSome_iff_ne_none
  have h4 : checkLength s sp = if idx s sp.fin - idx s sp.start < 3 ∨ 144 < idx s sp.fin - idx s sp.start then
      some ⟨.badField, none⟩ else none := require_eq (by rw [decide_eq_true_iff]; omega)
  have h5 : checkStart s sp.start = if idx s sp.start < ((engineNow s).map (idx s)).getD 0 then
      some ⟨.outOfHorizon, none⟩ else none := require_eq (by rw [decide_eq_true_iff]; omega)
  have h6 : checkHorizon s sp.fin = if 2304 < idx s sp.fin then some ⟨.outOfHorizon, none⟩ else none :=
    require_eq (by rw [decide_eq_true_iff]; omega)
  have h7 : checkSeats s r n = if ((roomAt s r).map RoomEntry.seats).getD 0 < n then some ⟨.overCapacity, none⟩
      else none := require_eq (by rw [decide_eq_true_iff]; omega)
  rw [checkCreate, checkSpan, h1, h2, h3, h4, h5, h6, h7]
  have hor : ∀ a b c d : Option Turned, (a.or (b.or c)).or d = a.or (b.or (c.or d)) := fun a b c d => by
    rw [Option.or_assoc, Option.or_assoc]
  rw [hor, Option.or_assoc]
  simp only [ite_some_or, ite_ite_same]
  rfl

/-! ### Book and Hold -/

/-- The fields a creating request is refused for (R38, R42). -/
def BadCreation (q : BookReq) (n : Nat) (r : HostRequest) (u : State) : Prop :=
  ¬ FieldsInRange q ∨ (r = .hold q n ∧ ¬ (1 ≤ n ∧ n ≤ u.policy.holdLimit))

theorem fieldsOk_iff (q : BookReq) : fieldsOk q.room (spanOf q) q.attendees = true ↔ FieldsInRange q := by
  rw [fieldsOk, decide_eq_true_iff]
  rfl

/-- The state after the checks of a request: `made` when none failed, and else the refusal of the first that did. -/
def refusedOrMade (room : Nat) (made u : State) : Option Turned → State
  | some t => refuseTurned room t t.body u
  | none => made

theorem doBook_eq (q : BookReq) (u : State) : doBook q u =
    if (!fieldsOk q.room (spanOf q) q.attendees) = true then refuseHost .badField [] u
    else refusedOrMade q.room (createAndReply (hostBooking q .confirmed none)
        (fun h => [.handle h, .time q.start, .time q.fin]) u) u
      ((checkCreate u q.room (spanOf q) q.attendees).or (checkPool u)) := rfl

theorem doHold_eq (q : BookReq) (n : Nat) (u : State) : doHold q n u =
    if (!(fieldsOk q.room (spanOf q) q.attendees && holdTimeOk u n)) = true then refuseHost .badField [] u
    else refusedOrMade q.room (createAndReply (hostBooking q .tentative (some (holdExpiry u n)))
        (fun h => [.handle h, .time q.start, .time q.fin, .time (holdExpiry u n)]) u) u
      ((checkCreate u q.room (spanOf q) q.attendees).or ((checkHolds u).or (checkPool u))) := rfl

/-- A Book or a Hold whose fields fail is refused BAD_FIELD; one whose fields pass is refused by the first check
of its chain that fails, or made. -/
theorem exec_creation {q : BookReq} {n : Nat} {r : HostRequest} (hr : r = .book q ∨ r = .hold q n) (ht : Taken r s u) :
    (BadCreation q n r u → exec (commandOf r) s = .next (refuseHost .badField [] u)) ∧
    (¬ BadCreation q n r u → ∃ made, exec (commandOf r) s = .next (refusedOrMade q.room made u
      ((checkCreate u q.room (spanOf q) q.attendees).or
        ((if r = .hold q n ∧ 64 ≤ u.store.holds.length then some ⟨.holdsFull, none⟩ else none).or (checkPool u))))) := by
  rcases hr with rfl | rfl
  · have he : exec (.book q) s = .next (doBook q u) := ht.hostStep _
    have hb : BadCreation q n (.book q) u ↔ (!fieldsOk q.room (spanOf q) q.attendees) = true := by
      simp [BadCreation, ← fieldsOk_iff]
    rw [doBook_eq] at he
    refine ⟨fun h => ?_, fun h => ?_⟩
    · rwa [if_pos (hb.1 h)] at he
    · rw [if_neg (fun hn => h (hb.2 hn))] at he
      rw [if_neg (show ¬ (HostRequest.book q = .hold q n ∧ 64 ≤ u.store.holds.length) by simp), Option.none_or]
      exact ⟨_, he⟩
  · have he : exec (.hold q n) s = .next (doHold q n u) := ht.hostStep _
    have hb : BadCreation q n (.hold q n) u ↔
        (!(fieldsOk q.room (spanOf q) q.attendees && holdTimeOk u n)) = true := by
      simp [BadCreation, ← fieldsOk_iff, holdTimeOk, imp_iff_not_or]
    have hh : checkHolds u = if HostRequest.hold q n = .hold q n ∧ 64 ≤ u.store.holds.length then
        some ⟨.holdsFull, none⟩ else none := require_eq (by rw [decide_eq_true_iff, Config.holdEntries]; simp)
    rw [doHold_eq, hh] at he
    refine ⟨fun h => ?_, fun h => ?_⟩
    · rwa [if_pos (hb.1 h)] at he
    · rw [if_neg (fun hn => h (hb.2 hn))] at he
      exact ⟨_, he⟩

/-- A refusal of the engine by a check other than that of the pool (R41). -/
theorem refusedByEngine_of_turned {c : Instr} {room : Nat} {t : Turned} (hu : ∃ sl, u.link.slot = some sl)
    (hp : t.code ≠ .poolEmpty) (he : exec c s = .next (refuseTurned room t t.body u)) :
    RefusedByEngine c s u t.code t.body := by
  rw [refuseTurned, if_neg hp] at he
  exact refusedByEngine_of_refuse hu he

/-- With the episode open or closed, the state in which a POOL_EMPTY is refused (R24). -/
theorem openEpisode_eq (room : Nat) (src : Option (Fin 4 × Nat)) (u : State) : openEpisode room src u =
    { (if u.store.episode = true then u else postException (.bookingPoolEmpty room src) (engineNow u) u) with
      store := { u.store with episode := true } } := by
  unfold openEpisode
  by_cases he : u.store.episode = true
  · rw [if_pos he, if_pos he]
    have : u.store = { u.store with episode := true } := by rw [← he]
    rw [← this]
  · rw [if_neg he, if_neg he]
    unfold postException
    split <;> rfl

/-- A refusal of the engine with the pool empty (R24). -/
theorem refusedPoolEmpty_of_turned {c : Instr} {room : Nat} (hu : ∃ sl, u.link.slot = some sl)
    (he : exec c s = .next (refuseTurned room ⟨.poolEmpty, none⟩ [] u)) : RefusedPoolEmpty c s u room [] := by
  obtain ⟨sl, hsl⟩ := hu
  rw [refuseTurned, if_pos rfl, refuseHost, countRefusal_eq, openEpisode_eq] at he
  refine ⟨_, _, he, answered_finish hsl ?_ .., rfl, ?_⟩
  · simp only
    split <;> simp
  · rw [finish_eq]

end Sys2Proof.Machine

section Statements

open Sys2Proof Sys2Proof.Machine

/-- Settles O30: the chain of a Book or a Hold read check by check, and the handle check in front of every
request that names a booking. -/
theorem engineRefusals : Obligations.EngineRefusals := by
  refine ⟨fun q n r c s u hr hc ht => ?_, fun u room a b own => rfl, fun r h s u ht hr => ?_⟩
  · subst hc
    obtain ⟨hbad, hgood⟩ := exec_creation hr ht
    split
    · exact refusedByEngine_of_refuse ht.slot (hbad ‹_›)
    · rename_i hf
      obtain ⟨made, he⟩ := hgood hf
      have href : ∀ t : Turned, t.code ≠ .poolEmpty → checkCreate u q.room (spanOf q) q.attendees = some t →
          RefusedByEngine (commandOf r) s u t.code t.body := fun t hp h => by
        rw [h, Option.some_or] at he
        exact refusedByEngine_of_turned ht.slot hp he
      have hsp : spanOf q = ⟨q.start, q.fin⟩ := rfl
      rw [hsp, checkCreate_eq] at he href
      split
      · exact href ⟨.noSuchRoom, none⟩ (by decide) (if_pos ‹_›)
      · rename_i h1
        rw [if_neg h1] at he href
        split
        · exact href ⟨.roomOutOfService, none⟩ (by decide) (if_pos ‹_›)
        · rename_i h2
          rw [if_neg h2] at he href
          split
          · exact href ⟨.clockNotSet, none⟩ (by decide) (if_pos ‹_›)
          · rename_i h3
            rw [if_neg h3] at he href
            split
            · exact href ⟨.badField, none⟩ (by decide) (if_pos ‹_›)
            · rename_i h4
              rw [if_neg h4] at he href
              split
              · exact href ⟨.outOfHorizon, none⟩ (by decide) (if_pos ‹_›)
              · rename_i h5
                rw [if_neg h5] at he href
                split
                · exact href ⟨.overCapacity, none⟩ (by decide) (if_pos ‹_›)
                · rename_i h6
                  rw [if_neg h6] at he href
                  split
                  · rename_i x hx
                    exact href ⟨.conflict, some x⟩ nofun (congrArg (Option.map _) hx)
                  · rename_i hx
                    rw [show firstConflict u q.room ⟨q.start, q.fin⟩ none = none from hx,
                      Option.map_none, Option.none_or] at he
                    split
                    · rename_i h8
                      rw [if_pos h8, Option.some_or] at he
                      exact refusedByEngine_of_turned (t := ⟨.holdsFull, none⟩) ht.slot (by decide) he
                    · rename_i h8
                      intro hfree
                      have hpool : checkPool u = some ⟨.poolEmpty, none⟩ := by rw [checkPool, hfree]; rfl
                      rw [if_neg h8, Option.none_or, hpool] at he
                      exact refusedPoolEmpty_of_turned ht.slot he
  · obtain ⟨run, he⟩ := exec_namesBooking hr ht
    refine ⟨fun hb => ?_, fun hi hg hs => ?_, fun b hi hg hrec hp => ?_⟩
    · rw [withBooking_fault (handleFault_range hb)] at he
      exact refusedByEngine_of_refuse ht.slot he
    · rw [withBooking_fault (handleFault_stale hi hg hs)] at he
      exact refusedByEngine_of_refuse ht.slot he
    · rw [withBooking_busy hi hg hrec hp] at he
      exact refusedByEngine_of_refuse ht.slot he

/-- Settles O33: the two queries are replies built from what stands, and an acceptance one write of its booking. -/
theorem queriesAndAcceptance : Obligations.QueriesAndAcceptance := by
  refine ⟨fun room day cont s u ht => ?_, fun h s u ht => ?_, fun h b s u ht hs hn => ?_⟩
  · have he : exec (.queryRoom room day cont) s = .next (doQueryRoom room day cont u) := ht.hostStep _
    have hc : (511 < room ∨ cont.any (fun c => decide (287 < c.quantum)) = true) ↔
        (511 < room ∨ ∃ c, cont = some c ∧ 287 < c.quantum) := by cases cont <;> simp
    split
    · rw [doQueryRoom, if_pos (hc.2 ‹_›)] at he
      exact refusedByEngine_of_refuse ht.slot he
    · rename_i hok
      rw [doQueryRoom, if_neg (fun h => hok (hc.1 h))] at he
      split
      · rw [if_pos (by simp [*])] at he
        exact refusedByEngine_of_refuse ht.slot he
      · rename_i hroom
        rw [if_neg (by simpa using hroom)] at he
        intro all hall
        have hall' : touching u room day cont = all := hall.symm
        have hentry : roomEntryFields u = fun e => [.handle ⟨e.1, (recordAt u e.1).gen⟩,
            .time e.2.start, .time e.2.fin,
            .u8 (bookStateCode e.2.state), .u16 e.2.attendees, .token e.2.organizer, .u8 (originCode e.2.origin),
            .u8 (if e.2.provisional = true then 1 else 0), .u8 (if e.2.order = none then 0 else 1),
            (match e.2.pending with | some m => .u8 (markCode m) | none => .absent 1)] := by
          funext e
          cases hp : e.2.pending <;> cases ho : e.2.order <;>
            simp [roomEntryFields, handleOf, flagField, u8Field, hp, ho]
        have hmore : (!(all.drop 10).isEmpty) = decide (10 < all.length) := by
          rw [Bool.eq_iff_iff]; simp
        refine ht.reads he rfl ?_
        rw [hall', hentry, hmore]
        simp only [List.length_take, flagField, decide_eq_true_eq] <;> rfl
  · have he : exec (.queryBooking h) s = .next (doQueryBooking h u) := ht.hostStep _
    split
    · rename_i hb
      rw [doQueryBooking, handleFault_range hb] at he
      exact refusedByEngine_of_refuse ht.slot he
    · rename_i hb
      cases hl : liveBooking u h with
      | none =>
        have hf : handleFault u h = some .staleHandle := by rw [handleFault, if_neg hb, hl]; rfl
        rw [doQueryBooking, hf] at he
        exact refusedByEngine_of_refuse ht.slot he
      | some b =>
        have hf : handleFault u h = none := by rw [handleFault, if_neg hb, hl]; rfl
        have hbk : bookingAt u h.index = some b := by
          unfold liveBooking at hl
          split at hl
          · exact hl
          · cases hl
        rw [doQueryBooking, hf, hbk] at he
        exact ht.reads he rfl rfl
  · have he : exec (.acceptProvisional h) s = .next (doAcceptProvisional h u) := ht.hostStep _
    rw [doAcceptProvisional, withBooking_named hn] at he
    split
    · rename_i hprov
      rw [if_pos hprov] at he
      obtain ⟨sl, hsl⟩ := ht.slot
      have hk : u.engine.kept.wf none := by
        obtain ⟨_, _, _, _, _, _, _, hkept, _⟩ :=
          (Writes.of_takeHost (r := .acceptProvisional h) (b := .engine) rfl ht.2).sound.tables hs
        exact hkept
      obtain ⟨hbut, hshows⟩ := finish_evalDisplay (s := provisional (· - 1) (setBooking h.index
        { b with provisional := false } u)) hk rfl
      refine ⟨_, he, answered_finish hsl (by simp) .., hshows, fun h0 => ?_, ?_⟩
      · rw [summary_provisional, h0]; rfl
      · have hset : setBooking h.index { b with provisional := false } u = { u with store := { u.store with
            records := u.store.records.set ⟨0, none⟩ h.index ⟨h.gen, some { b with provisional := false }⟩ } } := by
          rw [setBooking, hn.2.2.1]
        rw [hset] at hbut ⊢
        exact hbut
    · rename_i hprov
      rw [if_neg hprov] at he
      exact refusedByEngine_of_refuse ht.slot he

end Statements
end

