-- ==== Sys2Proof/Proofs/PanelLineWork.lean ====
section
/-! PROOFS. The work of a panel line's controller: filling the downlinks, starting an ordinary cycle, the work
other owners hand over, and the boundary work (R119, R132 to R135, R155, R164, R165). -/

namespace Sys2Proof.Machine

/-! ### Filling the downlinks (R165) -/

/-- The line `b` is `a` but for what filling the downlinks writes: requests, generations and counts of
positions, and the queue. Every binding and every lit-until stands. -/
structure Refilled (a b : Line) : Prop where
  canonical : b.Canonical
  rest : b = { a with positions := b.positions, queue := b.queue }
  bound : ∀ p, (b.at p).bound = (a.at p).bound
  lit : ∀ p, (b.at p).litUntil = (a.at p).litUntil

namespace Refilled

variable {a b : Line} {f : Filling}

theorem refl (h : a.Canonical) : Refilled a a := ⟨h, rfl, fun _ => rfl, fun _ => rfl⟩

theorem setQueue (h : Refilled a b) (q : List Nat) : Refilled a { b with queue := q } :=
  ⟨h.canonical, by rw [h.rest], h.bound, h.lit⟩

theorem modifyAt (h : Refilled a b) (p : Nat) {g : Position → Position} (hb : ∀ q, (g q).bound = q.bound)
    (hl : ∀ q, (g q).litUntil = q.litUntil) : Refilled a (b.modifyAt p g) := by
  refine ⟨h.canonical.modifyAt p g, ?_, fun p' => ?_, fun p' => ?_⟩
  · rw [Line.modifyAt_eq, h.rest]
  · rw [Line.at_modifyAt h.canonical]
    split
    · rw [hb, h.bound, ‹p' = p›]
    · exact h.bound p'
  · rw [Line.at_modifyAt h.canonical]
    split
    · rw [hl, h.lit, ‹p' = p›]
    · exact h.lit p'

theorem placeReply (h : Refilled a f.line) (p : Nat) : Refilled a (placeReply f p).line := by
  unfold Machine.placeReply
  split
  · exact h.modifyAt p (fun _ => rfl) (fun _ => rfl)
  · exact h

theorem placeDisplay (h : Refilled a f.line) (s : State) (quiet : Bool) (p : Nat) :
    Refilled a (placeDisplay s quiet f p).line := by
  unfold Machine.placeDisplay
  split
  · exact h.modifyAt p (fun _ => rfl) (fun _ => rfl)
  · exact h.setQueue _

theorem placeBlank (h : Refilled a f.line) (p : Nat) : Refilled a (placeBlank f p).line := by
  unfold Machine.placeBlank
  split <;> exact h

theorem fillDownlinks (h : a.Canonical) (s : State) (quiet : Bool) : Refilled a (fillDownlinks s quiet a).line := by
  have h1 : Refilled a (positionNumbers.foldl Machine.placeReply ⟨a, .empty⟩).line :=
    List.foldlRecOn (motive := fun f : Filling => Refilled a f.line) _ _ (refl h) fun _ h _ _ => h.placeReply _
  have h2 : Refilled a (serveQueue s quiet (positionNumbers.foldl Machine.placeReply ⟨a, .empty⟩)).line :=
    List.foldlRecOn (motive := fun f : Filling => Refilled a f.line) _ _ (h1.setQueue []) fun _ h _ _ =>
      h.placeDisplay s quiet _
  unfold Machine.fillDownlinks
  dsimp only
  split
  · exact List.foldlRecOn (motive := fun f : Filling => Refilled a f.line) _ _ h2 fun _ h _ _ => h.placeBlank _
  · exact h2

theorem boundPositions (h : Refilled a b) : b.boundPositions = a.boundPositions :=
  List.filter_congr fun p _ => congrArg Option.isSome (h.bound p)

theorem litPositions (h : Refilled a b) : b.litPositions = a.litPositions :=
  List.filter_congr fun p _ => congrArg Option.isSome (h.lit p)

/-- A refilled line sends what the line before would, with its own slots and the positions and queue left by the
filling. -/
theorem send (h : Refilled a b) (p : Policy) (kind : CycleKind) (slots : Table Downlink) :
    b.send p kind slots = { a.send p kind slots with positions := b.positions, queue := b.queue } := by
  have ht : cycleTimeout b kind = cycleTimeout a kind := by
    unfold cycleTimeout
    rw [h.boundPositions, h.rest]
  have hp : pollMs p b = pollMs p a := by
    unfold pollMs
    rw [h.litPositions, h.rest]
  unfold Line.send
  rw [ht, hp, h.rest]
  rfl

end Refilled

/-- An ordinary cycle that starts is the start of R120, R121, R124 and R165, and changes its own line alone. -/
theorem startOrdinary_cycleStarted {l : Fin 4} {s : State} (h : (s.lines.get l).Canonical) :
    ∃ c, startOrdinary l s = { s with lines := s.lines.set l c } ∧ CycleStarted s .ordinary (s.lines.get l) c := by
  refine ⟨_, rfl, ?_⟩
  rintro _ rfl
  rw [(Refilled.fillDownlinks h s _).send]
  rfl

/-- A cycle's start reads nothing of the other lines. -/
theorem cycleStarted_lines {s : State} {x : Quad Line} {a b : Line}
    (h : CycleStarted { s with lines := x } .ordinary a b) :
    CycleStarted s .ordinary a b := by
  rintro _ rfl
  exact h _ (fillDownlinks_lines s x _ a).symm

/-! ### The display update queue (R164) -/

/-- Positions entered one after another: those not yet in the queue join it, in order. -/
theorem Line.enqueueAll_eq : ∀ {ps : List Nat} (a : Line), ps.Nodup →
    a.enqueueAll ps = { a with queue := a.queue ++ ps.filter (fun p => decide (p ∉ a.queue)) }
  | [], a, _ => by simp [Line.enqueueAll]
  | p :: ps, a, hn => by
    obtain ⟨hp, hn⟩ := List.nodup_cons.1 hn
    have hstep : a.enqueueAll (p :: ps) = (a.enqueue p).enqueueAll ps := rfl
    rw [hstep, Line.enqueueAll_eq _ hn, Line.enqueue_eq]
    by_cases hm : p ∈ a.queue
    · simp [hm]
    · have hrest : ps.filter (fun q => decide (q ∉ a.queue ++ [p])) = ps.filter (fun q => decide (q ∉ a.queue)) :=
        List.filter_congr fun q hq => by
          have : q ≠ p := fun e => hp (e ▸ hq)
          simp [this]
      simp only [if_neg hm, hrest]
      simp [hm]

/-- The bound positions of a line are numbered once each. -/
theorem Line.boundPositions_nodup (a : Line) : a.boundPositions.Nodup :=
  List.Nodup.filter _ (by decide : positionNumbers.Nodup)

/-- The numbers of the bound positions. -/
theorem Line.boundPositions_eq {a b : Line} (h : ∀ p, (a.at p).bound = (b.at p).bound) :
    a.boundPositions = boundNumbers b :=
  List.filter_congr fun p _ => by
    rw [Line.boundAt, h p, Bool.eq_iff_iff, decide_eq_true_iff, Option.isSome_iff_ne_none]

/-! ### Work handed to a controller (R119, R155, R164) -/

variable {l : Fin 4} {s u : State}

/-- A change of a line to itself. -/
theorem updLine_self {f : Line → Line} (h : f (u.lines.get l) = u.lines.get l) : updLine l f u = u := by
  rw [updLine, h, Quad.set_get]

theorem Line.applyOrDefer_busy {a : Line} (h : a.inFlight ≠ none) (d : Deferred) :
    a.applyOrDefer d = { a with deferred := a.deferred ++ [d] } := if_pos (Option.isSome_iff_ne_none.2 h)

theorem Line.applyOrDefer_idle {a : Line} (h : a.inFlight = none) (d : Deferred) :
    a.applyOrDefer d = a.applyDeferred d := if_neg (by simp [h])

/-- A display request at the position bound to its room (R164). -/
theorem Line.displayRoom_bound {a : Line} {room p : Nat} (h : a.positionOf room = some p) :
    a.displayRoom room = { a with queue := if p ∈ a.queue then a.queue else a.queue ++ [p] } := by
  rw [Line.displayRoom, h, ← Line.enqueue_eq]

/-- A display request for a room that no position of the line is bound to (R164). -/
theorem Line.displayRoom_unbound {a : Line} {room : Nat} (h : a.positionOf room = none) :
    a.displayRoom room = a := by
  rw [Line.displayRoom, h]

/-- A binding applied: one position changed, and queued (R118, R144). -/
theorem Line.bindPosition_eq (p : Nat) (room : Option Nat) (a : Line) : a.bindPosition p room = { a with
    positions := a.positions.set .reset p { a.at p with
      bound := room, unack := if room = none then none else (a.at p).unack }
    queue := if p ∈ a.queue then a.queue else a.queue ++ [p] } := by
  rw [Line.bindPosition, Line.enqueue_eq]
  cases room <;> rfl

/-- The command of a piece of a line's work that changes the line alone. -/
theorem whenTaken_updLine {w : LineWork} (h : takeLine l w s = some u) (f : Line → Line) {c : Line}
    (hc : f (u.lines.get l) = c) :
    whenTaken (takeLine l w s) (updLine l f) s = .next { u with lines := u.lines.set l c } := by
  rw [h, whenTaken_some, updLine, hc]

/-! ### The boundary work (R132, R133, R135) -/

/-- What becomes of a lit-until at a boundary (R135). -/
def litAfter (now : CTime) (t : Option CTime) : Option CTime :=
  match t with
  | some x => if horizonIndex now.day x < horizonIndex now.day now then none else some x
  | none => none

/-- Every lit-until that lies before now is dropped, and nothing else of the line moves (R135). -/
theorem Line.expireLit_spec (now : CTime) {a : Line} (h : a.Canonical) :
    (a.expireLit now).Canonical ∧ a.expireLit now = { a with positions := (a.expireLit now).positions } ∧
    (∀ p, 1 ≤ p → p ≤ 48 → (a.expireLit now).at p = { a.at p with litUntil := litAfter now (a.at p).litUntil }) ∧
    ∀ p, ((a.expireLit now).at p).bound = (a.at p).bound := by
  obtain ⟨hrest, hwf, hat⟩ := Line.modifyAll_spec (fun _ q => { q with litUntil := q.litUntil.bind (fun t =>
        if horizonIndex now.day t < horizonIndex now.day now then none else some t) }) h
  refine ⟨hwf, hrest, fun p h1 h2 => ?_, fun p => ?_⟩
  · rw [Line.expireLit, hat p, if_pos ⟨h1, h2⟩]
    cases (a.at p).litUntil <;> rfl
  · rw [Line.expireLit, hat p]
    split <;> rfl

/-- A dark line: no position is lit, and nothing else of the line moves (R133). -/
theorem Line.darken_spec {a : Line} (h : a.Canonical) :
    a.darken.Canonical ∧ a.darken = { a with positions := a.darken.positions } ∧
    ∀ p, 1 ≤ p → p ≤ 48 → a.darken.at p = { a.at p with litUntil := none } := by
  obtain ⟨hrest, hwf, hat⟩ := Line.modifyAll_spec (fun _ q => { q with litUntil := none }) h
  exact ⟨hwf, hrest, fun p h1 h2 => by rw [Line.darken, hat p, if_pos ⟨h1, h2⟩]⟩

/-- A cycle called for on a RUNNING line: start due while one is in flight, else an ordinary one starts (R124, R133). -/
theorem callCycle_running (h : (s.lines.get l).Canonical) (hr : (s.lines.get l).chain = .running) :
    ∃ c, callCycle l s = { s with lines := s.lines.set l c } ∧
      ((s.lines.get l).inFlight ≠ none → c = { s.lines.get l with startDue := true }) ∧
      ((s.lines.get l).inFlight = none → CycleStarted s .ordinary (s.lines.get l) c) := by
  unfold callCycle
  by_cases hf : (s.lines.get l).inFlight = none
  · obtain ⟨c, hc, hs⟩ := startOrdinary_cycleStarted h
    rw [if_neg (by simp [hf]), startCycle, hr]
    exact ⟨c, hc, fun hn => absurd hf hn, fun _ => hs⟩
  · rw [if_pos (Option.isSome_iff_ne_none.2 hf)]
    exact ⟨_, rfl, fun _ => rfl, fun hn => absurd hn hf⟩

/-- The edge out of the quiet window on a QUIET line. The line `a` stands before its lit-untils are dropped, `x`
after: the darkening makes them one (R133, R135). -/
theorem enterRunning_enteredRunning {y : Quad Line} {x a : Line} (hg : y.get l = x) (hx : x.Canonical)
    (hrest : x = { a with positions := x.positions }) (hbound : ∀ p, (x.at p).bound = (a.at p).bound)
    (hat : ∀ p, 1 ≤ p → p ≤ 48 → ∃ t, x.at p = { a.at p with litUntil := t }) :
    ∃ c, enterRunning l { u with lines := y } = { u with lines := y.set l c } ∧ EnteredRunning u a c := by
  obtain ⟨hdc, hdr, hda⟩ := Line.darken_spec hx
  have hd : Line.enqueueAll x.boundPositions { x.darken with chain := .running } = { a with
      chain := .running
      positions := x.darken.positions
      queue := a.queue ++ (boundNumbers a).filter (fun p => decide (p ∉ a.queue)) } := by
    rw [Line.enqueueAll_eq _ x.boundPositions_nodup, hdr, Line.boundPositions_eq hbound, hrest]
  generalize hdd : Line.enqueueAll x.boundPositions { x.darken with chain := .running } = d at hd
  have he : enterRunning l { u with lines := y } = callCycle l { u with lines := y.set l d } := by
    rw [enterRunning, updLine, hg, hdd]
  have hget : ({ u with lines := y.set l d } : State).lines.get l = d := by simp
  have hdcan : d.Canonical := by rw [hd]; exact hdc
  obtain ⟨c, hc, hbusy, hidle⟩ := callCycle_running (l := l) (s := { u with lines := y.set l d })
    (by rwa [hget]) (by rw [hget, hd])
  rw [hget] at hbusy hidle
  refine ⟨c, by rw [he, hc, Quad.set_set], d, by rw [hd], fun p h1 h2 => ?_, fun hf => hbusy (by rwa [hd]),
    fun hf => cycleStarted_lines (hidle (by rwa [hd]))⟩
  have hp : d.at p = x.darken.at p := by rw [hd]; rfl
  obtain ⟨t, ht⟩ := hat p h1 h2
  rw [hp, hda p h1 h2, ht]

/-- An edge of the quiet window: QUIET entered, RUNNING entered, or the flag alone (R132). -/
theorem takeEdge_eq (w : Bool) (y : Quad Line) : takeEdge l w { u with lines := y } =
    if w = true ∧ (y.get l).chain = .running then
      { u with lines := y.set l { y.get l with window := w, chain := .quiet } }
    else if w = false ∧ (y.get l).chain = .quiet then
      enterRunning l { u with lines := y.set l { y.get l with window := w } }
    else { u with lines := y.set l { y.get l with window := w } } := by
  simp only [takeEdge, updLine, Quad.get_set, Quad.set_set, if_true, Line.enterQuiet]

end Sys2Proof.Machine

section Statements

open Sys2Proof Sys2Proof.Machine

/-- Settles O57: each piece of work is one change of its line, and the boundary work a change and, at an edge,
one more. -/
theorem controllerWork : Obligations.ControllerWork := by
  refine ⟨fun l room s u ht => ⟨fun hf => ?_, fun p hf h1 h2 hb hleast => ?_, fun hf hnone => ?_⟩,
    fun l p room s u ht => ⟨fun hf => ?_, fun hf => ?_⟩, fun l p n x s u ht => ⟨fun hp => ?_, fun hp => ?_⟩,
    fun l b w a s u ht hs ha hw => ?_⟩
  · exact whenTaken_updLine ht _ (Line.applyOrDefer_busy hf _)
  · exact whenTaken_updLine ht _ ((Line.applyOrDefer_idle hf _).trans
      (Line.displayRoom_bound (Line.positionOf_eq_some.2 ⟨⟨h1, h2⟩, hb, hleast⟩)))
  · have hsame : (u.lines.get l).applyOrDefer (.display room) = u.lines.get l :=
      (Line.applyOrDefer_idle hf _).trans (Line.displayRoom_unbound (Line.positionOf_eq_none.2 hnone))
    have he := whenTaken_updLine ht _ hsame
    rwa [Quad.set_get] at he
  · exact whenTaken_updLine ht _ (Line.applyOrDefer_busy hf _)
  · exact whenTaken_updLine ht _ ((Line.applyOrDefer_idle hf _).trans (Line.bindPosition_eq p room _))
  · exact whenTaken_updLine ht _ (if_pos hp)
  · have he := whenTaken_updLine ht (Line.storeAnswer p n x) (if_neg hp)
    rwa [Quad.set_get] at he
  · subst ha
    have hcan : (u.lines.get l).Canonical := by
      obtain ⟨_, _, _, _, _, _, _, _, _, _, _, _, hlines⟩ := (Writes.of_takeLine ht).sound.tables hs
      exact hlines l
    obtain ⟨hxc, hxr, hxa, hxb⟩ := Line.expireLit_spec b.now (a := { u.lines.get l with now := some b.now }) hcan
    generalize hx : Line.expireLit b.now { u.lines.get l with now := some b.now } = x at hxc hxr hxa hxb
    have he : exec (.controllerBoundaryWork l b) s = .next (if w = x.window then { u with lines := u.lines.set l x }
        else takeEdge l w { u with lines := u.lines.set l x }) := by
      rw [exec, execControllerBoundaryWork, ht, whenTaken_some, doControllerBoundary, updLine, hx]
      simp [hw]
    have hxw : x.window = (u.lines.get l).window := by rw [hxr]
    have hxchain : x.chain = (u.lines.get l).chain := by rw [hxr]
    rw [he]
    by_cases hedge : w = (u.lines.get l).window
    · rw [if_pos (hedge.trans hxw.symm)]
      refine ⟨x, rfl, ?_⟩
      rw [if_neg (fun hn => by simp [hn.1, hn.2.1] at hedge)]
      refine ⟨?_, hxa⟩
      rw [if_neg (fun hn => by simp [hn.1, hn.2.1] at hedge), hxr, hedge]
    · rw [if_neg (fun hn => hedge (hn.trans hxw))]
      have hwin : (u.lines.get l).window = !w := by
        cases hv : (u.lines.get l).window <;> cases hw' : w <;> simp [hv, hw'] at hedge ⊢
      simp only [takeEdge_eq, Quad.get_set, Quad.set_set, if_true]
      split
      · rename_i hin
        refine ⟨_, rfl, ?_⟩
        rw [if_neg (by simp [hin.1])]
        exact ⟨by rw [if_pos ⟨hin.1, by simp [hwin, hin.1], hxchain ▸ hin.2⟩, hxr], hxa⟩
      · rename_i hin
        split
        · rename_i hout
          obtain ⟨c, hc, hrun⟩ := enterRunning_enteredRunning (l := l) (u := u)
            (y := u.lines.set l { x with window := w }) (x := { x with window := w })
            (a := { u.lines.get l with now := some b.now, window := false }) (by rw [Quad.get_set, if_pos rfl])
            hxc (by rw [hxr, hout.1]) hxb (fun p h1 h2 => ⟨_, hxa p h1 h2⟩)
          refine ⟨c, by rw [hc, Quad.set_set], ?_⟩
          rw [if_pos ⟨hout.1, by simp [hwin, hout.1], hxchain ▸ hout.2⟩]
          exact hrun
        · rename_i hout
          refine ⟨_, rfl, ?_⟩
          rw [if_neg (fun hn => hout ⟨hn.1, hxchain.trans hn.2.2⟩)]
          exact ⟨by rw [if_neg (fun hn => hin ⟨hn.1, hxchain.trans hn.2.2⟩), hxr], hxa⟩

end Statements
end

