-- ==== Sys2Proof/Proofs/KitchenChange.lean ====
section
/-! PROOFS. The kitchen change: the keys of the Load Table, its remarking, and the exception of newly marked
quanta (R75, R97, R98). -/

namespace Sys2Proof.Machine

/-! ### A table rewritten entry by entry -/

/-- An unlisted key reads as the unlisted value. -/
theorem Table.lookup_of_not_mem {α : Type} (d : α) : ∀ (es : List (Nat × α)) (k : Nat), k ∉ es.map Prod.fst →
    Table.lookup d es k = d
  | [], _, _ => rfl
  | e :: es, k, h => by
    simp only [List.map_cons, List.mem_cons, not_or] at h
    rw [Table.lookup_cons, if_neg (Ne.symm h.1)]
    exact Table.lookup_of_not_mem d es k h.2

section Fold

variable {α : Type} [DecidableEq α]

/-- Entries with rising keys written one after another, those `p` names changed by `g`: each key named reads its changed
entry, every other key as before. -/
theorem Table.get_foldl_set (d : α) (p : Nat → Bool) (g : α → α) : ∀ (es : List (Nat × α)) {t : Table α}, t.wf d →
    (es.map Prod.fst).Pairwise (· < ·) → ∀ k,
    (es.foldl (fun t e => if p e.1 then t.set d e.1 (g e.2) else t) t).get d k =
      if p k = true ∧ k ∈ es.map Prod.fst then g (Table.lookup d es k) else t.get d k
  | [], t, _, _, k => by simp
  | e :: es, t, h, hr, k => by
    have hhead := Table.head_lt hr
    have hnot : e.1 ∉ es.map Prod.fst := fun hm => by
      obtain ⟨e', he, heq⟩ := List.mem_map.1 hm
      have := hhead e' he
      omega
    have hwf : (if p e.1 then t.set d e.1 (g e.2) else t).wf d := by
      split
      · exact Table.set_wf h _ _
      · exact h
    rw [List.foldl_cons, Table.get_foldl_set d p g es hwf (Table.tail_rising hr), Table.lookup_cons]
    by_cases hk : e.1 = k
    · subst hk
      by_cases hp : p e.1 = true
      · simp [hnot, hp, Table.get_set h]
      · simp [hp]
    · have hk' : k ≠ e.1 := Ne.symm hk
      have hget : (if p e.1 then t.set d e.1 (g e.2) else t).get d k = t.get d k := by
        split
        · rw [Table.get_set h, if_neg hk']
        · rfl
      rw [hget, if_neg hk]
      simp only [List.map_cons, List.mem_cons, hk', false_or]

/-- A table whose own entries are rewritten in place by a change that keeps the unlisted value. -/
theorem Table.get_rewrite {t : Table α} {d : α} (h : t.wf d) (p : Nat → Bool) {g : α → α} (hg : g d = d) (k : Nat) :
    (t.entries.foldl (fun t e => if p e.1 then t.set d e.1 (g e.2) else t) t).get d k =
      if p k = true then g (t.get d k) else t.get d k := by
  rw [Table.get_foldl_set d p g _ h h.1]
  by_cases hk : k ∈ t.entries.map Prod.fst
  · simp only [hk, and_true]
    rfl
  · have hd : t.get d k = d := Table.lookup_of_not_mem d _ k hk
    simp [hk, hd, hg]

end Fold

/-! ### The keys of the Load Table (R75) -/

theorem loadKey_kitchen (c k : Nat) (h : Int) : loadKey c k h / 2304 = k := by
  rw [loadKey, Config.horizon]
  omega

/-- The key of a quantum of the horizon leads back to it. -/
theorem keyIndex_loadKey {c k : Nat} {h : Int} (h0 : 0 ≤ h) (h1 : h ≤ 2303) : (keyIndex c (loadKey c k h) :
    Int) = h := by
  rw [keyIndex, loadKey, Config.horizon]
  omega

theorem keyIndex_lt (c key : Nat) : keyIndex c key < 2304 := by
  rw [keyIndex]
  omega

/-- The planner's now lies on its own day (R1). -/
theorem plannerIdx_nonneg (s : State) : 0 ≤ plannerIdx s := by
  rw [plannerIdx]
  unfold pidx plannerDay
  cases plannerNow s with
  | none => exact le_rfl
  | some t =>
    simp only [Option.map_some, Option.getD_some, horizonIndex]
    split <;> omega

/-! ### The remarking (R97) -/

variable {s : State}

theorem fromNow_loadKey {k k' : Nat} {h : Int} (h0 : 0 ≤ h) (h1 : h ≤ 2303) :
    fromNow s k (loadKey (plannerDay s) k' h) = true ↔ k' = k ∧ plannerIdx s ≤ h := by
  rw [fromNow, decide_eq_true_iff, Config.horizon, loadKey_kitchen, keyIndex_loadKey h0 h1]

theorem fromNow_other {k k' : Nat} (hk : k' ≠ k) (c : Nat) (h : Int) : ¬ fromNow s k (loadKey c k' h) = true := by
  rw [fromNow, decide_eq_true_iff, Config.horizon, loadKey_kitchen]
  exact fun hn => hk hn.1

/-- What the Load Table reads after a kitchen change. -/
theorem get_remark (h : s.planner.load.wf noLoad) (k : Nat) (lim : Limits) (key : Nat) :
    (remark k lim s).planner.load.get noLoad key =
      if fromNow s k key = true then remarkCell lim (s.planner.load.get noLoad key) else s.planner.load.get noLoad key :=
  Table.get_rewrite h (fromNow s k) (by simp [remarkCell, noLoad]) key

/-! ### The exception (R98) -/

/-- The least of numbers below a bound is found by a fold from the bound. -/
theorem foldl_min_spec {xs : List Nat} {n : Nat} (hne : xs ≠ []) (hn : ∀ x ∈ xs, x < n) :
    xs.foldl min n ∈ xs ∧ ∀ x ∈ xs, xs.foldl min n ≤ x := by
  obtain ⟨m, hm⟩ : ∃ m, xs.min? = some m := by
    cases h : xs.min? with
    | none => exact absurd (List.min?_eq_none_iff.1 h) hne
    | some m => exact ⟨m, rfl⟩
  obtain ⟨hmem, hle⟩ := List.min?_eq_some_iff.1 hm
  have hfold : xs.foldl min n = m := by
    rw [List.foldl_min, hm, Option.getD_some]
    exact min_eq_right (hn m hmem).le
  rw [hfold]
  exact ⟨hmem, hle⟩

/-- The earliest marked quantum of a kitchen that has one (R98). -/
theorem earliestMark_spec {k key : Nat} (h : key ∈ markedKeys s k) : ∃ first : Nat,
    (∃ x ∈ markedKeys s k, keyIndex (plannerDay s) x = first) ∧
    (∀ x ∈ markedKeys s k, first ≤ keyIndex (plannerDay s) x) ∧
    earliestMark s k = shiftTime ⟨plannerDay s, 0⟩ first := by
  obtain ⟨hmem, hle⟩ := foldl_min_spec (xs := (markedKeys s k).map (keyIndex (plannerDay s))) (n := 2304)
    (fun hn => by simp [List.map_eq_nil_iff.1 hn] at h) (fun x hx => by
      obtain ⟨y, _, rfl⟩ := List.mem_map.1 hx
      exact keyIndex_lt _ _)
  exact ⟨_, List.mem_map.1 hmem, fun x hx => hle _ (List.mem_map.2 ⟨x, hx, rfl⟩), rfl⟩

/-- An exception posted writes the reports and the counters, and reads nothing else. -/
theorem postException_of_same {k : ExcKind} {now : Option CTime} {v u : State} (hr : v.reports = u.reports)
    (hc : v.counters = u.counters) : postException k now v = { v with
      reports := (postException k now u).reports
      counters := (postException k now u).counters } := by
  unfold postException
  rw [hr]
  split
  · rw [← hc]
  · unfold dropReport count
    rw [hc, hr]

/-- The exception of a kitchen change: the reports as they were when no quantum is newly marked, and else with the one
posted (R98). -/
theorem reportOvercommit_eq (k : Nat) {v u : State} (hr : v.reports = u.reports) (hc : v.counters = u.counters) :
    reportOvercommit k (markedKeys u k) v = if ∀ key ∈ markedKeys v k, key ∈ markedKeys u k then v else { v with
      reports := (postException (.overcommit k (earliestMark v k) (markedKeys v k).length) (plannerNow v) u).reports
      counters := (postException (.overcommit k (earliestMark v k) (markedKeys v k).length) (plannerNow v) u).counters
    } := by
  have hany : (markedKeys v k).any (fun key => decide (key ∉ markedKeys u k)) = true ↔
      ¬ ∀ key ∈ markedKeys v k, key ∈ markedKeys u k := by simp
  rw [reportOvercommit]
  split
  · rw [if_neg (hany.1 ‹_›), postException_of_same hr hc]
  · rw [if_pos (by_contra fun hn => absurd (hany.2 hn) ‹_›)]

end Sys2Proof.Machine

section Statements

open Sys2Proof Sys2Proof.Machine

/-- Settles O27: the remarking read key by key, and the exception by whether a key is newly marked. -/
theorem kitchenChangeMarks : Obligations.KitchenChangeMarks := by
  intro k capacity carts s u ht hslot hs
  obtain ⟨sl, hsl⟩ := Option.isSome_iff_exists.1 hslot
  obtain ⟨_, _, _, _, _, _, _, _, hload, hlimits, _⟩ := (Writes.of_takePlanner ht).sound.tables hs
  obtain ⟨v, hv⟩ : ∃ v, v = remark k ⟨capacity, carts⟩ { u with planner := { u.planner with
      limits := u.planner.limits.set ⟨0, 0⟩ k ⟨capacity, carts⟩ } } := ⟨_, rfl⟩
  have hget : ∀ key, v.planner.load.get noLoad key = if fromNow u k key = true then
      remarkCell ⟨capacity, carts⟩ (u.planner.load.get noLoad key) else u.planner.load.get noLoad key := fun key => by
    subst hv
    exact get_remark (s := { u with planner := { u.planner with
      limits := u.planner.limits.set ⟨0, 0⟩ k ⟨capacity, carts⟩ } }) hload k _ key
  obtain ⟨w, hw⟩ : ∃ w, w = reportOvercommit k (markedKeys u k) v := ⟨_, rfl⟩
  have he : exec (.kitchenChange k capacity carts) s = .next (finish .ok [] w) := by
    rw [exec, execKitchenChange, ht, whenTaken_some, hw, hv]
    rfl
  have hreports : v.reports = u.reports := by rw [hv]; rfl
  have hcounters : v.counters = u.counters := by rw [hv]; rfl
  rw [reportOvercommit_eq k hreports hcounters] at hw
  have hwv : w = { v with reports := w.reports, counters := w.counters } := by
    rw [hw]
    split <;> rfl
  have hmarked : markedKeys w k = markedKeys v k := by rw [hwv]; rfl
  have hcell : ∀ k' h, cellAt (finish .ok [] w) k' h = if fromNow u k (loadKey (plannerDay u) k' h) = true then
      remarkCell ⟨capacity, carts⟩ (cellAt u k' h) else cellAt u k' h := fun k' h => by
    have : cellAt (finish .ok [] w) k' h = v.planner.load.get noLoad (loadKey (plannerDay u) k' h) := by
      rw [finish_eq, hwv, hv]
      rfl
    rw [this, hget]
    rfl
  have hfrom : ∀ k' h, plannerIdx u ≤ h → h ≤ 2303 →
      (fromNow u k (loadKey (plannerDay u) k' h) = true ↔ k' = k) := fun k' h h0 h1 =>
    (fromNow_loadKey ((plannerIdx_nonneg u).trans h0) h1).trans (and_iff_left h0)
  refine ⟨finish .ok [] w, he, answered_finish hsl (by rw [hwv, hv]; rfl) .., ?_, fun k' => ?_, fun k' h h0 h1 => ?_,
    fun h h0 hlt h1 => ?_, fun k' h hk => ?_, fun hsub => ?_, fun ⟨key, hkey, hnew⟩ => ?_⟩
  · rw [finish_eq, hwv, hv]
    rfl
  · have : limitsAt (finish .ok [] w) k' = (u.planner.limits.set ⟨0, 0⟩ k ⟨capacity, carts⟩).get ⟨0, 0⟩ k' := by
      rw [finish_eq, hwv, hv]
      rfl
    rw [this, Table.get_set hlimits]
    rfl
  · rw [hcell]
    by_cases hk : k' = k
    · rw [if_pos ((hfrom k' h h0 h1).2 hk), if_pos hk, hk]
      rfl
    · rw [if_neg (fun hn => hk ((hfrom k' h h0 h1).1 hn)), if_neg hk]
  · rw [hcell, if_neg (fun hn => absurd ((fromNow_loadKey h0 h1).1 hn).2 (by omega))]
  · rw [hcell, if_neg (fromNow_other hk _ _)]
  · have hmt : markedKeys (finish .ok [] w) k = markedKeys v k := by rw [finish_eq]; exact hmarked
    rw [hmt] at hsub
    rw [if_pos hsub] at hw
    rw [finish_eq, hw]
    exact ⟨hreports, hcounters⟩
  · have hmt : markedKeys (finish .ok [] w) k = markedKeys v k := by rw [finish_eq]; exact hmarked
    rw [hmt] at hkey ⊢
    rw [if_neg (fun hn => hnew (hn key hkey))] at hw
    have hday : plannerDay v = plannerDay u := by rw [hv]; rfl
    have hnow : plannerNow v = plannerNow u := by rw [hv]; rfl
    obtain ⟨first, hex, hle, hearly⟩ := earliestMark_spec hkey
    rw [hday] at hex hle hearly
    rw [hnow, hearly] at hw
    refine ⟨first, _, hex, hle, rfl, ?_⟩
    rw [finish_eq, hw]
    exact ⟨rfl, rfl⟩

end Statements
end

