-- ==== Sys2Proof/Proofs/RoomLoads.lean ====
section
/-! PROOFS. LoadRoom: the checks of the store, the checks of the engine, the entry replaced and the panels told
(R12, R13, R50, R56, R57, R144). -/

namespace Sys2Proof.Machine

/-! ### The checks of the Campus Model Store (R12, checks 1 and 2) -/

/-- The fields of a room in use that check 2 accepts. -/
def SpecInRange (e : RoomSpec) : Prop :=
  e.building ≤ 23 ∧ 1 ≤ e.seats ∧ e.seats ≤ 500 ∧ e.turnaround ≤ 6 ∧ e.primary ≤ 7 ∧ e.service ≤ 1 ∧
    (∀ k, e.alternate = some k → k ≤ 7 ∧ k ≠ e.primary) ∧
    ∀ b, e.binding = some b → b.1 ≤ 3 ∧ 1 ≤ b.2 ∧ b.2 ≤ 48

theorem specEntry_eq_none {e : RoomSpec} : specEntry e = none ↔ e.building ≠ 31 ∧ ¬ SpecInRange e := by
  have hcond : (e.building ≤ 23 ∧ 1 ≤ e.seats ∧ e.seats ≤ 500 ∧ e.turnaround ≤ 6 ∧ e.primary ≤ 7 ∧ e.service ≤ 1 ∧
      e.alternate.all (fun k => decide (k ≤ 7 ∧ k ≠ e.primary)) = true ∧
      e.binding.all (fun b => decide (b.1 ≤ 3 ∧ 1 ≤ b.2 ∧ b.2 ≤ 48)) = true) ↔ SpecInRange e := by
    simp only [SpecInRange, Option.all_eq_true, decide_eq_true_iff]
  rw [specEntry]
  by_cases hb : e.building = 31
  · simp [hb]
  · rw [if_neg hb]
    by_cases hr : SpecInRange e
    · rw [if_pos (hcond.2 hr)]
      simp [hr]
    · rw [if_neg (fun h => hr (hcond.1 h))]
      simp [hb, hr]

/-! ### The checks of the Reservation Engine (R12, checks 3 to 5) -/

/-- A key that reads other than the unlisted value is listed. -/
theorem Table.mem_of_get {α : Type} {t : Table α} {d : α} (h : (t.entries.map Prod.fst).Pairwise (· < ·)) {k : Nat}
    (hk : t.get d k ≠ d) : (k, t.get d k) ∈ t.entries := by
  have hm : k ∈ t.entries.map Prod.fst := by_contra fun hn => hk (Table.lookup_of_not_mem d _ k hn)
  obtain ⟨e, he, rfl⟩ := List.mem_map.1 hm
  rwa [Table.get, Table.lookup_of_mem d _ e h he]

variable {s u : State}

/-- A bound room is listed in the Room Table. -/
theorem mem_rooms_of_binding (h : s.rooms.wf none) {r : Nat} {b : Binding} (hb : bindingOf s r = some b) :
    (r, roomAt s r) ∈ s.rooms.entries :=
  Table.mem_of_get h.1 fun hn => by
    rw [bindingOf, roomAt, hn] at hb
    cases hb

/-- A listed room reads its entry. -/
theorem bindingOf_of_mem (h : s.rooms.wf none) {e : Nat × Option RoomEntry} (he : e ∈ s.rooms.entries) :
    bindingOf s e.1 = e.2.bind RoomEntry.binding := by
  rw [bindingOf, roomAt, Table.get, Table.lookup_of_mem none _ e h.1 he]

/-- The holder of a binding, when another room has it: the lowest such room. -/
theorem bindingHolder_eq_some (h : s.rooms.wf none) {room r : Nat} {b : Binding} (hr : r ≠ room)
    (hb : bindingOf s r = some b) (hleast : ∀ r', r' ≠ room → bindingOf s r' = some b → r ≤ r') :
    bindingHolder s room b = some r := by
  have hmem := mem_rooms_of_binding h hb
  unfold bindingHolder
  cases hf : s.rooms.entries.find? (fun e =>
      decide (e.1 ≠ room) && decide ((e.2.bind RoomEntry.binding) = some b)) with
  | none =>
    have := List.find?_eq_none.1 hf _ hmem
    simp [hr, show (roomAt s r).bind RoomEntry.binding = some b from hb] at this
  | some e =>
    obtain ⟨hp, before, after, happ, hbefore⟩ := List.find?_eq_some_iff_append.1 hf
    obtain ⟨he1, he2⟩ : e.1 ≠ room ∧ e.2.bind RoomEntry.binding = some b := by simpa using hp
    have hein : e ∈ s.rooms.entries := by rw [happ]; simp
    have hle := hleast e.1 he1 (by rw [bindingOf_of_mem h hein, he2])
    rw [Option.map_some]
    have hsorted := h.1
    rw [happ] at hmem hsorted
    rcases List.mem_append.1 hmem with hm | hm
    · have := hbefore _ hm
      simp [hr, show (roomAt s r).bind RoomEntry.binding = some b from hb] at this
    · rcases List.mem_cons.1 hm with rfl | hm
      · rfl
      · rw [List.map_append, List.map_cons] at hsorted
        have hlt := (List.pairwise_cons.1 (List.pairwise_append.1 hsorted).2.1).1 r (List.mem_map.2 ⟨_, hm, rfl⟩)
        omega

/-- No other room holds a binding. -/
theorem bindingHolder_eq_none (h : s.rooms.wf none) {room : Nat} {b : Binding}
    (hb : ∀ r, r ≠ room → bindingOf s r ≠ some b) : bindingHolder s room b = none := by
  have hf : s.rooms.entries.find? (fun e =>
      decide (e.1 ≠ room) && decide ((e.2.bind RoomEntry.binding) = some b)) = none := by
    refine List.find?_eq_none.2 fun e he hp => ?_
    obtain ⟨he1, he2⟩ : e.1 ≠ room ∧ e.2.bind RoomEntry.binding = some b := by simpa using hp
    exact hb e.1 he1 (by rw [bindingOf_of_mem h he, he2])
  rw [bindingHolder, hf]
  rfl

/-- Every reservation but the first leaves the turnaround free behind the one before it. -/
def Spaced (s : State) (turn : Nat) (l : List Span) : Prop :=
  ∀ i x y, l[i]? = some x → l[i + 1]? = some y → idx s x.fin + turn ≤ idx s y.start

theorem Spaced.tail {turn : Nat} {x : Span} {l : List Span} (h : Spaced s turn (x :: l)) : Spaced s turn l :=
  fun i x y hx hy => h (i + 1) x y hx hy

/-- A first pair that leaves the turnaround free is passed over. -/
theorem firstCrowded_cons {turn : Nat} {x : Span} {l : List Span}
    (h : ∀ y, l.head? = some y → idx s x.fin + turn ≤ idx s y.start) :
    firstCrowded s turn (x :: l) = firstCrowded s turn l := by
  cases l with
  | nil => rfl
  | cons y l => exact if_neg (by have := h y rfl; omega)

/-- Reservations spaced by the turnaround are not crowded. -/
theorem firstCrowded_spaced {turn : Nat} : ∀ {l : List Span}, Spaced s turn l → firstCrowded s turn l = none
  | [], _ => rfl
  | x :: l, h => by
    rw [firstCrowded_cons fun y hy => h 0 x y rfl (by rwa [List.head?_eq_getElem?] at hy)]
    exact firstCrowded_spaced h.tail

/-- The first crowded pair is found behind reservations that are spaced. -/
theorem firstCrowded_append {turn : Nat} {a b : Span} {after : List Span} (hab : idx s b.start < idx s a.fin + turn) :
    ∀ {before : List Span}, Spaced s turn (before ++ [a]) →
    firstCrowded s turn (before ++ a :: b :: after) = some b.start
  | [], _ => if_pos hab
  | x :: before, h => by
    rw [List.cons_append, firstCrowded_cons fun y hy => h 0 x y rfl ?_]
    · exact firstCrowded_append hab h.tail
    · cases before <;> exact hy

/-- The checks of the engine, in order. -/
def roomChecks (s : State) (room : Nat) (e : Option RoomEntry) : Option LoadRefusal :=
  (checkRoomBusy s room e).or ((checkBinding s room e).or (checkTurnaround s room e))

theorem checkRoomBusy_busy {room : Nat} {e : Option RoomEntry} (he : e = none) (hr : reservations s room none ≠ []) :
    checkRoomBusy s room e = some ⟨.roomBusy, []⟩ := if_pos ⟨by rw [he]; rfl, hr⟩

theorem checkRoomBusy_free {room : Nat} {e : Option RoomEntry} (h : e = none → reservations s room none = []) :
    checkRoomBusy s room e = none := if_neg fun hn => hn.2 (h (Option.isNone_iff_eq_none.1 hn.1))

theorem checkBinding_held {room r : Nat} {n : RoomEntry} {b : Binding} (hb : n.binding = some b)
    (h : bindingHolder s room b = some r) : checkBinding s room (some n) = some ⟨.conflict, [.u16 r]⟩ := by
  rw [checkBinding, Option.bind_some, hb, Option.bind_some, h]
  rfl

theorem checkBinding_free {room : Nat} {e : Option RoomEntry} (hw : s.rooms.wf none)
    (h : ∀ n b r, e = some n → n.binding = some b → r ≠ room → bindingOf s r ≠ some b) :
    checkBinding s room e = none := by
  rw [checkBinding]
  cases e with
  | none => rfl
  | some n =>
    cases hb : n.binding with
    | none => simp [hb]
    | some b => simp [hb, bindingHolder_eq_none hw fun r => h n b r rfl hb]

theorem checkTurnaround_raised {room : Nat} {n : RoomEntry} (h : turnaround s room < n.turnaround) :
    checkTurnaround s room (some n) =
      (firstCrowded s n.turnaround (reservations s room none)).map (fun c => ⟨.conflict, [.time c]⟩) := if_pos h

theorem checkTurnaround_free {room : Nat} {e : Option RoomEntry}
    (h : ∀ n, e = some n → turnaround s room < n.turnaround → Spaced s n.turnaround (reservations s room none)) :
    checkTurnaround s room e = none := by
  cases e with
  | none => rfl
  | some n =>
    by_cases ht : turnaround s room < n.turnaround
    · rw [checkTurnaround_raised ht, firstCrowded_spaced (h n rfl ht)]
      rfl
    · exact if_neg ht

/-- The engine's answer to a LoadRoom, the first failing check refusing it (R12). -/
theorem doLoadRoomEngineCheck_eq {spec : RoomSpec} {e : Option RoomEntry} (hs : specEntry spec = some e) (room : Nat) :
    (∀ t, roomChecks s room e = some t → doLoadRoomEngineCheck room spec s = finish t.code t.body s) ∧
    (roomChecks s room e = none → doLoadRoomEngineCheck room spec s =
      finish .ok [] (displayLoad room (roomAt s room) e (dropLastEnd room e (setRoom room e s)))) := by
  unfold doLoadRoomEngineCheck
  rw [hs]
  constructor
  · intro t ht
    rw [roomChecks] at ht
    simp only [ht]
  · intro ht
    rw [roomChecks] at ht
    simp only [ht]

/-- A room made unused loses its last end; no other last end moves (R56). -/
theorem dropLastEnd_lastEnd (h : s.engine.lastEnd.wf none) (room : Nat) (e : Option RoomEntry) (r : Nat) :
    (dropLastEnd room e s).engine.lastEnd.get none r =
      if e = none ∧ r = room then none else s.engine.lastEnd.get none r := by
  unfold dropLastEnd
  cases e with
  | none => simp [setLastEnd, Table.get_set h]
  | some n => simp

/-! ### What the panels are told (R13, R57, R144) -/

/-- The work that a binding, if there is one, brings to the intake of a line. -/
def sentTo (b : Option Binding) (w : Binding → LineWork) (l : Fin 4) : List LineWork :=
  match b with
  | some b => if b.line = l then [w b] else []
  | none => []

theorem sendLine_intake (m : Fin 4) (w : LineWork) (s : State) (l : Fin 4) :
    ((sendLine m w s).lines.get l).intake = (s.lines.get l).intake ++ if m = l then [w] else [] := by
  rw [sendLine_lines, Quad.get_set]
  by_cases h : m = l
  · subst h
    simp [Line.arrive]
  · simp [h, Ne.symm h]

theorem requestDisplay_intake (r : Nat) (s : State) (l : Fin 4) : ((requestDisplay r s).lines.get l).intake =
    (s.lines.get l).intake ++ sentTo (bindingOf s r) (fun _ => .display r) l := by
  unfold requestDisplay
  cases bindingOf s r with
  | none => exact (List.append_nil _).symm
  | some b => exact sendLine_intake b.line _ s l

theorem rebind_eq (room : Nat) (old new : Option Binding) (s : State) :
    rebind room old new s = { s with lines := (rebind room old new s).lines } := by
  cases old <;> cases new <;> rfl

theorem rebind_intake (room : Nat) (old new : Option Binding) (s : State) (l : Fin 4) :
    ((rebind room old new s).lines.get l).intake = (s.lines.get l).intake ++
      sentTo old (fun b => .binding b.pos none) l ++ sentTo new (fun b => .binding b.pos (some room)) l := by
  cases old <;> cases new <;> simp only [rebind, sentTo, sendLine_intake, List.append_nil]

theorem evalDisplay_intake (r : Nat) (s : State) (l : Fin 4) : ((evalDisplay r s).lines.get l).intake =
    (s.lines.get l).intake ++ if s.engine.kept.get none r = some (factsOf s r) then []
      else sentTo (bindingOf s r) (fun _ => .display r) l := by
  unfold evalDisplay
  split
  · exact (List.append_nil _).symm
  · exact requestDisplay_intake r _ l

/-- The kept facts after the engine keeps those of one room. -/
theorem keepFacts_kept (h : s.engine.kept.wf none) (r r' : Nat) : (keepFacts r s).engine.kept.get none r' =
    if r' = r then some (factsOf s r) else s.engine.kept.get none r' := Table.get_set h _ _ _

/-- An accepted LoadRoom tells the panels by the kept facts and the lines alone. -/
theorem displayLoad_eq (room : Nat) (old new : Option RoomEntry) (s : State) : displayLoad room old new s = { s with
    engine := { s.engine with kept := (displayLoad room old new s).engine.kept }
    lines := (displayLoad room old new s).lines } := by
  unfold displayLoad
  dsimp only
  split
  · rw [rebind_eq]; rfl
  · split
    · rw [requestDisplay_eq]; rfl
    · split
      · exact evalDisplay_eq room s
      · rfl

/-- It keeps the facts of its own room alone. -/
theorem displayLoad_kept_other (h : s.engine.kept.wf none) {room r : Nat} (hr : r ≠ room) (old new : Option RoomEntry) :
    (displayLoad room old new s).engine.kept.get none r = s.engine.kept.get none r := by
  unfold displayLoad
  dsimp only
  split
  · rw [rebind_eq, keepFacts_kept (s := { s with lines := (rebind room _ _ s).lines }) h, if_neg hr]
  · split
    · rw [requestDisplay_eq, keepFacts_kept (s := { s with lines := (requestDisplay room s).lines }) h, if_neg hr]
    · split
      · unfold evalDisplay
        split
        · rfl
        · rw [requestDisplay_eq]
          exact (keepFacts_kept h room r).trans (if_neg hr)
      · rfl

/-- What the panels are told, by what the load changed. -/
theorem displayLoad_tells (h : s.engine.kept.wf none) (room : Nat) {old new : Option RoomEntry}
    (hnew : new = roomAt s room) (t : State) (ht : t = displayLoad room old new s) :
    if old.bind RoomEntry.binding ≠ new.bind RoomEntry.binding then
      Shows room t ∧ ∀ l : Fin 4, (t.lines.get l).intake = (s.lines.get l).intake ++
        sentTo (old.bind RoomEntry.binding) (fun b => .binding b.pos none) l ++
        sentTo (new.bind RoomEntry.binding) (fun b => .binding b.pos (some room)) l
    else if old.map RoomEntry.inService ≠ new.map RoomEntry.inService ∨
        old.map RoomEntry.label ≠ new.map RoomEntry.label then
      Shows room t ∧ ∀ l : Fin 4, (t.lines.get l).intake = (s.lines.get l).intake ++
        sentTo (old.bind RoomEntry.binding) (fun _ => .display room) l
    else if old.map RoomEntry.turnaround ≠ new.map RoomEntry.turnaround then
      Shows room t ∧ ∀ l : Fin 4, (t.lines.get l).intake = (s.lines.get l).intake ++
        (if s.engine.kept.get none room = some (factsOf t room) then []
          else sentTo (old.bind RoomEntry.binding) (fun _ => .display room) l)
    else t.lines = s.lines ∧ t.engine.kept = s.engine.kept := by
  have hfacts : factsOf t room = factsOf s room := by rw [ht, displayLoad_eq]; exact factsOf_congr s _ _ s.link room
  unfold Shows
  rw [hfacts]
  rw [displayLoad] at ht
  split
  · rename_i hb
    rw [if_pos hb, rebind_eq] at ht
    rw [ht]
    exact ⟨(keepFacts_kept (s := { s with lines := (rebind room _ _ s).lines }) h room room).trans (if_pos rfl),
      rebind_intake room _ _ s⟩
  · rename_i hb
    have hb' : bindingOf s room = old.bind RoomEntry.binding := by
      rw [not_not.1 hb, hnew]
      rfl
    rw [if_neg hb] at ht
    split
    · rename_i hd
      rw [if_pos hd, requestDisplay_eq] at ht
      rw [ht, ← hb']
      exact ⟨(keepFacts_kept (s := { s with lines := (requestDisplay room s).lines }) h room room).trans (if_pos rfl),
        requestDisplay_intake room s⟩
    · rename_i hd
      rw [if_neg hd] at ht
      split
      · rename_i hturn
        rw [if_pos hturn] at ht
        rw [ht, ← hb']
        exact ⟨evalDisplay_kept h room, evalDisplay_intake room s⟩
      · rename_i hturn
        rw [if_neg hturn] at ht
        rw [ht]
        exact ⟨rfl, rfl⟩

end Sys2Proof.Machine

section Statements

open Sys2Proof Sys2Proof.Machine

/-- Settles O26: the checks one by one, and after them the entry replaced and the panels told by what the load
changed. -/
theorem roomLoads : Obligations.RoomLoads := by
  refine ⟨fun room e s u ht => ?_, fun room spec e s u ht hslot hs hspec => ?_⟩
  · have he : exec (.loadRoom room e) s = .next (doLoadRoom room e u) := ht.hostStep _
    split
    · rename_i hbad
      rw [doLoadRoom, if_pos (hbad.imp_right specEntry_eq_none.2)] at he
      exact repliesOnly_of_finish ht.slot he
    · rename_i hok
      rw [doLoadRoom, if_neg (fun hn => hok (hn.imp_right specEntry_eq_none.1))] at he
      exact he
  · have hu : ∃ sl, u.link.slot = some sl := Option.isSome_iff_exists.1 hslot
    obtain ⟨hrooms, _, _, _, _, _, hends, hkept, _⟩ := (Writes.of_takeEngine ht).sound.tables hs
    have he : exec (.loadRoomEngineCheck room spec) s = .next (doLoadRoomEngineCheck room spec u) := by
      rw [exec, execLoadRoomEngineCheck, ht, whenTaken_some]
    obtain ⟨hrefused, haccepted⟩ := doLoadRoomEngineCheck_eq (s := u) hspec room
    have hrefuse : ∀ t, roomChecks u room e = some t →
        RepliesOnly (.loadRoomEngineCheck room spec) s u t.code t.body := fun t htc =>
      repliesOnly_of_finish hu (he.trans (congrArg _ (hrefused t htc)))
    refine ⟨fun hnone hres => ?_, fun n b r hen hb hr hbr hleast => ?_,
      fun n before a b after hen hfree hturn hres hab hspaced => ?_, fun hbusy hfree hspaced => ?_⟩
    · exact hrefuse ⟨.roomBusy, []⟩ (by rw [roomChecks, checkRoomBusy_busy hnone hres, Option.some_or])
    · subst hen
      exact hrefuse ⟨.conflict, [.u16 r]⟩ (by
        rw [roomChecks, checkRoomBusy_free (e := some n) nofun, Option.none_or,
          checkBinding_held hb (bindingHolder_eq_some hrooms hr hbr hleast), Option.some_or])
    · subst hen
      exact hrefuse ⟨.conflict, [.time b.start]⟩ (by
        rw [roomChecks, checkRoomBusy_free (e := some n) nofun, Option.none_or,
          checkBinding_free hrooms (fun n' x r hn hx hr => by cases hn; exact hfree x r hx hr), Option.none_or,
          checkTurnaround_raised hturn, hres, firstCrowded_append hab hspaced]
        rfl)
    · have hchecks : roomChecks u room e = none := by
        rw [roomChecks, checkRoomBusy_free hbusy, checkBinding_free hrooms hfree, checkTurnaround_free hspaced]
        rfl
      rw [haccepted hchecks] at he
      obtain ⟨sl, hsl⟩ := hu
      obtain ⟨v, hv⟩ : ∃ v, v = dropLastEnd room e (setRoom room e u) := ⟨_, rfl⟩
      have hve : v = { u with
          rooms := u.rooms.set none room e
          engine := { u.engine with lastEnd := v.engine.lastEnd } } := by
        rw [hv, dropLastEnd]
        split <;> rfl
      have hroom : ∀ r, roomAt v r = if r = room then e else roomAt u r := fun r => by
        rw [hve]
        exact Table.get_set hrooms room r e
      obtain ⟨w, hw⟩ : ∃ w, w = displayLoad room (roomAt u room) e v := ⟨_, rfl⟩
      have hwe : w = { v with
          engine := { v.engine with kept := w.engine.kept }
          lines := w.lines } := by
        rw [hw]
        exact displayLoad_eq room _ _ v
      obtain ⟨t, hte⟩ : ∃ t, t = finish .ok [] w := ⟨_, rfl⟩
      have htw : t = { w with link := t.link } := by rw [hte]; exact finish_eq ..
      have hkv : v.engine.kept.wf none := by rw [hve]; exact hkept
      have htells := displayLoad_tells hkv room (by rw [hroom, if_pos rfl]) w hw
      have hends' : t.engine.lastEnd = v.engine.lastEnd := by rw [htw, hwe]
      have hkept' : t.engine.kept = w.engine.kept := by rw [htw]
      have hlines' : t.lines = w.lines := by rw [htw]
      have hfacts : factsOf t room = factsOf w room := by rw [htw]; rfl
      refine ⟨t, ?_, ?_, fun r => ?_, ?_, ?_, fun hn => ?_, fun hn => ?_, fun r hr => ?_, fun r hr => ?_,
        fun old asked hold hasked => ?_⟩
      · rw [he, hte, hw, hv]
      · rw [hte]
        exact answered_finish hsl (by rw [hwe, hve]) ..
      · have : roomAt t r = roomAt v r := by rw [htw, hwe]; rfl
        rw [this, hroom]
      · rw [htw, hwe, hve]
      · intro l
        have := (((displayLoad_writes (Writes.refl .engine v) room (roomAt u room) e).finish .ok []).lines l nofun)
        rwa [← hw, ← hte, hve] at this
      · rw [hends', hv]
        exact (dropLastEnd_lastEnd (s := setRoom room e u) hends room e room).trans (if_pos ⟨hn, rfl⟩)
      · rw [hends', hv, dropLastEnd, if_neg (by simpa using hn)]
        rfl
      · rw [hends', hv]
        exact (dropLastEnd_lastEnd (s := setRoom room e u) hends room e r).trans (if_neg fun hn => hr hn.2)
      · rw [hkept', hw, displayLoad_kept_other hkv hr, hve]
      · subst hold
        have hvl : v.lines = u.lines := by rw [hve]
        have hvk : v.engine.kept = u.engine.kept := by rw [hve]
        have hask : ∀ l, asked l = sentTo (bindingOf u room) (fun _ => .display room) l := fun l => by
          rw [hasked l]
          cases bindingOf u room <;> rfl
        unfold Shows at htells ⊢
        rw [show (roomAt u room).bind RoomEntry.binding = bindingOf u room from rfl, hvl, hvk] at htells
        rw [hfacts, hlines', hkept']
        simp only [hask]
        exact htells

end Statements
end

