-- ==== Sys2Proof/Proofs/Freeing.lean ====
section
/-! PROOFS. Freeing a booking: what it makes of the whole state, one equation (R23, R26, R31, R35, R36, R56). -/

namespace Sys2Proof.Machine

/-- The event of an outcome posted, when the outcome has one. -/
def postOutcome (e : Option EventRecord) (s : State) : State :=
  match e with
  | some r => postEvent r s
  | none => s

/-- The work an outcome hands to the planner: the booking's order, when it has one (R23 step 2). -/
def handoffsOf (h : Handle) (b : Booking) (out : Terminal) : List PlannerWork :=
  match b.order with
  | some o => [.handoff o h out.kind]
  | none => []

/-- The Booking Store after record `i`, holding `b`, is freed (R23). -/
def freedStore (i : Nat) (b : Booking) (s : State) : Store where
  records := s.store.records.set ⟨0, none⟩ i ⟨((recordAt s i).gen + 1) % 64, none⟩
  free := s.store.free ++ [i]
  lists := s.store.lists.set [] b.room ((roomList s b.room).filter (· ≠ i))
  holds := if b.state = .tentative then s.store.holds.filter (· ≠ handleOf s i) else s.store.holds
  episode := false

/-- An event posted writes the reports and the counters, and reads the policy besides. -/
theorem postEvent_of_same {r : EventRecord} {v u : State} (hp : v.policy = u.policy) (hr : v.reports = u.reports)
    (hc : v.counters = u.counters) : postEvent r v = { v with
      reports := (postEvent r u).reports
      counters := (postEvent r u).counters } := by
  cases v
  cases u
  dsimp only at hp hr hc
  subst hp hr hc
  unfold postEvent
  split
  · split <;> rfl
  · rfl

theorem postOutcome_of_same {e : Option EventRecord} {v u : State} (hp : v.policy = u.policy)
    (hr : v.reports = u.reports) (hc : v.counters = u.counters) : postOutcome e v = { v with
      reports := (postOutcome e u).reports
      counters := (postOutcome e u).counters } := by
  cases e with
  | none =>
    simp only [postOutcome, ← hr, ← hc]
  | some r => exact postEvent_of_same hp hr hc

/-- The state after a booking is freed, but for its event: steps 1 to 6 of R23 and the last end of R56. -/
def freedQuietly (i : Nat) (b : Booking) (out : Terminal) (s : State) : State :=
  { s with
    store := freedStore i b s
    superv := { s.superv with
      provisional := if b.provisional = true then s.superv.provisional - 1 else s.superv.provisional }
    planner := { s.planner with intake := s.planner.intake ++ handoffsOf (handleOf s i) b out }
    engine := { s.engine with
      lastEnd := if out = .ended then s.engine.lastEnd.set none b.room (some b.fin) else s.engine.lastEnd } }

theorem handOver_eq (h : Handle) (b : Booking) (out : Terminal) (s : State) : handOver h b out s =
    { s with planner := { s.planner with intake := s.planner.intake ++ handoffsOf h b out } } := by
  unfold handOver handoffsOf
  cases b.order with
  | none => simp only [List.append_nil]
  | some o => rfl

/-- A TENTATIVE booking alone leaves the Hold List. -/
theorem leaveHolds_if {p : Prop} [Decidable p] (h : Handle) (s : State) : (if p then leaveHolds h s else s) =
    { s with store := { s.store with
      holds := if p then s.store.holds.filter (· ≠ h) else s.store.holds } } := by
  split <;> rfl

/-- The provisional count moves when the flag is set. -/
theorem provisional_if {p : Prop} [Decidable p] (f : Nat → Nat) (s : State) :
    (if p then provisional f s else s) =
    { s with superv := { s.superv with
      provisional := if p then f s.superv.provisional else s.superv.provisional } } := by
  split <;> rfl

/-- The last end moves for ENDED alone (R56). -/
theorem setLastEnd_if {p : Prop} [Decidable p] (r : Nat) (x : Option CTime) (s : State) :
    (if p then setLastEnd r x s else s) =
    { s with engine := { s.engine with
      lastEnd := if p then s.engine.lastEnd.set none r x else s.engine.lastEnd } } := by
  split <;> rfl

/-- Freeing is the quiet part of its steps, and the event behind them. -/
theorem freeBooking_eq_postOutcome (i : Nat) (b : Booking) (out : Terminal) (s : State) : freeBooking i b out s =
    postOutcome (outcomeEvent (handleOf s i) b out (engineStamp s)) (freedQuietly i b out s) := by
  unfold freeBooking
  dsimp only
  rw [setLastEnd_if, provisional_if, leaveHolds_if, handOver_eq]
  rfl

/-- A booking freed: the store, the lists, the counts and the hand-off at once, then the event (R23). -/
theorem freeBooking_eq (i : Nat) (b : Booking) (out : Terminal) (s : State) : freeBooking i b out s =
    { freedQuietly i b out s with
      reports := (postOutcome (outcomeEvent (handleOf s i) b out (engineStamp s)) s).reports
      counters := (postOutcome (outcomeEvent (handleOf s i) b out (engineStamp s)) s).counters } := by
  rw [freeBooking_eq_postOutcome]
  exact postOutcome_of_same (v := freedQuietly i b out s) rfl rfl rfl

/-- The records after a booking is freed: its own free at the next generation, every other as it was (R23). -/
theorem recordAt_freeBooking {s : State} (h : s.store.records.wf ⟨0, none⟩) (i j : Nat) (b : Booking)
    (out : Terminal) : recordAt (freeBooking i b out s) j =
      if j = i then ⟨((recordAt s i).gen + 1) % 64, none⟩ else recordAt s j := by
  rw [freeBooking_eq]
  exact Table.get_set h i j _

/-- The room lists after a booking is freed: it stands in its room's no more (R23). -/
theorem roomList_freeBooking {s : State} (h : s.store.lists.wf []) (i r : Nat) (b : Booking) (out : Terminal) :
    roomList (freeBooking i b out s) r =
      if r = b.room then (roomList s r).filter (· ≠ i) else roomList s r := by
  rw [freeBooking_eq]
  refine (Table.get_set h b.room r _).trans ?_
  split
  · rename_i e
    rw [e]
  · rfl

/-- Freeing a booking leaves what lies apart from the engine's and the planner's own state (R60). -/
theorem freeBooking_apart (i : Nat) (b : Booking) (out : Terminal) (s : State) : Apart s (freeBooking i b out s) :=
  ((Writes.refl .engine s).freeBooking i b out).apart

end Sys2Proof.Machine

section Statements

open Sys2Proof Sys2Proof.Machine

/-- Settles O32: each field of the state is read off the equation of a freed booking. -/
theorem freeingABooking : Obligations.FreeingABooking := by
  intro s t i g b out hs hr ht
  obtain ⟨_, _, _, _, hrec, hlists, hends, _⟩ := hs
  have hgen : (recordAt s i).gen = g := by rw [hr]
  have hhandle : handleOf s i = ⟨i, g⟩ := by rw [handleOf, hgen]
  refine ⟨?_, fun j hj => ?_, ?_, ?_, fun r => ?_, ?_, ?_, ?_, fun r => ?_, fun e he => ?_, fun hc => ?_, ?_, ?_, ?_, ?_⟩
  · rw [ht, recordAt_freeBooking hrec, if_pos rfl, hgen]
  · rw [ht, recordAt_freeBooking hrec, if_neg hj]
  · rw [ht, freeBooking_eq]
    rfl
  · rw [ht, freeBooking_eq]
    rfl
  · rw [ht, roomList_freeBooking hlists]
  · rw [ht, freeBooking_eq, ← hhandle]
    rfl
  · rw [ht, freeBooking_eq]
    rfl
  · rw [ht, freeBooking_eq, ← hhandle]
    cases out <;> rfl
  · rw [ht, freeBooking_eq]
    change Table.get (if out = .ended then _ else _) none r = _
    by_cases ho : out = .ended
    · simp [ho, Table.get_set hends]
    · simp [ho]
  · have hev : outcomeEvent (handleOf s i) b out (engineStamp s) = some e := by
      rw [hhandle]
      cases out with
      | ended => rw [he]; rfl
      | released d => rw [he]; rfl
      | expired => rw [he, outcomeEvent]; cases b.expiry <;> rfl
      | cancelled => exact he.elim
    rw [ht, freeBooking_eq, hev]
    exact ⟨rfl, rfl⟩
  · rw [ht, freeBooking_eq, hc]
    exact ⟨rfl, rfl⟩
  · rw [ht, freeBooking_eq]
    rfl
  · rw [ht, freeBooking_eq]
    rfl
  · rw [ht, freeBooking_eq]
    rfl
  · rw [ht]
    exact freeBooking_apart ..

end Statements
end

