-- ==== Sys2Proof/Proofs/BookingPool.lean ====
section
/-! PROOFS. The pool of booking records: an allocation as one equation, and the free list exact through every
command (R20, R22 to R24). -/

namespace Sys2Proof.Machine

/-! ### Allocation (R22, R29, R31, R42) -/

/-- The state in which the head record `i` of the free list has just been set up with a booking. -/
def madeLive (i : Nat) (rest : List Nat) (b : Booking) (s : State) : State :=
  setBooking i b { s with store := { s.store with free := rest } }

/-- The Booking Store after an allocation. -/
def allocatedStore (i : Nat) (rest : List Nat) (b : Booking) (s : State) : Store where
  records := s.store.records.set ⟨0, none⟩ i ⟨(recordAt s i).gen, some b⟩
  free := rest
  lists := s.store.lists.set [] b.room (insertBy (startIdx (madeLive i rest b s)) i (roomList s b.room))
  holds := if b.state = .tentative then
      insertBy (expiryIdx (madeLive i rest b s)) (handleOf (madeLive i rest b s) i) s.store.holds
    else s.store.holds
  episode := s.store.episode

/-- The state after an allocation: the store and the provisional count. -/
def allocated (i : Nat) (rest : List Nat) (b : Booking) (s : State) : State :=
  { s with
    store := allocatedStore i rest b s
    superv := { s.superv with
      provisional := if b.provisional = true then s.superv.provisional + 1 else s.superv.provisional } }

/-- A TENTATIVE booking alone enters the Hold List. -/
theorem enterHolds_if {p : Prop} [Decidable p] (h : Handle) (s : State) : (if p then enterHolds h s else s) =
    { s with store := { s.store with
      holds := if p then insertBy (expiryIdx s) h s.store.holds else s.store.holds } } := by
  split <;> rfl

theorem allocate_cons {s : State} {i : Nat} {rest : List Nat} (h : s.store.free = i :: rest) (b : Booking) :
    allocate b s = some (i, allocated i rest b s) := by
  unfold allocate
  rw [h]
  dsimp only
  rw [enterHolds_if, provisional_if]
  rfl

/-! ### Where a live booking is found -/

/-- The booking found in a room's list is live. -/
theorem bookingAt_of_mem {s : State} {r i : Nat} {b : Booking} (h : (i, b) ∈ roomBookings s r) :
    bookingAt s i = some b := by
  obtain ⟨j, _, hj⟩ := List.mem_filterMap.1 h
  obtain ⟨b', hb', he⟩ := Option.map_eq_some_iff.1 hj
  cases he
  exact hb'

theorem bookingAt_of_current {s : State} {r i : Nat} {b : Booking} (h : currentBooking s r = some (i, b)) :
    bookingAt s i = some b := by
  obtain ⟨now, _, hf⟩ := Option.bind_eq_some_iff.1 h
  exact bookingAt_of_mem (List.mem_of_find?_eq_some hf)

theorem bookingAt_of_candidate {s : State} {r i : Nat} {b : Booking} {now : CTime}
    (h : checkInCandidate s r = some (i, b, now)) : bookingAt s i = some b := by
  unfold checkInCandidate at h
  split at h
  · rename_i hh _
    split at h
    · cases h
      exact bookingAt_of_mem (List.mem_of_head? hh)
    · cases h
  · cases h

/-- Taking a host request leaves the Booking Store. -/
theorem takeHost_store {r : HostRequest} {s u : State} (h : takeHost r s = some u) : u.store = s.store := by
  obtain ⟨v, hv, rfl⟩ := Option.map_eq_some_iff.1 h
  change v.store = s.store
  unfold takeFromOwner at hv
  split at hv
  · split at hv
    · cases hv; rfl
    · cases hv
  · obtain ⟨_, rest, _, rfl⟩ := takeEngine_eq_some.1 hv; rfl
  · obtain ⟨_, _, rest, _, rfl⟩ := takePlanner_eq_some.1 hv; rfl
  · obtain ⟨_, rest, _, rfl⟩ := takeLine_eq_some.1 hv; rfl

/-! ### The pool through each operation -/

/-- The record table is canonical and the free list exact. -/
structure PoolSound (s : State) : Prop where
  records : s.store.records.wf ⟨0, none⟩
  pool : BookingPoolExact s

namespace PoolSound

variable {s t : State}

/-- A state with the same records and the same free list. -/
theorem of_same (h : PoolSound s) (hr : t.store.records = s.store.records) (hf : t.store.free = s.store.free) :
    PoolSound t := by
  obtain ⟨h1, h2⟩ := h
  unfold BookingPoolExact bookingAt recordAt at h2
  constructor
  · rwa [hr]
  · unfold BookingPoolExact bookingAt recordAt
    rwa [hr, hf]

/-- A state with the same store. -/
theorem same (h : PoolSound s) (hs : t.store = s.store := by simp) : PoolSound t :=
  h.of_same (by rw [hs]) (by rw [hs])

/-- A live record is a record of the pool, and not on the free list. -/
theorem live {i : Nat} {b : Booking} (h : PoolSound s) (hb : bookingAt s i = some b) :
    i < 2048 ∧ i ∉ s.store.free := by
  obtain ⟨_, hlt, hfree⟩ := h.pool
  refine ⟨hlt i (by rw [hb]; rfl), fun hi => ?_⟩
  rw [((hfree i).1 hi).2] at hb
  cases hb

/-- The booking of a live record replaced. -/
theorem setBooking {i : Nat} {b b' : Booking} (h : PoolSound s) (hb : bookingAt s i = some b) :
    PoolSound (setBooking i b' s) := by
  obtain ⟨hi, hnot⟩ := h.live hb
  obtain ⟨hnd, hlt, hfree⟩ := h.pool
  have hat : ∀ j, bookingAt (Machine.setBooking i b' s) j = if j = i then some b' else bookingAt s j := fun j => by
    rw [bookingAt, recordAt_setBooking h.records]
    split <;> rfl
  refine ⟨Table.set_wf h.records _ _, hnd, fun j hj => ?_, fun j => ?_⟩
  · rw [hat] at hj
    split at hj
    · omega
    · exact hlt j hj
  · rw [hat]
    change j ∈ s.store.free ↔ _
    split
    · rename_i e
      subst e
      simp [hnot]
    · exact hfree j

/-- A live record freed. -/
theorem freeBooking {i : Nat} {b : Booking} (h : PoolSound s) (hb : bookingAt s i = some b) (b' : Booking)
    (out : Terminal) : PoolSound (freeBooking i b' out s) := by
  obtain ⟨hi, hnot⟩ := h.live hb
  obtain ⟨hnd, hlt, hfree⟩ := h.pool
  have hat : ∀ j, bookingAt (Machine.freeBooking i b' out s) j = if j = i then none else bookingAt s j := fun j => by
    rw [bookingAt, recordAt_freeBooking h.records]
    split <;> rfl
  have hlist : (Machine.freeBooking i b' out s).store.free = s.store.free ++ [i] := by rw [freeBooking_eq]; rfl
  refine ⟨?_, ?_, fun j hj => ?_, fun j => ?_⟩
  · rw [freeBooking_eq]
    exact Table.set_wf h.records _ _
  · rw [hlist]
    exact hnd.append (List.nodup_singleton i) (by simpa using hnot)
  · rw [hat] at hj
    split at hj
    · cases hj
    · exact hlt j hj
  · rw [hlist, hat, List.mem_append, List.mem_singleton, hfree]
    split
    · rename_i e
      simp [e, hi]
    · rename_i e
      simp [e]

/-- The head record of the free list made live. -/
theorem allocate {i : Nat} {b : Booking} (h : PoolSound s) (ha : allocate b s = some (i, t)) : PoolSound t := by
  obtain ⟨rest, hl⟩ := allocate_index ha
  rw [allocate_cons hl] at ha
  cases ha
  obtain ⟨hnd, hlt, hfree⟩ := h.pool
  rw [hl] at hnd hfree
  obtain ⟨hi, hnd⟩ := List.nodup_cons.1 hnd
  have hat : ∀ j, bookingAt (allocated i rest b s) j = if j = i then some b else bookingAt s j := fun j => by
    rw [bookingAt]
    refine (congrArg Record.body (Table.get_set h.records i j _)).trans ?_
    split <;> rfl
  refine ⟨Table.set_wf h.records _ _, hnd, fun j hj => ?_, fun j => ?_⟩
  · rw [hat] at hj
    split at hj
    · rename_i e
      exact e ▸ ((hfree i).1 (by simp)).1
    · exact hlt j hj
  · rw [hat]
    change j ∈ rest ↔ _
    split
    · rename_i e
      simp [e, hi]
    · rename_i e
      rw [← hfree j, List.mem_cons, or_iff_right e]

theorem ite {p : Prop} [Decidable p] {u : State} (h : p → PoolSound t) (h' : ¬ p → PoolSound u) :
    PoolSound (if p then t else u) := by
  split
  · exact h ‹_›
  · exact h' ‹_›

theorem foldl {α : Type} {f : State → α → State} (hf : ∀ t a, PoolSound t → PoolSound (f t a)) (xs : List α)
    (h : PoolSound s) : PoolSound (xs.foldl f s) :=
  List.foldlRecOn xs f h fun _ ht a _ => hf _ a ht

/-! ### What leaves the records and the free list -/

theorem leaveHolds (h : PoolSound s) (x : Handle) : PoolSound (leaveHolds x s) := h.of_same rfl rfl

theorem setRoomList (h : PoolSound s) (r : Nat) (l : List Nat) : PoolSound (setRoomList r l s) := h.of_same rfl rfl

theorem provisional (h : PoolSound s) (f : Nat → Nat) : PoolSound (provisional f s) := h.same

theorem sendPlanner (h : PoolSound s) (w : PlannerWork) : PoolSound (sendPlanner w s) := h.same

theorem setEngine (h : PoolSound s) (E : Engine) : PoolSound { s with engine := E } := h.same rfl

theorem count (h : PoolSound s) (f : Counters → Counters) : PoolSound (count f s) := h.same

theorem postEvent (h : PoolSound s) (r : EventRecord) : PoolSound (postEvent r s) := h.same

theorem requestDisplay (h : PoolSound s) (r : Nat) : PoolSound (requestDisplay r s) := h.same

theorem answerPanel (h : PoolSound s) (src : PanelSrc) (kind : Nat) (code : PanelCode) (time : Option CTime) :
    PoolSound (answerPanel src kind code time s) := h.same rfl

/-! ### Shared shapes -/

theorem refuseHost (h : PoolSound s) (r : Result) (body : List Field) : PoolSound (refuseHost r body s) := h.same

theorem finish (h : PoolSound s) (r : Result) (body : List Field) : PoolSound (finish r body s) := h.same

theorem evalDisplay (h : PoolSound s) (r : Nat) : PoolSound (evalDisplay r s) := h.same

theorem evalMove (h : PoolSound s) (old new : Nat) : PoolSound (evalMove old new s) :=
  ite (fun _ => h.evalDisplay _) fun _ => (h.evalDisplay _).evalDisplay _

theorem openEpisode (h : PoolSound s) (room : Nat) (src : Option (Fin 4 × Nat)) : PoolSound (openEpisode room src s) :=
  ite (fun _ => h) fun _ => h.of_same (by simp) (by simp)

theorem refuseTurned (h : PoolSound s) (room : Nat) (x : Turned) (body : List Field) :
    PoolSound (refuseTurned room x body s) :=
  (ite (fun _ => h.openEpisode ..) fun _ => h).refuseHost _ _

theorem refusePanel (h : PoolSound s) (src : PanelSrc) (kind : Nat) (x : Turned) :
    PoolSound (refusePanel src kind x s) := (h.same (t := countRefusal x.code s)).answerPanel ..

/-- A request that names a booking does its own work on a live record. -/
theorem withBooking (h : PoolSound s) (x : Handle) {run : Booking → State → State}
    (hr : ∀ b, bookingAt s x.index = some b → PoolSound (run b s)) : PoolSound (withBooking x run s) := by
  unfold Machine.withBooking
  split
  · exact h.refuseHost _ _
  · exact h.refuseHost _ _
  · exact ite (fun _ => h.refuseHost _ _) fun _ => hr _ ‹_›

theorem createAndReply (h : PoolSound s) (b : Booking) (body : Handle → List Field) :
    PoolSound (createAndReply b body s) := by
  unfold Machine.createAndReply
  split
  · exact h
  · rename_i ha
    exact ((h.allocate ha).evalDisplay _).finish _ _

theorem deferredOutcome (h : PoolSound s) (i : Nat) : PoolSound (deferredOutcome i s) := by
  unfold Machine.deferredOutcome
  split
  · rename_i hb _
    exact ite (fun _ => h.freeBooking hb _ _) fun _ => ite (fun _ => h.freeBooking hb _ _) fun _ => h
  · exact h

/-! ### The requests of chapter 3 -/

theorem doHold (h : PoolSound s) (q : BookReq) (n : Nat) : PoolSound (doHold q n s) := by
  refine ite (fun _ => h.refuseHost _ _) fun _ => ?_
  split
  · exact h.refuseTurned ..
  · exact h.createAndReply ..

theorem doBook (h : PoolSound s) (q : BookReq) : PoolSound (doBook q s) := by
  refine ite (fun _ => h.refuseHost _ _) fun _ => ?_
  split
  · exact h.refuseTurned ..
  · exact h.createAndReply ..

theorem doConfirm (h : PoolSound s) (x : Handle) : PoolSound (doConfirm x s) :=
  h.withBooking x fun _ hb =>
    ite (fun _ => ((((h.setBooking hb).leaveHolds x).evalDisplay _).finish _ _)) fun _ => h.refuseHost _ _

theorem doCancel (h : PoolSound s) (x : Handle) (n : Nat) : PoolSound (doCancel x n s) :=
  h.withBooking x fun _ hb =>
    ite (fun _ => h.refuseHost _ _) fun _ => ite (fun _ => h.refuseHost _ _) fun _ => ite (fun _ => h.refuseHost _ _)
      fun _ => ((h.freeBooking hb _ _).evalDisplay _).finish _ _

theorem endAndShow {i : Nat} {b b' : Booking} (h : PoolSound s) (hb : bookingAt s i = some b') (room : Nat)
    (now : CTime) : PoolSound (endAndShow room i b now s) :=
  ite (fun _ => h) fun _ => (h.setBooking hb).evalDisplay _

theorem doEnd (h : PoolSound s) (x : Handle) : PoolSound (doEnd x s) :=
  h.withBooking x fun b hb => by
    split
    · exact h.refuseHost _ _
    · exact ite (fun _ => h.refuseHost _ _) fun _ => (h.endAndShow hb ..).finish _ _

theorem doCheckIn (h : PoolSound s) (x : Handle) (badge : Token) : PoolSound (doCheckIn x badge s) :=
  h.withBooking x fun b hb => by
    split
    · exact h.refuseHost _ _
    · exact ite (fun _ => ((h.setBooking hb).evalDisplay _).finish _ _) fun _ => h.refuseHost _ _

theorem commitMove {i : Nat} {b b' : Booking} (h : PoolSound s) (hb : bookingAt s i = some b') (room : Nat) (sp : Span)
    (n : Nat) : PoolSound (commitMove i b room sp n s) :=
  ite (fun _ => h.setBooking hb) fun _ =>
    ((h.setRoomList b.room _).setBooking hb).setRoomList _ _

theorem noticeRoom (h : PoolSound s) (b : Booking) (room : Nat) : PoolSound (noticeRoom b room s) := by
  unfold Machine.noticeRoom
  split
  · exact ite (fun _ => h) fun _ => h.same
  · exact h

theorem doMoveChecked (h : PoolSound s) (q : MoveReq) {b b' : Booking} (hb : bookingAt s q.booking.index = some b') :
    PoolSound (doMoveChecked q b s) := by
  refine ite (fun _ => h.finish _ _) fun _ => ?_
  split
  · refine ite (fun _ => (((h.commitMove hb ..).noticeRoom _ _).evalMove _ _).finish _ _) fun _ => ?_
    exact (((h.setBooking hb).setEngine _).sendPlanner _).evalDisplay _
  · exact ((h.commitMove hb ..).evalMove _ _).finish _ _

theorem doMove (h : PoolSound s) (q : MoveReq) : PoolSound (doMove q s) :=
  h.withBooking _ fun b hb => ite (fun _ => h.refuseHost _ _) fun _ => by
    split
    · exact h.refuseTurned ..
    · exact h.doMoveChecked _ hb

theorem doFindRoom (h : PoolSound s) (q : FindReq) : PoolSound (doFindRoom q s) := by
  refine ite (fun _ => h.refuseHost _ _) fun _ => ?_
  split
  · exact h.refuseTurned ..
  · split
    · exact h.refuseHost _ _
    · refine ite (fun _ => h.finish _ _) fun _ => ?_
      split
      · exact h.refuseTurned ..
      · exact h.createAndReply ..

theorem doQueryRoom (h : PoolSound s) (room day : Nat) (c : Option CTime) : PoolSound (doQueryRoom room day c s) :=
  ite (fun _ => h.refuseHost _ _) fun _ => ite (fun _ => h.refuseHost _ _) fun _ => h.finish _ _

theorem doQueryBooking (h : PoolSound s) (x : Handle) : PoolSound (doQueryBooking x s) := by
  unfold Machine.doQueryBooking
  split
  · exact h.finish _ _
  · exact h.refuseHost _ _
  · exact h.refuseHost _ _

theorem doAcceptProvisional (h : PoolSound s) (x : Handle) : PoolSound (doAcceptProvisional x s) :=
  h.withBooking x fun _ hb =>
    ite (fun _ => (((h.setBooking hb).provisional _).evalDisplay _).finish _ _) fun _ => h.refuseHost _ _

theorem doPlaceOrder (h : PoolSound s) (x : Handle) (n : Nat) (ls : List OrderLine) :
    PoolSound (doPlaceOrder x n ls s) :=
  h.withBooking x fun _ hb =>
    ite (fun _ => h.refuseHost _ _) fun _ => ite (fun _ => h.refuseHost _ _) fun _ =>
      ((h.setBooking hb).sendPlanner _).evalDisplay _

/-! ### The planner's answers and notices -/

theorem clearMark (h : PoolSound s) (i : Nat) (f : Booking → Booking) : PoolSound (clearMark i f s) := by
  unfold Machine.clearMark
  split
  · exact h.setBooking ‹_›
  · exact h

theorem settleAdmission (h : PoolSound s) (x : Handle) (o : Option Handle) : PoolSound (settleAdmission x o s) :=
  ((ite (fun _ => (h.clearMark _ _).requestDisplay _) fun _ => h.clearMark _ _).deferredOutcome _).evalDisplay _

theorem doAdmissionAnswer (h : PoolSound s) (x : Handle) (a : AdmissionAnswer) :
    PoolSound (doAdmissionAnswer x a s) := by
  cases a with
  | admitted => exact (h.settleAdmission _ _).finish _ _
  | refused => exact ((h.settleAdmission _ _).count _).finish _ _

theorem commitStaged (h : PoolSound s) (g : Staged) (k : Bool) : PoolSound (commitStaged g k s) := by
  unfold Machine.commitStaged
  split
  · exact h.commitMove ‹_› ..
  · exact h

theorem settleRefit (h : PoolSound s) (x : Handle) (old new : Nat) : PoolSound (settleRefit x old new s) :=
  (((h.clearMark _ _).setEngine _).deferredOutcome _).evalMove _ _

theorem refuseMove (h : PoolSound s) (x : Handle) (r : Result) (body : List Field) : PoolSound (refuseMove x r body s) :=
  ((h.settleRefit ..).count _).refuseHost _ _

theorem commitRefit (h : PoolSound s) (x : Handle) (k : Bool) (body : Staged → List Field) :
    PoolSound (commitRefit x k body s) := by
  unfold Machine.commitRefit
  split
  · exact ((h.commitStaged _ _).settleRefit ..).finish _ _
  · exact ((h.clearMark _ _).evalDisplay _).finish _ _

theorem doRefitAnswer (h : PoolSound s) (x : Handle) (a : RefitAnswer) : PoolSound (doRefitAnswer x a s) := by
  cases a with
  | fit | dropped => exact h.commitRefit ..
  | noFit | committed => exact h.refuseMove ..

theorem replyAfterLink (h : PoolSound s) (o : Handle) : PoolSound (replyAfterLink o s) := by
  unfold Machine.replyAfterLink
  split
  · split
    · exact ite (fun _ => h.finish _ _) fun _ => h
    · exact h
  · exact h

theorem doLinkNotice (h : PoolSound s) (x o : Handle) : PoolSound (doLinkNotice x o s) := by
  refine replyAfterLink ?_ o
  split
  · exact ite (fun _ => (h.setBooking ‹_›).evalDisplay _) fun _ => h
  · exact h

theorem doDisplayNotice (h : PoolSound s) (x o : Handle) : PoolSound (doDisplayNotice x o s) :=
  ite (fun _ => h.requestDisplay _) fun _ => h

/-! ### Boundary work, visits and occupancy -/

theorem expireHold (h : PoolSound s) (now : CTime) (x : Handle) : PoolSound (expireHold now x s) := by
  unfold Machine.expireHold
  split
  · exact ite (fun _ => h.freeBooking ‹_› _ _) fun _ => h
  · exact h

theorem endBookingAt (h : PoolSound s) (now : CTime) (i : Nat) : PoolSound (endBookingAt now i s) := by
  unfold Machine.endBookingAt
  split
  · exact ite (fun _ => h.freeBooking ‹_› _ _) fun _ => h
  · exact h

theorem doEngineBoundary (h : PoolSound s) (b : Boundary) : PoolSound (doEngineBoundary b s) := by
  have h1 := h.setEngine { s.engine with now := some b.now }
  have h2 := h1.foldl (f := fun s x => Machine.expireHold b.now x s) (fun _ _ h => h.expireHold _ _) s.store.holds
  exact foldl (fun _ _ h => h.evalDisplay _) _
    (h2.foldl (fun _ _ h => h.foldl (fun _ _ h => h.endBookingAt _ _) _) _)

theorem doRoomVisit (h : PoolSound s) (r : Nat) : PoolSound (doRoomVisit r s) := by
  unfold Machine.doRoomVisit
  split
  · rename_i hb _
    exact ite (fun _ => ((h.freeBooking (bookingAt_of_current hb) _ _).count _).evalDisplay _) fun _ => h
  · exact h

theorem checkInReported {i : Nat} {b b' : Booking} (h : PoolSound s) (hb : bookingAt s i = some b') (now : CTime)
    (src : Nat) (badge : Token) : PoolSound (checkInReported i b now src badge s) :=
  (h.setBooking hb).postEvent _

theorem doOccupancy (h : PoolSound s) (r : Nat) : PoolSound (doOccupancy r s) := by
  refine ite (fun _ => ?_) fun _ => h
  split
  · exact (h.checkInReported (bookingAt_of_candidate ‹_›) ..).evalDisplay _
  · exact h

/-! ### Panel requests -/

theorem admitWalkup (h : PoolSound s) (src : PanelSrc) (room len : Nat) (badge : Token) (code : PanelCode) :
    PoolSound (admitWalkup src room len badge code s) := by
  unfold Machine.admitWalkup
  dsimp only
  split
  · exact h
  · rename_i ha
    exact (((h.allocate ha).postEvent _).answerPanel ..).evalDisplay _

theorem doWalkup (h : PoolSound s) (src : PanelSrc) (room len : Nat) (badge : Token) :
    PoolSound (doWalkup src room len badge s) := by
  refine ite (fun _ => h.refusePanel ..) fun _ => ?_
  dsimp only
  split
  · exact (ite (fun _ => h.openEpisode ..) fun _ => h).refusePanel ..
  · exact h.admitWalkup ..

theorem doPanelCheckin (h : PoolSound s) (src : PanelSrc) (room : Nat) (badge : Token) :
    PoolSound (doPanelCheckin src room badge s) := by
  unfold Machine.doPanelCheckin
  split
  · exact ((h.checkInReported (bookingAt_of_candidate ‹_›) ..).answerPanel ..).evalDisplay _
  · exact h.refusePanel ..

theorem doExtend (h : PoolSound s) (src : PanelSrc) (room k : Nat) : PoolSound (doExtend src room k s) := by
  unfold Machine.doExtend
  split
  · rename_i hb _
    refine ite (fun _ => h.refusePanel ..) fun _ => ite (fun _ => h.refusePanel ..) fun _ => ?_
    dsimp only
    split
    · exact h.refusePanel ..
    · exact (((h.setBooking (bookingAt_of_current hb)).postEvent _).answerPanel ..).evalDisplay _
  · exact h.refusePanel ..

theorem doPanelEnd (h : PoolSound s) (src : PanelSrc) (room : Nat) : PoolSound (doPanelEnd src room s) := by
  unfold Machine.doPanelEnd
  split
  · rename_i hb _
    exact ite (fun _ => h.refusePanel ..) fun _ => (h.answerPanel ..).endAndShow (bookingAt_of_current hb) ..
  · exact h.refusePanel ..

/-! ### Taking work -/

theorem of_takeEngine {w : EngineWork} (h : PoolSound s) (ht : takeEngine w s = some t) : PoolSound t := by
  obtain ⟨_, rest, _, rfl⟩ := takeEngine_eq_some.1 ht
  exact h.same rfl

theorem engineStep {w : EngineWork} {run : State → State} (h : PoolSound s)
    (hr : ∀ {u}, PoolSound u → PoolSound (run u)) (he : whenTaken (takeEngine w s) run s = .next t) : PoolSound t := by
  cases ho : takeEngine w s with
  | none => rw [ho] at he; cases he; exact h
  | some u => rw [ho] at he; cases he; exact hr (h.of_takeEngine ho)

theorem hostStep {r : HostRequest} {run : State → State} (h : PoolSound s) (he : hostStep r run s = .next t)
    (hr : ∀ {u}, PoolSound u → PoolSound (run u)) : PoolSound t := by
  unfold Machine.hostStep at he
  cases ho : takeHost r s with
  | none => rw [ho] at he; cases he; exact h
  | some u => rw [ho] at he; cases he; exact hr (h.same (takeHost_store ho))

end PoolSound

/-! ### Every command -/

variable {c : Instr} {s t : State}

/-- A command of the Reservation Engine keeps the pool. -/
theorem exec_engine_pool (hc : isEngineWork c = true) (hs : PoolSound s) (h : exec c s = .next t) : PoolSound t := by
  cases c with
  | hold => exact hs.hostStep h fun h => h.doHold ..
  | book => exact hs.hostStep h fun h => h.doBook ..
  | confirm => exact hs.hostStep h fun h => h.doConfirm ..
  | cancel => exact hs.hostStep h fun h => h.doCancel ..
  | endBooking => exact hs.hostStep h fun h => h.doEnd ..
  | checkIn => exact hs.hostStep h fun h => h.doCheckIn ..
  | move => exact hs.hostStep h fun h => h.doMove ..
  | findRoom => exact hs.hostStep h fun h => h.doFindRoom ..
  | queryRoom => exact hs.hostStep h fun h => h.doQueryRoom ..
  | queryBooking => exact hs.hostStep h fun h => h.doQueryBooking ..
  | acceptProvisional => exact hs.hostStep h fun h => h.doAcceptProvisional ..
  | placeOrder => exact hs.hostStep h fun h => h.doPlaceOrder ..
  | engineTakesAdmissionAnswer => exact hs.engineStep (fun h => h.doAdmissionAnswer ..) h
  | engineTakesRefitAnswer => exact hs.engineStep (fun h => h.doRefitAnswer ..) h
  | linkNotice => exact hs.engineStep (fun h => h.doLinkNotice ..) h
  | displayNotice => exact hs.engineStep (fun h => h.doDisplayNotice ..) h
  | engineBoundaryWork => exact hs.engineStep (fun h => h.doEngineBoundary ..) h
  | roomVisit => exact hs.engineStep (fun h => h.doRoomVisit ..) h
  | occupancyNotice => exact hs.engineStep (fun h => h.doOccupancy ..) h
  | walkup => exact hs.engineStep (fun h => h.doWalkup ..) h
  | panelCheckin => exact hs.engineStep (fun h => h.doPanelCheckin ..) h
  | extend => exact hs.engineStep (fun h => h.doExtend ..) h
  | panelEnd => exact hs.engineStep (fun h => h.doPanelEnd ..) h
  | _ => cases hc

/-- The steps of the clock leave the Booking Store. -/
@[simp] theorem enterQuantum_store (s : State) : (enterQuantum s).store = s.store := by
  unfold enterQuantum
  split <;> rfl

@[simp] theorem settleClock_store (s : State) : (settleClock s).store = s.store := by
  have h1 : (resumeDue s).store = s.store := by unfold resumeDue; split <;> rfl
  rw [← h1]
  exact List.foldlRecOn (motive := fun u : State => u.store = (resumeDue s).store) _ _ rfl
    fun u hu _ _ => (enterQuantum_store u).trans hu

@[simp] theorem trimForward_store (k : Counting) (s : State) : (trimForward k s).store = s.store := by
  rw [trimForward_eq]
  split <;> exact settleClock_store (setCount k s)

@[simp] theorem replyClock_store (r : Result) (s : State) : (replyClock r s).store = s.store := by simp [replyClock]

theorem doSetClock_store (d q m : Nat) (s : State) : (doSetClock d q m s).store = s.store := by
  have hheld : ∀ now k, (holdClock now k s).store = s.store := fun now k => by simp [holdClock, reportHeld]
  unfold doSetClock setRunning setHeld
  dsimp only
  split
  · simp
  · split
    · split_ifs <;> simp [hheld]
    · split_ifs <;> simp [reportHeld]
    · simp [startClock]

theorem handTo_store (r : HostRequest) (s : State) : (handTo r s).store = s.store := by
  unfold handTo
  split <;> rfl

theorem reportFrame_store (s : State) : (reportFrame s).store = s.store := by
  unfold reportFrame
  dsimp only
  split <;> simp

theorem takeFrame_store (f : Frame) (s : State) : (takeFrame f s).store = s.store := by
  unfold takeFrame
  split
  · rfl
  · dsimp only
    split
    · rfl
    · rfl
    · exact handTo_store _ _

theorem doHostByte_store (b : Byte) (stop : Bool) (s : State) : (doHostByte b stop s).store = s.store := by
  have hhunt : ∀ u : State, (huntByte b stop u).store = u.store := fun u => by unfold huntByte; split <;> rfl
  unfold doHostByte
  split
  · exact hhunt s
  · split
    · exact hhunt _
    · unfold frameByte endFrame
      dsimp only
      split_ifs <;> rfl

theorem doLoadRoomEngineCheck_store (room : Nat) (e : RoomSpec) (s : State) :
    (doLoadRoomEngineCheck room e s).store = s.store := by
  unfold doLoadRoomEngineCheck
  split
  · simp
  · split
    · simp
    · rw [finish_eq, displayLoad_eq]
      unfold dropLastEnd
      split <;> rfl

/-- Either branch of a test. -/
theorem ite_store {p : Prop} [Decidable p] {u v w : State} (hu : u.store = w.store) (hv : v.store = w.store) :
    (if p then u else v).store = w.store := by
  split
  · exact hu
  · exact hv

theorem finishThen_store {f : State → State} (hf : ∀ u, (f u).store = u.store) (r : Result) (body : List Field)
    (s : State) : (finishThen r body f s).store = s.store := by
  unfold finishThen
  split
  · rfl
  · exact hf _

/-- A step that takes a host request whose work leaves the Booking Store. -/
theorem hostStep_store {r : HostRequest} {run : State → State} (h : hostStep r run s = .next t)
    (hr : ∀ u, (run u).store = u.store) : t.store = s.store := by
  unfold hostStep at h
  cases ho : takeHost r s with
  | none => rw [ho] at h; cases h; rfl
  | some u => rw [ho] at h; cases h; exact (hr u).trans (takeHost_store ho)

theorem lineRequest_store {n : Nat} (hl : lineOf? n = none) (run : Fin 4 → State → State) (s : State) :
    (lineRequest n run s).store = s.store := by
  unfold lineRequest
  rw [hl]
  simp

/-- A command that is neither the engine's nor a reset leaves the Booking Store. -/
theorem exec_store (he : isEngineWork c = false) (hr : isReset c = false) (h : exec c s = .next t) :
    t.store = s.store := by
  by_cases hp : isPlannerWork c = true
  · exact ((exec_writes_planner hp h).engine nofun).2.1
  cases hw : lineOfWork c with
  | some l => exact ((exec_writes_line hw h).engine nofun).2.1
  | none =>
    cases c with
    | identify => exact hostStep_store h fun u => by simp
    | readPolicy => exact hostStep_store h fun u => by simp
    | getStatus n => exact hostStep_store h fun u => by unfold doGetStatus; split_ifs <;> simp
    | readReports q n =>
      exact hostStep_store h fun u =>
        ite_store (finishThen_store (f := clearOvf) (fun _ => rfl) _ _ (removeEvents n u)) <|
          ite_store (finishThen_store (f := clearOvf) (fun _ => rfl) _ _ (removeExceptions n u)) (by simp)
    | readCounters n =>
      exact hostStep_store h fun u =>
        ite_store (by simp) (finishThen_store (fun v => by split <;> rfl) _ _ u)
    | reset a b => exact hostStep_store h fun u => by unfold doReset; split <;> simp
    | setPolicy p => exact hostStep_store h fun u => by unfold doSetPolicy; split <;> simp
    | loadKitchen k e => exact hostStep_store h fun u => by unfold doLoadKitchen; split <;> simp
    | loadDistance k b x => exact hostStep_store h fun u => by unfold doLoadDistance; split <;> simp
    | loadMenuClass a w l n => exact hostStep_store h fun u => by unfold doLoadMenuClass; split <;> simp
    | loadRoom room e => exact hostStep_store h fun u => by unfold doLoadRoom; split <;> simp
    | readRoom => exact hostStep_store h fun u => ite_store (by simp) (by simp)
    | readKitchen => exact hostStep_store h fun u => ite_store (by simp) (by simp)
    | readDistance => exact hostStep_store h fun u => ite_store (by simp) (by simp)
    | readMenuClass => exact hostStep_store h fun u => ite_store (by simp) (by simp)
    | startChain => exact hostStep_store h (lineRequest_store hw _)
    | stopChain => exact hostStep_store h (lineRequest_store hw _)
    | chainMode => exact hostStep_store h fun u => ite_store (by simp) (lineRequest_store hw _ u)
    | clearPanelFault => exact hostStep_store h fun u => ite_store (lineRequest_store hw _ u) (by simp)
    | readChain => exact hostStep_store h (lineRequest_store hw _)
    | readPosition => exact hostStep_store h fun u => ite_store (lineRequest_store hw _ u) (by simp)
    | readLineHealth => exact hostStep_store h (lineRequest_store hw _)
    | setClock d q m => exact hostStep_store h fun u => by rw [doSetClock_store, settleClock_store]
    | loadRoomEngineCheck room e =>
      simp only [exec, execLoadRoomEngineCheck] at h
      cases hu : takeEngine (.loadRoomCheck room e) s with
      | none => rw [hu] at h; cases h; rfl
      | some u =>
        rw [hu] at h
        cases h
        obtain ⟨_, rest, _, rfl⟩ := takeEngine_eq_some.1 hu
        exact doLoadRoomEngineCheck_store room e _
    | hostByteReceived b stop =>
      simp only [exec, execHostByteReceived] at h
      split at h <;> cases h
      exacts [doHostByte_store b stop s, rfl]
    | interByteGapExpiry =>
      simp only [exec, execInterByteGapExpiry] at h
      split at h <;> cases h <;> rfl
    | validFrame f =>
      simp only [exec, execValidFrame] at h
      cases hu : nextFrame f s with
      | none => rw [hu] at h; cases h; rfl
      | some u =>
        rw [hu] at h
        cases h
        obtain ⟨_, _, _, rest, _, rfl⟩ := nextFrame_eq_some.1 hu
        exact (takeFrame_store ..).trans (reportFrame_store _)
    | supervisionTimerExpiry =>
      simp only [exec, execSupervisionTimerExpiry, doSupervisionExpiry] at h
      split at h <;> cases h
      · split_ifs <;> simp
      · rfl
    | scanStepExpiry =>
      simp only [exec, execScanStepExpiry] at h
      split at h <;> cases h <;> rfl
    | timebaseTick =>
      simp only [exec, execTimebaseTick] at h
      split at h <;> cases h <;> rfl
    | quantumEntry =>
      simp only [exec, execQuantumEntry] at h
      split at h <;> cases h
      exacts [enterQuantum_store s, rfl]
    | heldQuantumReached =>
      simp only [exec, execHeldQuantumReached] at h
      split at h <;> cases h <;> rfl
    | _ => simp_all [isEngineWork, isPlannerWork, lineOfWork, isReset]

/-- A state at its power-on values has the pool of a reset (R22, R182). -/
theorem powerOnValues_pool (p : Power) (k : ResetCause) (rate : Fin 4) (s : State) :
    PoolSound (powerOnValues p k rate s) :=
  PoolSound.same (s := State.reset) ⟨Table.empty_wf _, reset_bookingPool⟩ rfl

/-- A reset brings the pool of power-on, or leaves it (R181, R182). -/
theorem exec_reset_pool (hr : isReset c = true) (hs : PoolSound s) (h : exec c s = .next t) : PoolSound t := by
  have hp := fun p k rate => powerOnValues_pool p k rate s
  cases c with
  | powerOn => cases h; exact hp ..
  | supplyLowReset =>
    simp only [exec, execSupplyLowReset] at h
    split at h <;> cases h
    exacts [hp .., hs.same rfl, hs, hs]
  | supplyRestored =>
    simp only [exec, execSupplyRestored] at h
    split at h <;> cases h
    exacts [hs.same rfl, hs, hs, hs]
  | crystalStable =>
    simp only [exec, execCrystalStable] at h
    split at h <;> cases h
    exacts [hp .., hs, hs, hs]
  | resetTakesEffect =>
    simp only [exec, execResetTakesEffect] at h
    split at h <;> cases h
    exacts [hp .., hs.of_same rfl rfl, hs]
  | _ => cases hr

/-- Every command keeps the pool. -/
theorem exec_pool (hs : PoolSound s) (h : exec c s = .next t) : PoolSound t := by
  cases he : isEngineWork c with
  | true => exact exec_engine_pool he hs h
  | false =>
    cases hr : isReset c with
    | true => exact exec_reset_pool hr hs h
    | false => exact hs.same (exec_store he hr h)

end Sys2Proof.Machine

section Statements

open Sys2Proof Sys2Proof.Machine

/-- Settles O39: the engine's operations write live records, allocate the head of the free list or free a live record;
every other command leaves the Booking Store or resets it. -/
theorem bookingPoolStaysExact : Obligations.BookingPoolStaysExact := by
  intro s t hs hpool h
  have ht := (step_keeps h).1.tables hs
  refine ⟨ht, ?_⟩
  obtain ⟨_, _, _, _, hrec, _⟩ := hs
  unfold step at h
  split at h
  · cases h
    exact hpool
  · rename_i rest _
    have hs : PoolSound (s.withPending rest) := PoolSound.same (s := s) ⟨hrec, hpool⟩ rfl
    exact (exec_pool hs h).pool

end Statements
end

