-- ==== Sys2Proof/Proofs/DisplayRules.lean ====
section
/-! PROOFS. Work that ends in a display evaluation: what is left but for the display, one rule for each operation, and
the statements on the requests and visits that write one booking (R44 to R47, R57, R62 to R67). -/

namespace Sys2Proof.Machine

/-! ### But for the display (R57) -/

theorem butDisplay_iff {s t : State} : ButDisplay s t ↔ ∃ K L M,
    t = { s with engine := { s.engine with kept := K }, lines := L, link := M } ∧
    ∀ l, LineGained (s.lines.get l) (L.get l) := by
  constructor
  · rintro ⟨heq, hl⟩
    exact ⟨_, _, _, heq, hl⟩
  · rintro ⟨K, L, M, rfl, hl⟩
    exact ⟨rfl, hl⟩

namespace ButDisplay

variable {s t u : State}

@[refl] theorem refl (s : State) : ButDisplay s s := ⟨rfl, fun _ => LineGained.refl _⟩

theorem trans (h : ButDisplay s t) (h' : ButDisplay t u) : ButDisplay s u := by
  obtain ⟨K, L, M, rfl, hl⟩ := butDisplay_iff.1 h
  obtain ⟨K', L', M', rfl, hl'⟩ := butDisplay_iff.1 h'
  exact ⟨rfl, fun l => (hl l).trans (hl' l)⟩

theorem sendLine (l : Fin 4) (w : LineWork) (s : State) : ButDisplay s (sendLine l w s) :=
  ⟨rfl, fun m => ((Writes.refl .engine s).sendLine nofun l w).lines m nofun⟩

theorem requestDisplay (r : Nat) (s : State) : ButDisplay s (requestDisplay r s) := by
  rcases requestDisplay_cases r s with h | ⟨b, _, h⟩ <;> rw [h]
  exact sendLine ..

theorem answerPanel (src : PanelSrc) (kind : Nat) (code : PanelCode) (time : Option CTime) (s : State) :
    ButDisplay s (answerPanel src kind code time s) := sendLine ..

theorem evalDisplay (r : Nat) (s : State) : ButDisplay s (evalDisplay r s) :=
  butDisplay_iff.2 ⟨_, _, s.link, evalDisplay_eq r s, fun l => ((Writes.refl .engine s).evalDisplay r).lines l nofun⟩

theorem evalMove (old new : Nat) (s : State) : ButDisplay s (evalMove old new s) := by
  unfold Machine.evalMove
  split
  · exact evalDisplay ..
  · exact (evalDisplay old s).trans (evalDisplay new _)

theorem finish (r : Result) (body : List Field) (s : State) : ButDisplay s (finish r body s) :=
  butDisplay_iff.2 ⟨s.engine.kept, s.lines, _, finish_eq r body s, fun _ => LineGained.refl _⟩

/-- What a room shows is read from what stands. -/
theorem facts (h : ButDisplay s t) (r : Nat) : factsOf t r = factsOf s r := by
  obtain ⟨K, L, M, rfl, _⟩ := butDisplay_iff.1 h
  rfl

/-- The store, the planner and the counters are as they were, and the engine but for the facts kept. -/
theorem frame (h : ButDisplay s t) : t.store = s.store ∧ t.planner = s.planner ∧ t.counters = s.counters ∧
    t.engine = { s.engine with kept := t.engine.kept } := by
  obtain ⟨K, L, M, rfl, _⟩ := butDisplay_iff.1 h
  exact ⟨rfl, rfl, rfl, rfl⟩

/-- A counter is written on both sides. -/
theorem count (h : ButDisplay s t) (f : Counters → Counters) : ButDisplay (count f s) (count f t) := by
  obtain ⟨K, L, M, rfl, hl⟩ := butDisplay_iff.1 h
  exact ⟨rfl, hl⟩

/-- Freeing a booking reads and writes nothing of the display. -/
theorem freeBooking (h : ButDisplay s t) (i : Nat) (b : Booking) (out : Terminal) :
    ButDisplay (freeBooking i b out s) (freeBooking i b out t) := by
  obtain ⟨K, L, M, ht, hl⟩ := butDisplay_iff.1 h
  have hevent : outcomeEvent (handleOf t i) b out (engineStamp t) = outcomeEvent (handleOf s i) b out (engineStamp s) := by
    rw [ht]
    rfl
  refine butDisplay_iff.2 ⟨K, L, M, ?_, ?_⟩
  · rw [freeBooking_eq, freeBooking_eq, hevent,
      postOutcome_of_same (v := t) (u := s) (by rw [ht]) (by rw [ht]) (by rw [ht]), ht]
    rfl
  · rw [freeBooking_eq]
    exact hl

end ButDisplay

/-! ### The facts kept (R57) -/

theorem evalDisplay_kept_wf {s : State} (h : s.engine.kept.wf none) (r : Nat) :
    (evalDisplay r s).engine.kept.wf none := by
  unfold evalDisplay
  split
  · exact h
  · rw [requestDisplay_eq]
    exact Table.set_wf h _ _

/-- The facts kept of a room after the evaluation of another. -/
theorem evalDisplay_kept_other {s : State} (h : s.engine.kept.wf none) {r r' : Nat} (hr : r ≠ r') :
    (evalDisplay r' s).engine.kept.get none r = s.engine.kept.get none r := by
  unfold evalDisplay
  split
  · rfl
  · rw [requestDisplay_eq]
    exact (keepFacts_kept h r' r).trans (if_neg hr)

namespace Shows

variable {s t : State} {r : Nat}

/-- What a room shows stands when only lines and the link move. -/
theorem of_same (h : Shows r s) (hd : ButDisplay s t) (hk : t.engine.kept = s.engine.kept) : Shows r t := by
  unfold Shows at h ⊢
  rwa [hk, hd.facts]

theorem finish (h : Shows r s) (res : Result) (body : List Field) : Shows r (finish res body s) :=
  h.of_same (ButDisplay.finish res body s) (by simp)

theorem evalDisplay_self (hk : s.engine.kept.wf none) (r : Nat) : Shows r (evalDisplay r s) := by
  unfold Shows
  rw [(ButDisplay.evalDisplay r s).facts]
  exact evalDisplay_kept hk r

theorem evalDisplay (h : Shows r s) (hk : s.engine.kept.wf none) (r' : Nat) : Shows r (evalDisplay r' s) := by
  by_cases e : r = r'
  · rw [e]
    exact evalDisplay_self hk r'
  · unfold Shows at h ⊢
    rwa [evalDisplay_kept_other hk e, (ButDisplay.evalDisplay r' s).facts]

/-- A move's evaluation shows the old room and the new. -/
theorem evalMove (hk : s.engine.kept.wf none) (old new : Nat) :
    Shows old (evalMove old new s) ∧ Shows new (evalMove old new s) := by
  unfold Machine.evalMove
  split
  · rename_i e
    rw [e]
    exact ⟨evalDisplay_self hk old, evalDisplay_self hk old⟩
  · have hk' := evalDisplay_kept_wf hk old
    exact ⟨(evalDisplay_self hk old).evalDisplay hk' new, evalDisplay_self hk' new⟩

end Shows

/-! ### Work that ends in an evaluation -/

/-- Work that ends in one evaluation and its reply. -/
theorem shown_and_answered {c : Instr} {s u w : State} {room : Nat} {res : Result} {body : List Field}
    (hu : ∃ sl, u.link.slot = some sl) (hl : w.link = u.link) (hk : w.engine.kept.wf none)
    (he : exec c s = .next (finish res body (evalDisplay room w))) :
    ∃ t, exec c s = .next t ∧ Answered u t res body ∧ Shows room t ∧ ButDisplay w t := by
  obtain ⟨sl, hsl⟩ := hu
  obtain ⟨hbut, hshows⟩ := finish_evalDisplay (r := room) (res := res) (body := body) hk rfl
  exact ⟨_, he, answered_finish hsl (by simpa using hl) .., hshows, hbut⟩

/-- Work that ends in one evaluation and answers no host request. -/
theorem shown {c : Instr} {s w : State} {room : Nat} (hk : w.engine.kept.wf none)
    (he : exec c s = .next (evalDisplay room w)) :
    ∃ t, exec c s = .next t ∧ Shows room t ∧ t.link = w.link ∧ ButDisplay w t :=
  ⟨_, he, Shows.evalDisplay_self hk room, by simp, ButDisplay.evalDisplay room w⟩

variable {s u : State}

/-- The tables of the state in which the engine has taken a host request are canonical. -/
theorem Taken.canonical {r : HostRequest} (h : Taken r s u) (ho : ownerOf r = .engine) (hs : TablesCanonical s) :
    TablesCanonical u := (Writes.of_takeHost (b := .engine) (by rw [ho]; rfl) h.2).sound.tables hs

theorem TablesCanonical.kept (h : TablesCanonical s) : s.engine.kept.wf none := by
  obtain ⟨_, _, _, _, _, _, _, hk, _⟩ := h
  exact hk

/-- The booking of a record replaced, its generation kept (R20). -/
theorem setBooking_eq {i g : Nat} (hg : (recordAt u i).gen = g) (b : Booking) : setBooking i b u =
    { u with store := { u.store with records := u.store.records.set ⟨0, none⟩ i ⟨g, some b⟩ } } := by
  rw [setBooking, hg]

theorem Names.gen {h : Handle} {b : Booking} (hn : Names u h b) : (recordAt u h.index).gen = h.gen := by
  obtain ⟨_, _, hr, _⟩ := hn
  rw [hr]

theorem freeBooking_kept (i : Nat) (b : Booking) (out : Terminal) (s : State) :
    (freeBooking i b out s).engine.kept = s.engine.kept := by
  rw [freeBooking_eq]
  rfl

theorem freeBooking_link (i : Nat) (b : Booking) (out : Terminal) (s : State) :
    (freeBooking i b out s).link = s.link := by
  rw [freeBooking_eq]
  rfl

/-- The tests of R65 for a release, one by one. -/
theorem releaseDue_iff (s : State) (r : Nat) (b : Booking) (now : CTime) : releaseDue s r b now = true ↔
    roomAt s r ≠ none ∧ b.state = .confirmed ∧ b.pending = none ∧
      idx s (shiftTime b.start s.policy.grace) ≤ idx s now ∧
      (s.policy.absentAction = .hold ∨ panelPresent s r = true) := by
  simp only [releaseDue, releaseGate, Bool.and_eq_true, Bool.or_eq_true, decide_eq_true_eq,
    Option.isSome_iff_ne_none, Option.isNone_iff_eq_none, and_assoc]
  rfl

/-- The event of an outcome moves no counter but that of dropped reports (R175). -/
theorem postOutcome_counters (e : Option EventRecord) (s : State) : (postOutcome e s).counters =
    { s.counters with dropped := (postOutcome e s).counters.dropped } := by
  cases e with
  | none => rfl
  | some e =>
    rcases postEvent_cases e s with h | ⟨_, h⟩ | ⟨_, h⟩ <;> rw [postOutcome, h]
    rfl

theorem freeBooking_counters (i : Nat) (b : Booking) (out : Terminal) (s : State) : (freeBooking i b out s).counters =
    { s.counters with dropped := (freeBooking i b out s).counters.dropped } := by
  rw [freeBooking_eq]
  exact postOutcome_counters _ s

end Sys2Proof.Machine

section Statements

open Sys2Proof Sys2Proof.Machine

/-- Settles O31: each request behind its handle check, in the cases of its own work. -/
theorem confirmCancelEndCheckIn : Obligations.ConfirmCancelEndCheckIn := by
  refine ⟨fun h b s u ht hs hn => ?_, fun h n b s u ht hs hn => ?_, fun h b s u ht hs hn => ?_,
    fun h badge b s u ht hs hn => ?_⟩
  · have he : exec (.confirm h) s = .next (doConfirm h u) := ht.hostStep _
    rw [doConfirm, withBooking_named hn] at he
    split
    · rename_i hb
      rw [if_pos hb, setBooking_eq hn.gen] at he
      exact shown_and_answered ht.slot rfl (ht.canonical rfl hs).kept he
    · rename_i hb
      rw [if_neg hb] at he
      exact refusedByEngine_of_refuse ht.slot he
  · have he : exec (.cancel h n) s = .next (doCancel h n u) := ht.hostStep _
    rw [doCancel, withBooking_named hn] at he
    split
    · rename_i h1
      rw [if_pos h1] at he
      exact refusedByEngine_of_refuse ht.slot he
    · rename_i h1
      rw [if_neg h1] at he
      split
      · rename_i h2
        rw [if_pos h2] at he
        exact refusedByEngine_of_refuse ht.slot he
      · rename_i h2
        rw [if_neg h2] at he
        simp only [Option.isSome_iff_ne_none] at he
        split
        · rename_i h3
          rw [if_pos h3] at he
          exact refusedByEngine_of_refuse ht.slot he
        · rename_i h3
          rw [if_neg h3] at he
          refine shown_and_answered ht.slot (freeBooking_link ..) ?_ he
          rw [freeBooking_kept]
          exact (ht.canonical rfl hs).kept
  · have he : exec (.endBooking h) s = .next (doEnd h u) := ht.hostStep _
    rw [doEnd, withBooking_named hn] at he
    cases hnow : engineNow u with
    | none =>
      rw [hnow] at he
      exact refusedByEngine_of_refuse ht.slot he
    | some now =>
      rw [hnow] at he
      dsimp only at he ⊢
      split
      · rename_i hw
        rw [if_pos hw] at he
        exact refusedByEngine_of_refuse ht.slot he
      · rename_i hw
        rw [if_neg hw] at he
        split
        · rename_i hf
          rw [endAndShow_ended hf] at he
          exact repliesOnly_of_finish ht.slot he
        · rename_i hf
          rw [endAndShow_moves hf, endNow, setBooking_eq hn.gen] at he
          exact shown_and_answered ht.slot rfl (ht.canonical rfl hs).kept he
  · have he : exec (.checkIn h badge) s = .next (doCheckIn h badge u) := ht.hostStep _
    rw [doCheckIn, withBooking_named hn] at he
    cases hnow : engineNow u with
    | none =>
      rw [hnow] at he
      exact refusedByEngine_of_refuse ht.slot he
    | some now =>
      rw [hnow] at he
      dsimp only at he ⊢
      rw [windowOpen] at he
      simp only [decide_eq_true_eq] at he
      split
      · rename_i hw
        rw [if_pos hw, checkInNow, setBooking_eq hn.gen] at he
        exact shown_and_answered ht.slot rfl (ht.canonical rfl hs).kept he
      · rename_i hw
        rw [if_neg hw] at he
        exact refusedByEngine_of_refuse ht.slot he

/-- Settles O40: the step is one write of the scanner and a visit sent; a visit tests the six conditions of R65. -/
theorem scannerAndVisits : Obligations.ScannerAndVisits := by
  refine ⟨fun s hp hd p hpos => ?_, fun s hp hd => ?_, fun r i b now s u ht hs hb hnow => ?_, fun r s u ht hnone => ?_⟩
  · subst hpos
    exact if_pos ⟨hp, hd⟩
  · exact if_neg (by omega)
  · have he : exec (.roomVisit r) s = .next (doRoomVisit r u) := by
      rw [exec, execRoomVisit, ht, whenTaken_some]
    rw [doRoomVisit, hb, hnow] at he
    dsimp only at he
    simp only [releaseDue_iff] at he
    split
    · rename_i hd
      rw [if_pos hd] at he
      have hk : (freeBooking i b (.released (deadline u b)) u).engine.kept.wf none := by
        rw [freeBooking_kept]
        exact ((Writes.of_takeEngine ht).sound.tables hs).kept
      obtain ⟨t, het, hshows, hlink, hbut⟩ := shown (w := count Counters.release _) hk he
      refine ⟨t, het, hshows, hlink.trans (freeBooking_link ..), ?_, hbut⟩
      obtain ⟨_, _, hcounters, _⟩ := hbut.frame
      rw [hcounters, count_counters, freeBooking_counters]
      rfl
    · rename_i hd
      rw [if_neg hd] at he
      exact he
  · have he : exec (.roomVisit r) s = .next (doRoomVisit r u) := by
      rw [exec, execRoomVisit, ht, whenTaken_some]
    rw [he, doRoomVisit]
    split
    · rename_i hb hnow
      rcases hnone with h | h
      · rw [h] at hb; cases hb
      · rw [h] at hnow; cases hnow
    · rfl

end Statements
end

