-- ==== Sys2Proof/Proofs/Creations.lean ====
section
/-! PROOFS. Book, Hold and FindRoom when they create a booking: the checks that pass, the record allocated, and the
room FindRoom chooses (R22, R25, R29, R31, R38, R42, R43, R52). -/

namespace Sys2Proof.Machine

variable {s t u : State}

/-! ### What an index reads -/

/-- A horizon index reads the engine's day alone (R1). -/
theorem idx_congr (hc : t.clock = s.clock) (hn : t.engine.now = s.engine.now) : idx t = idx s := by
  unfold idx engineDay engineNow
  rw [hc, hn]

theorem startIdx_congr (hc : t.clock = s.clock) (hn : t.engine.now = s.engine.now)
    (hr : t.store.records = s.store.records) : startIdx t = startIdx s := by
  unfold startIdx bookingAt recordAt
  rw [hr, idx_congr hc hn]

theorem expiryIdx_congr (hc : t.clock = s.clock) (hn : t.engine.now = s.engine.now)
    (hr : t.store.records = s.store.records) : expiryIdx t = expiryIdx s := by
  unfold expiryIdx bookingAt recordAt
  rw [hr, idx_congr hc hn]

/-! ### The checks that pass (R37 to R40) -/

/-- No reservation is found by the conflict test exactly when none conflicts (R37). -/
theorem firstConflict_eq_none {room : Nat} {a b : CTime} :
    firstConflict s room ⟨a, b⟩ none = none ↔ NoConflict s room a b (turnaround s room) := by
  unfold firstConflict NoConflict conflicts
  rw [Option.map_eq_none_iff, List.find?_eq_none]
  simp only [decide_eq_true_eq]

theorem turnaround_of_roomAt {r : Nat} {e : RoomEntry} (h : roomAt s r = some e) : turnaround s r = e.turnaround := by
  rw [turnaround, h]
  rfl

/-- An admissible span passes the checks 1 to 7. -/
theorem checkCreate_of_admissible {room n : Nat} {a b : CTime} (h : Admissible s room a b n) :
    checkCreate s room ⟨a, b⟩ n = none := by
  obtain ⟨e, now, hroom, hserv, hclose, hnow, h3, h144, hstart, hhor, hseats, hconf⟩ := h
  have hfirst : firstConflict s room ⟨a, b⟩ none = none := by
    rw [firstConflict_eq_none, turnaround_of_roomAt hroom]
    exact hconf
  have hopen : ¬ (s.policy.absentAction = .close ∧ panelPresent s room = false) := fun ⟨hc, hp⟩ => by
    rw [hclose hc] at hp
    cases hp
  rw [checkCreate_eq, hfirst, hroom, hnow]
  simp only [Option.map_some, Option.getD_some, hserv, reduceCtorEq, not_true_eq_false, ne_eq, false_or, if_false,
    if_neg hopen, if_neg (show ¬ (idx s b - idx s a < 3 ∨ 144 < idx s b - idx s a) by omega),
    if_neg (show ¬ (idx s a < idx s now ∨ 2304 < idx s b) by omega), if_neg (show ¬ e.seats < n by omega),
    Option.map_none]

theorem checkPool_of_free {i : Nat} {rest : List Nat} (h : s.store.free = i :: rest) : checkPool s = none := by
  rw [checkPool, h]
  rfl

theorem checkHolds_eq (s : State) : checkHolds s =
    if 64 ≤ s.store.holds.length then some ⟨.holdsFull, none⟩ else none :=
  require_eq (by rw [decide_eq_true_iff, Config.holdEntries, not_le])

theorem holdTimeOk_iff (s : State) (n : Nat) : holdTimeOk s n = true ↔ 1 ≤ n ∧ n ≤ s.policy.holdLimit :=
  decide_eq_true_iff

/-- The expiry of a hold, with a now (R42). -/
theorem holdExpiry_of_now {now : CTime} (h : engineNow s = some now) (n : Nat) :
    holdExpiry s n = shiftTime now n := by
  rw [holdExpiry, engineStamp, h]
  rfl

/-! ### The record allocated -/

theorem TablesCanonical.records (h : TablesCanonical s) : s.store.records.wf ⟨0, none⟩ := by
  obtain ⟨_, _, _, _, hr, _⟩ := h
  exact hr

theorem TablesCanonical.lists (h : TablesCanonical s) : s.store.lists.wf [] := by
  obtain ⟨_, _, _, _, _, hl, _⟩ := h
  exact hl

/-- A state whose store is that of an allocation, with the same now, has been given the booking. -/
theorem allocated_spec {i : Nat} {rest : List Nat} {b : Booking} (hw : TablesCanonical u)
    (hf : u.store.free = i :: rest) (hst : t.store = allocatedStore i rest b u) (hc : t.clock = u.clock)
    (hn : t.engine.now = u.engine.now) : Allocated u t i b ∧
      t.store.holds = if b.state = .tentative then insertBy (expiryIdx t) ⟨i, (recordAt u i).gen⟩ u.store.holds
        else u.store.holds := by
  have hrec : ∀ j, recordAt t j = if j = i then ⟨(recordAt u i).gen, some b⟩ else recordAt u j := fun j => by
    unfold recordAt
    rw [hst]
    exact Table.get_set hw.records i j _
  have hlist : ∀ r, roomList t r = if r = b.room then insertBy (startIdx t) i (roomList u b.room)
      else roomList u r := fun r => by
    have hstart : startIdx t = startIdx (madeLive i rest b u) := startIdx_congr hc hn (by rw [hst]; rfl)
    rw [roomList, hst, hstart]
    exact Table.get_set hw.lists b.room r _
  have hexp : expiryIdx t = expiryIdx (madeLive i rest b u) := expiryIdx_congr hc hn (by rw [hst]; rfl)
  have hhandle : handleOf (madeLive i rest b u) i = ⟨i, (recordAt u i).gen⟩ := by
    have hmade := recordAt_setBooking (s := { u with store := { u.store with free := rest } }) hw.records i i b
    rw [if_pos rfl] at hmade
    rw [handleOf, madeLive, hmade]
    rfl
  refine ⟨⟨?_, ?_, fun j hj => ?_, ?_, fun r hr => ?_, ?_⟩, ?_⟩
  · rw [hf, hst]
    rfl
  · rw [hrec, if_pos rfl]
  · rw [hrec, if_neg hj]
  · rw [hlist, if_pos rfl]
  · rw [hlist, if_neg hr]
  · rw [hst]
    rfl
  · rw [hst, hexp, ← hhandle]
    rfl

/-- The handle a new booking is answered with. -/
theorem handleOf_allocated {i : Nat} {rest : List Nat} {b : Booking} (hw : TablesCanonical u) :
    handleOf (allocated i rest b u) i = ⟨i, (recordAt u i).gen⟩ := by
  have hr : recordAt (allocated i rest b u) i = ⟨(recordAt u i).gen, some b⟩ :=
    (Table.get_set hw.records i i _).trans (if_pos rfl)
  rw [handleOf, hr]

/-- An admitted creation by the host: the record allocated, its room shown, the reply built from its handle. -/
theorem created {c : Instr} {i : Nat} {rest : List Nat} {b : Booking} {body : Handle → List Field}
    (hu : ∃ sl, u.link.slot = some sl) (hw : TablesCanonical u) (hf : u.store.free = i :: rest)
    (hp : b.provisional = false) (he : exec c s = .next (createAndReply b body u)) :
    ∃ t, exec c s = .next t ∧ Answered u t .ok (body ⟨i, (recordAt u i).gen⟩) ∧ Allocated u t i b ∧
      (t.store.holds = if b.state = .tentative then insertBy (expiryIdx t) ⟨i, (recordAt u i).gen⟩ u.store.holds
        else u.store.holds) ∧
      Shows b.room t ∧ ButDisplay { u with store := t.store } t := by
  rw [createAndReply, allocate_cons hf] at he
  dsimp only at he
  rw [handleOf_allocated hw] at he
  obtain ⟨t, het, hans, hshows, hbut⟩ := shown_and_answered (w := allocated i rest b u) hu rfl hw.kept he
  have heq : allocated i rest b u = { u with store := allocatedStore i rest b u } := by
    unfold allocated
    rw [hp]
    rfl
  rw [heq] at hbut
  obtain ⟨K, L, M, htd, hl⟩ := butDisplay_iff.1 hbut
  have hst : t.store = allocatedStore i rest b u := by rw [htd]
  obtain ⟨halloc, hholds⟩ := allocated_spec hw hf hst (by rw [htd]) (by rw [htd])
  exact ⟨t, het, hans, halloc, hholds, hshows, hst ▸ hbut⟩

end Sys2Proof.Machine

section Statements

open Sys2Proof Sys2Proof.Machine

/-- Settles O28: with every check passed, the creation is the allocation, the evaluation and the reply. -/
theorem bookingsCreated : Obligations.BookingsCreated := by
  refine ⟨fun q i rest s u ht hs hq hadm hf => ?_, fun q n i rest now s u ht hs hq hn1 hn2 hadm hnow hh hf => ?_⟩
  · have he : exec (.book q) s = .next (doBook q u) := ht.hostStep _
    have hchecks : (checkCreate u q.room (spanOf q) q.attendees).or (checkPool u) = none := by
      rw [show spanOf q = ⟨q.start, q.fin⟩ from rfl, checkCreate_of_admissible hadm, checkPool_of_free hf]
      rfl
    rw [doBook_eq, (fieldsOk_iff q).2 hq, if_neg (by decide), hchecks, refusedOrMade] at he
    obtain ⟨t, het, hans, halloc, hholds, hshows, hbut⟩ := created ht.slot (ht.canonical rfl hs) hf rfl he
    exact ⟨t, het, hans, halloc, hholds, hshows, hbut⟩
  · have he : exec (.hold q n) s = .next (doHold q n u) := ht.hostStep _
    have hchecks : (checkCreate u q.room (spanOf q) q.attendees).or ((checkHolds u).or (checkPool u)) = none := by
      rw [show spanOf q = ⟨q.start, q.fin⟩ from rfl, checkCreate_of_admissible hadm, checkHolds_eq,
        if_neg (not_le.2 hh), checkPool_of_free hf]
      rfl
    rw [doHold_eq, (fieldsOk_iff q).2 hq, (holdTimeOk_iff u n).2 ⟨hn1, hn2⟩, if_neg (by decide), hchecks, refusedOrMade,
      holdExpiry_of_now hnow] at he
    obtain ⟨t, het, hans, halloc, hholds, hshows, hbut⟩ := created ht.slot (ht.canonical rfl hs) hf rfl he
    exact ⟨t, het, hans, halloc, hholds, hshows, hbut⟩

end Statements
end

