-- ==== Sys2Proof/Proofs/FindRoom.lean ====
section
/-! PROOFS. FindRoom: its checks in order, and the walk of the Room Table that chooses the smallest room that fits
(R24, R32, R37, R38, R52). -/

namespace Sys2Proof.Machine

variable {s u : State}

/-! ### The checks of a FindRoom (R38, R52) -/

/-- The fields a FindRoom is refused for. -/
def BadFind (s : State) (q : FindReq) : Prop :=
  1 < q.flags ∨ 287 < q.start.quantum ∨ 287 < q.fin.quantum ∨ q.attendees < 1 ∨ 500 < q.attendees ∨
    (∃ b, q.building = some b ∧ 23 < b) ∨ (q.flags = 1 ∧ ¬(1 ≤ q.holdTime ∧ q.holdTime ≤ s.policy.holdLimit))

theorem findFieldsOk_iff (s : State) (q : FindReq) : findFieldsOk s q = true ↔ ¬ BadFind s q := by
  have hb : q.building.all (fun b => decide (b ≤ 23)) = true ↔ ¬ ∃ b, q.building = some b ∧ 23 < b := by
    cases q.building <;> simp
  have hh := holdTimeOk_iff s q.holdTime
  simp only [findFieldsOk, BadFind, Bool.and_eq_true, Bool.or_eq_true, decide_eq_true_eq, hb, hh, not_or]
  constructor
  · rintro ⟨⟨⟨h1, h2, h3, h4, h5⟩, h6⟩, h7⟩
    exact ⟨by omega, by omega, by omega, by omega, by omega, h6, by omega⟩
  · rintro ⟨h1, h2, h3, h4, h5, h6, h7⟩
    exact ⟨⟨⟨by omega, by omega, by omega, by omega, by omega⟩, h6⟩, by omega⟩

/-- The checks 3 to 5, the first that fails (R38, R39). -/
theorem checkSpan_eq (s : State) (sp : Span) : checkSpan s sp =
    if engineNow s = none then some ⟨.clockNotSet, none⟩
    else if idx s sp.fin - idx s sp.start < 3 ∨ 144 < idx s sp.fin - idx s sp.start then some ⟨.badField, none⟩
    else if idx s sp.start < ((engineNow s).map (idx s)).getD 0 ∨ 2304 < idx s sp.fin then some ⟨.outOfHorizon, none⟩
    else none := by
  have h3 : checkClock s = if engineNow s = none then some ⟨.clockNotSet, none⟩ else none :=
    require_eq Option.isSome_iff_ne_none
  have h4 : checkLength s sp = if idx s sp.fin - idx s sp.start < 3 ∨ 144 < idx s sp.fin - idx s sp.start then
      some ⟨.badField, none⟩ else none := require_eq (by rw [decide_eq_true_iff]; omega)
  have h5 : checkStart s sp.start = if idx s sp.start < ((engineNow s).map (idx s)).getD 0 then
      some ⟨.outOfHorizon, none⟩ else none := require_eq (by rw [decide_eq_true_iff]; omega)
  have h6 : checkHorizon s sp.fin = if 2304 < idx s sp.fin then some ⟨.outOfHorizon, none⟩ else none :=
    require_eq (by rw [decide_eq_true_iff]; omega)
  rw [checkSpan, h3, h4, h5, h6]
  simp only [ite_some_or, ite_ite_same]

/-! ### The rooms that fit -/

theorem require_eq_none {p : Bool} {r : Result} : require p r = none ↔ p = true := by
  unfold require
  split <;> simp [*]

theorem mem_rooms_iff (h : s.rooms.wf none) {r : Nat} {e : RoomEntry} :
    (r, some e) ∈ s.rooms.entries ↔ roomAt s r = some e := by
  constructor
  · exact fun hm => Table.lookup_of_mem none _ _ h.1 hm
  · intro hr
    rw [roomAt] at hr
    have := Table.mem_of_get (t := s.rooms) (d := none) h.1 (k := r) (by rw [hr]; exact nofun)
    rwa [hr] at this

/-- The room's tests of a FindRoom, one by one (R52). -/
theorem roomFits_iff {q : FindReq} {r : Nat} {e : RoomEntry} (hr : roomAt s r = some e) :
    roomFits s q r e = true ↔ RoomFits s q r e := by
  have hbuilding : q.building.all (fun b => decide (e.building = b)) = true ↔
      ∀ b, q.building = some b → e.building = b := by
    cases q.building <;> simp
  have hclose : closedByPolicy s r = false ↔ (s.policy.absentAction = .close → panelPresent s r = true) := by
    rw [closedByPolicy]
    cases panelPresent s r <;> simp
  have hconf : checkConflict s r ⟨q.start, q.fin⟩ none = none ↔ NoConflict s r q.start q.fin e.turnaround := by
    rw [checkConflict, Option.map_eq_none_iff, firstConflict_eq_none, turnaround_of_roomAt hr]
  simp only [roomFits, RoomFits, hr, true_and, Bool.and_eq_true, hbuilding, Option.isNone_iff_eq_none,
    Option.or_eq_none_iff, checkService, checkSeats, require_eq_none, Option.map_some, Option.getD_some,
    Bool.not_eq_true', hclose, decide_eq_true_eq, hconf, and_assoc]

/-! ### The walk of the Room Table (R52) -/

/-- One entry of the Room Table met by the walk: it takes the place of the best room so far when it fits and has
fewer seats. -/
def betterRoom (s : State) (q : FindReq) (best : Option (Nat × Nat)) (e : Nat × Option RoomEntry) :
    Option (Nat × Nat) :=
  match e.2 with
  | some entry =>
    if roomFits s q e.1 entry && best.all (fun b => decide (entry.seats < b.2)) then some (e.1, entry.seats) else best
  | none => best

theorem chooseRoom_eq (s : State) (q : FindReq) : chooseRoom s q = s.rooms.entries.foldl (betterRoom s q) none := rfl

variable {q : FindReq}

/-- A room that does not fit, or has no fewer seats than the best, is passed over. -/
theorem betterRoom_keep {r : Nat} {o : Option RoomEntry} {best : Option (Nat × Nat)}
    (h : ∀ e, o = some e → roomFits s q r e = true → ∃ b, best = some b ∧ b.2 ≤ e.seats) :
    betterRoom s q best (r, o) = best := by
  cases o with
  | none => rfl
  | some e =>
    refine if_neg fun hb => ?_
    rw [Bool.and_eq_true] at hb
    obtain ⟨b, rfl, hle⟩ := h e rfl hb.1
    simp at hb
    omega

/-- A room that fits and has fewer seats than the best takes its place. -/
theorem betterRoom_take {r : Nat} {e : RoomEntry} {best : Option (Nat × Nat)} (hf : roomFits s q r e = true)
    (hb : ∀ b, best = some b → e.seats < b.2) : betterRoom s q best (r, some e) = some (r, e.seats) := by
  refine if_pos ?_
  rw [Bool.and_eq_true]
  refine ⟨hf, ?_⟩
  cases best with
  | none => rfl
  | some b => simpa using hb b rfl

/-- With no room ahead that fits and has fewer seats, the best room stays. -/
theorem foldl_betterRoom_keep : ∀ {es : List (Nat × Option RoomEntry)} {best : Option (Nat × Nat)},
    (∀ r e, (r, some e) ∈ es → roomFits s q r e = true → ∃ b, best = some b ∧ b.2 ≤ e.seats) →
    es.foldl (betterRoom s q) best = best
  | [], _, _ => rfl
  | (r, o) :: es, best, h => by
    rw [List.foldl_cons, betterRoom_keep fun e he hf => h r e (by rw [he]; exact List.mem_cons_self) hf]
    exact foldl_betterRoom_keep fun r' e' hm => h r' e' (List.mem_cons_of_mem _ hm)

/-- The walk ends with the room of the fewest seats, the lowest index among equals. -/
theorem foldl_betterRoom_least {r : Nat} {e : RoomEntry} (hf : roomFits s q r e = true) :
    ∀ {es : List (Nat × Option RoomEntry)} {best : Option (Nat × Nat)}, (es.map Prod.fst).Pairwise (· < ·) →
    (r, some e) ∈ es → (∀ b, best = some b → e.seats < b.2) →
    (∀ r' e', (r', some e') ∈ es → roomFits s q r' e' = true →
      e.seats < e'.seats ∨ (e.seats = e'.seats ∧ r ≤ r')) →
    es.foldl (betterRoom s q) best = some (r, e.seats)
  | [], _, _, hm, _, _ => by cases hm
  | (r₀, o) :: es, best, hrise, hm, hbest, hleast => by
    have htail : ∀ r' e', (r', some e') ∈ es → roomFits s q r' e' = true →
        e.seats < e'.seats ∨ (e.seats = e'.seats ∧ r ≤ r') := fun r' e' h => hleast r' e' (List.mem_cons_of_mem _ h)
    rw [List.foldl_cons]
    rcases List.mem_cons.1 hm with heq | hm
    · cases heq
      rw [betterRoom_take hf hbest]
      refine foldl_betterRoom_keep fun r' e' h hf' => ⟨_, rfl, ?_⟩
      have := htail r' e' h hf'
      dsimp only
      omega
    · have hlt : r₀ < r := Table.head_lt hrise _ hm
      refine foldl_betterRoom_least hf (Table.tail_rising hrise) hm (fun b hb => ?_) htail
      cases o with
      | none => exact hbest b hb
      | some e₀ =>
        by_cases hf₀ : roomFits s q r₀ e₀ = true
        · have h0 := hleast r₀ e₀ List.mem_cons_self hf₀
          rw [betterRoom] at hb
          dsimp only at hb
          split at hb
          · cases hb
            dsimp only
            omega
          · exact hbest b hb
        · rw [betterRoom_keep fun e' he' h => absurd (by cases he'; exact h) hf₀] at hb
          exact hbest b hb

/-- FindRoom finds nothing when no room fits. -/
theorem chooseRoom_eq_none (h : s.rooms.wf none) (hn : ∀ r e, ¬ RoomFits s q r e) : chooseRoom s q = none := by
  rw [chooseRoom_eq]
  exact foldl_betterRoom_keep fun r e hm hf => absurd ((roomFits_iff ((mem_rooms_iff h).1 hm)).1 hf) (hn r e)

/-- FindRoom finds the fitting room with the fewest seats, the lowest index among equals. -/
theorem chooseRoom_eq_some (h : s.rooms.wf none) {r : Nat} {e : RoomEntry} (hf : RoomFits s q r e)
    (hleast : ∀ r' e', RoomFits s q r' e' → e.seats < e'.seats ∨ (e.seats = e'.seats ∧ r ≤ r')) :
    chooseRoom s q = some (r, e.seats) := by
  have hroom : roomAt s r = some e := hf.1
  rw [chooseRoom_eq]
  exact foldl_betterRoom_least ((roomFits_iff hroom).2 hf) h.1 ((mem_rooms_iff h).2 hroom) nofun
    fun r' e' hm hf' => hleast r' e' ((roomFits_iff ((mem_rooms_iff h).1 hm)).1 hf')

/-! ### The answer -/

/-- A POOL_EMPTY refused with a body of its own (R24). -/
theorem refusedPoolEmpty_of_turned_body {c : Instr} {room : Nat} {body : List Field} (hu : ∃ sl, u.link.slot = some sl)
    (he : exec c s = .next (refuseTurned room ⟨.poolEmpty, none⟩ body u)) : RefusedPoolEmpty c s u room body := by
  obtain ⟨sl, hsl⟩ := hu
  rw [refuseTurned, if_pos rfl, refuseHost, countRefusal_eq, openEpisode_eq] at he
  refine ⟨_, _, he, answered_finish hsl ?_ .., rfl, ?_⟩
  · simp only
    split <;> simp
  · rw [finish_eq]

/-- What FindRoom answers when it has chosen room `r` of so many seats (R52). -/
def answerFound (q : FindReq) (r seats : Nat) (s : State) : State :=
  if q.flags = 0 then finish .ok [.u16 r, .u16 seats] s
  else
    match (checkHolds s).or (checkPool s) with
    | some t => refuseTurned r t [.u16 r] s
    | none =>
      createAndReply (hostBooking ⟨r, q.start, q.fin, q.attendees, q.organizer⟩ .tentative
          (some (holdExpiry s q.holdTime)))
        (fun h => [.u16 r, .u16 seats, .handle h, .time (holdExpiry s q.holdTime)]) s

theorem doFindRoom_bad (h : BadFind s q) : doFindRoom q s = refuseHost .badField [] s := by
  have hf : findFieldsOk s q = false := by
    rw [Bool.eq_false_iff]
    exact fun hok => (findFieldsOk_iff s q).1 hok h
  rw [doFindRoom, hf]
  rfl

theorem doFindRoom_turned (h : ¬ BadFind s q) {x : Turned} (hx : checkSpan s ⟨q.start, q.fin⟩ = some x) :
    doFindRoom q s = refuseTurned 0 x x.body s := by
  rw [doFindRoom, (findFieldsOk_iff s q).2 h, hx]
  rfl

theorem doFindRoom_none (h : ¬ BadFind s q) (hx : checkSpan s ⟨q.start, q.fin⟩ = none) (hc : chooseRoom s q = none) :
    doFindRoom q s = refuseHost .noneFree [] s := by
  rw [doFindRoom, (findFieldsOk_iff s q).2 h, hx, hc]
  rfl

theorem doFindRoom_found (h : ¬ BadFind s q) (hx : checkSpan s ⟨q.start, q.fin⟩ = none) {r seats : Nat}
    (hc : chooseRoom s q = some (r, seats)) : doFindRoom q s = answerFound q r seats s := by
  rw [doFindRoom, (findFieldsOk_iff s q).2 h, hx, hc]
  rfl

end Sys2Proof.Machine

section Statements

open Sys2Proof Sys2Proof.Machine

/-- Settles O35: the checks in order, then the room the walk of the Room Table ends with, and what is made of it. -/
theorem findRoomChoosesTheSmallest : Obligations.FindRoomChoosesTheSmallest := by
  intro q s u ht hs
  have he : exec (.findRoom q) s = .next (doFindRoom q u) := ht.hostStep _
  have hw := ht.canonical rfl hs
  have hturned : ¬ BadFind u q → ∀ x : Turned, x.code ≠ .poolEmpty → checkSpan u ⟨q.start, q.fin⟩ = some x →
      RefusedByEngine (.findRoom q) s u x.code x.body := fun hok x hp hx =>
    refusedByEngine_of_turned ht.slot hp (by rw [he, doFindRoom_turned hok hx])
  split
  · rename_i hbad
    rw [doFindRoom_bad hbad] at he
    exact refusedByEngine_of_refuse ht.slot he
  · rename_i hok
    replace hturned := hturned hok
    rw [checkSpan_eq] at hturned
    cases hnow : engineNow u with
    | none => exact hturned ⟨.clockNotSet, none⟩ (by decide) (if_pos hnow)
    | some now =>
      have hsome : ¬ engineNow u = none := by rw [hnow]; exact nofun
      rw [if_neg hsome, hnow] at hturned
      dsimp only
      split
      · exact hturned ⟨.badField, none⟩ (by decide) (if_pos ‹_›)
      · rename_i hlen
        rw [if_neg hlen] at hturned
        split
        · exact hturned ⟨.outOfHorizon, none⟩ (by decide) (if_pos ‹_›)
        · rename_i hhor
          have hspan : checkSpan u ⟨q.start, q.fin⟩ = none := by
            rw [checkSpan_eq, if_neg hsome, if_neg hlen, hnow]
            exact if_neg hhor
          refine ⟨fun hnone => ?_, fun r e hf hleast => ?_⟩
          · rw [doFindRoom_none hok hspan (chooseRoom_eq_none hw.1 hnone)] at he
            exact refusedByEngine_of_refuse ht.slot he
          · rw [doFindRoom_found hok hspan (chooseRoom_eq_some hw.1 hf hleast), answerFound] at he
            refine ⟨fun h0 => ?_, fun h1 hfull => ?_, fun h1 hroom hfree => ?_, fun i rest h1 hroom hfree => ?_⟩
            · rw [if_pos h0] at he
              exact repliesOnly_of_finish ht.slot he
            · rw [if_neg (by omega), checkHolds_eq, if_pos hfull, Option.some_or] at he
              exact refusedByEngine_of_refuse ht.slot he
            · have hpool : checkPool u = some ⟨.poolEmpty, none⟩ := by rw [checkPool, hfree]; rfl
              rw [if_neg (by omega), checkHolds_eq, if_neg (not_le.2 hroom), Option.none_or, hpool] at he
              exact refusedPoolEmpty_of_turned_body ht.slot he
            · rw [if_neg (by omega), checkHolds_eq, if_neg (not_le.2 hroom), Option.none_or, checkPool_of_free hfree,
                holdExpiry_of_now hnow] at he
              obtain ⟨t, het, hans, halloc, hholds, hshows, hbut⟩ := created ht.slot hw hfree rfl he
              exact ⟨t, het, hans, halloc, hholds, hshows, hbut⟩

end Statements
end

