-- ==== Sys2Proof/Proofs/PlannerAnswers.lean ====
section
/-! PROOFS. A PlaceOrder at the engine, and the planner's answers to an admission and to a refit, each with the outcome
that fell due meanwhile (R27 to R29, R49 to R51, R84, R91, R94). -/

namespace Sys2Proof.Machine

/-! ### One record written twice -/

section Tables

variable {α : Type} [DecidableEq α]

/-- An insertion below every listed key. -/
theorem Table.insert_of_lt (d : α) {es : List (Nat × α)} {k : Nat} (h : ∀ e ∈ es, k < e.1) (v : α) :
    Table.insert d es k v = if v = d then es else (k, v) :: es := by
  cases es with
  | nil => rfl
  | cons e es => exact if_pos (h e List.mem_cons_self)

/-- Of two insertions at one key the last one counts. -/
theorem Table.insert_insert (d : α) (k : Nat) (v w : α) : ∀ {es : List (Nat × α)},
    (es.map Prod.fst).Pairwise (· < ·) → Table.insert d (Table.insert d es k v) k w = Table.insert d es k w
  | [], _ => by by_cases hv : v = d <;> simp [Table.insert, hv]
  | (k', v') :: es, h => by
    have ih := Table.insert_insert d k v w (Table.tail_rising h)
    have hhead := Table.head_lt h
    by_cases hlt : k < k'
    · by_cases hv : v = d <;> simp [Table.insert, hlt, hv]
    · by_cases heq : k = k'
      · subst heq
        by_cases hv : v = d
        · simp [Table.insert, hv, Table.insert_of_lt d hhead]
        · simp [Table.insert, hv]
      · simp [Table.insert, hlt, heq, ih]

/-- Of two writes at one key the last one counts. -/
theorem Table.set_set {t : Table α} {d : α} (h : t.wf d) (k : Nat) (v w : α) :
    (t.set d k v).set d k w = t.set d k w :=
  congrArg Table.mk (Table.insert_insert d k v w h.1)

end Tables

variable {s t u v w : State}

/-! ### The outcome that fell due (R28) -/

/-- The deferred outcome test: the booking freed when an outcome is due. -/
theorem deferredOutcome_due {i : Nat} {b : Booking} {now : CTime} (hb : bookingAt s i = some b)
    (hnow : engineNow s = some now) (hd : OutcomeDue s b now) :
    deferredOutcome i s = freeBooking i b (if b.state = .tentative then .expired else .ended) s := by
  unfold deferredOutcome
  rw [hb, hnow]
  dsimp only
  split
  · rename_i he
    rw [if_pos he.1]
  · rename_i he
    have hfin : idx s b.fin ≤ idx s now := by
      refine hd.resolve_left fun ⟨ht, e, hexp, hle⟩ => he ⟨ht, ?_⟩
      rw [hexp]
      exact decide_eq_true hle
    rw [if_pos hfin, endOutcome]

/-- With none due the booking stands. -/
theorem deferredOutcome_not_due {i : Nat} {b : Booking} {now : CTime} (hb : bookingAt s i = some b)
    (hnow : engineNow s = some now) (hd : ¬ OutcomeDue s b now) : deferredOutcome i s = s := by
  unfold deferredOutcome
  rw [hb, hnow]
  dsimp only
  have hexp : ¬ (b.state = .tentative ∧ b.expiry.any (fun e => decide (idx s e ≤ idx s now)) = true) := fun ⟨ht, he⟩ => by
    obtain ⟨e, hx, hle⟩ := Option.any_eq_true _ _ |>.1 he
    exact hd (.inl ⟨ht, e, hx, of_decide_eq_true hle⟩)
  rw [if_neg hexp, if_neg fun hf => hd (.inr hf)]

/-- What the deferred outcome test can do: nothing, or the booking is freed. -/
theorem deferredOutcome_cases (i : Nat) (s : State) :
    deferredOutcome i s = s ∨ ∃ b out, bookingAt s i = some b ∧ deferredOutcome i s = freeBooking i b out s := by
  unfold deferredOutcome
  split
  · rename_i b _ hb _
    split_ifs
    · exact .inr ⟨b, _, hb, rfl⟩
    · exact .inr ⟨b, _, hb, rfl⟩
    · exact .inl rfl
  · exact .inl rfl

/-- The test reads and writes neither the display nor the link, nor the staged span. -/
theorem deferredOutcome_frame (i : Nat) (s : State) : (deferredOutcome i s).engine.kept = s.engine.kept ∧
    (deferredOutcome i s).engine.staged = s.engine.staged ∧ (deferredOutcome i s).lines = s.lines ∧
    (deferredOutcome i s).link = s.link := by
  rcases deferredOutcome_cases i s with h | ⟨b, out, _, h⟩ <;> rw [h]
  · exact ⟨rfl, rfl, rfl, rfl⟩
  · rw [freeBooking_eq]
    exact ⟨rfl, rfl, rfl, rfl⟩

/-- Nor any record but its own. -/
theorem recordAt_deferredOutcome (h : s.store.records.wf ⟨0, none⟩) {i j : Nat} (hj : j ≠ i) :
    recordAt (deferredOutcome i s) j = recordAt s j := by
  rcases deferredOutcome_cases i s with e | ⟨b, out, _, e⟩ <;> rw [e]
  rw [recordAt_freeBooking h, if_neg hj]

/-- A state that is `v` but for the display, after the deferred outcome test: `v` with the booking freed, or `v`. -/
def Settled (i : Nat) (b : Booking) (now : CTime) (v t : State) : Prop :=
  (¬ OutcomeDue v b now → ButDisplay v t) ∧
  (OutcomeDue v b now → ButDisplay (freeBooking i b (if b.state = .tentative then .expired else .ended) v) t)

theorem settled_deferredOutcome {i : Nat} {b : Booking} {now : CTime} (hd : ButDisplay v w)
    (hb : bookingAt v i = some b) (hnow : engineNow v = some now) : Settled i b now v (deferredOutcome i w) := by
  have hw : bookingAt w i = some b ∧ engineNow w = some now ∧ (OutcomeDue w b now ↔ OutcomeDue v b now) := by
    obtain ⟨K, L, M, rfl, _⟩ := butDisplay_iff.1 hd
    exact ⟨hb, hnow, Iff.rfl⟩
  obtain ⟨hbw, hnw, hiff⟩ := hw
  constructor
  · intro h
    rw [deferredOutcome_not_due hbw hnw fun hdue => h (hiff.1 hdue)]
    exact hd
  · intro h
    rw [deferredOutcome_due hbw hnw (hiff.2 h)]
    exact hd.freeBooking ..

theorem Settled.trans {i : Nat} {b : Booking} {now : CTime} (h : Settled i b now v w) (hd : ButDisplay w t) :
    Settled i b now v t := ⟨fun hn => (h.1 hn).trans hd, fun hn => (h.2 hn).trans hd⟩

/-! ### The answer of an admission (R91) -/

theorem bookingAt_setBooking (h : s.store.records.wf ⟨0, none⟩) (i : Nat) (b : Booking) :
    bookingAt (setBooking i b s) i = some b := by
  rw [bookingAt, recordAt_setBooking h, if_pos rfl]

/-- A write of a booking leaves every handle. -/
theorem handleOf_setBooking (h : s.store.records.wf ⟨0, none⟩) (i j : Nat) (b : Booking) :
    handleOf (setBooking i b s) j = handleOf s j := by
  rw [handleOf, handleOf, recordAt_setBooking h]
  split
  · rename_i e
    rw [e]
  · rfl

theorem clearMark_eq {i : Nat} {b : Booking} (hb : bookingAt s i = some b) (f : Booking → Booking) :
    clearMark i f s = setBooking i { f b with pending := none } s := by
  rw [clearMark, hb]

theorem roomOfRecord_eq {i : Nat} {b : Booking} (hb : bookingAt s i = some b) : roomOfRecord s i = b.room := by
  rw [roomOfRecord, hb]
  rfl

/-- The engine's work on an admission answer, before the reply: the mark cleared and the link set in `v`, the outcome
that fell due, and the room shown. -/
theorem settleAdmission_spec {h : Handle} {link : Option Handle} {b nb : Booking} {now : CTime}
    (hw : TablesCanonical u) (hb : bookingAt u h.index = some b) (hnow : engineNow u = some now)
    (hnb : nb = { b with order := if link.isSome then link else b.order, pending := none })
    (hv : v = setBooking h.index nb u) (ht : t = settleAdmission h link u) :
    Settled h.index nb now v t ∧ Shows b.room t ∧ t.link = u.link ∧
      (link.isSome = true → ∀ x, bindingOf u b.room = some x → ∃ ws, (t.lines.get x.line).intake =
        (u.lines.get x.line).intake ++ .display b.room :: ws) := by
  obtain ⟨x, hx⟩ : ∃ x, x = if link.isSome then requestDisplay b.room v else v := ⟨_, rfl⟩
  have hte : t = evalDisplay b.room (deferredOutcome h.index x) := by
    rw [ht, settleAdmission, roomOfRecord_eq hb, clearMark_eq hb, hx, hv, hnb]
    cases link <;> rfl
  have hvx : ButDisplay v x := by
    rw [hx]
    split
    · exact ButDisplay.requestDisplay ..
    · rfl
  obtain ⟨hkept, _, hlines, hlink⟩ := deferredOutcome_frame h.index x
  have hk : (deferredOutcome h.index x).engine.kept.wf none := by
    rw [hkept, hx, hv]
    split
    · simpa using hw.kept
    · exact hw.kept
  have hbv : bookingAt v h.index = some nb := by rw [hv, bookingAt_setBooking hw.records]
  have hset := settled_deferredOutcome hvx hbv (by rw [hv]; exact hnow)
  refine ⟨?_, ?_, ?_, fun hl y hy => ?_⟩
  · rw [hte]
    exact hset.trans (ButDisplay.evalDisplay ..)
  · rw [hte]
    exact Shows.evalDisplay_self hk _
  · rw [hte]
    have : x.link = u.link := by
      rw [hx, hv]
      split <;> simp
    simpa [hlink] using this
  · have hx' : x = requestDisplay b.room v := by rw [hx, if_pos hl]
    have hgain := (ButDisplay.evalDisplay b.room (deferredOutcome h.index x)).2 y.line
    rw [← hte, hlines, hx'] at hgain
    obtain ⟨ws, hws⟩ := hgain
    refine ⟨ws, ?_⟩
    have hbind : bindingOf v b.room = some y := by rw [hv]; exact hy
    rw [hws]
    change ((requestDisplay b.room v).lines.get y.line).intake ++ ws = _
    rw [requestDisplay_intake, hbind, hv]
    simp [sentTo]

end Sys2Proof.Machine

section Statements

open Sys2Proof Sys2Proof.Machine

/-- Settles O36: the request is one mark and one admission sent; the answer is the mark cleared, the outcome that fell
due, the evaluation and the reply. -/
theorem placeOrderAndItsAnswer : Obligations.PlaceOrderAndItsAnswer := by
  refine ⟨fun h n ls b s u ht hs hn => ?_,
    fun h o k sh p n w d now b nb s u v htake hslot hs hb hnow hnb hv => ?_,
    fun h code rs now b nb s u v htake hslot hs hb hnow hnb hv => ?_⟩
  · have he : exec (.placeOrder h n ls) s = .next (doPlaceOrder h n ls u) := ht.hostStep _
    rw [doPlaceOrder, withBooking_named hn] at he
    split
    · rename_i h1
      rw [if_pos h1] at he
      exact refusedByEngine_of_refuse ht.slot he
    · rename_i h1
      rw [if_neg h1] at he
      simp only [Option.isSome_iff_ne_none] at he
      split
      · rename_i h2
        rw [if_pos h2] at he
        exact refusedByEngine_of_refuse ht.slot he
      · rename_i h2
        rw [if_neg h2] at he
        have hk : (sendPlanner (.admission h b.start b.room n ls)
            (setBooking h.index { b with pending := some .orderPending } u)).engine.kept.wf none :=
          (ht.canonical rfl hs).kept
        obtain ⟨t, het, hshows, hlink, hbut⟩ := shown hk he
        rw [setBooking_eq hn.gen] at hbut
        exact ⟨t, het, hlink, hshows, hbut⟩
  · have he : exec (.engineTakesAdmissionAnswer h (.admitted o k sh w d p n)) s =
        .next (doAdmissionAnswer h (.admitted o k sh w d p n) u) := by
      rw [exec, execEngineTakesAdmissionAnswer, htake, whenTaken_some]
    obtain ⟨sl, hsl⟩ := Option.isSome_iff_exists.1 hslot
    obtain ⟨hset, hshows, hlink, hdisplay⟩ := settleAdmission_spec (link := some o)
      ((Writes.of_takeEngine htake).sound.tables hs) hb hnow hnb hv rfl
    have hset' := hset.trans (ButDisplay.finish .ok
      [.handle o, .u8 k, .u8 sh, .time w, .time d, .u16 p, .u8 n] (settleAdmission h (some o) u))
    have hdue : OutcomeDue v nb now ↔ OutcomeDue u b now := by rw [hv, hnb]; rfl
    have hstate : nb.state = b.state := by rw [hnb]
    rw [Settled, hdue, hstate] at hset'
    refine ⟨_, he, answered_finish hsl hlink .., hshows.finish .., fun x hx => ?_, hset'.1, fun hd => ⟨hset'.2 hd, ?_⟩⟩
    · obtain ⟨ws, hws⟩ := hdisplay rfl x hx
      exact ⟨ws, by simpa [doAdmissionAnswer] using hws⟩
    · have horder : nb.order = some o := by rw [hnb]
      have hgen : handleOf v h.index = handleOf u h.index := by
        rw [hv]
        exact handleOf_setBooking ((Writes.of_takeEngine htake).sound.tables hs).records ..
      obtain ⟨_, hplanner, _⟩ := (hset'.2 hd).frame
      rw [doAdmissionAnswer, hplanner, freeBooking_eq]
      change _ ∈ v.planner.intake ++ handoffsOf (handleOf v h.index) nb _
      rw [handoffsOf, horder, hgen, handleOf]
      by_cases hten : b.state = .tentative <;> simp [hten, Terminal.kind]
  · have he : exec (.engineTakesAdmissionAnswer h (.refused code rs)) s =
        .next (doAdmissionAnswer h (.refused code rs) u) := by
      rw [exec, execEngineTakesAdmissionAnswer, htake, whenTaken_some]
    obtain ⟨sl, hsl⟩ := Option.isSome_iff_exists.1 hslot
    obtain ⟨hset, hshows, hlink, _⟩ := settleAdmission_spec (link := none)
      ((Writes.of_takeEngine htake).sound.tables hs) hb hnow hnb hv rfl
    have hdue : OutcomeDue v nb now ↔ OutcomeDue u b now := by rw [hv, hnb]; rfl
    have hstate : nb.state = b.state := by rw [hnb]
    rw [Settled, hdue, hstate] at hset
    have hcount := fun {x} (hx : ButDisplay x (settleAdmission h none u)) =>
      (hx.count Counters.cateringRefusal).trans (ButDisplay.finish code ((rs.map reasonFields).getD []) _)
    have hcounters : (settleAdmission h none u).counters.cateringRefusals = u.counters.cateringRefusals := by
      by_cases hd : OutcomeDue u b now
      · obtain ⟨_, _, hc, _⟩ := (hset.2 hd).frame
        rw [hc, freeBooking_counters, hv]
      · obtain ⟨_, _, hc, _⟩ := (hset.1 hd).frame
        rw [hc, hv]
    have hshows' : Shows b.room (count Counters.cateringRefusal (settleAdmission h none u)) := hshows
    have hlink' : (count Counters.cateringRefusal (settleAdmission h none u)).link = u.link := hlink
    refine ⟨_, he, ?_, ?_, hshows'.finish .., fun hd => ?_, fun hd => hcount (hset.2 hd)⟩
    · cases rs <;> exact answered_finish hsl hlink' ..
    · rw [doAdmissionAnswer]
      simp [Counters.cateringRefusal, hcounters]
    · have := hcount (hset.1 hd)
      rw [hv] at this ⊢
      exact this

end Statements
end

