-- ==== Sys2Proof/Proofs/RefitAnswers.lean ====
section
/-! PROOFS. A move committed, and the engine's work on the answer of a refit (R28, R29, R49 to R51, R94). -/

namespace Sys2Proof.Machine

variable {s t u v w : State}

/-! ### A move committed (R49) -/

/-- A booking with a new room, span and count (R48, R49). -/
def movedBooking (b : Booking) (room : Nat) (sp : Span) (n : Nat) : Booking :=
  { b with room := room, start := sp.start, fin := sp.fin, attendees := newCount b n }

/-- A committed move writes its own record and the room lists. -/
theorem commitMove_eq (i : Nat) (b : Booking) (room : Nat) (sp : Span) (n : Nat) (s : State) :
    commitMove i b room sp n s = { s with store := { s.store with
      records := s.store.records.set ⟨0, none⟩ i ⟨(recordAt s i).gen, some (movedBooking b room sp n)⟩
      lists := (commitMove i b room sp n s).store.lists } } := by
  unfold commitMove
  dsimp only
  split <;> rfl

/-- A start index reads the starts alone. -/
theorem startIdx_of_starts (hc : t.clock = s.clock) (hn : t.engine.now = s.engine.now)
    (hr : ∀ j, (bookingAt t j).map Booking.start = (bookingAt s j).map Booking.start) : startIdx t = startIdx s := by
  funext j
  have h := congrArg (Option.map (idx s)) (hr j)
  rw [Option.map_map, Option.map_map] at h
  unfold startIdx
  rw [idx_congr hc hn]
  exact congrArg (Option.getD · 0) h

/-- The room lists after a committed move: the record stands in the new room's list by its new start, and in no other;
a change of the end or the count alone leaves it in its place (R29, R49). -/
theorem roomList_commitMove (hw : s.store.lists.wf []) (i : Nat) (b : Booking) (room : Nat) (sp : Span) (n r : Nat) :
    roomList (commitMove i b room sp n s) r =
      if room = b.room ∧ sp.start = b.start then roomList s r
      else if r = room then insertBy (startIdx (commitMove i b room sp n s)) i
        (if room = b.room then (roomList s r).filter (· ≠ i) else roomList s r)
      else if r = b.room then (roomList s r).filter (· ≠ i)
      else roomList s r := by
  by_cases hsame : room = b.room ∧ sp.start = b.start
  · rw [if_pos hsame, commitMove, if_pos hsame]
    rfl
  · obtain ⟨x, hx⟩ : ∃ x, x = setBooking i (movedBooking b room sp n) (leaveRoomList b.room i s) := ⟨_, rfl⟩
    have he : commitMove i b room sp n s = enterRoomList room i x := by
      rw [hx, commitMove, if_neg hsame]
      rfl
    have hleft : ∀ r, roomList x r = if r = b.room then (roomList s b.room).filter (· ≠ i) else roomList s r := by
      intro r
      rw [hx]
      exact Table.get_set hw b.room r _
    have hwx : x.store.lists.wf [] := by
      rw [hx]
      exact Table.set_wf hw _ _
    have hstart : startIdx (enterRoomList room i x) = startIdx x := rfl
    rw [if_neg hsame, he, hstart]
    refine (Table.get_set hwx room r _).trans ?_
    split
    · rename_i e
      rw [e, hleft]
      split
      · rename_i e'
        rw [e']
      · rfl
    · change roomList x r = _
      rw [hleft]
      split
      · rename_i e
        rw [e]
      · rfl

/-! ### The refit settled (R51) -/

/-- The end of the engine's work on a refit answer: the mark cleared and the staged span discarded in `v`, the outcome
that fell due, and both rooms shown. -/
theorem settleRefit_spec {h : Handle} {old new : Nat} {b nb : Booking} {now : CTime}
    (hw : TablesCanonical w) (hb : bookingAt w h.index = some b) (hnow : engineNow w = some now)
    (hnb : nb = { b with pending := none }) (hv : v = discardStaged (setBooking h.index nb w))
    (ht : t = settleRefit h old new w) :
    Settled h.index nb now v t ∧ Shows old t ∧ Shows new t ∧ t.link = w.link ∧ t.engine.staged = none ∧
      ∀ j, j ≠ h.index → recordAt t j = recordAt v j := by
  have hte : t = evalMove old new (deferredOutcome h.index v) := by
    rw [ht, settleRefit, clearMark_eq hb, hv, hnb]
    rfl
  obtain ⟨hkept, hstaged, _, hlink⟩ := deferredOutcome_frame h.index v
  have hk : (deferredOutcome h.index v).engine.kept.wf none := by
    rw [hkept, hv]
    exact hw.kept
  have hbv : bookingAt v h.index = some nb := by
    rw [hv]
    exact bookingAt_setBooking hw.records h.index nb
  have hrec : v.store.records.wf ⟨0, none⟩ := by
    rw [hv]
    exact Table.set_wf hw.records _ _
  have hset := settled_deferredOutcome (ButDisplay.refl v) hbv (by rw [hv]; exact hnow)
  have hmove := ButDisplay.evalMove old new (deferredOutcome h.index v)
  obtain ⟨hold, hnew⟩ := Shows.evalMove hk old new
  obtain ⟨hstore, _, _, hengine⟩ := hmove.frame
  rw [← hte] at hmove hold hnew hstore hengine
  refine ⟨hset.trans hmove, hold, hnew, ?_, ?_, fun j hj => ?_⟩
  · rw [hte, evalMove]
    split
    · rw [hv] at hlink ⊢
      simpa using hlink
    · rw [hv] at hlink ⊢
      simpa using hlink
  · rw [hengine]
    change (deferredOutcome h.index v).engine.staged = none
    rw [hstaged, hv]
    rfl
  · have : recordAt t j = recordAt (deferredOutcome h.index v) j := by
      unfold recordAt
      rw [hstore]
    rw [this, recordAt_deferredOutcome hrec hj]

/-- An outcome is due by the indices of the times it reads. -/
theorem outcomeDue_congr (hc : v.clock = u.clock) (hn : v.engine.now = u.engine.now) (b : Booking) (now : CTime) :
    OutcomeDue v b now ↔ OutcomeDue u b now := by
  unfold OutcomeDue
  rw [idx_congr hc hn]

/-- A move committed and its booking written once more: one write of the record. -/
theorem setBooking_commitMove (h : s.store.records.wf ⟨0, none⟩) (i : Nat) (b nb : Booking) (room : Nat) (sp : Span)
    (n : Nat) : setBooking i nb (commitMove i b room sp n s) = { s with store := { s.store with
      records := s.store.records.set ⟨0, none⟩ i ⟨(recordAt s i).gen, some nb⟩
      lists := (commitMove i b room sp n s).store.lists } } := by
  have hgen : (recordAt (commitMove i b room sp n s) i).gen = (recordAt s i).gen := by
    have hrecord := (Table.get_set h i i
      (⟨(recordAt s i).gen, some (movedBooking b room sp n)⟩ : Record Booking)).trans (if_pos rfl)
    rw [commitMove_eq]
    exact (congrArg Record.gen hrecord :)
  rw [setBooking_eq hgen, commitMove_eq]
  dsimp only
  rw [Table.set_set h]

/-- A refit answer that commits the staged move: the move, its settling and the reply (R51). -/
theorem commitRefit_spec {c : Instr} {h : Handle} {keepOrder : Bool} {body : Staged → List Field} {g : Staged}
    {b nb : Booking} {now : CTime} (hu : ∃ sl, u.link.slot = some sl) (hw : TablesCanonical u)
    (hg : u.engine.staged = some g) (hi : g.booking.index = h.index) (hb : bookingAt u h.index = some b)
    (hnow : engineNow u = some now)
    (hnb : nb = { movedBooking (if keepOrder then b else { b with order := none }) g.room ⟨g.start, g.fin⟩ g.attendees
      with pending := none })
    (he : exec c s = .next (commitRefit h keepOrder body u)) :
    ∃ t v, exec c s = .next t ∧ Answered u t .ok (body g) ∧
      v = { u with
        store := { u.store with
          records := u.store.records.set ⟨0, none⟩ h.index ⟨(recordAt u h.index).gen, some nb⟩
          lists := v.store.lists }
        engine := { u.engine with staged := none } } ∧
      (∀ r, roomList v r =
        if g.room = b.room ∧ g.start = b.start then roomList u r
        else if r = g.room then insertBy (startIdx v) h.index
          (if g.room = b.room then (roomList u r).filter (· ≠ h.index) else roomList u r)
        else if r = b.room then (roomList u r).filter (· ≠ h.index)
        else roomList u r) ∧
      t.engine.staged = none ∧ Shows b.room t ∧ Shows g.room t ∧
      (∀ j, j ≠ h.index → recordAt t j = recordAt u j) ∧ Settled h.index nb now v t := by
  obtain ⟨sl, hsl⟩ := hu
  obtain ⟨b₀, hb₀⟩ : ∃ b₀, b₀ = if keepOrder then b else { b with order := none } := ⟨_, rfl⟩
  have hroom₀ : b₀.room = b.room := by rw [hb₀]; split <;> rfl
  have hstart₀ : b₀.start = b.start := by rw [hb₀]; split <;> rfl
  rw [← hb₀] at hnb
  obtain ⟨m, hm⟩ : ∃ m, m = commitMove h.index b₀ g.room ⟨g.start, g.fin⟩ g.attendees u := ⟨_, rfl⟩
  have hcommit : commitStaged g keepOrder u = m := by
    rw [commitStaged, hi, hb, hm, hb₀]
  have hmw : TablesCanonical m := by
    rw [hm]
    exact ((Writes.refl .engine u).commitMove ..).sound.tables hw
  have hbm : bookingAt m h.index = some (movedBooking b₀ g.room ⟨g.start, g.fin⟩ g.attendees) := by
    have hrecord := (Table.get_set hw.records h.index h.index (⟨(recordAt u h.index).gen,
      some (movedBooking b₀ g.room ⟨g.start, g.fin⟩ g.attendees)⟩ : Record Booking)).trans (if_pos rfl)
    rw [hm, commitMove_eq]
    exact (congrArg Record.body hrecord :)
  have hnm : engineNow m = some now := by
    rw [hm, commitMove_eq]
    exact hnow
  obtain ⟨v, hv⟩ : ∃ v, v = discardStaged (setBooking h.index nb m) := ⟨_, rfl⟩
  obtain ⟨t, ht⟩ : ∃ t, t = settleRefit h b.room g.room m := ⟨_, rfl⟩
  obtain ⟨hset, hold, hnew, hlink, hstaged, hothers⟩ := settleRefit_spec hmw hbm hnm hnb hv ht
  have hveq : v = { u with
      store := { u.store with
        records := u.store.records.set ⟨0, none⟩ h.index ⟨(recordAt u h.index).gen, some nb⟩
        lists := v.store.lists }
      engine := { u.engine with staged := none } } := by
    rw [hv, hm, setBooking_commitMove hw.records]
    rfl
  have hfin := ButDisplay.finish .ok (body g) t
  rw [commitRefit, hg] at he
  dsimp only at he
  rw [roomOfRecord_eq hb, hcommit, ← ht] at he
  refine ⟨_, v, he, answered_finish hsl (hlink.trans ?_) .., hveq, fun r => ?_, ?_, hold.finish .., hnew.finish ..,
    fun j hj => ?_, hset.trans hfin⟩
  · rw [hm, commitMove_eq]
  · have hstarts : startIdx v = startIdx m := by
      refine startIdx_of_starts (by rw [hv]; rfl) (by rw [hv]; rfl) fun j => ?_
      have hrec : recordAt v j = if j = h.index then ⟨(recordAt m h.index).gen, some nb⟩ else recordAt m j := by
        rw [hv]
        exact recordAt_setBooking hmw.records h.index j nb
      rw [bookingAt, hrec]
      split
      · rename_i e
        rw [e, hbm, hnb]
        rfl
      · rfl
    have hlists : roomList v r = roomList m r := by rw [hv]; rfl
    rw [hlists, hstarts, hm, roomList_commitMove hw.lists, hroom₀, hstart₀]
  · obtain ⟨_, _, _, hengine⟩ := hfin.frame
    rw [hengine]
    exact hstaged
  · have hrec : recordAt v j = recordAt u j := by
      rw [hveq]
      exact (Table.get_set hw.records h.index j _).trans (if_neg hj)
    obtain ⟨hstore, _⟩ := hfin.frame
    rw [recordAt, hstore]
    exact (hothers j hj).trans hrec

/-- A refit answer that refuses the move: its settling, the two counters and the reply (R51, R94). -/
theorem refuseMove_spec {c : Instr} {h : Handle} {code : Result} {body : List Field} {b nb : Booking} {now : CTime}
    (hu : ∃ sl, u.link.slot = some sl) (hw : TablesCanonical u) (hb : bookingAt u h.index = some b)
    (hnow : engineNow u = some now) (hnb : nb = { b with pending := none })
    (hv : v = discardStaged (setBooking h.index nb u)) (hcode : code ≠ .noSuchRoom)
    (he : exec c s = .next (refuseMove h code body u)) :
    ∃ t, exec c s = .next t ∧ Answered u t code body ∧ t.engine.staged = none ∧ Shows b.room t ∧
      ∀ w : State,
        (OutcomeDue u b now →
          w = freeBooking h.index nb (if b.state = .tentative then .expired else .ended) v) →
        (¬ OutcomeDue u b now → w = v) →
        ButDisplay { w with counters := { w.counters with
          cateringRefusals := saturate u.counters.cateringRefusals
          bookingRefusals := saturate u.counters.bookingRefusals } } t := by
  obtain ⟨sl, hsl⟩ := hu
  obtain ⟨x, hx⟩ : ∃ x, x = settleRefit h b.room b.room u := ⟨_, rfl⟩
  obtain ⟨hset, hshows, _, hlink, hstaged, _⟩ := settleRefit_spec hw hb hnow hnb hv hx
  obtain ⟨y, hy⟩ : ∃ y, y = { x with counters := refusedCounters x.counters.cateringRefusal code } := ⟨_, rfl⟩
  have hdue : OutcomeDue v nb now ↔ OutcomeDue u b now := by rw [hv, hnb]; rfl
  have hstate : nb.state = b.state := by rw [hnb]
  rw [Settled, hdue, hstate] at hset
  rw [refuseMove, roomOfRecord_eq hb, ← hx, refuseHost, countRefusal_eq] at he
  change exec c s = .next (finish code body { x with counters := refusedCounters x.counters.cateringRefusal code }) at he
  rw [← hy] at he
  have hshows' : Shows b.room y := by rw [hy]; exact hshows
  refine ⟨_, he, answered_finish hsl (by rw [hy]; exact hlink) .., ?_, hshows'.finish .., fun w hwd hwn => ?_⟩
  · obtain ⟨_, _, _, hengine⟩ := (ButDisplay.finish code body y).frame
    rw [hengine, hy]
    exact hstaged
  · have hwx : ButDisplay w x ∧ w.counters.cateringRefusals = u.counters.cateringRefusals ∧
        w.counters.bookingRefusals = u.counters.bookingRefusals := by
      by_cases hd : OutcomeDue u b now
      · rw [hwd hd, freeBooking_counters, hv]
        exact ⟨hv ▸ hset.2 hd, rfl, rfl⟩
      · rw [hwn hd]
        refine ⟨hset.1 hd, ?_, ?_⟩ <;> rw [hv] <;> rfl
    obtain ⟨hbut, hcat, hbook⟩ := hwx
    have hcounters : { w.counters with
        cateringRefusals := saturate u.counters.cateringRefusals
        bookingRefusals := saturate u.counters.bookingRefusals } =
        refusedCounters w.counters.cateringRefusal code := by
      rw [refusedCounters, if_neg hcode, ← hcat, ← hbook]
      rfl
    rw [hcounters]
    refine ButDisplay.trans ?_ (ButDisplay.finish code body y)
    rw [hy]
    exact hbut.count fun c => refusedCounters c.cateringRefusal code

end Sys2Proof.Machine

section Statements

open Sys2Proof Sys2Proof.Machine

/-- Settles O37: FIT and DROPPED commit the staged move and settle it, NO_FIT and COMMITTED settle the booking as it
stood and count. -/
theorem refitAnswers : Obligations.RefitAnswers := by
  refine ⟨fun h a b nb g now s u htake hslot hs hg hi hb hnow hnb ha => ?_,
    fun h a b nb now s u v htake hslot hs hb hnow hnb hv ha => ?_⟩
  · have he : exec (.engineTakesRefitAnswer h a) s = .next (doRefitAnswer h a u) := by
      rw [exec, execEngineTakesRefitAnswer, htake, whenTaken_some]
    have hu := Option.isSome_iff_exists.1 hslot
    have hw := (Writes.of_takeEngine htake).sound.tables hs
    rcases ha with ⟨k, sh, w, d, rfl⟩ | ⟨st, rfl⟩
    · obtain ⟨t, v, het, hans, hv, hlists, hstaged, hold, hnew, hothers, hdue, hnot⟩ :=
        commitRefit_spec (keepOrder := true) hu hw hg hi hb hnow hnb he
      have hiff := outcomeDue_congr (v := v) (u := u) (by rw [hv]) (by rw [hv]) nb now
      rw [hiff] at hdue hnot
      exact ⟨t, v, het, hans, hv, hlists, hstaged, hold, hnew, hothers, hnot, hdue⟩
    · obtain ⟨t, v, het, hans, hv, hlists, hstaged, hold, hnew, hothers, hdue, hnot⟩ :=
        commitRefit_spec (keepOrder := false) hu hw hg hi hb hnow hnb he
      have hiff := outcomeDue_congr (v := v) (u := u) (by rw [hv]) (by rw [hv]) nb now
      rw [hiff] at hdue hnot
      exact ⟨t, v, het, hans, hv, hlists, hstaged, hold, hnew, hothers, hnot, hdue⟩
  · have he : exec (.engineTakesRefitAnswer h a) s = .next (doRefitAnswer h a u) := by
      rw [exec, execEngineTakesRefitAnswer, htake, whenTaken_some]
    have hu := Option.isSome_iff_exists.1 hslot
    have hw := (Writes.of_takeEngine htake).sound.tables hs
    rcases ha with rfl | ⟨r, rfl⟩
    · exact refuseMove_spec hu hw hb hnow hnb hv nofun he
    · exact refuseMove_spec hu hw hb hnow hnb hv nofun he

end Statements
end

