-- ==== Sys2Proof/Proofs/EngineBoundary.lean ====
section
/-! PROOFS. The engine's boundary work: passes that free the bookings due, and the rooms shown behind them (R33, R35,
R58). -/

namespace Sys2Proof.Machine

variable {due : Booking → Prop} {out : Booking → Terminal} {v y z : State} {i : Nat} {k : Booking}

/-! ### Bookings due, freed -/

/-- The visit of a boundary pass to one record: its booking is freed if it is due. -/
def freeIf (due : Booking → Prop) [DecidablePred due] (out : Booking → Terminal) (y : State) (i : Nat) : State :=
  match bookingAt y i with
  | some k => if due k then freeBooking i k (out k) y else y
  | none => y

/-- `y` is what frees of bookings due make of `v`: the records and the lists lose those bookings and no more, and
the engine moves a last end alone. -/
structure FreedSome (due : Booking → Prop) (v y : State) : Prop where
  writes : Writes .engine v y
  engine : y.engine = { v.engine with lastEnd := y.engine.lastEnd }
  link : y.link = v.link
  records : ∀ j, recordAt y j = recordAt v j ∨ bookingAt y j = none ∧ ∃ k, bookingAt v j = some k ∧ due k
  holds : y.store.holds ⊆ v.store.holds
  lists : ∀ r, roomList y r ⊆ roomList v r

theorem bookingAt_of_recordAt {j : Nat} (h : recordAt y j = recordAt v j) : bookingAt y j = bookingAt v j :=
  congrArg Record.body h

namespace FreedSome

theorem refl (due : Booking → Prop) (v : State) : FreedSome due v v :=
  ⟨Writes.refl .engine v, rfl, rfl, fun _ => .inl rfl, fun _ h => h, fun _ _ h => h⟩

theorem trans (h : FreedSome due v y) (h' : FreedSome due y z) : FreedSome due v z where
  writes := h.writes.trans h'.writes
  engine := by rw [h'.engine, h.engine]
  link := h'.link.trans h.link
  records j := by
    rcases h'.records j with hj' | ⟨hnone, k, hk, hd⟩
    · rcases h.records j with hj | ⟨hnone, hk⟩
      · exact .inl (hj'.trans hj)
      · exact .inr ⟨(bookingAt_of_recordAt hj').trans hnone, hk⟩
    · rcases h.records j with hj | ⟨hnone', _⟩
      · exact .inr ⟨hnone, k, (bookingAt_of_recordAt hj).symm.trans hk, hd⟩
      · rw [hnone'] at hk
        cases hk
  holds := List.Subset.trans h'.holds h.holds
  lists r := List.Subset.trans (h'.lists r) (h.lists r)

theorem mono {due' : Booking → Prop} (h : FreedSome due v y) (hdue : ∀ k, due k → due' k) : FreedSome due' v y :=
  { h with records := fun j => (h.records j).imp_right fun ⟨hnone, k, hk, hd⟩ => ⟨hnone, k, hk, hdue k hd⟩ }

theorem canonical (h : FreedSome due v y) (hw : TablesCanonical v) : TablesCanonical y := h.writes.sound.tables hw

/-- A booking that still stands stands as it was. -/
theorem recordAt_of_live (h : FreedSome due v y) {j : Nat} (hk : bookingAt y j = some k) :
    recordAt y j = recordAt v j := by
  rcases h.records j with hj | ⟨hnone, _⟩
  · exact hj
  · rw [hnone] at hk
    cases hk

theorem bookingAt_of_live (h : FreedSome due v y) {j : Nat} (hk : bookingAt y j = some k) : bookingAt v j = some k :=
  (bookingAt_of_recordAt (h.recordAt_of_live hk)).symm.trans hk

/-- A booking with nothing due stands as it was. -/
theorem recordAt_of_not_due (h : FreedSome due v y) {j : Nat} (hk : bookingAt v j = some k) (hd : ¬ due k) :
    recordAt y j = recordAt v j := by
  rcases h.records j with hj | ⟨_, k', hk', hd'⟩
  · exact hj
  · rw [hk] at hk'
    cases hk'
    exact absurd hd' hd

theorem idx (h : FreedSome due v y) : idx y = idx v := by
  obtain ⟨_, _, _, _, hclock, _⟩ := h.writes.apart
  exact idx_congr hclock (by rw [h.engine])

theorem freeBooking (hw : TablesCanonical v) (hb : bookingAt v i = some k) (hd : due k) (o : Terminal) :
    FreedSome due v (freeBooking i k o v) where
  writes := (Writes.refl .engine v).freeBooking ..
  engine := by
    rw [freeBooking_eq]
    rfl
  link := freeBooking_link ..
  records j := by
    unfold bookingAt
    rw [recordAt_freeBooking hw.records]
    split
    · rename_i e
      subst e
      exact .inr ⟨rfl, k, hb, hd⟩
    · exact .inl rfl
  holds := by
    rw [freeBooking_eq]
    change (if k.state = .tentative then v.store.holds.filter (· ≠ handleOf v i) else v.store.holds) ⊆ v.store.holds
    split
    · exact List.filter_sublist.subset
    · exact List.Subset.refl _
  lists r := by
    rw [roomList_freeBooking hw.lists]
    split
    · exact List.filter_sublist.subset
    · exact List.Subset.refl _

end FreedSome

section Passes

variable [DecidablePred due]

theorem freedSome_freeIf (hw : TablesCanonical v) (i : Nat) : FreedSome due v (freeIf due out v i) := by
  unfold freeIf
  split
  · rename_i k hk
    split
    · rename_i hd
      exact .freeBooking hw hk hd _
    · exact .refl due v
  · exact .refl due v

/-- A visited record holds no booking that is due. -/
theorem not_due_of_freeIf (hw : TablesCanonical v) (hk : bookingAt (freeIf due out v i) i = some k) : ¬ due k := by
  intro hd
  have hv : bookingAt v i = some k := (freedSome_freeIf hw i).bookingAt_of_live hk
  rw [freeIf, hv] at hk
  dsimp only at hk
  rw [if_pos hd, bookingAt, recordAt_freeBooking hw.records, if_pos rfl] at hk
  cases hk

/-- A pass frees bookings due alone, and leaves none that it visited. -/
theorem foldl_freeIf : ∀ (l : List Nat) {v : State}, TablesCanonical v →
    FreedSome due v (l.foldl (freeIf due out) v) ∧
    ∀ i ∈ l, ∀ k, bookingAt (l.foldl (freeIf due out) v) i = some k → ¬ due k
  | [], v, _ => ⟨.refl due v, fun _ h => nomatch h⟩
  | x :: l, v, hw => by
    have hx : FreedSome due v (freeIf due out v x) := freedSome_freeIf hw x
    obtain ⟨hfreed, hnone⟩ := foldl_freeIf l (hx.canonical hw)
    refine ⟨hx.trans hfreed, fun i hi k hk => ?_⟩
    rcases List.mem_cons.1 hi with rfl | hi
    · exact not_due_of_freeIf hw (hfreed.bookingAt_of_live hk)
    · exact hnone i hi k hk

theorem idx_freeIf (y : State) (i : Nat) : idx (freeIf due out y i) = idx y := by
  unfold freeIf
  split
  · split
    · exact idx_congr (by rw [freeBooking_eq]; rfl) (by rw [freeBooking_eq]; rfl)
    · rfl
  · rfl

end Passes

/-! ### The passes of the boundary work (R58) -/

/-- A hold is due: unmarked, and expiring at the quantum of index `n`. -/
abbrev ExpiryDue (key : CTime → Int) (n : Int) (k : Booking) : Prop := k.pending = none ∧ k.expiry.map key = some n

/-- A booking is due: unmarked, and ending at the quantum of index `n`. -/
abbrev EndDue (key : CTime → Int) (n : Int) (k : Booking) : Prop := k.pending = none ∧ key k.fin = n

/-- Two folds agree that agree on states of one horizon, which the second keeps. -/
theorem foldl_eq_of_idx {α : Type} {f g : State → α → State} {key : CTime → Int}
    (hfg : ∀ y a, idx y = key → f y a = g y a) (hg : ∀ y a, idx (g y a) = idx y) :
    ∀ (l : List α) {y : State}, idx y = key → l.foldl f y = l.foldl g y
  | [], _, _ => rfl
  | a :: l, y, hy => by
    rw [List.foldl_cons, List.foldl_cons, hfg y a hy]
    exact foldl_eq_of_idx hfg hg l ((hg y a).trans hy)

theorem expireHold_eq {key : CTime → Int} (hy : idx y = key) (now : CTime) (h : Handle) : expireHold now h y =
    freeIf (ExpiryDue key (key now)) (fun _ => .expired) y h.index := by
  have hany : ∀ k : Booking, k.expiry.any (fun e => decide (key e = key now)) = true ↔
      k.expiry.map key = some (key now) := fun k => by
    cases k.expiry <;> simp
  unfold expireHold freeIf
  cases bookingAt y h.index with
  | none => rfl
  | some k => exact if_congr (and_congr_right' (by rw [hy]; exact hany k)) rfl rfl

theorem endBookingAt_eq {key : CTime → Int} (hy : idx y = key) (now : CTime) (i : Nat) : endBookingAt now i y =
    freeIf (EndDue key (key now)) (fun k => if k.state = .tentative then .expired else .ended) y i := by
  unfold endBookingAt freeIf
  cases bookingAt y i with
  | none => rfl
  | some k => exact if_congr (and_congr_right' (by rw [hy])) rfl rfl

theorem passExpiries_eq (now : CTime) (y : State) : passExpiries now y = (y.store.holds.map Handle.index).foldl
    (freeIf (ExpiryDue (idx y) (idx y now)) fun _ => .expired) y := by
  rw [List.foldl_map]
  exact foldl_eq_of_idx (fun _ h hy => expireHold_eq hy now h) (fun _ _ => idx_freeIf ..) _ rfl

theorem passEnds_eq {key : CTime → Int} (hy : idx y = key) (now : CTime) : passEnds now y =
    (y.store.lists.entries.flatMap Prod.snd).foldl
      (freeIf (EndDue key (key now)) fun k => if k.state = .tentative then .expired else .ended) y := by
  rw [← foldl_eq_of_idx (fun _ i hy => endBookingAt_eq hy now i) (fun _ _ => idx_freeIf ..) _ hy, List.foldl_flatMap]
  rfl

/-! ### Every room shown -/

theorem foldl_evalDisplay : ∀ (l : List (Nat × Option RoomEntry)) {y t : State}, y.engine.kept.wf none →
    l.foldl (fun s e => evalDisplay e.1 s) y = t →
    ButDisplay y t ∧ t.link = y.link ∧ ∀ r, Shows r y ∨ r ∈ l.map Prod.fst → Shows r t
  | [], y, t, _, ht => by
    subst ht
    exact ⟨.refl y, rfl, fun r h => h.elim id fun h => nomatch h⟩
  | e :: l, y, t, hk, ht => by
    obtain ⟨hbut, hlink, hshows⟩ := foldl_evalDisplay l (evalDisplay_kept_wf hk e.1) ht
    refine ⟨(ButDisplay.evalDisplay e.1 y).trans hbut, hlink.trans (by simp), fun r h => hshows r ?_⟩
    rcases h with h | h
    · exact .inl (h.evalDisplay hk e.1)
    · rcases List.mem_cons.1 h with rfl | h
      · exact .inl (Shows.evalDisplay_self hk e.1)
      · exact .inr h

end Sys2Proof.Machine

section Statements

open Sys2Proof Sys2Proof.Machine

/-- Settles O38: the passes are folds of `freeIf`, which frees what is due and leaves nothing due behind. -/
theorem engineBoundaryTakesEveryOutcomeDue : Obligations.EngineBoundaryTakesEveryOutcomeDue := by
  intro b s u v w x ht hs hv hw hx
  have hu : TablesCanonical u := (Writes.of_takeEngine ht).sound.tables hs
  have hvu : Writes .engine u v := by
    rw [hv]
    exact (Writes.refl .engine u).setEngine (E := { u.engine with now := some b.now }) id id
  have hvc : TablesCanonical v := hvu.sound.tables hu
  have hwfold : w = (v.store.holds.map Handle.index).foldl
      (freeIf (ExpiryDue (idx v) (idx v b.now)) fun _ => .expired) v := by
    rw [hw, List.foldl_map]
    rfl
  have hxfold : x = (w.store.lists.entries.flatMap Prod.snd).foldl
      (freeIf (EndDue (idx v) (idx v b.now)) fun k => if k.state = .tentative then .expired else .ended) w := by
    rw [hx, List.foldl_flatMap]
    rfl
  obtain ⟨hvw, hnoExpiry⟩ := foldl_freeIf (due := ExpiryDue (idx v) (idx v b.now)) (out := fun _ => .expired)
    (v.store.holds.map Handle.index) hvc
  rw [← hwfold] at hvw hnoExpiry
  obtain ⟨hwx, hnoEnd⟩ := foldl_freeIf (due := EndDue (idx v) (idx v b.now))
    (out := fun k => if k.state = .tentative then .expired else .ended)
    (w.store.lists.entries.flatMap Prod.snd) (hvw.canonical hvc)
  rw [← hxfold] at hwx hnoEnd
  have hvx : FreedSome (fun k => ExpiryDue (idx v) (idx v b.now) k ∨ EndDue (idx v) (idx v b.now) k) v x :=
    (hvw.mono fun _ => .inl).trans (hwx.mono fun _ => .inr)
  have hpasses : passEnds b.now (passExpiries b.now (setEngineNow b.now u)) = x := by
    have hset : setEngineNow b.now u = v := hv.symm
    rw [hset, passExpiries_eq, ← hwfold, passEnds_eq hvw.idx, ← hxfold]
  obtain ⟨t, htx⟩ : ∃ t, evalAllDisplays x = t := ⟨_, rfl⟩
  obtain ⟨hbut, hlink, hshows⟩ := foldl_evalDisplay x.rooms.entries (hvx.canonical hvc).kept htx
  have he : exec (.engineBoundaryWork b) s = .next t := by
    rw [exec, execEngineBoundaryWork, ht, whenTaken_some, doEngineBoundary, hpasses, htx]
  have hwrites : Writes .engine u t := by
    rw [← htx]
    exact (hvu.trans hvx.writes).evalAllDisplays
  obtain ⟨hstore, _, _, hengine⟩ := hbut.frame
  have hrecord : ∀ j, recordAt t j = recordAt x j := fun j => by
    unfold recordAt
    rw [hstore]
  have hbooking : ∀ {j k}, bookingAt t j = some k → bookingAt x j = some k := fun {j k} h =>
    (bookingAt_of_recordAt (hrecord j)).symm.trans h
  have hrecv : ∀ j, recordAt v j = recordAt u j := fun j => by
    rw [hv]
    rfl
  have hidx : idx t = idx v := by
    obtain ⟨_, _, _, _, hclock, _⟩ := hwrites.apart
    exact idx_congr (by rw [hclock, hv]) (by rw [hengine, hvx.engine])
  refine ⟨t, he, hbut, ?_, ?_, ?_, hwrites.apart, fun l => hwrites.lines l nofun, hwrites.planner nofun, ?_, ?_, ?_,
    ?_, ?_, ?_⟩
  · rw [hengine, hvx.engine, hv]
  · rw [hengine, hvx.engine, hv]
  · rw [hengine, hvx.engine, hv]
  · rw [hlink, hvx.link, hv]
  · intro h hh k e hk hp hexp hidxe
    rw [hstore] at hh
    rw [hidx] at hidxe
    exact hnoExpiry h.index (List.mem_map_of_mem (hvx.holds hh)) k (hwx.bookingAt_of_live (hbooking hk))
      ⟨hp, by rw [hexp, Option.map_some, hidxe]⟩
  · intro r i hi k hk hp hidxf
    have hlist : i ∈ roomList w r := hwx.lists r (by unfold roomList at hi ⊢; rwa [hstore] at hi)
    have hentry : (r, roomList w r) ∈ w.store.lists.entries := Table.mem_of_get (hvw.canonical hvc).lists.1 fun hnil => by
      rw [roomList, hnil] at hlist
      cases hlist
    rw [hidx] at hidxf
    exact hnoEnd i (List.mem_flatMap.2 ⟨_, hentry, hlist⟩) k (hbooking hk) ⟨hp, hidxf⟩
  · intro i k hk
    rw [hrecord, hvx.recordAt_of_live (hbooking hk), hrecv]
  · intro i k hk hnot
    have hkv : bookingAt v i = some k := (bookingAt_of_recordAt (hrecv i)).trans hk
    rw [hrecord, hvx.recordAt_of_not_due hkv, hrecv]
    rw [hidx] at hnot
    rintro (⟨hp, hexp⟩ | ⟨hp, hend⟩)
    · rcases hnot with hm | ⟨_, hm⟩
      · exact hm hp
      · obtain ⟨e, hexp, hidxe⟩ := Option.map_eq_some_iff.1 hexp
        exact hm e hexp hidxe
    · rcases hnot with hm | ⟨hm, _⟩
      · exact hm hp
      · exact hm hend
  · intro r e hr
    refine hshows r (.inr (List.mem_map_of_mem (f := Prod.fst) ((mem_rooms_iff (e := e) ?_).2 ?_)))
    · obtain ⟨hrooms, _⟩ := hvx.canonical hvc
      exact hrooms
    · unfold roomAt at hr ⊢
      obtain ⟨K, L, M, rfl, _⟩ := butDisplay_iff.1 hbut
      exact hr

end Statements
end

