-- ==== Sys2Proof/Proofs/PanelRequests.lean ====
section
/-! PROOFS. Walk-ups, extensions and ends at a door panel (R24, R26, R153, R157, R159, R160). -/

namespace Sys2Proof.Machine

variable {c : Instr} {s u w : State} {src : PanelSrc} {kind room : Nat}

/-! ### Answers to a panel -/

theorem refusedAtPanel_of_refuse {x : Turned} (he : exec c s = .next (refusePanel src kind x u)) :
    RefusedAtPanel c s u src kind x.code (panelCodeOf x.code) x.time := by
  rw [refusePanel, countRefusal_eq] at he
  exact he

/-- Work whose last steps are a panel's answer and one evaluation. -/
theorem shown_and_panelAnswered {code : PanelCode} {time : Option CTime} (hlines : w.lines = u.lines)
    (hlink : w.link = u.link) (hk : w.engine.kept.wf none)
    (he : exec c s = .next (evalDisplay room (answerPanel src kind code time w))) :
    ∃ t, exec c s = .next t ∧ t.link = u.link ∧ Shows room t ∧ PanelAnswered u t src ⟨kind, code, time⟩ ∧
      ButDisplay w t := by
  have hbut := ButDisplay.evalDisplay room (answerPanel src kind code time w)
  refine ⟨_, he, ?_, Shows.evalDisplay_self (s := answerPanel src kind code time w) hk room, ?_, (ButDisplay.answerPanel ..).trans hbut⟩
  · rw [evalDisplay_eq]
    exact hlink
  · obtain ⟨_, hgained⟩ := hbut
    obtain ⟨ws, hws⟩ := hgained src.line
    refine ⟨ws, ?_⟩
    rw [hws, answerPanel]
    dsimp only
    rw [sendLine_intake, if_pos rfl, hlines, List.append_assoc]
    rfl

/-! ### Walk-ups (R157) -/

/-- A check at the head of a chain with another behind it. -/
theorem ite_some_else_or {α : Type} {q : Prop} [Decidable q] (a : α) (o p : Option α) :
    (if q then some a else o).or p = if q then some a else o.or p := by
  split <;> rfl

/-- The checks of a walk-up, the first that fails (R38, R157). -/
theorem checkWalkup_eq (u : State) (room n : Nat) : checkWalkup u room n =
    if roomAt u room = none then some ⟨.noSuchRoom, none⟩
    else if (roomAt u room).map RoomEntry.inService ≠ some true ∨
        (u.policy.absentAction = .close ∧ panelPresent u room = false) then some ⟨.roomOutOfService, none⟩
    else match engineNow u with
    | none => some ⟨.clockNotSet, none⟩
    | some now =>
      if idx u (shiftTime now n) - idx u now < 3 ∨ 144 < idx u (shiftTime now n) - idx u now then
        some ⟨.badField, none⟩
      else if 2304 < idx u (shiftTime now n) then some ⟨.outOfHorizon, none⟩
      else if ((roomAt u room).map RoomEntry.seats).getD 0 < 1 then some ⟨.overCapacity, none⟩
      else match firstConflict u room ⟨now, shiftTime now n⟩ none, u.store.free with
      | some at_, _ => some ⟨.conflict, some at_⟩
      | none, [] => some ⟨.poolEmpty, none⟩
      | none, _ :: _ => none := by
  rw [checkWalkup, checkCreate_eq]
  simp only [ite_some_else_or]
  cases hnow : engineNow u with
  | none => rfl
  | some now =>
    have hstamp : engineStamp u = now := by rw [engineStamp, hnow]; rfl
    simp only [reduceCtorEq, if_false, hstamp, Option.map_some, Option.getD_some, lt_self_iff_false, false_or, checkPool]
    cases firstConflict u room ⟨now, shiftTime now n⟩ none <;> cases u.store.free <;> rfl


/-- A walk-up with every check passed: allocated, reported, answered and shown (R26, R157, R188). -/
theorem admitWalkup_spec {n i : Nat} {badge : Token} {code : PanelCode} {now : CTime} {rest : List Nat} {b : Booking}
    (hu : TablesCanonical u) (hnow : engineNow u = some now) (hfree : u.store.free = i :: rest)
    (hb : b = walkupBooking u room n badge now) (he : exec c s = .next (admitWalkup src room n badge code u)) :
    ∃ t, exec c s = .next t ∧ Allocated u t i b ∧ PanelAnswered u t src ⟨kindWalkup, code, some b.fin⟩ ∧
      t.store.holds = u.store.holds ∧ t.link = u.link ∧ Shows room t ∧
      t.superv = { u.superv with provisional := if u.superv.link = .hostLost then
        u.superv.provisional + 1 else u.superv.provisional } ∧
      ButDisplay (postEvent ⟨.bookingConfirmed, now, room, ⟨i, (recordAt u i).gen⟩, .time b.fin, .token badge⟩
        { u with store := t.store, superv := t.superv }) t := by
  have hstamp : engineStamp u = now := by
    rw [engineStamp, hnow]
    rfl
  rw [admitWalkup, hstamp] at he
  rw [← hb, allocate_cons hfree] at he
  dsimp only at he
  rw [handleOf_allocated hu] at he
  obtain ⟨w, hw⟩ : ∃ w, w = postEvent ⟨.bookingConfirmed, now, room, ⟨i, (recordAt u i).gen⟩, .time b.fin,
    .token badge⟩ (allocated i rest b u) := ⟨_, rfl⟩
  rw [← hw] at he
  obtain ⟨t, het, hlink, hshows, hans, hbut⟩ := shown_and_panelAnswered (u := u) (w := w) (by rw [hw]; simp [allocated])
    (by rw [hw]; simp [allocated]) (by rw [hw]; simpa [allocated] using hu.kept) he
  obtain ⟨hstore, _, _, hengine⟩ := hbut.frame
  have hst : t.store = allocatedStore i rest b u := by
    rw [hstore, hw]
    simp [allocated]
  have hsuperv : t.superv = (allocated i rest b u).superv := by
    obtain ⟨K, L, M, htw, _⟩ := butDisplay_iff.1 hbut
    rw [htw, hw]
    simp
  have hclock : t.clock = u.clock := by
    obtain ⟨K, L, M, htw, _⟩ := butDisplay_iff.1 hbut
    rw [htw, hw]
    simp [allocated]
  have hnowt : t.engine.now = u.engine.now := by
    rw [hengine, hw]
    simp [allocated]
  obtain ⟨halloc, hholds⟩ := allocated_spec hu hfree hst hclock hnowt
  refine ⟨t, het, halloc, hans, ?_, hlink, hshows, ?_, ?_⟩
  · rw [hholds, hb]
    rfl
  · rw [hsuperv, hb]
    simp [allocated, walkupBooking]
  · rw [hsuperv, hst]
    rwa [hw] at hbut

/-! ### Extensions (R159) -/

/-- The checks of an extension with a now, the first that fails. -/
theorem checkExtend_eq {now : CTime} (hnow : engineNow u = some now) (i : Nat) (b : Booking) (fin : CTime) :
    checkExtend u i b fin =
      if idx u fin - idx u b.start < 3 ∨ 144 < idx u fin - idx u b.start then some ⟨.badField, none⟩
      else if 2304 < idx u fin then some ⟨.outOfHorizon, none⟩
      else (firstConflict u b.room ⟨b.start, fin⟩ (some i)).map (fun at_ => ⟨.conflict, some at_⟩) := by
  have hclock : checkClock u = none := by
    rw [checkClock, hnow]
    rfl
  have hlength : checkLength u ⟨b.start, fin⟩ =
      if idx u fin - idx u b.start < 3 ∨ 144 < idx u fin - idx u b.start then some ⟨.badField, none⟩ else none :=
    require_eq (by rw [decide_eq_true_iff]; dsimp only; omega)
  have hhorizon : checkHorizon u fin = if 2304 < idx u fin then some ⟨.outOfHorizon, none⟩ else none :=
    require_eq (by rw [decide_eq_true_iff]; omega)
  rw [checkExtend, hclock, hlength, hhorizon, Option.none_or, ite_some_or, ite_some_or]
  rfl

end Sys2Proof.Machine

section Statements

open Sys2Proof Sys2Proof.Machine

/-- Settles O42: the checks of each request are one chain; an admitted one is one write of the store, its event, the
answer and the evaluation. -/
theorem panelBookingRequests : Obligations.PanelBookingRequests := by
  refine ⟨fun src room len n badge c s u hc ht hs hn => ?_, fun src room k c s u hc ht hs => ?_,
    fun src room c s u hc ht hs => ?_⟩
  · subst hc
    have hu : TablesCanonical u := (Writes.of_takeEngine ht).sound.tables hs
    have he : exec (.walkup src room len badge) s = .next (doWalkup src room len badge u) := by
      rw [exec, execWalkup, ht, whenTaken_some]
    unfold doWalkup at he
    dsimp only at he
    rw [← hn] at he
    split
    · rename_i h1
      rw [if_pos h1] at he
      exact refusedAtPanel_of_refuse he
    rename_i h1
    rw [if_neg h1] at he
    have href : ∀ x : Turned, checkWalkup u room n = some x → x.code ≠ .poolEmpty →
        RefusedAtPanel (.walkup src room len badge) s u src 1 x.code (panelCodeOf x.code) x.time := fun x hx hp => by
      rw [hx] at he
      dsimp only at he
      rw [if_neg hp] at he
      exact refusedAtPanel_of_refuse he
    rw [checkWalkup_eq] at he href
    split
    · exact href ⟨.noSuchRoom, none⟩ (if_pos ‹_›) nofun
    rename_i h2
    rw [if_neg h2] at he href
    split
    · exact href ⟨.roomOutOfService, none⟩ (if_pos ‹_›) nofun
    rename_i h3
    rw [if_neg h3] at he href
    cases hnow : engineNow u with
    | none =>
      rw [hnow] at href
      exact href ⟨.clockNotSet, none⟩ rfl nofun
    | some now =>
      rw [hnow] at he href
      dsimp only at he href ⊢
      split
      · exact href ⟨.badField, none⟩ (if_pos ‹_›) nofun
      rename_i h4
      rw [if_neg h4] at he href
      split
      · exact href ⟨.outOfHorizon, none⟩ (if_pos ‹_›) nofun
      rename_i h5
      rw [if_neg h5] at he href
      split
      · exact href ⟨.overCapacity, none⟩ (if_pos ‹_›) nofun
      rename_i h6
      rw [if_neg h6] at he href
      split
      · rename_i at_ hconf
        rw [hconf] at href
        exact href ⟨.conflict, some at_⟩ rfl nofun
      · rename_i hconf hfree
        rw [hconf, hfree] at he
        dsimp only at he
        rw [if_pos rfl, openEpisode, hnow] at he
        exact refusedAtPanel_of_refuse he
      · rename_i i rest hconf hfree
        rw [hconf, hfree] at he
        intro b hb
        have hcode : (if n < len then PanelCode.tooLongClamped else .accepted) =
            if u.policy.walkupMax < len then .tooLongClamped else .accepted :=
          if_congr (by omega) rfl rfl
        rw [hcode] at he
        exact admitWalkup_spec hu hnow hfree hb he
  · subst hc
    have hu : TablesCanonical u := (Writes.of_takeEngine ht).sound.tables hs
    have he : exec (.extend src room k) s = .next (doExtend src room k u) := by
      rw [exec, execExtend, ht, whenTaken_some]
    unfold doExtend at he
    refine ⟨fun hnone => ?_, fun i b now fin hb hnow hfin => ?_⟩
    · rw [hnone] at he
      exact refusedAtPanel_of_refuse he
    rw [hb, hnow] at he
    dsimp only at he
    rw [← hfin, checkExtend_eq hnow] at he
    simp only [Option.isSome_iff_ne_none] at he
    split
    · rename_i h1
      rw [if_pos h1] at he
      exact refusedAtPanel_of_refuse he
    rename_i h1
    rw [if_neg h1] at he
    split
    · rename_i h2
      by_cases hk : k = 0
      · rw [if_pos hk] at he
        exact refusedAtPanel_of_refuse he
      · rw [if_neg hk, if_pos (h2.resolve_left hk)] at he
        exact refusedAtPanel_of_refuse he
    rename_i h2
    rw [if_neg fun hk => h2 (.inl hk), if_neg fun hl => h2 (.inr hl)] at he
    split
    · rename_i h3
      rw [if_pos h3] at he
      exact refusedAtPanel_of_refuse he
    rename_i h3
    rw [if_neg h3] at he
    split
    · rename_i at_ hconf
      rw [hconf] at he
      exact refusedAtPanel_of_refuse he
    · rename_i hconf
      rw [hconf] at he
      rw [setBooking_eq rfl] at he
      exact shown_and_panelAnswered (by simp) (by simp) (by simpa using hu.kept) he
  · subst hc
    have hu : TablesCanonical u := (Writes.of_takeEngine ht).sound.tables hs
    have he : exec (.panelEnd src room) s = .next (doPanelEnd src room u) := by
      rw [exec, execPanelEnd, ht, whenTaken_some]
    unfold doPanelEnd at he
    refine ⟨fun hnone => ?_, fun i b now hb hnow => ?_⟩
    · rw [hnone] at he
      exact refusedAtPanel_of_refuse he
    rw [hb, hnow] at he
    dsimp only at he
    simp only [Option.isSome_iff_ne_none] at he
    split
    · rename_i h1
      rw [if_pos h1] at he
      exact refusedAtPanel_of_refuse he
    rename_i h1
    rw [if_neg h1] at he
    split
    · rename_i hf
      rw [endAndShow_ended hf] at he
      exact he
    · rename_i hf
      rw [endAndShow_moves hf] at he
      exact shown_and_panelAnswered rfl rfl hu.kept he

end Statements
end

