-- ==== Sys2Proof/Proofs/PanelTraffic.lean ====
section
/-! PROOFS. What a display holds, the judging of a panel request, and the downlinks of an ordinary cycle, position by
position (R56, R57, R101, R134, R154 to R165). -/

namespace Sys2Proof.Machine

variable {s w : State} {a : Line}

/-! ### What a display holds (R56, R57, R101, R163) -/

/-- A booking of a room found with the engine's now. -/
theorem currentBooking_eq (s : State) (room : Nat) : currentBooking s room = match engineNow s with
    | some n => (roomBookings s room).find? (fun e => decide (idx s e.2.start ≤ idx s n))
    | none => none := by
  unfold currentBooking
  cases engineNow s <;> rfl

theorem nextBooking_eq (s : State) (room : Nat) : nextBooking s room = match engineNow s with
    | some n => (roomBookings s room).find? (fun e => decide (idx s n < idx s e.2.start))
    | none => none := by
  unfold nextBooking
  cases engineNow s <;> rfl

/-- The rows of R56. -/
theorem shownState_eq (s : State) (room : Nat) : shownState s room = match roomAt s room with
    | none => .blank
    | some e =>
      if e.binding = none then .blank
      else if e.inService = false then .outOfService
      else match currentBooking s room, s.engine.lastEnd.get none room, engineNow s with
        | some (_, b), _, _ => if b.state = .checkedIn then .inUse else .due
        | none, some x, some n =>
          if idx s x ≤ idx s n ∧ idx s n < idx s x + e.turnaround then .turnaround else .free
        | none, _, _ => .free := by
  unfold shownState
  cases hroom : roomAt s room with
  | none =>
    rw [bindingOf, hroom]
    rfl
  | some e =>
    rw [bindingOf, hroom, turnaround_of_roomAt hroom]
    dsimp only [Option.bind_some, Option.map_some, Option.getD_some]
    refine if_congr Option.isNone_iff_eq_none rfl (if_congr (Bool.not_eq_true' _).to_iff rfl ?_)
    cases currentBooking s room with
    | some e => rfl
    | none => cases s.engine.lastEnd.get none room <;> cases engineNow s <;> rfl

theorem shownBooking_eq (s : State) (room : Nat) : shownBooking s room =
    match currentBooking s room, nextBooking s room with
    | some (_, b), _ => some b
    | none, some (_, b) => some b
    | none, none => none := by
  unfold shownBooking
  cases currentBooking s room <;> cases nextBooking s room <;> rfl

/-- The indicator of R101, from the order of the booking shown. -/
theorem roomIndicator_eq (s : State) (room : Nat) : roomIndicator s room =
    match ((shownBooking s room).bind Booking.order).bind (liveOrder s) with
    | none => .none
    | some o =>
      if o.booking = none then .none
      else match o.state with
        | .planned => .planned
        | .inProduction => .inProduction
        | .dispatched | .unconfirmed => .onItsWay
        | .delivered => .delivered
        | .wasted | .closed | .cancelled => .none := by
  unfold roomIndicator
  cases (shownBooking s room).bind Booking.order with
  | none => rfl
  | some h =>
    dsimp only [Option.bind_some]
    cases liveOrder s h with
    | none => rfl
    | some o =>
      dsimp only [Option.map_some, Option.getD_some]
      unfold orderIndicator
      cases o.booking with
      | none => rfl
      | some b => cases o.state <;> rfl

/-! ### The judging of a request (R154, R156 to R162) -/

/-- An exception posted reads nothing of the lines. -/
theorem postException_lines_set (k : ExcKind) (now : Option CTime) (x : Quad Line) (s : State) :
    postException k now { s with lines := x } = { postException k now s with lines := x } := by
  unfold postException
  split <;> rfl

/-- A new request answered at once: one write of the position and of the request number. -/
theorem Line.setLast_newRequest (h : a.positions.wf .reset) (p : Nat) (toggle : Bool) (r : LastReply) :
    (a.newRequest p toggle).setLast p r = { a with
      reqno := (a.reqno + 1) % 256
      positions := a.positions.set .reset p { a.at p with toggle := some toggle, last := r } } := by
  have hpos := Table.get_set h p p { a.at p with toggle := some toggle, last := .pending ((a.reqno + 1) % 256) }
  rw [if_pos rfl] at hpos
  have hset := Table.set_set h p { a.at p with toggle := some toggle, last := .pending ((a.reqno + 1) % 256) }
    { a.at p with toggle := some toggle, last := r }
  rw [Line.setLast, Line.newRequest]
  dsimp only [Line.modifyAt, Table.modify]
  rw [show a.positions.get .reset p = a.at p from rfl, hpos]
  exact congrArg (fun x => { a with reqno := (a.reqno + 1) % 256, positions := x }) hset

/-- The controller answers a new request itself. -/
theorem selfAnswer_newRequest {l : Fin 4} {p : Nat} {x : Uplink} (h : (s.lines.get l).positions.wf .reset)
    (hw : w.lines = s.lines.set l ((s.lines.get l).newRequest p x.toggle)) (code : PanelCode) :
    selfAnswer l p x code w = { w with lines := s.lines.set l { s.lines.get l with
      reqno := ((s.lines.get l).reqno + 1) % 256
      positions := (s.lines.get l).positions.set .reset p { (s.lines.get l).at p with
        toggle := some x.toggle, last := .reply ⟨code, x.kind, x.toggle, none⟩ true } } } := by
  rw [selfAnswer, updLine, hw, Quad.get_set, if_pos rfl, Quad.set_set, Line.setLast_newRequest h]

/-- The owners of the kinds of a request (R157 to R162). -/
theorem handOn_eq (l : Fin 4) (p room : Nat) (x : Uplink) (s : State) : handOn l p room x s =
    if x.kind = 1 then sendEngine (.walkup ⟨l, p, (s.lines.get l).reqno⟩ room x.argument x.badge) s
    else if x.kind = 2 then sendEngine (.checkin ⟨l, p, (s.lines.get l).reqno⟩ room x.badge) s
    else if x.kind = 3 then sendEngine (.extend ⟨l, p, (s.lines.get l).reqno⟩ room x.argument) s
    else if x.kind = 4 then sendEngine (.panelEnd ⟨l, p, (s.lines.get l).reqno⟩ room) s
    else if x.kind = 5 then sendPlanner (.receipt ⟨l, p, (s.lines.get l).reqno⟩ room x.badge) s
    else if x.kind = 6 then
      selfAnswer l p x .accepted (postException (.problem l p room x.argument x.badge) (lineNow l s) s)
    else selfAnswer l p x .refused s := rfl

/-- A new request takes its toggle and a request number, and goes to its owner, or is refused at an unbound
position (R154, R156). -/
theorem judgeRequest_new {l : Fin 4} {p : Nat} {x : Uplink} (hk : x.kind ≠ 0)
    (ht : ((s.lines.get l).at p).toggle ≠ some x.toggle) : judgeRequest l p x s =
      match ((s.lines.get l).at p).bound with
      | some room => handOn l p room x (updLine l (Line.newRequest p x.toggle) s)
      | none => refuseUnbound l p x (updLine l (Line.newRequest p x.toggle) s) :=
  (if_neg hk).trans (if_neg ht)

/-- A repeat makes a stored reply owed again. -/
theorem Line.repeatRequest_reply {p : Nat} {r : PanelReply} {owed : Bool} (h : (a.at p).last = .reply r owed) :
    a.repeatRequest p = { a with positions := a.positions.set .reset p { a.at p with last := .reply r true } } := by
  rw [Line.repeatRequest, h]
  rfl

theorem Line.repeatRequest_other {p : Nat} (h : ∀ r owed, (a.at p).last ≠ .reply r owed) : a.repeatRequest p = a := by
  unfold Line.repeatRequest
  split
  · rename_i r owed hr
    exact absurd hr (h r owed)
  · rfl

/-! ### One position through the filling of the downlinks (R134, R165) -/

/-- What the filling of the downlinks knows of one position: its slot, its entry, and whether it is queued. -/
structure SlotView where
  slot : Downlink
  pos : Position
  queued : Bool

def Filling.view (p : Nat) (f : Filling) : SlotView := ⟨f.slots.get .empty p, f.line.at p, decide (p ∈ f.line.queue)⟩

/-- An owed reply placed, seen at its position. -/
def SlotView.placeReply (v : SlotView) : SlotView :=
  match v.pos.last with
  | .reply r true => ⟨.reply r, { v.pos with last := .reply r false }, v.queued⟩
  | _ => v

/-- An entry of the queue served or kept, seen at its position. -/
def SlotView.placeDisplay (s : State) (quiet : Bool) (v : SlotView) : SlotView :=
  if v.slot = .empty ∧ (quiet = false ∨ v.pos.litUntil ≠ none) then
    { v with
      slot := .display (displayOf s v.pos.bound ((v.pos.genSent + 1) % 256))
      pos := { v.pos with
        genSent := (v.pos.genSent + 1) % 256, unack := if v.pos.bound = none then none else some 0 } }
  else { v with queued := true }

/-- A BLANK placed, seen at its position. -/
def SlotView.placeBlank (v : SlotView) : SlotView :=
  if v.slot = .empty ∧ v.pos.bound ≠ none ∧ v.pos.litUntil = none then { v with slot := .blank } else v

/-- The tables of a filling are canonical. -/
structure Filling.Sound (f : Filling) : Prop where
  line : f.line.positions.wf .reset
  slots : f.slots.wf .empty

/-- Steps that each change what is known of their own position alone, over positions each met once. -/
theorem view_foldl {step : Filling → Nat → Filling} {g : SlotView → SlotView}
    (hsound : ∀ f p, f.Sound → (step f p).Sound) (hself : ∀ f p, f.Sound → (step f p).view p = g (f.view p))
    (hother : ∀ f p p', f.Sound → p' ≠ p → (step f p).view p' = f.view p') (p : Nat) :
    ∀ (l : List Nat) {f : Filling}, l.Nodup → f.Sound →
      (l.foldl step f).Sound ∧ (l.foldl step f).view p = if p ∈ l then g (f.view p) else f.view p
  | [], f, _, hf => ⟨hf, rfl⟩
  | x :: l, f, hl, hf => by
    obtain ⟨hx, hl⟩ := List.nodup_cons.1 hl
    obtain ⟨hs, hv⟩ := view_foldl hsound hself hother p l hl (hsound f x hf)
    refine ⟨hs, hv.trans ?_⟩
    by_cases hp : p = x
    · subst hp
      rw [if_neg hx, if_pos List.mem_cons_self, hself f p hf]
    · rw [hother f x p hf hp]
      exact if_congr (by simp [hp]) rfl rfl

variable {f : Filling} {quiet : Bool}

/-- A position's entry and slot written. -/
theorem view_set (hf : f.Sound) (p p' : Nat) (g : Position → Position) (d : Downlink) :
    Filling.view p' ⟨f.line.modifyAt p g, f.slots.set .empty p d⟩ =
      if p' = p then ⟨d, g (f.line.at p), decide (p ∈ f.line.queue)⟩ else f.view p' := by
  unfold Filling.view
  dsimp only
  rw [Table.get_set hf.slots, Line.at_modifyAt hf.line]
  split
  · rename_i e
    rw [e]
    rfl
  · rfl

theorem sound_set (hf : f.Sound) (p : Nat) (g : Position → Position) (d : Downlink) :
    Filling.Sound ⟨f.line.modifyAt p g, f.slots.set .empty p d⟩ :=
  ⟨Table.modify_wf hf.line p g, Table.set_wf hf.slots p d⟩

theorem placeReply_sound (hf : f.Sound) (p : Nat) : (placeReply f p).Sound := by
  unfold placeReply
  split
  · exact sound_set hf p _ _
  · exact hf

theorem view_placeReply (hf : f.Sound) (p p' : Nat) :
    (placeReply f p).view p' = if p' = p then (f.view p).placeReply else f.view p' := by
  unfold placeReply SlotView.placeReply
  split
  · rename_i r hr
    rw [Line.setLast, view_set hf, show (f.view p).pos.last = .reply r true from hr]
    rfl
  · rename_i hr
    split
    · rename_i e
      subst e
      split
      · rename_i r hr'
        exact absurd hr' (hr r)
      · rfl
    · rfl

theorem servable_iff (f : Filling) (p : Nat) : servable quiet f p = true ↔
    (f.view p).slot = .empty ∧ (quiet = false ∨ (f.view p).pos.litUntil ≠ none) := by
  simp only [servable, Line.litAt, Bool.and_eq_true, Bool.or_eq_true, decide_eq_true_eq, Bool.not_eq_true',
    Option.isSome_iff_ne_none]
  rfl

theorem placeDisplay_sound (s : State) (hf : f.Sound) (p : Nat) : (placeDisplay s quiet f p).Sound := by
  unfold placeDisplay
  split
  · exact sound_set hf p _ _
  · exact ⟨hf.line, hf.slots⟩

theorem view_placeDisplay (s : State) (hf : f.Sound) (p p' : Nat) : (placeDisplay s quiet f p).view p' =
    if p' = p then (f.view p).placeDisplay s quiet else f.view p' := by
  unfold placeDisplay SlotView.placeDisplay
  by_cases hserv : servable quiet f p = true
  · rw [if_pos hserv, if_pos ((servable_iff f p).1 hserv)]
    dsimp only
    rw [view_set hf]
    simp only [Option.isSome_iff_ne_none, ite_not]
    rfl
  · rw [if_neg hserv, if_neg (mt (servable_iff f p).2 hserv)]
    unfold Filling.view
    split
    · rename_i e
      simp [e, Line.at]
    · rename_i e
      simp [e, Line.at]

theorem placeBlank_sound (hf : f.Sound) (p : Nat) : (placeBlank f p).Sound := by
  unfold placeBlank
  split
  · exact ⟨hf.line, Table.set_wf hf.slots p _⟩
  · exact hf

theorem view_placeBlank (hf : f.Sound) (p p' : Nat) :
    (placeBlank f p).view p' = if p' = p then (f.view p).placeBlank else f.view p' := by
  have hiff : (f.slots.get .empty p = .empty ∧ f.line.boundAt p = true ∧ f.line.litAt p = false) ↔
      (f.view p).slot = .empty ∧ (f.view p).pos.bound ≠ none ∧ (f.view p).pos.litUntil = none := by
    simp only [Line.boundAt, Line.litAt, Option.isSome_iff_ne_none, Option.isSome_eq_false_iff, Option.isNone_iff_eq_none]
    rfl
  unfold placeBlank SlotView.placeBlank
  by_cases hb : f.slots.get .empty p = .empty ∧ f.line.boundAt p = true ∧ f.line.litAt p = false
  · rw [if_pos hb, if_pos (hiff.1 hb)]
    unfold Filling.view
    dsimp only
    rw [Table.get_set hf.slots]
    split
    · rename_i e
      rw [e]
    · rfl
  · rw [if_neg hb, if_neg (mt hiff.2 hb)]
    split
    · rename_i e
      rw [e]
    · rfl

/-- The replies placed leave the queue. -/
theorem foldl_placeReply_queue (l : List Nat) (f : Filling) : (l.foldl placeReply f).line.queue = f.line.queue :=
  List.foldlRecOn (motive := fun g : Filling => g.line.queue = f.line.queue) l placeReply rfl fun g hg p _ => by
    unfold placeReply
    split
    · exact hg
    · exact hg

/-- What is known of a position once the replies are placed, its entry of the queue still to be met. -/
def SlotView.start (q : Position) : SlotView := SlotView.placeReply ⟨.empty, q, false⟩

/-- The filling, seen at one position: the reply, then the queue, then in QUIET the BLANK. -/
theorem view_fillDownlinks (s : State) (quiet : Bool) {ln : Line} (hn : ln.queue.Nodup) (hw : ln.positions.wf .reset)
    {p : Nat} (hp : p ∈ positionNumbers) {d : SlotView}
    (hd : d = if p ∈ ln.queue then (SlotView.start (ln.at p)).placeDisplay s quiet else SlotView.start (ln.at p)) :
    (fillDownlinks s quiet ln).view p = if quiet = true then d.placeBlank else d := by
  have hnum : positionNumbers.Nodup := by decide
  obtain ⟨f₁, hf₁⟩ : ∃ f₁, f₁ = positionNumbers.foldl placeReply ⟨ln, .empty⟩ := ⟨_, rfl⟩
  obtain ⟨hs₁, hv₁⟩ := view_foldl (fun _ p hf => placeReply_sound hf p)
    (fun _ p hf => (view_placeReply hf p p).trans (if_pos rfl))
    (fun _ p p' hf hne => (view_placeReply hf p p').trans (if_neg hne)) p positionNumbers hnum
    (f := ⟨ln, .empty⟩) ⟨hw, Table.empty_wf _⟩
  have hq₁ : f₁.line.queue = ln.queue := by
    rw [hf₁, foldl_placeReply_queue]
  rw [← hf₁, if_pos hp] at hv₁
  rw [← hf₁] at hs₁
  have hstart : Filling.view p { f₁ with line := { f₁.line with queue := [] } } = SlotView.start (ln.at p) := by
    have hslot : (f₁.view p).slot = (SlotView.start (ln.at p)).slot ∧
        (f₁.view p).pos = (SlotView.start (ln.at p)).pos ∧ (SlotView.start (ln.at p)).queued = false := by
      rw [hv₁]
      unfold SlotView.start SlotView.placeReply Filling.view
      dsimp only
      split <;> exact ⟨rfl, rfl, rfl⟩
    obtain ⟨hslot, hpos, hqueued⟩ := hslot
    cases hv : SlotView.start (ln.at p)
    rw [hv] at hslot hpos hqueued
    dsimp only at hslot hpos hqueued
    rw [← hslot, ← hpos, hqueued]
    rfl
  obtain ⟨f₂, hf₂⟩ : ∃ f₂, f₂ = serveQueue s quiet f₁ := ⟨_, rfl⟩
  obtain ⟨hs₂, hv₂⟩ := view_foldl (step := placeDisplay s quiet) (fun _ p hf => placeDisplay_sound s hf p)
    (fun _ p hf => (view_placeDisplay s hf p p).trans (if_pos rfl))
    (fun _ p p' hf hne => (view_placeDisplay s hf p p').trans (if_neg hne)) p f₁.line.queue
    (f := { f₁ with line := { f₁.line with queue := [] } }) (hq₁ ▸ hn) ⟨hs₁.line, hs₁.slots⟩
  have hfold : f₁.line.queue.foldl (placeDisplay s quiet) { f₁ with line := { f₁.line with queue := [] } } = f₂ :=
    hf₂.symm
  rw [hfold] at hs₂ hv₂
  rw [hstart, hq₁, ← hd] at hv₂
  obtain ⟨_, hv₃⟩ := view_foldl (fun _ p hf => placeBlank_sound hf p)
    (fun _ p hf => (view_placeBlank hf p p).trans (if_pos rfl))
    (fun _ p p' hf hne => (view_placeBlank hf p p').trans (if_neg hne)) p positionNumbers hnum hs₂
  rw [if_pos hp, hv₂] at hv₃
  rw [fillDownlinks, ← hf₁, ← hf₂]
  split
  · exact hv₃
  · exact hv₂

namespace SlotView

variable {v : SlotView}

theorem placeDisplay_served (s : State) (he : v.slot = .empty) (hl : quiet = false ∨ v.pos.litUntil ≠ none) :
    v.placeDisplay s quiet = { v with
      slot := .display (displayOf s v.pos.bound ((v.pos.genSent + 1) % 256))
      pos := { v.pos with
        genSent := (v.pos.genSent + 1) % 256, unack := if v.pos.bound = none then none else some 0 } } :=
  if_pos ⟨he, hl⟩

theorem placeDisplay_kept (s : State) (h : v.slot ≠ .empty ∨ (quiet = true ∧ v.pos.litUntil = none)) :
    v.placeDisplay s quiet = { v with queued := true } :=
  if_neg fun ⟨he, hl⟩ => by
    rcases h with h | ⟨hq, hd⟩
    · exact h he
    · rcases hl with hl | hl
      · rw [hq] at hl
        cases hl
      · exact hl hd

/-- An entry of the queue kept in its place stays queued. -/
theorem placeDisplay_kept_of_mem {p : Nat} {l : List Nat} (s : State) (h0 : v.queued = false)
    (h : p ∈ l → v.slot ≠ .empty ∨ (quiet = true ∧ v.pos.litUntil = none)) :
    (if p ∈ l then v.placeDisplay s quiet else v) = { v with queued := decide (p ∈ l) } := by
  split
  · rename_i hp
    rw [placeDisplay_kept s (h hp), decide_eq_true hp]
  · rename_i hp
    rw [decide_eq_false hp, ← h0]

theorem placeBlank_filled (h : v.slot ≠ .empty) : v.placeBlank = v := if_neg fun ⟨he, _⟩ => h he

/-- In QUIET a dark bound position with nothing placed carries BLANK. -/
theorem placeBlank_empty (he : v.slot = .empty) : (if quiet = true then v.placeBlank else v) =
    { v with slot := if quiet = true ∧ v.pos.bound ≠ none ∧ v.pos.litUntil = none then .blank else .empty } := by
  unfold placeBlank
  by_cases hq : quiet = true
  · by_cases hd : v.pos.bound ≠ none ∧ v.pos.litUntil = none
    · rw [if_pos hq, if_pos ⟨he, hd⟩, if_pos ⟨hq, hd⟩]
    · rw [if_pos hq, if_neg fun h => hd h.2, if_neg fun h => hd h.2, ← he]
  · rw [if_neg hq, if_neg fun h => hq h.1, ← he]

end SlotView

/-- The facts of a position read from what is known of it. -/
theorem view_iff {p : Nat} {v : SlotView} (h : f.view p = v) :
    f.slots.get .empty p = v.slot ∧ f.line.at p = v.pos ∧ (p ∈ f.line.queue ↔ v.queued = true) := by
  subst h
  exact ⟨rfl, rfl, decide_eq_true_iff.symm⟩

theorem start_of_owed {q : Position} {r : PanelReply} (h : q.last = .reply r true) :
    SlotView.start q = ⟨.reply r, { q with last := .reply r false }, false⟩ := by
  rw [SlotView.start, SlotView.placeReply, h]

theorem start_of_not_owed {q : Position} (h : ∀ r, q.last ≠ .reply r true) : SlotView.start q = ⟨.empty, q, false⟩ := by
  unfold SlotView.start SlotView.placeReply
  split
  · rename_i r hr
    exact absurd hr (h r)
  · rfl

end Sys2Proof.Machine

section Statements

open Sys2Proof Sys2Proof.Machine

/-- Settles O55: the display fact by fact, the judging case by case, the downlinks position by position. -/
theorem uplinksAndDownlinks : Obligations.UplinksAndDownlinks := by
  refine ⟨fun s room now here next shown from_ light g hnow hhere hnext hshown hfrom hlight => ?_,
    fun l p n x q s noted hs hq hn hnoted => ?_, fun s quiet ln f p q hf hnodup hw hq h1 h48 => ?_⟩
  · subst hnow
    have hcurrent : here = currentBooking s room := hhere.trans (currentBooking_eq s room).symm
    have hafter : next = nextBooking s room := hnext.trans (nextBooking_eq s room).symm
    clear hhere hnext
    subst hcurrent hafter
    have hstate : shown = shownState s room := hshown.trans (shownState_eq s room).symm
    have hbooking : from_ = shownBooking s room := hfrom.trans (shownBooking_eq s room).symm
    clear hshown hfrom
    subst hstate hbooking
    have hindicator : light = roomIndicator s room := hlight.trans (roomIndicator_eq s room).symm
    subst hindicator
    exact ⟨rfl, rfl, rfl⟩
  · obtain ⟨_, _, _, _, _, _, _, _, _, _, _, _, hlines⟩ := hs
    have hpos := hlines l
    refine ⟨fun hk => if_pos hk, fun r owed hk ht hr => ?_, fun hk ht hr => ?_, fun v hk ht hv => ?_⟩
    · subst hq
      rw [judgeRequest, if_neg hk, if_pos ht, updLine, Line.repeatRequest_reply hr]
    · subst hq
      rw [judgeRequest, if_neg hk, if_pos ht, updLine_self (Line.repeatRequest_other hr)]
    · have hnew : updLine l (Line.newRequest p x.toggle) s = v := by
        rw [hv, hnoted, hn, hq]
        rfl
      have hreqno : (v.lines.get l).reqno = n := by
        rw [hv, hnoted, Quad.get_set, if_pos rfl]
      have hlinesv : v.lines = s.lines.set l ((s.lines.get l).newRequest p x.toggle) := by
        rw [← hnew]
        rfl
      have hnowv : lineNow l v = lineNow l s := by
        rw [hv, lineNow, lineNow, hnoted]
        dsimp only
        rw [Quad.get_set, if_pos rfl]
      have hself : ∀ (w : State) (code : PanelCode), w.lines = v.lines → selfAnswer l p x code w = { w with
          lines := s.lines.set l (noted (.reply ⟨code, x.kind, x.toggle, none⟩ true) (some x.toggle)) } := by
        intro w code hw
        rw [selfAnswer_newRequest hpos (hw.trans hlinesv), hnoted, hn, hq]
      have hreported : ∀ (k : ExcKind) (code : PanelCode), selfAnswer l p x code (postException k (lineNow l v) v) =
          { postException k (lineNow l s) s with
            lines := s.lines.set l (noted (.reply ⟨code, x.kind, x.toggle, none⟩ true) (some x.toggle)) } := by
        intro k code
        rw [hself _ code (by simp), hnowv, hv, postException_lines_set]
      have hjudge : judgeRequest l p x s = match q.bound with
          | some room => handOn l p room x v
          | none => refuseUnbound l p x v := by
        rw [← hnew]
        subst hq
        exact judgeRequest_new hk ht
      refine ⟨fun room hb => ?_, fun hb => ?_⟩
      · rw [hb] at hjudge
        dsimp only at hjudge
        rw [handOn_eq, hreqno] at hjudge
        refine ⟨fun h => ?_, fun h => ?_, fun h => ?_, fun h => ?_, fun h => ?_, fun h => ?_, fun h => ?_⟩
        · rw [hjudge, if_pos h, hv]
          rfl
        · rw [hjudge, if_neg (by omega), if_pos h, hv]
          rfl
        · rw [hjudge, if_neg (by omega), if_neg (by omega), if_pos h, hv]
          rfl
        · rw [hjudge, if_neg (by omega), if_neg (by omega), if_neg (by omega), if_pos h, hv]
          rfl
        · rw [hjudge, if_neg (by omega), if_neg (by omega), if_neg (by omega), if_neg (by omega), if_pos h, hv]
          rfl
        · rw [hjudge, if_neg (by omega), if_neg (by omega), if_neg (by omega), if_neg (by omega), if_neg (by omega),
            if_pos h, hreported, h]
        · rw [hjudge, if_neg (by omega), if_neg (by omega), if_neg (by omega), if_neg (by omega), if_neg (by omega),
            if_neg (by omega), hself v _ rfl, hv]
      · rw [hb] at hjudge
        exact hjudge.trans (hreported _ _)
  · have hview := view_fillDownlinks s quiet hnodup hw (mem_positionNumbers.2 ⟨h1, h48⟩) rfl
    rw [← hf, ← hq] at hview
    refine ⟨fun r hr => ?_, fun hr hin hlit => ?_, fun hr hnot => ?_⟩
    · rw [start_of_owed hr, SlotView.placeDisplay_kept_of_mem s rfl fun _ => .inl (by nofun),
        SlotView.placeBlank_filled (by nofun), ite_self] at hview
      obtain ⟨hslot, hat, hmem⟩ := view_iff hview
      exact ⟨hslot, hat, hmem.trans decide_eq_true_iff⟩
    · rw [start_of_not_owed hr, if_pos hin, SlotView.placeDisplay_served s rfl hlit,
        SlotView.placeBlank_filled (by nofun), ite_self] at hview
      obtain ⟨hslot, hat, hmem⟩ := view_iff hview
      exact ⟨hslot, hat, fun h => nomatch hmem.1 h⟩
    · rw [start_of_not_owed hr, SlotView.placeDisplay_kept_of_mem s rfl fun hp => .inr (hnot.resolve_left (absurd hp)),
        SlotView.placeBlank_empty rfl] at hview
      obtain ⟨hslot, hat, hmem⟩ := view_iff hview
      exact ⟨hslot, hat, hmem.trans decide_eq_true_iff⟩

end Statements
end

