-- ==== Sys2Proof/Proofs/PlannerNotices.lean ====
section
/-! PROOFS. The planner's link and display notices at the engine, and the CancelOrder that waits for its link notice
(R57, R110, R111). -/

namespace Sys2Proof.Machine

variable {h o : Handle} {b : Booking} {s u : State}

/-! ### The CancelOrder that waits (R110) -/

/-- A CancelOrder that waits for the notice of this order is answered with its body. -/
theorem replyAfterLink_waiting {k g : Nat} {r : HostRequest} {body : List Field}
    (hs : s.link.slot = some ⟨k, g, r, .afterLink o body⟩) : replyAfterLink o s = finish .ok body s := by
  unfold replyAfterLink
  rw [hs]
  exact if_pos rfl

/-- With no such request in service nothing is answered. -/
theorem replyAfterLink_else (hs : ∀ sl body, s.link.slot = some sl → sl.stage ≠ .afterLink o body) :
    replyAfterLink o s = s := by
  unfold replyAfterLink
  split
  · rename_i sl hsl
    split
    · rename_i body hst
      exact if_neg fun e => hs sl body hsl (by rw [hst, e])
    · rfl
  · rfl

/-- What the reply behind a link notice can do: one answer, or nothing. -/
theorem replyAfterLink_cases (o : Handle) (s : State) :
    replyAfterLink o s = s ∨ ∃ body, replyAfterLink o s = finish .ok body s := by
  unfold replyAfterLink
  split
  · split
    · split
      · exact .inr ⟨_, rfl⟩
      · exact .inl rfl
    · exact .inl rfl
  · exact .inl rfl

/-- The reply changes the link alone, so what a room shows stands. -/
theorem replyAfterLink_shown {room : Nat} {v w : State} (hd : ButDisplay v w) (hshow : Shows room w) (o : Handle) :
    ButDisplay v (replyAfterLink o w) ∧ Shows room (replyAfterLink o w) := by
  rcases replyAfterLink_cases o w with h | ⟨body, h⟩ <;> rw [h]
  · exact ⟨hd, hshow⟩
  · exact ⟨hd.trans (.finish ..), hshow.finish ..⟩

/-! ### The booking a notice names (R111) -/

theorem linksOrder_iff : linksOrder s h o = true ↔ ∃ b, liveBooking s h = some b ∧ b.order = some o := by
  unfold linksOrder
  cases liveBooking s h <;> simp

theorem bookingAt_of_liveBooking (hb : liveBooking s h = some b) : bookingAt s h.index = some b := by
  unfold liveBooking at hb
  split at hb
  · exact hb
  · cases hb

/-- A link notice that names a live booking of the order drops the link and evaluates the display. -/
theorem doLinkNotice_linked (hb : liveBooking s h = some b) (ho : b.order = some o) : doLinkNotice h o s =
    replyAfterLink o (evalDisplay b.room (setBooking h.index { b with order := none } s)) := by
  unfold doLinkNotice
  rw [bookingAt_of_liveBooking hb]
  dsimp only
  rw [if_pos (linksOrder_iff.2 ⟨b, hb, ho⟩)]

/-- One that names none leaves what stands. -/
theorem doLinkNotice_unlinked (hn : ∀ b, liveBooking s h = some b → b.order ≠ some o) :
    doLinkNotice h o s = replyAfterLink o s := by
  have hlink : ¬ linksOrder s h o = true := fun hl => by
    obtain ⟨b, hb, ho⟩ := linksOrder_iff.1 hl
    exact hn b hb ho
  unfold doLinkNotice
  split
  · rw [if_neg hlink]
  · rfl

/-- A room without a panel is sent no display request. -/
theorem requestDisplay_unbound {r : Nat} (hr : bindingOf s r = none) : requestDisplay r s = s := by
  unfold requestDisplay
  rw [hr]

theorem requestDisplay_bound {r : Nat} {x : Binding} (hr : bindingOf s r = some x) :
    requestDisplay r s = sendLine x.line (.display r) s := by
  unfold requestDisplay
  rw [hr]

end Sys2Proof.Machine

section Statements

open Sys2Proof Sys2Proof.Machine

/-- Settles O43: a link notice is one write and one evaluation, or nothing, before the reply that waits for it; a
display notice is one display request, or nothing. -/
theorem plannerNotices : Obligations.PlannerNotices := by
  refine ⟨fun h o s u ht hs => ?_, fun h o s u ht => ?_⟩
  · have he : exec (.linkNotice h o) s = .next (doLinkNotice h o u) := by
      rw [exec, execLinkNotice, ht, whenTaken_some]
    refine ⟨fun b hb ho => ?_, fun hn => ⟨fun hwait => ?_, fun k g r body hslot => ?_⟩⟩
    · rw [doLinkNotice_linked hb ho, setBooking_eq rfl] at he
      obtain ⟨w, hw⟩ : ∃ w, w = evalDisplay b.room { u with store := { u.store with
        records := u.store.records.set ⟨0, none⟩ h.index
          ⟨(recordAt u h.index).gen, some { b with order := none }⟩ } } := ⟨_, rfl⟩
      have hlink : w.link = u.link := by rw [hw]; simp
      have hk : u.engine.kept.wf none := ((Writes.of_takeEngine ht).sound.tables hs).kept
      rw [← hw] at he
      obtain ⟨hbut, hshows⟩ := replyAfterLink_shown (hw ▸ ButDisplay.evalDisplay ..)
        (hw ▸ Shows.evalDisplay_self (by exact hk) b.room) o
      refine ⟨_, he, hshows, hbut, fun hwait => ?_, fun k g r body hslot => ?_⟩
      · rw [replyAfterLink_else (by rwa [hlink]), hlink]
      · rw [replyAfterLink_waiting (by rw [hlink, hslot])]
        exact answered_finish hslot hlink ..
    · rw [he, doLinkNotice_unlinked hn, replyAfterLink_else hwait]
    · rw [doLinkNotice_unlinked hn, replyAfterLink_waiting hslot] at he
      exact repliesOnly_of_finish ⟨_, hslot⟩ he
  · have he : exec (.displayNotice h o) s = .next (doDisplayNotice h o u) := by
      rw [exec, execDisplayNotice, ht, whenTaken_some]
    unfold doDisplayNotice at he
    refine ⟨fun b x hb ho hx => ?_, fun hn => ?_⟩
    · rw [if_pos (linksOrder_iff.2 ⟨b, hb, ho⟩), roomOfRecord_eq (bookingAt_of_liveBooking hb),
        requestDisplay_bound hx] at he
      exact he
    · by_cases hl : linksOrder u h o = true
      · obtain ⟨b, hb, ho⟩ := linksOrder_iff.1 hl
        rw [if_pos hl, roomOfRecord_eq (bookingAt_of_liveBooking hb),
          requestDisplay_unbound (Option.eq_none_iff_forall_ne_some.2 fun x => hn b x hb ho)] at he
        exact he
      · rw [if_neg hl] at he
        exact he

end Statements
end

