-- ==== Sys2Proof/Proofs/CheckIns.lean ====
section
/-! PROOFS. Check-ins that the host did not request: by an occupancy notice and at a door panel (R47, R61, R70, R71,
R158). -/

namespace Sys2Proof.Machine

variable {s u : State} {src : PanelSrc} {badge : Token} {r i : Nat} {b : Booking} {now : CTime}

/-! ### The booking that may be checked in (R70, R158) -/

/-- With no live booking at the room, or no now, none may be checked in. -/
theorem checkInCandidate_none (h : roomBookings u r = [] ∨ engineNow u = none) : checkInCandidate u r = none := by
  unfold checkInCandidate
  rcases h with h | h
  · rw [h]
    rfl
  · rw [h]
    cases (roomBookings u r).head? <;> rfl

/-- The earliest booking of the room may be checked in while it is CONFIRMED, its window open and no mark set. -/
theorem checkInCandidate_some (hb : (roomBookings u r).head? = some (i, b)) (hnow : engineNow u = some now)
    (hcan : b.state = .confirmed ∧ idx u b.start - 1 ≤ idx u now ∧ b.pending = none) :
    checkInCandidate u r = some (i, b, now) := by
  obtain ⟨hst, hidx, hp⟩ := hcan
  unfold checkInCandidate
  rw [hb, hnow]
  exact if_pos (by simp [windowOpen, hst, hidx, hp])

/-- In any other state it may not. -/
theorem checkInCandidate_not (hb : (roomBookings u r).head? = some (i, b)) (hnow : engineNow u = some now)
    (hcan : ¬ (b.state = .confirmed ∧ idx u b.start - 1 ≤ idx u now ∧ b.pending = none)) :
    checkInCandidate u r = none := by
  unfold checkInCandidate
  rw [hb, hnow]
  exact if_neg fun h => hcan (by simpa [windowOpen, and_assoc] using h)

/-! ### The check-in reported (R71) -/

/-- A check-in reported is one write of its booking and one event. -/
theorem checkInReported_eq (i : Nat) (b : Booking) (now : CTime) (source : Nat) (badge : Token) (u : State) :
    checkInReported i b now source badge u =
      postEvent ⟨.bookingCheckedIn, now, b.room, ⟨i, (recordAt u i).gen⟩,
        .pair source (if idx u now < idx u (shiftTime b.start u.policy.grace) then 0 else 1), .token badge⟩
      { u with store := { u.store with
        records := u.store.records.set ⟨0, none⟩ i
          ⟨(recordAt u i).gen, some { b with state := .checkedIn, checkedIn := some now }⟩ } } := rfl

/-- It leaves the display, the lines and the link. -/
theorem checkInReported_frame (i : Nat) (b : Booking) (now : CTime) (source : Nat) (badge : Token) (u : State) :
    (checkInReported i b now source badge u).engine = u.engine ∧
    (checkInReported i b now source badge u).lines = u.lines ∧
    (checkInReported i b now source badge u).link = u.link := by
  simp [checkInReported_eq]

/-! ### The two notices -/

theorem exec_occupancyNotice (ht : takeEngine (.occupancy r) s = some u) :
    exec (.occupancyNotice r) s = .next (doOccupancy r u) := by
  rw [exec, execOccupancyNotice, ht, whenTaken_some]

theorem exec_panelCheckin (ht : takeEngine (.checkin src r badge) s = some u) :
    exec (.panelCheckin src r badge) s = .next (doPanelCheckin src r badge u) := by
  rw [exec, execPanelCheckin, ht, whenTaken_some]

/-- An occupancy notice acts with auto check-in on, at a room in use, on a booking that may be checked in. -/
theorem doOccupancy_acts (ha : u.policy.autoCheckIn = true) (hr : roomAt u r ≠ none)
    (hc : checkInCandidate u r = some (i, b, now)) :
    doOccupancy r u = evalDisplay r (checkInReported i b now 1 0 u) := by
  unfold doOccupancy
  rw [if_pos (by simp [ha, Option.isSome_iff_ne_none, hr]), hc]

/-- Without one of the three it changes nothing. -/
theorem doOccupancy_idle (h : u.policy.autoCheckIn = true → roomAt u r ≠ none → checkInCandidate u r = none) :
    doOccupancy r u = u := by
  unfold doOccupancy
  split
  · rename_i hon
    rw [Bool.and_eq_true, Option.isSome_iff_ne_none] at hon
    rw [h hon.1 hon.2]
  · rfl

/-- A panel's check-in acts whenever a booking may be checked in. -/
theorem doPanelCheckin_acts (hc : checkInCandidate u r = some (i, b, now)) :
    doPanelCheckin src r badge u = evalDisplay r (answerPanel src kindCheckin .accepted none
      (checkInReported i b now 0 badge u)) := by
  unfold doPanelCheckin
  rw [hc]

/-- A panel that finds none is answered NOT_NOW. -/
theorem refusedAtPanel_of_noCandidate (ht : takeEngine (.checkin src r badge) s = some u)
    (hc : checkInCandidate u r = none) :
    RefusedAtPanel (.panelCheckin src r badge) s u src 2 .wrongState .notNow none := by
  have he := exec_panelCheckin ht
  rw [doPanelCheckin, hc] at he
  exact refusedAtPanel_of_refuse he

end Sys2Proof.Machine

section Statements

open Sys2Proof Sys2Proof.Machine

/-- Settles O41: a notice finds the booking that may be checked in, or none; it is one write, its event and the
evaluation, a panel's answer before it. -/
theorem checkInsWithoutTheHost : Obligations.CheckInsWithoutTheHost := by
  refine ⟨fun r s u hnone => ⟨fun ht => ?_, fun src badge ht =>
      refusedAtPanel_of_noCandidate ht (checkInCandidate_none hnone)⟩,
    fun r i b now u can hb hnow hcan reported hrep => ⟨fun s ht hs => ⟨fun ha hr hc => ?_, fun hnot => ?_⟩,
      fun src badge s ht hs => ⟨fun hc => ?_, fun hnot => ?_⟩⟩⟩
  · rw [exec_occupancyNotice ht, doOccupancy_idle fun _ _ => checkInCandidate_none hnone]
  · have he := exec_occupancyNotice ht
    rw [doOccupancy_acts ha hr (checkInCandidate_some hb hnow (hcan.1 hc))] at he
    obtain ⟨hengine, _, hlink⟩ := checkInReported_frame i b now 1 0 u
    obtain ⟨t, het, hshows, htlink, hbut⟩ := shown
      (by rw [hengine]; exact ((Writes.of_takeEngine ht).sound.tables hs).kept) he
    exact ⟨t, het, hshows, htlink.trans hlink, by rwa [hrep, ← checkInReported_eq]⟩
  · rw [exec_occupancyNotice ht,
      doOccupancy_idle fun ha hr => checkInCandidate_not hb hnow fun hc => hnot ⟨ha, hr, hcan.2 hc⟩]
  · have he := exec_panelCheckin ht
    rw [doPanelCheckin_acts (checkInCandidate_some hb hnow (hcan.1 hc))] at he
    obtain ⟨hengine, hlines, hlink⟩ := checkInReported_frame i b now 0 badge u
    obtain ⟨t, het, htlink, hshows, hans, hbut⟩ := shown_and_panelAnswered hlines hlink
      (by rw [hengine]; exact ((Writes.of_takeEngine ht).sound.tables hs).kept) he
    exact ⟨t, het, hshows, htlink, hans, by rwa [hrep, ← checkInReported_eq]⟩
  · exact refusedAtPanel_of_noCandidate ht (checkInCandidate_not hb hnow fun hc => hnot (hcan.2 hc))

end Statements
end

