-- ==== Sys2Proof/Proofs/Moves.lean ====
section
/-! PROOFS. A Move: its field checks and admission checks in order, the move answered at once, staged for a refit, or
committed (R37 to R40, R48 to R50, R57, R107). -/

namespace Sys2Proof.Machine

variable {c : Instr} {s u : State} {q : MoveReq} {b : Booking}

/-! ### The admission checks, one by one (R38 to R40) -/

theorem checkInUse_eq (s : State) (r : Nat) :
    checkInUse s r = if roomAt s r = none then some ⟨.noSuchRoom, none⟩ else none :=
  require_eq Option.isSome_iff_ne_none

theorem checkService_eq (s : State) (r : Nat) : checkService s r =
    if (roomAt s r).map RoomEntry.inService ≠ some true ∨
        (s.policy.absentAction = .close ∧ panelPresent s r = false) then some ⟨.roomOutOfService, none⟩
    else none :=
  require_eq (by
    rw [closedByPolicy]
    cases (roomAt s r).map RoomEntry.inService <;> simp [imp_iff_not_or])

theorem checkClock_eq (s : State) : checkClock s = if engineNow s = none then some ⟨.clockNotSet, none⟩ else none :=
  require_eq Option.isSome_iff_ne_none

theorem checkLength_eq (s : State) (sp : Span) : checkLength s sp =
    if idx s sp.fin - idx s sp.start < 3 ∨ 144 < idx s sp.fin - idx s sp.start then some ⟨.badField, none⟩
    else none :=
  require_eq (by rw [decide_eq_true_iff]; omega)

theorem checkStart_eq (s : State) (t : CTime) : checkStart s t =
    if idx s t < ((engineNow s).map (idx s)).getD 0 then some ⟨.outOfHorizon, none⟩ else none :=
  require_eq (by rw [decide_eq_true_iff]; omega)

theorem checkHorizon_eq (s : State) (t : CTime) :
    checkHorizon s t = if 2304 < idx s t then some ⟨.outOfHorizon, none⟩ else none :=
  require_eq (by rw [decide_eq_true_iff]; omega)

theorem checkSeats_eq (s : State) (r n : Nat) : checkSeats s r n =
    if ((roomAt s r).map RoomEntry.seats).getD 0 < n then some ⟨.overCapacity, none⟩ else none :=
  require_eq (by rw [decide_eq_true_iff]; omega)

/-! ### The checks of a Move (R48) -/

/-- The fields and the state limits a Move is refused BAD_FIELD for. -/
def BadMove (u : State) (b : Booking) (q : MoveReq) : Prop :=
  511 < q.room ∨ 287 < q.start.quantum ∨ 287 < q.fin.quantum ∨ 500 < q.attendees ∨ 1 < q.flags ∨
    (b.state = .checkedIn ∧ (q.room ≠ b.room ∨ q.start ≠ b.start)) ∨
    (engineNow u ≠ none ∧ idx u q.fin ≤ ((engineNow u).map (idx u)).getD 0)

theorem moveFieldsOk_iff (u : State) (b : Booking) (q : MoveReq) : moveFieldsOk u b q = true ↔ ¬ BadMove u b q := by
  have hend : (engineNow u).all (fun now => decide (idx u now < idx u q.fin)) = true ↔
      ¬ (engineNow u ≠ none ∧ idx u q.fin ≤ ((engineNow u).map (idx u)).getD 0) := by
    cases engineNow u with
    | none => simp
    | some now =>
      rw [Option.all_some, Option.map_some, Option.getD_some, decide_eq_true_iff, not_and]
      exact ⟨fun h _ => Int.not_le.2 h, fun h => Int.not_le.1 (h nofun)⟩
  have hlimit : (decide (b.state ≠ .checkedIn) || decide (q.room = b.room ∧ q.start = b.start)) = true ↔
      ¬ (b.state = .checkedIn ∧ (q.room ≠ b.room ∨ q.start ≠ b.start)) := by
    simp only [Bool.or_eq_true, decide_eq_true_eq]
    tauto
  rw [moveFieldsOk, Bool.and_eq_true, Bool.and_eq_true, hend, hlimit, decide_eq_true_eq]
  simp only [BadMove, not_or, Nat.not_lt, and_assoc]

/-- The admission checks of a Move, the first that fails: check 2 with a new room, the start half of check 5 with a new
room or start, check 6 with a new room or count, the booking itself left out of the conflict test. -/
theorem checkMove_eq (u : State) (i : Nat) (b : Booking) (q : MoveReq) : checkMove u i b q =
    if roomAt u q.room = none then some ⟨.noSuchRoom, none⟩
    else if q.room ≠ b.room ∧ ((roomAt u q.room).map RoomEntry.inService ≠ some true ∨
        (u.policy.absentAction = .close ∧ panelPresent u q.room = false)) then some ⟨.roomOutOfService, none⟩
    else if engineNow u = none then some ⟨.clockNotSet, none⟩
    else if idx u q.fin - idx u q.start < 3 ∨ 144 < idx u q.fin - idx u q.start then some ⟨.badField, none⟩
    else if ((q.room ≠ b.room ∨ q.start ≠ b.start) ∧ idx u q.start < ((engineNow u).map (idx u)).getD 0) ∨
        2304 < idx u q.fin then some ⟨.outOfHorizon, none⟩
    else if (q.room ≠ b.room ∨ newCount b q.attendees ≠ b.attendees) ∧
        ((roomAt u q.room).map RoomEntry.seats).getD 0 < newCount b q.attendees then some ⟨.overCapacity, none⟩
    else (firstConflict u q.room ⟨q.start, q.fin⟩ (some i)).map (fun x => ⟨.conflict, some x⟩) := by
  unfold checkMove
  dsimp only
  rw [checkInUse_eq, checkService_eq, checkClock_eq, checkLength_eq, checkStart_eq, checkHorizon_eq, checkSeats_eq]
  simp only [Bool.or_eq_true, decide_eq_true_eq, ← ite_and, ite_some_or, ite_ite_same]
  rfl

theorem doMove_bad (hn : Names u q.booking b) (hbad : BadMove u b q) : doMove q u = refuseHost .badField [] u := by
  have hok : moveFieldsOk u b q = false := by
    rw [Bool.eq_false_iff]
    exact fun h => (moveFieldsOk_iff u b q).1 h hbad
  rw [doMove, withBooking_named hn, hok]
  rfl

/-- A Move on an unmarked booking with its fields in order: refused by the first admission check that fails, or made. -/
theorem doMove_named (hn : Names u q.booking b) (hbad : ¬ BadMove u b q) : doMove q u =
    refusedOrMade q.room (doMoveChecked q b u) u (checkMove u q.booking.index b q) := by
  rw [doMove, withBooking_named hn, (moveFieldsOk_iff u b q).2 hbad]
  rfl

/-! ### A Move that passes (R48 to R50) -/

/-- A Move names the present values of its booking. -/
def NamesPresent (b : Booking) (q : MoveReq) : Prop :=
  q.room = b.room ∧ q.start = b.start ∧ q.fin = b.fin ∧ newCount b q.attendees = b.attendees

theorem doMoveChecked_present (h : NamesPresent b q) :
    doMoveChecked q b u = finish .ok (moveBody q.room ⟨q.start, q.fin⟩ .none) u := if_pos h

/-- One that moves the start of a booking with an order is staged (R50). -/
theorem doMoveChecked_staged {o : Handle} (h : ¬ NamesPresent b q) (ho : b.order = some o) (hs : q.start ≠ b.start) :
    doMoveChecked q b u = stageMove q b o u := by
  refine (if_neg h).trans ?_
  rw [ho]
  exact if_neg hs

/-- The notice a committed move sends the planner: the new room of the booking's order (R107). -/
def roomNotices (b : Booking) (room : Nat) : List PlannerWork :=
  match b.order with
  | some o => if room = b.room then [] else [.roomNotice o room]
  | none => []

theorem noticeRoom_eq (b : Booking) (room : Nat) (s : State) : noticeRoom b room s =
    { s with planner := { s.planner with intake := s.planner.intake ++ roomNotices b room } } := by
  unfold noticeRoom roomNotices
  cases b.order with
  | none => simp only [List.append_nil]
  | some o =>
    dsimp only
    split
    · simp only [List.append_nil]
    · rfl

/-- The state of a move committed and its notice sent, before the display evaluation. -/
def committedMove (q : MoveReq) (b : Booking) (u : State) : State :=
  noticeRoom b q.room (commitMove q.booking.index b q.room ⟨q.start, q.fin⟩ q.attendees u)

/-- Any other is committed at once (R49). -/
theorem doMoveChecked_committed (h : ¬ NamesPresent b q) (hs : b.order = none ∨ q.start = b.start) :
    doMoveChecked q b u =
      finish .ok (moveBody q.room ⟨q.start, q.fin⟩ (if b.order = none then .none else .kept))
        (evalMove b.room q.room (committedMove q b u)) := by
  refine (if_neg h).trans ?_
  unfold committedMove
  cases ho : b.order with
  | none =>
    have hnotice : ∀ v, noticeRoom b q.room v = v := fun v => by rw [noticeRoom, ho]
    rw [hnotice]
    rfl
  | some o =>
    dsimp only
    rw [if_pos (hs.resolve_left (by rw [ho]; nofun)), if_neg nofun]

/-- The committed move writes its record, the room lists and the planner's intake. -/
theorem committedMove_eq (q : MoveReq) (b : Booking) (u : State) : committedMove q b u = { u with
    store := { u.store with
      records := u.store.records.set ⟨0, none⟩ q.booking.index
        ⟨(recordAt u q.booking.index).gen, some (movedBooking b q.room ⟨q.start, q.fin⟩ q.attendees)⟩
      lists := (committedMove q b u).store.lists }
    planner := { u.planner with intake := u.planner.intake ++ roomNotices b q.room } } := by
  unfold committedMove
  rw [noticeRoom_eq, commitMove_eq]

theorem recordAt_committedMove (hw : u.store.records.wf ⟨0, none⟩) (j : Nat) : recordAt (committedMove q b u) j =
    if j = q.booking.index then
      ⟨(recordAt u q.booking.index).gen, some (movedBooking b q.room ⟨q.start, q.fin⟩ q.attendees)⟩
    else recordAt u j := by
  rw [committedMove_eq]
  exact Table.get_set hw q.booking.index j _

/-- The room lists of the committed move (R29, R49). -/
theorem roomList_committedMove (hw : u.store.lists.wf []) (r : Nat) : roomList (committedMove q b u) r =
    if q.room = b.room ∧ q.start = b.start then roomList u r
    else if r = q.room then insertBy (startIdx (committedMove q b u)) q.booking.index
      (if q.room = b.room then (roomList u r).filter (· ≠ q.booking.index) else roomList u r)
    else if r = b.room then (roomList u r).filter (· ≠ q.booking.index)
    else roomList u r := by
  have hcommit := roomList_commitMove hw q.booking.index b q.room ⟨q.start, q.fin⟩ q.attendees r
  unfold committedMove
  rw [noticeRoom_eq]
  exact hcommit

/-- The evaluation of a committed move leaves the link. -/
theorem evalMove_link (old new : Nat) (s : State) : (evalMove old new s).link = s.link := by
  unfold evalMove
  split <;> simp

/-- A committed move, its rooms shown and its answer built. -/
theorem committed_spec {body : List Field} (hu : ∃ sl, u.link.slot = some sl) (hw : TablesCanonical u)
    (hg : (recordAt u q.booking.index).gen = q.booking.gen)
    (he : exec c s = .next (finish .ok body (evalMove b.room q.room (committedMove q b u)))) :
    ∃ t, exec c s = .next t ∧ Answered u t .ok body ∧
      recordAt t q.booking.index =
        ⟨q.booking.gen, some (movedBooking b q.room ⟨q.start, q.fin⟩ q.attendees)⟩ ∧
      (∀ j, j ≠ q.booking.index → recordAt t j = recordAt u j) ∧
      (∀ r, roomList t r =
        if q.room = b.room ∧ q.start = b.start then roomList u r
        else if r = q.room then insertBy (startIdx t) q.booking.index
          (if q.room = b.room then (roomList u r).filter (· ≠ q.booking.index) else roomList u r)
        else if r = b.room then (roomList u r).filter (· ≠ q.booking.index)
        else roomList u r) ∧
      Shows b.room t ∧ Shows q.room t ∧
      ButDisplay { u with
        store := { u.store with records := t.store.records, lists := t.store.lists }
        planner := { u.planner with intake := u.planner.intake ++ roomNotices b q.room } } t := by
  obtain ⟨sl, hsl⟩ := hu
  obtain ⟨m, hm⟩ : ∃ m, m = committedMove q b u := ⟨_, rfl⟩
  have hmeq := hm.trans (committedMove_eq q b u)
  rw [← hm] at he hmeq
  obtain ⟨t, ht⟩ : ∃ t, t = finish .ok body (evalMove b.room q.room m) := ⟨_, rfl⟩
  have hbut : ButDisplay m t := ht ▸ (ButDisplay.evalMove ..).trans (.finish ..)
  obtain ⟨hold, hnew⟩ := Shows.evalMove (s := m) (by rw [hmeq]; exact hw.kept) b.room q.room
  obtain ⟨hstore, _, _, hengine⟩ := hbut.frame
  have hrecord : ∀ j, recordAt t j = recordAt m j := fun j => by unfold recordAt; rw [hstore]
  have hstarts : startIdx t = startIdx m := by
    obtain ⟨K, L, M, htm, _⟩ := butDisplay_iff.1 hbut
    exact startIdx_congr (by rw [htm]) (by rw [htm]) (by rw [htm])
  refine ⟨t, by rw [he, ht], ?_, ?_, fun j hj => ?_, fun r => ?_, ht ▸ hold.finish .., ht ▸ hnew.finish .., ?_⟩
  · rw [ht]
    exact answered_finish hsl ((evalMove_link ..).trans (by rw [hmeq])) ..
  · rw [hrecord, hm, recordAt_committedMove hw.records, if_pos rfl, hg]
  · rw [hrecord, hm, recordAt_committedMove hw.records, if_neg hj]
  · have hlist : roomList t r = roomList m r := by unfold roomList; rw [hstore]
    rw [hlist, hstarts, hm]
    exact roomList_committedMove hw.lists r
  · have hstored : { u with
        store := { u.store with records := t.store.records, lists := t.store.lists }
        planner := { u.planner with intake := u.planner.intake ++ roomNotices b q.room } } = m := by
      rw [hstore, hmeq]
    rw [hstored]
    exact hbut

end Sys2Proof.Machine

section Statements

open Sys2Proof Sys2Proof.Machine

/-- Settles O34: the chain of a Move read check by check, and behind it the three things a Move that passes does. -/
theorem moveWork : Obligations.MoveWork := by
  intro q b n now s u ht hs hn hcount hnow
  have hw := ht.canonical rfl hs
  have he : exec (.move q) s = .next (doMove q u) := ht.hostStep _
  subst hnow
  have hcount' : newCount b q.attendees = n := hcount.symm
  refine iteInduction (motive := id) (fun hbad => ?_) fun hok => ?_
  · rw [doMove_bad hn hbad] at he
    exact refusedByEngine_of_refuse ht.slot he
  rw [doMove_named hn hok] at he
  have href : ∀ x : Turned, x.code ≠ .poolEmpty → checkMove u q.booking.index b q = some x →
      RefusedByEngine (.move q) s u x.code x.body := fun x hp hx => by
    rw [hx] at he
    exact refusedByEngine_of_turned ht.slot hp he
  rw [checkMove_eq, hcount'] at he href
  refine iteInduction (motive := id) (fun h1 => href ⟨.noSuchRoom, none⟩ nofun (if_pos h1)) fun h1 => ?_
  rw [if_neg h1] at he href
  refine iteInduction (motive := id) (fun h2 => href ⟨.roomOutOfService, none⟩ nofun (if_pos h2)) fun h2 => ?_
  rw [if_neg h2] at he href
  refine iteInduction (motive := id) (fun h3 => href ⟨.clockNotSet, none⟩ nofun (if_pos h3)) fun h3 => ?_
  rw [if_neg h3] at he href
  refine iteInduction (motive := id) (fun h4 => href ⟨.badField, none⟩ nofun (if_pos h4)) fun h4 => ?_
  rw [if_neg h4] at he href
  refine iteInduction (motive := id) (fun h5 => href ⟨.outOfHorizon, none⟩ nofun (if_pos h5)) fun h5 => ?_
  rw [if_neg h5] at he href
  refine iteInduction (motive := id) (fun h6 => href ⟨.overCapacity, none⟩ nofun (if_pos h6)) fun h6 => ?_
  rw [if_neg h6] at he href
  cases hx : firstConflict u q.room ⟨q.start, q.fin⟩ (some q.booking.index) with
  | some x => exact href ⟨.conflict, some x⟩ nofun (congrArg (Option.map _) hx)
  | none =>
    rw [hx, Option.map_none, refusedOrMade] at he
    intro same hsame
    have hpresent : same ↔ NamesPresent b q := by rw [hsame, NamesPresent, hcount']
    rw [hpresent]
    refine ⟨fun hp => ?_, fun o hp ho hst => ?_, fun hp hst => ?_⟩
    · rw [doMoveChecked_present hp] at he
      exact repliesOnly_of_finish ht.slot he
    · rw [doMoveChecked_staged hp ho hst, stageMove, setBooking_eq hn.gen] at he
      obtain ⟨t, het, hshows, hlink, hbut⟩ := shown (by exact hw.kept) he
      exact ⟨t, het, hlink, hshows, hbut⟩
    · rw [doMoveChecked_committed hp hst] at he
      have hbody : moveBody q.room ⟨q.start, q.fin⟩ (if b.order = none then .none else .kept) =
          [.u16 q.room, .time q.start, .time q.fin, .u8 (if b.order = none then 0 else 1)] := by
        split <;> rfl
      rw [hbody] at he
      have hspec := committed_spec ht.slot hw hn.gen he
      rw [movedBooking, hcount'] at hspec
      exact hspec

end Statements
end

