-- ==== Sys2Proof/Proofs/NewBookings.lean ====
section
/-! PROOFS. Where a booking can come from: an allocation behind the conflict test. Every other piece of work writes
live records or frees them (R22, R37, R38, R50, R52, R157). -/

namespace Sys2Proof.Machine

/-! ### A record that holds no booking -/

/-- Record `k` holds no booking, in a canonical record table. -/
structure Vacant (k : Nat) (s : State) : Prop where
  records : s.store.records.wf ⟨0, none⟩
  vacant : bookingAt s k = none

namespace Vacant

variable {k i : Nat} {s t : State} {b b' : Booking}

theorem of_records (h : Vacant k s) (hr : t.store.records = s.store.records) : Vacant k t := by
  obtain ⟨hw, hv⟩ := h
  unfold bookingAt recordAt at hv
  constructor
  · rwa [hr]
  · unfold bookingAt recordAt
    rwa [hr]

theorem same (h : Vacant k s) (hs : t.store = s.store := by simp) : Vacant k t := h.of_records (by rw [hs])

/-- A write of a live record is a write of another one. -/
theorem setBooking (h : Vacant k s) (hb : bookingAt s i = some b') : Vacant k (setBooking i b s) := by
  refine ⟨Table.set_wf h.records _ _, ?_⟩
  rw [bookingAt, recordAt_setBooking h.records, if_neg, ← bookingAt, h.vacant]
  rintro rfl
  rw [h.vacant] at hb
  cases hb

/-- Freeing fills no record. -/
theorem freeBooking (h : Vacant k s) (i : Nat) (b : Booking) (out : Terminal) : Vacant k (freeBooking i b out s) := by
  constructor
  · rw [freeBooking_eq]
    exact Table.set_wf h.records _ _
  · rw [bookingAt, recordAt_freeBooking h.records]
    split
    · rfl
    · exact h.vacant

theorem ite {p : Prop} [Decidable p] {u : State} (h : p → Vacant k t) (h' : ¬ p → Vacant k u) :
    Vacant k (if p then t else u) := by
  split
  · exact h ‹_›
  · exact h' ‹_›

theorem foldl {α : Type} {f : State → α → State} (hf : ∀ t a, Vacant k t → Vacant k (f t a)) (xs : List α)
    (h : Vacant k s) : Vacant k (xs.foldl f s) :=
  List.foldlRecOn xs f h fun _ ht a _ => hf _ a ht

/-! ### What leaves the records -/

theorem finish (h : Vacant k s) (r : Result) (body : List Field) : Vacant k (finish r body s) := h.same

theorem refuseHost (h : Vacant k s) (r : Result) (body : List Field) : Vacant k (refuseHost r body s) := h.same

theorem evalDisplay (h : Vacant k s) (r : Nat) : Vacant k (evalDisplay r s) := h.same

theorem requestDisplay (h : Vacant k s) (r : Nat) : Vacant k (requestDisplay r s) := h.same

theorem count (h : Vacant k s) (f : Counters → Counters) : Vacant k (count f s) := h.same

theorem sendPlanner (h : Vacant k s) (w : PlannerWork) : Vacant k (sendPlanner w s) := h.same

theorem provisional (h : Vacant k s) (f : Nat → Nat) : Vacant k (provisional f s) := h.same

theorem leaveHolds (h : Vacant k s) (x : Handle) : Vacant k (leaveHolds x s) := h.of_records rfl

theorem setEngine (h : Vacant k s) (E : Engine) : Vacant k { s with engine := E } := h.same rfl

theorem postEvent (h : Vacant k s) (r : EventRecord) : Vacant k (postEvent r s) := h.same

theorem answerPanel (h : Vacant k s) (src : PanelSrc) (kind : Nat) (code : PanelCode) (time : Option CTime) :
    Vacant k (answerPanel src kind code time s) := h.same rfl

theorem refusePanel (h : Vacant k s) (src : PanelSrc) (kind : Nat) (x : Turned) : Vacant k (refusePanel src kind x s) :=
  (h.same (t := countRefusal x.code s)).answerPanel ..

theorem openEpisode (h : Vacant k s) (room : Nat) (src : Option (Fin 4 × Nat)) : Vacant k (openEpisode room src s) :=
  ite (fun _ => h) fun _ => h.of_records (by simp)

theorem refuseTurned (h : Vacant k s) (room : Nat) (x : Turned) (body : List Field) :
    Vacant k (refuseTurned room x body s) :=
  (ite (fun _ => h.openEpisode ..) fun _ => h).refuseHost _ _

theorem evalMove (h : Vacant k s) (old new : Nat) : Vacant k (evalMove old new s) :=
  ite (fun _ => h.evalDisplay _) fun _ => (h.evalDisplay _).evalDisplay _

/-! ### Shared shapes -/

/-- A request that names a booking does its own work on a live record. -/
theorem withBooking (h : Vacant k s) (x : Handle) {run : Booking → State → State}
    (hr : ∀ b, bookingAt s x.index = some b → Vacant k (run b s)) : Vacant k (withBooking x run s) := by
  unfold Machine.withBooking
  split
  · exact h.refuseHost _ _
  · exact h.refuseHost _ _
  · exact ite (fun _ => h.refuseHost _ _) fun _ => hr _ ‹_›

theorem clearMark (h : Vacant k s) (i : Nat) (f : Booking → Booking) : Vacant k (clearMark i f s) := by
  unfold Machine.clearMark
  split
  · exact h.setBooking ‹_›
  · exact h

theorem deferredOutcome (h : Vacant k s) (i : Nat) : Vacant k (deferredOutcome i s) := by
  rcases deferredOutcome_cases i s with e | ⟨b, out, _, e⟩ <;> rw [e]
  · exact h
  · exact h.freeBooking ..

theorem commitMove (h : Vacant k s) (hb : bookingAt s i = some b') (room : Nat) (sp : Span) (n : Nat) :
    Vacant k (commitMove i b room sp n s) :=
  (h.setBooking (b := movedBooking b room sp n) hb).of_records (by rw [commitMove_eq]; rfl)

theorem committedMove {q : MoveReq} (h : Vacant k s) (hb : bookingAt s q.booking.index = some b') :
    Vacant k (committedMove q b s) :=
  (h.commitMove (b := b) hb q.room ⟨q.start, q.fin⟩ q.attendees).of_records (by
    rw [Machine.committedMove, noticeRoom_eq])

theorem endAndShow (h : Vacant k s) (hb : bookingAt s i = some b') (room : Nat) (now : CTime) :
    Vacant k (endAndShow room i b now s) :=
  ite (fun _ => h) fun _ => (h.setBooking hb).evalDisplay _

theorem checkInReported (h : Vacant k s) (hb : bookingAt s i = some b') (now : CTime) (src : Nat) (badge : Token) :
    Vacant k (checkInReported i b now src badge s) :=
  (h.setBooking hb).postEvent _

theorem settleAdmission (h : Vacant k s) (x : Handle) (o : Option Handle) : Vacant k (settleAdmission x o s) :=
  ((ite (fun _ => (h.clearMark _ _).requestDisplay _) fun _ => h.clearMark _ _).deferredOutcome _).evalDisplay _

theorem settleRefit (h : Vacant k s) (x : Handle) (old new : Nat) : Vacant k (settleRefit x old new s) :=
  (((h.clearMark _ _).setEngine _).deferredOutcome _).evalMove _ _

theorem commitRefit (h : Vacant k s) (x : Handle) (keep : Bool) (body : Staged → List Field) :
    Vacant k (commitRefit x keep body s) := by
  have hstaged : ∀ g, Vacant k (commitStaged g keep s) := fun g => by
    unfold commitStaged
    split
    · exact h.commitMove ‹_› ..
    · exact h
  unfold Machine.commitRefit
  split
  · exact ((hstaged _).settleRefit ..).finish _ _
  · exact ((h.clearMark _ _).evalDisplay _).finish _ _

theorem refuseMove (h : Vacant k s) (x : Handle) (r : Result) (body : List Field) : Vacant k (refuseMove x r body s) :=
  ((h.settleRefit ..).count _).refuseHost _ _

/-! ### The engine's work but for the creation of bookings -/

theorem doConfirm (h : Vacant k s) (x : Handle) : Vacant k (doConfirm x s) :=
  h.withBooking x fun _ hb =>
    ite (fun _ => (((h.setBooking hb).leaveHolds x).evalDisplay _).finish _ _) fun _ => h.refuseHost _ _

theorem doCancel (h : Vacant k s) (x : Handle) (n : Nat) : Vacant k (doCancel x n s) :=
  h.withBooking x fun _ _ =>
    ite (fun _ => h.refuseHost _ _) fun _ => ite (fun _ => h.refuseHost _ _) fun _ => ite (fun _ => h.refuseHost _ _)
      fun _ => ((h.freeBooking ..).evalDisplay _).finish _ _

theorem doEnd (h : Vacant k s) (x : Handle) : Vacant k (doEnd x s) :=
  h.withBooking x fun _ hb => by
    split
    · exact h.refuseHost _ _
    · exact ite (fun _ => h.refuseHost _ _) fun _ => (h.endAndShow hb ..).finish _ _

theorem doCheckIn (h : Vacant k s) (x : Handle) (badge : Token) : Vacant k (doCheckIn x badge s) :=
  h.withBooking x fun _ hb => by
    split
    · exact h.refuseHost _ _
    · exact ite (fun _ => ((h.setBooking hb).evalDisplay _).finish _ _) fun _ => h.refuseHost _ _

theorem doMoveChecked (h : Vacant k s) {q : MoveReq} (hb : bookingAt s q.booking.index = some b) :
    Vacant k (doMoveChecked q b s) := by
  by_cases hp : NamesPresent b q
  · rw [doMoveChecked_present hp]
    exact h.finish _ _
  · by_cases hs : b.order = none ∨ q.start = b.start
    · rw [doMoveChecked_committed hp hs]
      exact ((h.committedMove hb).evalMove _ _).finish _ _
    · obtain ⟨ho, hst⟩ := not_or.1 hs
      obtain ⟨o, ho⟩ := Option.ne_none_iff_exists'.1 ho
      rw [doMoveChecked_staged hp ho hst]
      exact (((h.setBooking hb).setEngine _).sendPlanner _).evalDisplay _

theorem doMove (h : Vacant k s) (q : MoveReq) : Vacant k (doMove q s) :=
  h.withBooking _ fun _ hb => ite (fun _ => h.refuseHost _ _) fun _ => by
    split
    · exact h.refuseTurned ..
    · exact h.doMoveChecked hb

theorem doQueryRoom (h : Vacant k s) (room day : Nat) (c : Option CTime) : Vacant k (doQueryRoom room day c s) :=
  ite (fun _ => h.refuseHost _ _) fun _ => ite (fun _ => h.refuseHost _ _) fun _ => h.finish _ _

theorem doQueryBooking (h : Vacant k s) (x : Handle) : Vacant k (doQueryBooking x s) := by
  unfold Machine.doQueryBooking
  split
  · exact h.finish _ _
  · exact h.refuseHost _ _
  · exact h.refuseHost _ _

theorem doAcceptProvisional (h : Vacant k s) (x : Handle) : Vacant k (doAcceptProvisional x s) :=
  h.withBooking x fun _ hb =>
    ite (fun _ => (((h.setBooking hb).provisional _).evalDisplay _).finish _ _) fun _ => h.refuseHost _ _

theorem doPlaceOrder (h : Vacant k s) (x : Handle) (n : Nat) (ls : List OrderLine) : Vacant k (doPlaceOrder x n ls s) :=
  h.withBooking x fun _ hb =>
    ite (fun _ => h.refuseHost _ _) fun _ => ite (fun _ => h.refuseHost _ _) fun _ =>
      ((h.setBooking hb).sendPlanner _).evalDisplay _

theorem doAdmissionAnswer (h : Vacant k s) (x : Handle) (a : AdmissionAnswer) : Vacant k (doAdmissionAnswer x a s) := by
  cases a with
  | admitted => exact (h.settleAdmission _ _).finish _ _
  | refused => exact ((h.settleAdmission _ _).count _).finish _ _

theorem doRefitAnswer (h : Vacant k s) (x : Handle) (a : RefitAnswer) : Vacant k (doRefitAnswer x a s) := by
  cases a with
  | fit | dropped => exact h.commitRefit ..
  | noFit | committed => exact h.refuseMove ..

theorem doLinkNotice (h : Vacant k s) (x o : Handle) : Vacant k (doLinkNotice x o s) := by
  have hreply : ∀ {v}, Vacant k v → Vacant k (replyAfterLink o v) := fun {v} hv => by
    rcases replyAfterLink_cases o v with e | ⟨body, e⟩ <;> rw [e]
    · exact hv
    · exact hv.finish _ _
  refine hreply ?_
  split
  · exact ite (fun _ => (h.setBooking ‹_›).evalDisplay _) fun _ => h
  · exact h

theorem doDisplayNotice (h : Vacant k s) (x o : Handle) : Vacant k (doDisplayNotice x o s) :=
  ite (fun _ => h.requestDisplay _) fun _ => h

theorem doEngineBoundary (h : Vacant k s) (b : Boundary) : Vacant k (doEngineBoundary b s) := by
  have hexp : ∀ v x, Vacant k v → Vacant k (expireHold b.now x v) := fun v x hv => by
    unfold expireHold
    split
    · exact ite (fun _ => hv.freeBooking ..) fun _ => hv
    · exact hv
  have hend : ∀ v i, Vacant k v → Vacant k (endBookingAt b.now i v) := fun v i hv => by
    unfold endBookingAt
    split
    · exact ite (fun _ => hv.freeBooking ..) fun _ => hv
    · exact hv
  have hpass : Vacant k (passExpiries b.now (setEngineNow b.now s)) := (h.setEngine _).foldl hexp _
  exact foldl (fun _ _ hv => hv.evalDisplay _) _ (hpass.foldl (fun _ _ hv => hv.foldl hend _) _)

theorem doRoomVisit (h : Vacant k s) (r : Nat) : Vacant k (doRoomVisit r s) := by
  unfold Machine.doRoomVisit
  split
  · exact ite (fun _ => ((h.freeBooking ..).count _).evalDisplay _) fun _ => h
  · exact h

theorem doOccupancy (h : Vacant k s) (r : Nat) : Vacant k (doOccupancy r s) := by
  refine ite (fun _ => ?_) fun _ => h
  split
  · exact (h.checkInReported (bookingAt_of_candidate ‹_›) ..).evalDisplay _
  · exact h

theorem doPanelCheckin (h : Vacant k s) (src : PanelSrc) (room : Nat) (badge : Token) :
    Vacant k (doPanelCheckin src room badge s) := by
  unfold Machine.doPanelCheckin
  split
  · exact ((h.checkInReported (bookingAt_of_candidate ‹_›) ..).answerPanel ..).evalDisplay _
  · exact h.refusePanel ..

theorem doExtend (h : Vacant k s) (src : PanelSrc) (room n : Nat) : Vacant k (doExtend src room n s) := by
  unfold Machine.doExtend
  split
  · rename_i hb _
    refine ite (fun _ => h.refusePanel ..) fun _ => ite (fun _ => h.refusePanel ..) fun _ => ?_
    dsimp only
    split
    · exact h.refusePanel ..
    · exact (((h.setBooking (bookingAt_of_current hb)).postEvent _).answerPanel ..).evalDisplay _
  · exact h.refusePanel ..

theorem doPanelEnd (h : Vacant k s) (src : PanelSrc) (room : Nat) : Vacant k (doPanelEnd src room s) := by
  unfold Machine.doPanelEnd
  split
  · rename_i hb _
    exact ite (fun _ => h.refusePanel ..) fun _ => (h.answerPanel ..).endAndShow (bookingAt_of_current hb) ..
  · exact h.refusePanel ..

/-- Power-on values hold no booking (R22, R182). -/
theorem powerOnValues (p : Power) (c : ResetCause) (rate : Fin 4) (s : State) :
    Vacant k (powerOnValues p c rate s) := ⟨Table.empty_wf _, rfl⟩

/-- No reset fills a record (R181, R182). -/
theorem exec_reset {c : Instr} (hr : isReset c = true) (h : Vacant k s) (he : exec c s = .next t) : Vacant k t := by
  cases c with
  | powerOn =>
    cases he
    exact powerOnValues ..
  | supplyLowReset =>
    simp only [exec, execSupplyLowReset] at he
    split at he <;> cases he
    exacts [powerOnValues .., h.same rfl, h, h]
  | supplyRestored =>
    simp only [exec, execSupplyRestored] at he
    split at he <;> cases he
    exacts [h.same rfl, h, h, h]
  | crystalStable =>
    simp only [exec, execCrystalStable] at he
    split at he <;> cases he
    exacts [powerOnValues .., h, h, h]
  | resetTakesEffect =>
    simp only [exec, execResetTakesEffect] at he
    split at he <;> cases he
    exacts [powerOnValues .., h.of_records rfl, h]
  | _ => cases hr

end Vacant

/-! ### New bookings and the conflict test (R37) -/

/-- Every booking that stands in `t` and not in `s` conflicts with no reservation of its room in `s`. -/
def NewFree (s t : State) : Prop :=
  ∀ i b, bookingAt s i = none → bookingAt t i = some b → NoConflict s b.room b.start b.fin (turnaround s b.room)

variable {s t u v : State}

/-- The conflict test reads the store, the staged span and the engine's day. -/
theorem noConflict_congr (hst : u.store = s.store) (hc : u.clock = s.clock) (hn : u.engine.now = s.engine.now)
    (hg : u.engine.staged = s.engine.staged) {room turn : Nat} {a b : CTime} :
    NoConflict u room a b turn ↔ NoConflict s room a b turn := by
  unfold NoConflict reservations roomBookings roomList bookingAt recordAt
  rw [idx_congr hc hn, hst, hg]

theorem noConflict_of_checkConflict {room : Nat} {a b : CTime} (h : checkConflict s room ⟨a, b⟩ none = none) :
    NoConflict s room a b (turnaround s room) :=
  firstConflict_eq_none.1 (Option.map_eq_none_iff.1 h)

/-- A span that passes the admission checks conflicts with no reservation (R38). -/
theorem noConflict_of_checkCreate {room n : Nat} {a b : CTime} (h : checkCreate s room ⟨a, b⟩ n = none) :
    NoConflict s room a b (turnaround s room) := by
  simp only [checkCreate, Option.or_eq_none_iff] at h
  obtain ⟨_, _, _, _, hconf⟩ := h
  exact noConflict_of_checkConflict hconf

/-- The walk of the Room Table keeps its best room, or takes one that fits (R52). -/
theorem foldl_betterRoom_fits {q : FindReq} {x : Nat × Nat} : ∀ (es : List (Nat × Option RoomEntry))
    {best : Option (Nat × Nat)}, es.foldl (betterRoom s q) best = some x →
    best = some x ∨ ∃ e, roomFits s q x.1 e = true
  | [], _, h => .inl h
  | e :: es, best, h => by
    rcases foldl_betterRoom_fits es h with hx | hx
    · unfold betterRoom at hx
      split at hx
      · split at hx
        · rename_i hfit
          cases hx
          exact .inr ⟨_, (Bool.and_eq_true_iff.1 hfit).1⟩
        · exact .inl hx
      · exact .inl hx
    · exact .inr hx

/-- The room that FindRoom chooses passes the conflict test (R52). -/
theorem noConflict_of_chooseRoom {q : FindReq} {r seats : Nat} (h : chooseRoom s q = some (r, seats)) :
    NoConflict s r q.start q.fin (turnaround s r) := by
  obtain ⟨e, he⟩ := (foldl_betterRoom_fits _ h).resolve_left nofun
  simp only [roomFits, Bool.and_eq_true, Option.isNone_iff_eq_none, Option.or_eq_none_iff] at he
  obtain ⟨_, _, _, hconf⟩ := he
  exact noConflict_of_checkConflict hconf

namespace NewFree

/-- Work that leaves vacant records vacant. -/
theorem of_vacant (hw : s.store.records.wf ⟨0, none⟩) (h : ∀ k, Vacant k s → Vacant k t) : NewFree s t := by
  intro i b hs ht
  rw [(h i ⟨hw, hs⟩).vacant] at ht
  cases ht

/-- An allocation makes the one booking it is given. -/
theorem of_allocate {b : Booking} {i : Nat} (hw : s.store.records.wf ⟨0, none⟩)
    (hc : NoConflict s b.room b.start b.fin (turnaround s b.room)) (ha : allocate b s = some (i, v))
    (ht : t.store = v.store) : NewFree s t := by
  intro j b' hs hb
  obtain ⟨rest, hl⟩ := allocate_index ha
  rw [allocate_cons hl] at ha
  cases ha
  have hat : recordAt t j = if j = i then ⟨(recordAt s i).gen, some b⟩ else recordAt s j := by
    rw [recordAt, ht]
    exact Table.get_set hw i j _
  rw [bookingAt, hat] at hb
  split at hb
  · cases hb
    exact hc
  · rw [← bookingAt, hs] at hb
    cases hb

theorem createAndReply {b : Booking} (hw : s.store.records.wf ⟨0, none⟩)
    (hc : NoConflict s b.room b.start b.fin (turnaround s b.room)) (body : Handle → List Field) :
    NewFree s (createAndReply b body s) := by
  unfold Machine.createAndReply
  split
  · exact of_vacant hw fun _ h => h
  · rename_i ha
    exact of_allocate hw hc ha (by simp)

theorem doBook (hw : s.store.records.wf ⟨0, none⟩) (q : BookReq) : NewFree s (doBook q s) := by
  unfold Machine.doBook
  split
  · exact of_vacant hw fun _ h => h.refuseHost _ _
  · split
    · exact of_vacant hw fun _ h => h.refuseTurned ..
    · rename_i hchecks
      have hconf := noConflict_of_checkCreate (Option.or_eq_none_iff.1 hchecks).1
      exact createAndReply hw hconf _

theorem doHold (hw : s.store.records.wf ⟨0, none⟩) (q : BookReq) (n : Nat) : NewFree s (doHold q n s) := by
  unfold Machine.doHold
  split
  · exact of_vacant hw fun _ h => h.refuseHost _ _
  · split
    · exact of_vacant hw fun _ h => h.refuseTurned ..
    · rename_i hchecks
      have hconf := noConflict_of_checkCreate (Option.or_eq_none_iff.1 hchecks).1
      exact createAndReply hw hconf _

theorem doFindRoom (hw : s.store.records.wf ⟨0, none⟩) (q : FindReq) : NewFree s (doFindRoom q s) := by
  unfold Machine.doFindRoom
  split
  · exact of_vacant hw fun _ h => h.refuseHost _ _
  · split
    · exact of_vacant hw fun _ h => h.refuseTurned ..
    · split
      · exact of_vacant hw fun _ h => h.refuseHost _ _
      · rename_i hroom
        split
        · exact of_vacant hw fun _ h => h.finish _ _
        · split
          · exact of_vacant hw fun _ h => h.refuseTurned ..
          · have hconf := noConflict_of_chooseRoom hroom
            exact createAndReply hw hconf _

theorem doWalkup (hw : s.store.records.wf ⟨0, none⟩) (src : PanelSrc) (room len : Nat) (badge : Token) :
    NewFree s (doWalkup src room len badge s) := by
  unfold Machine.doWalkup
  dsimp only
  split
  · exact of_vacant hw fun _ h => h.refusePanel ..
  · split
    · exact of_vacant hw fun _ h => (Vacant.ite (fun _ => h.openEpisode ..) fun _ => h).refusePanel ..
    · rename_i hchecks
      unfold admitWalkup
      dsimp only
      split
      · exact of_vacant hw fun _ h => h
      · rename_i ha
        have hconf := noConflict_of_checkCreate (Option.or_eq_none_iff.1 hchecks).1
        exact of_allocate hw hconf ha (by simp [answerPanel])

/-! ### Every command -/

/-- Read in the state in which the work was taken, the conflict test is that of the state before. -/
theorem of_taken (h : NewFree u t) (hst : u.store = s.store) (ha : Apart s u) (hn : u.engine.now = s.engine.now)
    (hg : u.engine.staged = s.engine.staged) : NewFree s t := by
  intro i b hs ht
  obtain ⟨_, _, _, _, hclock, hrooms, _⟩ := ha
  have hturn : turnaround u b.room = turnaround s b.room := by rw [turnaround, turnaround, roomAt, roomAt, hrooms]
  rw [← hturn, ← noConflict_congr hst hclock hn hg]
  refine h i b ?_ ht
  rw [bookingAt, recordAt, hst]
  exact hs

theorem engineStep {w : EngineWork} {run : State → State} (hw : s.store.records.wf ⟨0, none⟩)
    (he : whenTaken (takeEngine w s) run s = .next t)
    (hr : ∀ {u}, u.store.records.wf ⟨0, none⟩ → NewFree u (run u)) : NewFree s t := by
  cases ho : takeEngine w s with
  | none =>
    rw [ho] at he
    cases he
    exact of_vacant hw fun _ h => h
  | some u =>
    rw [ho] at he
    cases he
    have ha := (Writes.of_takeEngine ho).apart
    obtain ⟨_, rest, _, hu⟩ := takeEngine_eq_some.1 ho
    have hst : u.store = s.store := by rw [hu]
    exact (hr (hst ▸ hw)).of_taken hst ha (by rw [hu]) (by rw [hu])

theorem hostStep {r : HostRequest} {run : State → State} (hw : s.store.records.wf ⟨0, none⟩)
    (ho : ownerOf r = .engine) (he : hostStep r run s = .next t)
    (hr : ∀ {u}, u.store.records.wf ⟨0, none⟩ → NewFree u (run u)) : NewFree s t := by
  refine engineStep (w := .host r) (run := fun u => run (setStage .taken u)) hw ?_ fun {u} hu =>
    (hr (u := setStage .taken u) hu).of_taken rfl ((Writes.refl .engine u).setStage .taken).apart rfl rfl
  rw [← he]
  unfold Machine.hostStep takeHost takeFromOwner
  rw [ho]
  cases takeEngine (.host r) s <;> rfl

/-- What a command of the engine creates passes the conflict test. -/
theorem exec_engine {c : Instr} (hc : isEngineWork c = true) (hw : s.store.records.wf ⟨0, none⟩)
    (h : exec c s = .next t) : NewFree s t := by
  cases c with
  | hold => exact hostStep hw rfl h fun hw => doHold hw _ _
  | book => exact hostStep hw rfl h fun hw => doBook hw _
  | findRoom => exact hostStep hw rfl h fun hw => doFindRoom hw _
  | walkup => exact engineStep hw h fun hw => doWalkup hw _ _ _ _
  | confirm => exact hostStep hw rfl h fun hw => of_vacant hw fun _ h => h.doConfirm ..
  | cancel => exact hostStep hw rfl h fun hw => of_vacant hw fun _ h => h.doCancel ..
  | endBooking => exact hostStep hw rfl h fun hw => of_vacant hw fun _ h => h.doEnd ..
  | checkIn => exact hostStep hw rfl h fun hw => of_vacant hw fun _ h => h.doCheckIn ..
  | move => exact hostStep hw rfl h fun hw => of_vacant hw fun _ h => h.doMove ..
  | queryRoom => exact hostStep hw rfl h fun hw => of_vacant hw fun _ h => h.doQueryRoom ..
  | queryBooking => exact hostStep hw rfl h fun hw => of_vacant hw fun _ h => h.doQueryBooking ..
  | acceptProvisional => exact hostStep hw rfl h fun hw => of_vacant hw fun _ h => h.doAcceptProvisional ..
  | placeOrder => exact hostStep hw rfl h fun hw => of_vacant hw fun _ h => h.doPlaceOrder ..
  | engineTakesAdmissionAnswer => exact engineStep hw h fun hw => of_vacant hw fun _ h => h.doAdmissionAnswer ..
  | engineTakesRefitAnswer => exact engineStep hw h fun hw => of_vacant hw fun _ h => h.doRefitAnswer ..
  | linkNotice => exact engineStep hw h fun hw => of_vacant hw fun _ h => h.doLinkNotice ..
  | displayNotice => exact engineStep hw h fun hw => of_vacant hw fun _ h => h.doDisplayNotice ..
  | engineBoundaryWork => exact engineStep hw h fun hw => of_vacant hw fun _ h => h.doEngineBoundary ..
  | roomVisit => exact engineStep hw h fun hw => of_vacant hw fun _ h => h.doRoomVisit ..
  | occupancyNotice => exact engineStep hw h fun hw => of_vacant hw fun _ h => h.doOccupancy ..
  | panelCheckin => exact engineStep hw h fun hw => of_vacant hw fun _ h => h.doPanelCheckin ..
  | extend => exact engineStep hw h fun hw => of_vacant hw fun _ h => h.doExtend ..
  | panelEnd => exact engineStep hw h fun hw => of_vacant hw fun _ h => h.doPanelEnd ..
  | _ => cases hc

end NewFree

end Sys2Proof.Machine

section Statements

open Sys2Proof Sys2Proof.Machine

/-- Settles O29: a command of the engine creates a booking by an allocation behind the conflict test alone; every other
command leaves the Booking Store or resets it. -/
theorem newBookingsDoNotConflict : Obligations.NewBookingsDoNotConflict := by
  intro c s t i b hs he hnone hb
  suffices h : NewFree s t from h i b hnone hb
  cases hc : isEngineWork c with
  | true => exact NewFree.exec_engine hc hs.records he
  | false =>
    refine NewFree.of_vacant hs.records fun k h => ?_
    cases hr : isReset c with
    | true => exact h.exec_reset hr he
    | false => exact h.same (exec_store hc hr he)

end Statements
end

