-- ==== Sys2Proof/Proofs/CycleUplinks.lean ====
section
/-! PROOFS. The completion of an ordinary cycle: what the taking of one uplink writes, the generation check, and the end
of the cycle with its deferred list, its held clear and the next cycle (R119, R126, R135, R144 to R147, R166). -/

namespace Sys2Proof.Machine

theorem TablesCanonical.line {s : State} (h : TablesCanonical s) (l : Fin 4) : (s.lines.get l).Canonical := by
  obtain ⟨_, _, _, _, _, _, _, _, _, _, _, _, hlines⟩ := h
  exact hlines l

/-! ### What the taking of an uplink writes (R126 step 2) -/

/-- Of a line, the taking of an uplink writes the positions, the queue and the request number; every binding
stands. -/
structure LineTaken (a b : Line) : Prop where
  canonical : b.Canonical
  rest : b = { a with positions := b.positions, queue := b.queue, reqno := b.reqno }
  bound : ∀ p, (b.at p).bound = (a.at p).bound

namespace LineTaken

variable {a b : Line}

theorem refl (h : a.Canonical) : LineTaken a a := ⟨h, rfl, fun _ => rfl⟩

theorem modifyAt (h : LineTaken a b) (p : Nat) {g : Position → Position} (hb : ∀ q, (g q).bound = q.bound) :
    LineTaken a (b.modifyAt p g) := by
  refine ⟨h.canonical.modifyAt p g, ?_, fun p' => ?_⟩
  · rw [Line.modifyAt_eq, h.rest]
  · rw [Line.at_modifyAt h.canonical]
    split
    · rw [hb, h.bound, ‹p' = p›]
    · exact h.bound p'

theorem enqueue (h : LineTaken a b) (p : Nat) : LineTaken a (b.enqueue p) := by
  rw [Line.enqueue_eq]
  exact ⟨h.canonical, by rw [h.rest], h.bound⟩

theorem setReqno (h : LineTaken a b) (n : Nat) : LineTaken a { b with reqno := n } :=
  ⟨h.canonical, by rw [h.rest], h.bound⟩

theorem newRequest (h : LineTaken a b) (p : Nat) (toggle : Bool) : LineTaken a (b.newRequest p toggle) :=
  (h.modifyAt p (g := fun q => { q with toggle := some toggle, last := .pending ((b.reqno + 1) % 256) })
    fun _ => rfl).setReqno _

theorem light (h : LineTaken a b) (p : Nat) (now : CTime) :
    LineTaken a ((b.modifyAt p fun q => { q with litUntil := some (shiftTime now 1) }).enqueue p) :=
  (h.modifyAt p (g := fun q => { q with litUntil := some (shiftTime now 1) }) fun _ => rfl).enqueue p

theorem repeatRequest (h : LineTaken a b) (p : Nat) : LineTaken a (b.repeatRequest p) := by
  unfold Line.repeatRequest
  split
  · exact h.modifyAt p fun _ => rfl
  · exact h

end LineTaken

theorem missedPosition_bound (d : Nat) (q : Position) : (missedPosition d q).bound = q.bound := by
  unfold missedPosition
  split <;> [split; split; split; skip; skip] <;> rfl

theorem heardPosition_bound (q : Position) : (heardPosition q).bound = q.bound := by
  unfold heardPosition
  split <;> rfl

theorem checkedPosition_bound (u : Option Uplink) (q : Position) : (checkedPosition u q).bound = q.bound := by
  unfold checkedPosition
  cases u <;> cases hq : q.unack <;> simp [hq]

/-- From `s` to `t` uplinks of line `l` have been taken: the link and the clock stand, and the line is written as
`LineTaken` says. -/
structure Uplinked (l : Fin 4) (s t : State) : Prop where
  clock : t.clock = s.clock
  link : t.link = s.link
  line : LineTaken (s.lines.get l) (t.lines.get l)

namespace Uplinked

variable {l : Fin 4} {s t u : State}

theorem refl (h : (s.lines.get l).Canonical) : Uplinked l s s := ⟨rfl, rfl, .refl h⟩

theorem keep (h : Uplinked l s t) (hc : u.clock = t.clock := by simp) (hk : u.link = t.link := by simp)
    (hl : u.lines = t.lines := by simp) : Uplinked l s u :=
  ⟨hc.trans h.clock, hk.trans h.link, hl ▸ h.line⟩

theorem ite {c : Prop} [Decidable c] (h : c → Uplinked l s t) (h' : ¬ c → Uplinked l s u) :
    Uplinked l s (if c then t else u) := by
  split
  · exact h ‹_›
  · exact h' ‹_›

theorem updLine (h : Uplinked l s t) {f : Line → Line}
    (hf : LineTaken (s.lines.get l) (t.lines.get l) → LineTaken (s.lines.get l) (f (t.lines.get l))) :
    Uplinked l s (updLine l f t) :=
  ⟨h.clock, h.link, by rw [updLine_get, if_pos rfl]; exact hf h.line⟩

theorem updateHealth (h : Uplinked l s t) (p : Nat) (x : Option Uplink) : Uplinked l s (updateHealth l p x t) := by
  cases x with
  | none =>
    have hmiss : Uplinked l s (count (Counters.miss l)
        (Machine.updLine l (Line.modifyAt p (missedPosition t.policy.deglitch)) t)) :=
      (h.updLine fun h => h.modifyAt p (missedPosition_bound t.policy.deglitch)).keep
    refine ite (fun _ => ?_) fun _ => hmiss
    unfold reportAbsent
    dsimp only
    split
    · exact ite (fun _ => hmiss.keep) fun _ => hmiss
    · exact hmiss
  | some x =>
    have hheard := h.updLine (f := Line.modifyAt p heardPosition) fun h => h.modifyAt p heardPosition_bound
    refine ite (fun _ => ?_) fun _ => hheard
    unfold reportReturned
    dsimp only
    split
    · exact hheard.keep
    · exact hheard

theorem checkGeneration (h : Uplinked l s t) (p : Nat) (x : Option Uplink) :
    Uplinked l s (Machine.updLine l (Line.checkGeneration p x) t) :=
  h.updLine fun h => by
    have hpos := h.modifyAt p (checkedPosition_bound x)
    unfold Line.checkGeneration
    dsimp only
    split
    · exact hpos.enqueue p
    · exact hpos

theorem selfAnswer (h : Uplinked l s t) (p : Nat) (x : Uplink) (c : PanelCode) : Uplinked l s (selfAnswer l p x c t) :=
  h.updLine fun h => h.modifyAt p fun _ => rfl

theorem judgeRequest (h : Uplinked l s t) (p : Nat) (x : Uplink) : Uplinked l s (judgeRequest l p x t) := by
  refine ite (fun _ => h) fun _ => ite (fun _ => h.updLine fun h => h.repeatRequest p) fun _ => ?_
  have hnew : Uplinked l s (Machine.updLine l (Line.newRequest p x.toggle) t) :=
    h.updLine fun h => h.newRequest p x.toggle
  dsimp only
  split
  · exact ite (fun _ => hnew.keep) fun _ => ite (fun _ => hnew.keep) fun _ => ite (fun _ => hnew.keep) fun _ =>
      ite (fun _ => hnew.keep) fun _ => ite (fun _ => hnew.keep) fun _ =>
        ite (fun _ => hnew.keep.selfAnswer p x _) fun _ => hnew.selfAnswer p x _
  · exact hnew.keep.selfAnswer p x _

theorem noticeOccupancy (h : Uplinked l s t) (p : Nat) (x : Uplink) : Uplinked l s (noticeOccupancy l p x t) := by
  unfold Machine.noticeOccupancy
  split
  · exact ite (fun _ => h.keep) fun _ => h
  · exact h

theorem lightPosition (h : Uplinked l s t) (p : Nat) (x : Uplink) : Uplinked l s (lightPosition l p x t) := by
  unfold Machine.lightPosition
  split
  · exact ite (fun _ => h.updLine fun h => h.light p _) fun _ => h
  · exact h

/-- The health update and the generation check that open the work of a position. -/
theorem checked (h : Uplinked l s t) (c : Prop) [Decidable c] (p : Nat) (x : Option Uplink) : Uplinked l s
    (if c then Machine.updLine l (Line.checkGeneration p x) (Machine.updateHealth l p x t) else t) :=
  ite (fun _ => (h.updateHealth p x).checkGeneration p x) fun _ => h

theorem takeUplink (h : Uplinked l s t) (full quiet : Bool) (bytes : List Byte) (p : Nat) :
    Uplinked l s (takeUplink l full quiet bytes t p) := by
  have hopen := h.checked ((full && (t.lines.get l).boundAt p) = true) p (uplinkAt bytes p)
  unfold Machine.takeUplink
  dsimp only
  split
  · exact hopen
  · rename_i x _
    have hasked := (hopen.judgeRequest p x).noticeOccupancy p x
    exact ite (fun _ => hasked.lightPosition p x) fun _ => hasked

theorem takeUplinks (h : Uplinked l s t) (bytes : List Byte) : Uplinked l s (takeUplinks l bytes t) :=
  ite (fun _ => List.foldlRecOn (motive := Uplinked l s) _ _ h fun _ h _ _ => h.takeUplink ..) fun _ => h

theorem bound (h : Uplinked l s t) (p : Nat) : ((t.lines.get l).at p).bound = ((s.lines.get l).at p).bound :=
  h.line.bound p

theorem lineNow (h : Uplinked l s t) : lineNow l t = lineNow l s := by
  unfold Machine.lineNow
  rw [h.clock, h.line.rest]

end Uplinked

/-! ### The uplink work of one position (R69, R126, R135) -/

variable {l : Fin 4} {s t : State} {a : Line} {p : Nat}

theorem Line.boundAt_eq_true : a.boundAt p = true ↔ (a.at p).bound ≠ none := Option.isSome_iff_ne_none

/-- The work of a silent position ends with its generation check. -/
theorem takeUplink_silent {bytes : List Byte} (hx : uplinkAt bytes p = none) (full quiet : Bool) :
    takeUplink l full quiet bytes s p =
      if full = true ∧ ((s.lines.get l).at p).bound ≠ none then
        updLine l (Line.checkGeneration p (uplinkAt bytes p)) (updateHealth l p (uplinkAt bytes p) s)
      else s := by
  unfold takeUplink
  simp only [hx, Bool.and_eq_true, Line.boundAt_eq_true]

/-- The work of a heard position: health and generation, the request, the occupancy notice, the lighting. -/
theorem takeUplink_heard {bytes : List Byte} {x : Uplink} (hx : uplinkAt bytes p = some x) (full quiet : Bool)
    {h o : State} (hh : h = if full = true ∧ ((s.lines.get l).at p).bound ≠ none then
        updLine l (Line.checkGeneration p (uplinkAt bytes p)) (updateHealth l p (uplinkAt bytes p) s)
      else s) (ho : o = noticeOccupancy l p x (judgeRequest l p x h)) :
    takeUplink l full quiet bytes s p = if quiet then lightPosition l p x o else o := by
  subst hh ho
  unfold takeUplink
  simp only [hx, Bool.and_eq_true, Line.boundAt_eq_true]

/-- The occupancy notice of the room a position is bound to (R69). -/
theorem noticeOccupancy_eq (l : Fin 4) (p : Nat) (x : Uplink) (s : State) :
    noticeOccupancy l p x s = match ((s.lines.get l).at p).bound with
      | some room => if x.occupancy = true then { s with engine := { s.engine with
          intake := s.engine.intake ++ [.occupancy room] } } else s
      | none => s := rfl

/-- A position lights when it is touched, bound, and the line has a now (R135). -/
theorem lightPosition_lit {x : Uplink} {now : CTime} (ht : x.touch = true) (hb : ((s.lines.get l).at p).bound ≠ none)
    (hn : lineNow l s = some now) : lightPosition l p x s = { s with lines := s.lines.set l { s.lines.get l with
      positions := (s.lines.get l).positions.set .reset p
        { (s.lines.get l).at p with litUntil := some (shiftTime now 1) }
      queue := if p ∈ (s.lines.get l).queue then (s.lines.get l).queue else (s.lines.get l).queue ++ [p] } } := by
  simp only [lightPosition, hn]
  rw [if_pos ⟨ht, Line.boundAt_eq_true.2 hb⟩, updLine, Line.enqueue_eq]
  rfl

theorem lightPosition_dark {x : Uplink}
    (h : x.touch = false ∨ ((s.lines.get l).at p).bound = none ∨ lineNow l s = none) : lightPosition l p x s = s := by
  unfold lightPosition
  split
  · rename_i now hn
    refine if_neg fun ⟨ht, hb⟩ => ?_
    rcases h with h | h | h
    · simp [h] at ht
    · exact Line.boundAt_eq_true.1 hb h
    · simp [h] at hn
  · rfl

/-! ### The generation check (R166) -/

/-- The check stores the generation shown; beside it only the count of the position moves. -/
theorem checkedPosition_eq (x : Option Uplink) (q : Position) : checkedPosition x q = { q with
    genAck := (match x with | some r => r.shown | none => q.genAck)
    unack := (checkedPosition x q).unack } := by
  obtain ⟨b, h, c, m, t, r, gs, ga, k, lit⟩ := q
  cases x <;> cases k <;> rfl

/-- What the check makes of a line: one position, and its place in the queue. -/
theorem Line.checkGeneration_eq (p : Nat) (x : Option Uplink) (a : Line) : a.checkGeneration p x =
    { a.modifyAt p (checkedPosition x) with queue := if resends x (a.at p) then
        if p ∈ a.queue then a.queue else a.queue ++ [p] else a.queue } := by
  unfold Line.checkGeneration
  dsimp only
  split
  · rw [Line.enqueue_eq]
    rfl
  · rfl

theorem Line.at_checkGeneration (h : a.Canonical) (p p' : Nat) (x : Option Uplink) :
    (a.checkGeneration p x).at p' = if p' = p then checkedPosition x (a.at p) else a.at p' := by
  rw [Line.checkGeneration_eq]
  exact Line.at_modifyAt h p p' _

/-- The uplink shows the generation sent. -/
def Acknowledges (x : Option Uplink) (q : Position) : Prop := ∃ r, x = some r ∧ r.shown = q.genSent

/-- The count after the check, and whether the position is queued again. -/
structure CheckedCount (x : Option Uplink) (q : Position) (unack : Option Nat) (again : Bool) : Prop where
  count : (checkedPosition x q).unack = unack
  resend : resends x q = again

variable {x : Option Uplink} {q : Position} {n : Nat}

theorem checkedCount_stopped (h : q.unack = none) : CheckedCount x q none false := by
  constructor <;> cases x <;> simp [checkedPosition, resends, h]

theorem checkedCount_acknowledged (h : q.unack = some n) (ha : Acknowledges x q) : CheckedCount x q none false := by
  obtain ⟨r, rfl, hr⟩ := ha
  constructor <;> simp [checkedPosition, resends, h, hr]

theorem checkedCount_unacknowledged (h : q.unack = some n) (ha : ¬ Acknowledges x q) :
    CheckedCount x q (countUnack n) (countUnack n).isNone := by
  cases x with
  | none => constructor <;> simp [checkedPosition, resends, h]
  | some r =>
    have hr : r.shown ≠ q.genSent := fun e => ha ⟨r, rfl, e⟩
    constructor <;> simp [checkedPosition, resends, h, hr]

/-- The check reads the count and the queue of its position off `CheckedCount`. -/
theorem Line.checkGeneration_count (h : a.Canonical) {unack : Option Nat} {again : Bool}
    (hc : CheckedCount x (a.at p) unack again) : ((a.checkGeneration p x).at p).unack = unack ∧
      (a.checkGeneration p x).queue = if again then if p ∈ a.queue then a.queue else a.queue ++ [p] else a.queue := by
  rw [Line.at_checkGeneration h, if_pos rfl, Line.checkGeneration_eq]
  exact ⟨hc.count, by rw [hc.resend]⟩

/-! ### The deferred list at the end of a cycle (R119, R126) -/

theorem Line.applyDeferred_binding (p : Nat) (room : Option Nat) (a : Line) :
    a.applyDeferred (.binding p room) = a.bindPosition p room := rfl

theorem Line.applyDeferred_display (room : Nat) (a : Line) :
    a.applyDeferred (.display room) = a.displayRoom room := rfl

theorem Line.applyDeferred_clear_all (a : Line) :
    a.applyDeferred (.clear none) = { a.modifyAll (fun _ q => clearedPosition q) with clearAll := true } := rfl

/-- A change of every position reads nothing of the deferred list. -/
theorem Line.modifyAll_setDeferred (f : Nat → Position → Position) (ds : List Deferred) (a : Line) :
    ({ a with deferred := ds } : Line).modifyAll f = { a.modifyAll f with deferred := ds } := by
  unfold Line.modifyAll
  generalize positionNumbers = ps
  exact List.foldl_hom (fun b : Line => { b with deferred := ds }) (g₁ := fun b p => b.modifyAt p (f p))
    (g₂ := fun b p => b.modifyAt p (f p)) fun _ _ => rfl

theorem Line.displayRoom_setDeferred (room : Nat) (ds : List Deferred) (a : Line) :
    ({ a with deferred := ds } : Line).displayRoom room = { a.displayRoom room with deferred := ds } := by
  cases hp : a.positionOf room with
  | none =>
    have hp' : ({ a with deferred := ds } : Line).positionOf room = none := hp
    rw [Line.displayRoom_unbound hp, Line.displayRoom_unbound hp']
  | some p =>
    have hp' : ({ a with deferred := ds } : Line).positionOf room = some p := hp
    rw [Line.displayRoom_bound hp, Line.displayRoom_bound hp']

/-- A deferred item reads nothing of the list it stood in. -/
theorem Line.applyDeferred_setDeferred (d : Deferred) (ds : List Deferred) (a : Line) :
    ({ a with deferred := ds } : Line).applyDeferred d = { a.applyDeferred d with deferred := ds } := by
  match d with
  | .binding p room => simp only [Line.applyDeferred_binding, Line.bindPosition_eq]; rfl
  | .display room => exact Line.displayRoom_setDeferred room ds a
  | .clear (some p) => rfl
  | .clear none => simp only [Line.applyDeferred_clear_all, Line.modifyAll_setDeferred]

theorem Line.foldl_applyDeferred_setDeferred (items ds : List Deferred) (a : Line) :
    items.foldl (fun b d => b.applyDeferred d) { a with deferred := ds } =
      { items.foldl (fun b d => b.applyDeferred d) a with deferred := ds } :=
  List.foldl_hom (fun b : Line => { b with deferred := ds }) fun b d => Line.applyDeferred_setDeferred d ds b

/-- Deferred items leave the chain state and start due. -/
theorem Line.applyDeferred_chain (d : Deferred) (h : a.Canonical) :
    (a.applyDeferred d).chain = a.chain ∧ (a.applyDeferred d).startDue = a.startDue := by
  match d with
  | .binding p room =>
    rw [Line.applyDeferred_binding, Line.bindPosition_eq]
    exact ⟨rfl, rfl⟩
  | .display room =>
    rw [Line.applyDeferred_display]
    cases hp : a.positionOf room with
    | none => rw [Line.displayRoom_unbound hp]; exact ⟨rfl, rfl⟩
    | some p => rw [Line.displayRoom_bound hp]; exact ⟨rfl, rfl⟩
  | .clear (some p) => exact ⟨rfl, rfl⟩
  | .clear none =>
    obtain ⟨hrest, _, _⟩ := Line.modifyAll_spec (fun _ q => clearedPosition q) h
    rw [Line.applyDeferred_clear_all, hrest]
    exact ⟨rfl, rfl⟩

theorem Line.foldl_applyDeferred_chain : ∀ (ds : List Deferred) {a : Line}, a.Canonical →
    (ds.foldl (fun b d => b.applyDeferred d) a).chain = a.chain ∧
    (ds.foldl (fun b d => b.applyDeferred d) a).startDue = a.startDue
  | [], _, _ => ⟨rfl, rfl⟩
  | d :: ds, _, h => by
    obtain ⟨hc, hd⟩ := Line.foldl_applyDeferred_chain ds (h.applyDeferred d)
    obtain ⟨hc', hd'⟩ := Line.applyDeferred_chain d h
    exact ⟨hc.trans hc', hd.trans hd'⟩

/-- The clears held for a cycle applied, then the rest of the list: the two runs follow one another on the line with
its list empty (R126 step 3). -/
theorem Line.applyDeferredList_applyHeldClears (a : Line) : a.applyHeldClears.applyDeferredList =
    (a.deferred.filter (fun d => !d.isClear)).foldl (fun b d => b.applyDeferred d)
      ((a.deferred.filter Deferred.isClear).foldl (fun b d => b.applyDeferred d) { a with deferred := [] }) := by
  unfold Line.applyHeldClears Line.applyDeferredList
  dsimp only
  simp only [Line.foldl_applyDeferred_setDeferred]

theorem Line.heldClears_spec (h : a.Canonical) : ∃ m : Line,
    DeferredRun (a.deferred.filter Deferred.isClear) { a with deferred := [] } m ∧
    DeferredRun (a.deferred.filter (fun d => !d.isClear)) m a.applyHeldClears.applyDeferredList ∧
    a.applyHeldClears.applyDeferredList.Canonical ∧
    a.applyHeldClears.applyDeferredList.chain = a.chain ∧
    a.applyHeldClears.applyDeferredList.startDue = a.startDue := by
  have h0 : ({ a with deferred := [] } : Line).Canonical := h
  obtain ⟨hm, hmw⟩ := Line.foldl_applyDeferred_spec (a.deferred.filter Deferred.isClear) h0
  obtain ⟨hmc, hmd⟩ := Line.foldl_applyDeferred_chain (a.deferred.filter Deferred.isClear) h0
  obtain ⟨hn, hnw⟩ := Line.foldl_applyDeferred_spec (a.deferred.filter (fun d => !d.isClear)) hmw
  obtain ⟨hnc, hnd⟩ := Line.foldl_applyDeferred_chain (a.deferred.filter (fun d => !d.isClear)) hmw
  rw [Line.applyDeferredList_applyHeldClears]
  exact ⟨_, hm, hn, hnw, hnc.trans hmc, hnd.trans hmd⟩

/-! ### What follows the uplinks (R124, R126, R130) -/

/-- The next cycle writes its own line alone. -/
theorem nextCycle_line (l : Fin 4) (s : State) : ∃ c, nextCycle l s = { s with lines := s.lines.set l c } := by
  have hself : s = { s with lines := s.lines.set l (s.lines.get l) } := by rw [Quad.set_get]
  unfold nextCycle startCycle
  split
  · split <;> [exact ⟨_, rfl⟩; exact ⟨_, rfl⟩; exact ⟨_, rfl⟩; exact ⟨_, hself⟩; exact ⟨_, hself⟩; exact ⟨_, hself⟩]
  · exact ⟨_, hself⟩

/-- An ordinary cycle follows in RUNNING and QUIET when start due is set (R124). -/
theorem nextCycle_run (h : (s.lines.get l).Canonical)
    (hc : (s.lines.get l).chain = .running ∨ (s.lines.get l).chain = .quiet) :
    ∃ c, nextCycle l s = { s with lines := s.lines.set l c } ∧
      if (s.lines.get l).startDue = true then CycleStarted s .ordinary (s.lines.get l) c else c = s.lines.get l := by
  unfold nextCycle
  by_cases hd : (s.lines.get l).startDue = true
  · have hstart : startCycle l s = startOrdinary l s := by
      unfold startCycle
      rcases hc with hc | hc <;> rw [hc]
    rw [if_pos hd, hstart]
    simpa only [if_pos hd] using startOrdinary_cycleStarted h
  · exact ⟨s.lines.get l, by rw [if_neg hd, Quad.set_get], by rw [if_neg hd]⟩

/-- The end of a cycle: a DRAINING line goes OFFLINE, else the next cycle starts if start due is set (R126). -/
theorem drainOrNext_spec (h : (s.lines.get l).Canonical) :
    ∃ c, drainOrNext l s = { s with lines := s.lines.set l c } ∧
      ((s.lines.get l).chain = .running ∨ (s.lines.get l).chain = .quiet →
        if (s.lines.get l).startDue = true then CycleStarted s .ordinary (s.lines.get l) c else c = s.lines.get l) ∧
      ((s.lines.get l).chain = .draining → WentOffline (s.lines.get l) c) := by
  unfold drainOrNext
  by_cases hd : (s.lines.get l).chain = .draining
  · rw [if_pos hd]
    exact ⟨_, rfl, fun hc => by simp [hd] at hc, fun _ => (Line.goOffline_spec h).1⟩
  · rw [if_neg hd]
    by_cases hc : (s.lines.get l).chain = .running ∨ (s.lines.get l).chain = .quiet
    · obtain ⟨c, he, hs⟩ := nextCycle_run h hc
      exact ⟨c, he, fun _ => hs, fun hn => absurd hn hd⟩
    · obtain ⟨c, he⟩ := nextCycle_line l s
      exact ⟨c, he, fun hn => absurd hn hc, fun hn => absurd hn hd⟩

/-! ### The clear held for the cycle (R145, R146) -/

theorem Line.heldClear_eq_none (h : ∀ x, Deferred.clear x ∉ a.deferred) : a.heldClear = none := by
  rw [Line.heldClear, List.findSome?_eq_none_iff]
  intro d hd
  cases d with
  | clear x => exact absurd hd (h x)
  | binding | display => rfl

/-- The clear held is the first of the list. -/
theorem Line.heldClear_eq_some {before after : List Deferred} {target : Option Nat}
    (h : a.deferred = before ++ .clear target :: after) (hb : ∀ x, Deferred.clear x ∉ before) :
    a.heldClear = some target := by
  have hnone := Line.heldClear_eq_none (a := { a with deferred := before }) hb
  rw [Line.heldClear] at hnone
  rw [Line.heldClear, h, List.findSome?_append, hnone]
  rfl

theorem Line.returnedCount_eq (a : Line) : a.returnedCount =
    ((List.range 48).filter (fun i => decide ((a.at (i + 1)).health = .returned))).length := by
  rw [Line.returnedCount, positionNumbers, List.filter_map, List.length_map]
  rfl

theorem Line.boundOut_eq (a : Line) : a.boundOut = ((List.range 48).filter (fun i =>
    decide ((a.at (i + 1)).bound ≠ none ∧ (a.at (i + 1)).health ≠ .present))).length := by
  rw [Line.boundOut, Line.boundPositions, List.filter_filter, positionNumbers, List.filter_map, List.length_map]
  refine congrArg List.length (List.filter_congr fun i _ => ?_)
  rw [Bool.eq_iff_iff, Function.comp_apply, Bool.and_eq_true, decide_eq_true_iff, decide_eq_true_iff,
    Line.boundAt_eq_true, and_comm]

/-- The reply of a held clear changes the link alone. -/
theorem replyClear_eq (l : Fin 4) (held : Option (Option Nat)) (n : Nat) (s : State) :
    replyClear l held n s = { s with link := (replyClear l held n s).link } := by
  cases held with
  | none => rfl
  | some target => exact finish_eq _ _ s

/-- The reply of the clear held on line `a`, built in `w`, answers it. -/
theorem heldClearAnswered_replyClear {w : State} (hw : w.link = s.link) :
    HeldClearAnswered l a.deferred a s (replyClear l a.heldClear a.returnedCount w) := by
  refine ⟨fun hnone => ?_, fun before target after hds hb hslot => ?_⟩
  · rw [Line.heldClear_eq_none hnone]
    exact hw
  · obtain ⟨sl, hsl⟩ := Option.ne_none_iff_exists'.1 hslot
    have hlines : (replyClear l a.heldClear a.returnedCount w).lines = w.lines := by rw [replyClear_eq]
    rw [hlines, Line.heldClear_eq_some hds hb, ← Line.returnedCount_eq, ← Line.boundOut_eq]
    have hans := answered_finish hsl hw .ok (clearFields (w.lines.get l) target a.returnedCount)
    cases target <;> exact hans

/-! ### The completion of an ordinary cycle (R123, R126) -/

/-- A pin event that is taken runs its work on what the taking leaves (log 19). -/
theorem pinEvent_taken {w : LineWork} {s₀ : State} (h : PinTaken l w s₀ s) (run : State → State) :
    pinEvent l w run s₀ = .next (run s) := by
  unfold pinEvent
  rcases h with h | ⟨hp, hi, rfl⟩
  · rw [if_pos (takeLine_eq_some.1 h).1, h]
  · have hnone : takeLine l w s = none := by simp [takeLine, hi]
    rw [if_pos hp, hnone]
    exact if_pos hi

/-- A whole frame with the mark and the tag of the ordinary cycle in flight completes it (R123). -/
theorem exec_cycleReturn_ordinary {bytes : List Byte} {tag hops : Nat} {s₀ : State}
    (h : PinTaken l (.frame bytes) s₀ s) (hin : (s.lines.get l).inFlight = some (tag, .ordinary))
    (hret : returnedHops bytes tag = some hops) :
    exec (.cycleReturn l bytes) s₀ = .next (completeOrdinary l hops bytes s) := by
  have hrun : doFrame l bytes s = completeOrdinary l hops bytes s := by
    unfold doFrame
    simp only [hin, hret]
    rfl
  exact (pinEvent_taken h (doFrame l bytes)).trans (congrArg Host.Outcome.next hrun)

/-- Step 2 of R126, with what it reads of the line named. -/
theorem takeUplinks_eq {full quiet : Bool}
    (hf : full = true ↔ (s.lines.get l).chain = .running ∨ (s.lines.get l).chain = .quiet)
    (hq : quiet = true ↔ (s.lines.get l).chain = .quiet ∧ ∃ f, (s.lines.get l).out = some f ∧ f.quiet = true)
    (bytes : List Byte) : takeUplinks l bytes s =
      if full = true ∨ ((s.lines.get l).chain = .draining ∧ ((s.lines.get l).entered = some (.chain .running) ∨
          (s.lines.get l).entered = some (.chain .quiet))) then
        (List.range 48).foldl (fun x i => takeUplink l full quiet bytes x (i + 1)) s
      else s := by
  have hfull : decide ((s.lines.get l).chain = .running ∨ (s.lines.get l).chain = .quiet) = full := by
    rw [Bool.eq_iff_iff, decide_eq_true_iff, hf]
  have hquiet : lightsTouches (s.lines.get l) = quiet := by
    rw [Bool.eq_iff_iff, hq, lightsTouches, Bool.and_eq_true, decide_eq_true_iff, Option.any_eq_true]
  have htakes : takesUplinks (s.lines.get l) = true ↔ full = true ∨ ((s.lines.get l).chain = .draining ∧
      ((s.lines.get l).entered = some (.chain .running) ∨ (s.lines.get l).entered = some (.chain .quiet))) := by
    rw [hf, takesUplinks]
    cases (s.lines.get l).chain <;> simp
  unfold takeUplinks
  dsimp only
  rw [hfull, hquiet, positionNumbers, List.foldl_map]
  exact if_congr htakes rfl rfl

theorem deferredRun_filter {f g : Deferred → Bool} (hfg : ∀ d, f d = g d) {ds : List Deferred} {b : Line}
    (h : DeferredRun (ds.filter g) a b) : DeferredRun (ds.filter f) a b := by
  rwa [funext hfg]

/-- What follows the uplinks of a completed ordinary cycle, `v` being the state they left: the clears held, the rest of
the list, the end of a DRAINING line or the next cycle, and the reply of the clear (R126). -/
theorem completeOrdinary_spec {hops : Nat} {bytes : List Byte} {v : State}
    (hv : takeUplinks l bytes (updLine l (Line.completeCycle hops) s) = v) (hcan : (v.lines.get l).Canonical)
    (hlink : v.link = s.link) (ht : completeOrdinary l hops bytes s = t) :
    t = { v with lines := t.lines, link := t.link } ∧ (∀ m, m ≠ l → t.lines.get m = v.lines.get m) ∧
    HeldClearAnswered l (v.lines.get l).deferred (v.lines.get l) s t ∧ ∃ m n : Line,
      DeferredRun ((v.lines.get l).deferred.filter Deferred.isClear) { v.lines.get l with deferred := [] } m ∧
      DeferredRun ((v.lines.get l).deferred.filter (fun d => !d.isClear)) m n ∧
      ((v.lines.get l).chain = .running ∨ (v.lines.get l).chain = .quiet →
        if (v.lines.get l).startDue = true then CycleStarted v .ordinary n (t.lines.get l) else t.lines.get l = n) ∧
      ((v.lines.get l).chain = .draining → WentOffline n (t.lines.get l)) := by
  obtain ⟨m, hm, hn, hncan, hnc, hnd⟩ := Line.heldClears_spec hcan
  generalize hne : (v.lines.get l).applyHeldClears.applyDeferredList = n at hn hncan hnc hnd
  have happlied : applyDeferred l (updLine l Line.applyHeldClears v) = { v with lines := v.lines.set l n } := by
    simp only [applyDeferred, updLine, Quad.get_set, if_true, Quad.set_set, hne]
  have hget : ({ v with lines := v.lines.set l n } : State).lines.get l = n := by simp
  obtain ⟨c, hc, hrun, hdrain⟩ := drainOrNext_spec (l := l) (s := { v with lines := v.lines.set l n }) (by rwa [hget])
  rw [hget, hnc] at hrun hdrain
  rw [hnd] at hrun
  have hreply : t = replyClear l (v.lines.get l).heldClear (v.lines.get l).returnedCount
      { v with lines := v.lines.set l c } := by
    rw [← ht, completeOrdinary, hv, withHeldClear, happlied, hc, Quad.set_set]
  have hframe : t = { v with lines := v.lines.set l c, link := t.link } := by
    rw [hreply]
    exact replyClear_eq ..
  have hlines : t.lines = v.lines.set l c := congrArg State.lines hframe
  have htl : t.lines.get l = c := by rw [hlines, Quad.get_set, if_pos rfl]
  refine ⟨by rw [hlines]; exact hframe, fun m hml => by rw [hlines, Quad.get_set, if_neg hml], ?_, m, n, hm, hn,
    fun h => ?_, fun h => htl ▸ hdrain h⟩
  · rw [hreply]
    exact heldClearAnswered_replyClear hlink
  · have hcycle := hrun h
    rw [htl]
    split at hcycle
    · rw [if_pos ‹_›]
      exact cycleStarted_lines hcycle
    · rw [if_neg ‹_›]
      exact hcycle

end Sys2Proof.Machine

section Statements

open Sys2Proof Sys2Proof.Machine

/-- Settles O56: the uplinks leave the link, the chain state, start due and the deferred list, so what follows them is
decided by the line as the cycle found it; at one position no binding moves, so what is done there is decided by the
position as the frame found it. -/
theorem completedCycleUplinks : Obligations.CompletedCycleUplinks := by
  refine ⟨fun l bytes tag hops full quiet ln s₀ s u v hln htaken hs hlen hmark htag hhops hin hfull hquiet hu hv => ?_,
    fun l p full quiet bytes q s h hs hq hh => ⟨fun hx => ?_, fun x j o hx hj ho => ?_⟩,
    fun p x acked q a b ha hq hacked hb => ?_⟩
  · subst hln
    have hret : returnedHops bytes tag = some hops := (if_pos ⟨hlen, hmark, htag⟩).trans (congrArg some hhops)
    have hcompleted : u = updLine l (Line.completeCycle hops) s := hu
    have hul : u.lines.get l = (s.lines.get l).completeCycle hops := by
      rw [hcompleted, updLine_get, if_pos rfl]
    have htakes : takeUplinks l bytes u = v := by
      rw [takeUplinks_eq (full := full) (quiet := quiet) (by rwa [hul]) (by rwa [hul]), hul, hv]
      rfl
    have hup : Uplinked l u v := by
      rw [← htakes]
      exact (Uplinked.refl (by rw [hul]; exact hs.line l)).takeUplinks bytes
    have hrest := hup.line.rest
    rw [hul] at hrest
    have hdeferred : (v.lines.get l).deferred = (s.lines.get l).deferred := by rw [hrest]; rfl
    have hchain : (v.lines.get l).chain = (s.lines.get l).chain := by rw [hrest]; rfl
    have hdue : (v.lines.get l).startDue = (s.lines.get l).startDue := by rw [hrest]; rfl
    obtain ⟨hframe, hothers, hheld, m, n, hm, hn, hrun, hdrain⟩ := completeOrdinary_spec (hcompleted ▸ htakes)
      hup.line.canonical (by rw [hup.link, hcompleted, updLine_link]) rfl
    rw [hdeferred] at hheld hm hn
    rw [hchain] at hrun hdrain
    rw [hdue] at hrun
    exact ⟨_, exec_cycleReturn_ordinary htaken hin hret, hframe, hothers, hheld, m, n,
      deferredRun_filter (fun d => by cases d <;> rfl) hm,
      deferredRun_filter (fun d => by cases d <;> rfl) hn, fun hf => hrun (hfull.1 hf), hdrain⟩
  · rw [hh, hq]
    exact takeUplink_silent hx full quiet
  · have hjudged : Uplinked l s j := by
      rw [hj, hh]
      exact ((Uplinked.refl (hs.line l)).checked _ p _).judgeRequest p x
    have hnotice : o = noticeOccupancy l p x j := by
      rw [ho, hq, ← hjudged.bound]
      exact (noticeOccupancy_eq l p x j).symm
    have hdone : Uplinked l s o := hnotice ▸ hjudged.noticeOccupancy p x
    have htake : takeUplink l full quiet bytes s p = if quiet then lightPosition l p x o else o :=
      takeUplink_heard hx full quiet (hq ▸ hh) (hj ▸ hnotice)
    rw [htake]
    refine ⟨fun hdark => ?_, fun now hquiet htouch hbound hnow => ?_⟩
    · rcases hdark with hquiet | hdark
      · rw [hquiet]
        rfl
      · rw [lightPosition_dark (by rwa [hdone.bound, hdone.lineNow, ← hq]), ite_self]
    · rw [if_pos hquiet]
      exact lightPosition_lit htouch (by rwa [hdone.bound, ← hq]) (hdone.lineNow.trans hnow)
  · subst hb hq
    refine ⟨?_, fun p' hp => ?_, ?_, fun hn => ?_, fun n hn hk => ?_, fun n hn hk hlt => ?_, fun n hn hk hle => ?_⟩
    · rw [Line.checkGeneration_eq]
      rfl
    · rw [Line.at_checkGeneration ha, if_neg hp]
    · have hat : (a.checkGeneration p x).at p = checkedPosition x (a.at p) := by
        rw [Line.at_checkGeneration ha, if_pos rfl]
      rw [hat]
      exact checkedPosition_eq x (a.at p)
    · exact Line.checkGeneration_count ha (checkedCount_stopped hn)
    · exact Line.checkGeneration_count ha (checkedCount_acknowledged hn (hacked.1 hk))
    · have hcount := checkedCount_unacknowledged hn fun h => hk (hacked.2 h)
      rw [countUnack, if_pos hlt] at hcount
      exact Line.checkGeneration_count ha hcount
    · have hcount := checkedCount_unacknowledged hn fun h => hk (hacked.2 h)
      rw [countUnack, if_neg (by omega)] at hcount
      exact Line.checkGeneration_count ha hcount

end Statements
end

