-- ==== Sys2Proof/Proofs/OrderOps.lean ====
section
/-! PROOFS. The Catering Planner's operations on an order record, each as one equation of the whole state, and what the
records and the production lists read after each (R80 to R83, R105, R110, R111). -/

namespace Sys2Proof.Machine

variable {s t : State}

/-! ### The planner's tables -/

theorem TablesCanonical.loadTable (h : TablesCanonical s) : s.planner.load.wf noLoad := by
  obtain ⟨_, _, _, _, _, _, _, _, hload, _⟩ := h
  exact hload

theorem TablesCanonical.orderRecords (h : TablesCanonical s) : s.planner.records.wf ⟨0, none⟩ := by
  obtain ⟨_, _, _, _, _, _, _, _, _, _, hrecords, _⟩ := h
  exact hrecords

theorem TablesCanonical.productionLists (h : TablesCanonical s) : s.planner.lists.wf [] := by
  obtain ⟨_, _, _, _, _, _, _, _, _, _, _, hlists, _⟩ := h
  exact hlists

/-- Planner work is taken out of the intake alone. -/
theorem TablesCanonical.of_takePlanner {w : PlannerWork} (hs : TablesCanonical s) (h : takePlanner w s = some t) :
    TablesCanonical t :=
  (Writes.of_takePlanner h).sound.tables hs

/-! ### The notices of an order (R111) -/

/-- The link notice of an order that is linked. -/
def linkNotices (h : Handle) (o : Order) : List EngineWork :=
  match o.booking with
  | some b => [.linkNotice b h]
  | none => []

/-- The display notice of an order that is linked. -/
def displayNotices (h : Handle) (o : Order) : List EngineWork :=
  match o.booking with
  | some b => [.displayNotice b h]
  | none => []

theorem linkNotice_eq (i : Nat) (o : Order) (s : State) : linkNotice i o s =
    { s with engine := { s.engine with intake := s.engine.intake ++ linkNotices (orderHandle s i) o } } := by
  unfold linkNotice linkNotices
  cases o.booking with
  | none => simp only [List.append_nil]
  | some b => rfl

theorem displayNotice_eq (i : Nat) (o : Order) (s : State) : displayNotice i o s =
    { s with engine := { s.engine with intake := s.engine.intake ++ displayNotices (orderHandle s i) o } } := by
  unfold displayNotice displayNotices
  cases o.booking with
  | none => simp only [List.append_nil]
  | some b => rfl

/-! ### The order a handle names (R80) -/

theorem liveOrder_iff {h : Handle} {o : Order} : liveOrder s h = some o ↔ orderRecord s h.index = ⟨h.gen, some o⟩ := by
  unfold liveOrder orderAt
  generalize orderRecord s h.index = r
  obtain ⟨g, b⟩ := r
  by_cases hg : g = h.gen <;> simp [hg]

theorem orderHandle_of_live {h : Handle} {o : Order} (ho : liveOrder s h = some o) : orderHandle s h.index = h := by
  rw [orderHandle, liveOrder_iff.1 ho]

/-- A write of an order leaves every handle. -/
theorem orderHandle_setOrder (h : s.planner.records.wf ⟨0, none⟩) (i j : Nat) (o : Order) :
    orderHandle (setOrder i o s) j = orderHandle s j := by
  rw [orderHandle, orderHandle, orderRecord_setOrder h]
  split
  · rename_i e
    rw [e]
  · rfl

/-! ### Freeing an order (R105) -/

/-- The planner after order record `i`, of kitchen `k`, is freed. -/
def freedPlanner (i k : Nat) (s : State) : Planner :=
  { s.planner with
    records := s.planner.records.set ⟨0, none⟩ i ⟨((orderRecord s i).gen + 1) % 64, none⟩
    lists := s.planner.lists.set [] k ((production s k).filter (· ≠ i))
    free := s.planner.free ++ [i]
    episode := false }

/-- The state after an order is freed, but for its event: steps 2 to 5 of R105. -/
def freedOrder (i : Nat) (o : Order) (s : State) : State :=
  { s with
    planner := freedPlanner i o.kitchen s
    engine := { s.engine with intake := s.engine.intake ++ linkNotices (orderHandle s i) o } }

theorem freeOrder_eq_postOutcome (i : Nat) (o : Order) (e : Option EventRecord) (s : State) :
    freeOrder i o e s = postOutcome e (freedOrder i o s) := by
  unfold freeOrder
  dsimp only
  rw [linkNotice_eq]
  cases e <;> rfl

/-- An order freed: the record, the list, the pool and the link notice at once, then the event (R105). -/
theorem freeOrder_eq (i : Nat) (o : Order) (e : Option EventRecord) (s : State) : freeOrder i o e s =
    { freedOrder i o s with
      reports := (postOutcome e s).reports
      counters := (postOutcome e s).counters } := by
  rw [freeOrder_eq_postOutcome]
  exact postOutcome_of_same (v := freedOrder i o s) rfl rfl rfl

/-- The records after an order is freed: its own free at the next generation, every other as it was (R105). -/
theorem orderRecord_freeOrder (h : s.planner.records.wf ⟨0, none⟩) (i j : Nat) (o : Order) (e : Option EventRecord) :
    orderRecord (freeOrder i o e s) j =
      if j = i then ⟨((orderRecord s i).gen + 1) % 64, none⟩ else orderRecord s j := by
  rw [freeOrder_eq]
  exact Table.get_set h i j _

/-- The production lists after an order is freed: it stands in its kitchen's no more (R105). -/
theorem production_freeOrder (h : s.planner.lists.wf []) (i k : Nat) (o : Order) (e : Option EventRecord) :
    production (freeOrder i o e s) k =
      if k = o.kitchen then (production s k).filter (· ≠ i) else production s k := by
  rw [freeOrder_eq]
  refine (Table.get_set h o.kitchen k _).trans ?_
  split
  · rename_i e
    rw [e]
  · rfl

end Sys2Proof.Machine
end

