-- ==== Sys2Proof/Proofs/LoadTable.lean ====
section
/-! PROOFS. The Load Table: what each operation of the planner makes of a cell, and that it changes the table and
nothing else (R75, R79, R86, R90, R95, R110). -/

namespace Sys2Proof.Machine

variable {s t u v : State}

/-! ### The Load Table alone -/

/-- The state with another Load Table. -/
def withLoad (L : Table LoadCell) (s : State) : State := { s with planner := { s.planner with load := L } }

/-- `t` is `s` but for the Load Table, which stays canonical. -/
structure LoadOnly (s t : State) : Prop where
  eq : t = withLoad t.planner.load s
  wf : s.planner.load.wf noLoad → t.planner.load.wf noLoad

namespace LoadOnly

theorem refl (s : State) : LoadOnly s s := ⟨rfl, id⟩

theorem trans (h : LoadOnly s t) (h' : LoadOnly t u) : LoadOnly s u where
  eq := by
    have h1 := h.eq
    have h2 := h'.eq
    rw [h1] at h2
    exact h2
  wf := h'.wf ∘ h.wf

theorem modifyCell (k : Nat) (f : LoadCell → LoadCell) (q : Int) (s : State) : LoadOnly s (modifyCell k f q s) :=
  ⟨rfl, (Table.modify_wf · _ _)⟩

theorem foldl {α : Type} {f : State → α → State} (hf : ∀ t a, LoadOnly t (f t a)) (xs : List α) (s : State) :
    LoadOnly s (xs.foldl f s) :=
  List.foldlRecOn (motive := LoadOnly s) xs f (refl s) fun _ h a _ => h.trans (hf _ a)

theorem modifyCells (k : Nat) (f : LoadCell → LoadCell) (hs : List Int) (s : State) :
    LoadOnly s (modifyCells k f hs s) :=
  foldl (fun _ _ => modifyCell ..) hs s

theorem placeLoad (o : Order) (s : State) : LoadOnly s (placeLoad o s) :=
  (foldl (fun _ _ => modifyCell ..) _ s).trans (modifyCells ..)

theorem removeLoad (o : Order) (s : State) : LoadOnly s (removeLoad o s) :=
  (foldl (fun _ _ => modifyCell ..) _ s).trans (modifyCells ..)

theorem releaseCarts (o : Order) (s : State) : LoadOnly s (releaseCarts o s) :=
  (modifyCells ..).trans (modifyCells ..)

theorem testOrderMarks (o : Order) (s : State) : LoadOnly s (testOrderMarks o s) :=
  (modifyCells ..).trans (modifyCells ..)

/-- The days, the indices and the limits are read off the rest of the state. -/
theorem plannerDay (h : LoadOnly s t) : plannerDay t = plannerDay s := by rw [h.eq]; rfl

theorem pidx (h : LoadOnly s t) (x : CTime) : pidx t x = pidx s x := by rw [h.eq]; rfl

theorem limitsAt (h : LoadOnly s t) (k : Nat) : limitsAt t k = limitsAt s k := by rw [h.eq]; rfl

theorem orderCarts (h : LoadOnly s t) (o : Order) : orderCarts t o = orderCarts s o := by rw [h.eq]; rfl

theorem orderWindow (h : LoadOnly s t) (o : Order) : orderWindow t o = orderWindow s o := by rw [h.eq]; rfl

end LoadOnly

/-! ### The keys of the Load Table (R75) -/

theorem loadKey_inj {c k k' : Nat} {q q' : Int} (h0 : 0 ≤ q) (h1 : q ≤ 2303) (h0' : 0 ≤ q') (h1' : q' ≤ 2303) :
    loadKey c k q = loadKey c k' q' ↔ k = k' ∧ q = q' := by
  refine ⟨fun h => ⟨?_, ?_⟩, fun ⟨hk, hq⟩ => by rw [hk, hq]⟩
  · rw [← loadKey_kitchen c k q, h, loadKey_kitchen]
  · rw [← keyIndex_loadKey (c := c) (k := k) h0 h1, h, keyIndex_loadKey h0' h1']

theorem loadKey_ne {c k k' : Nat} (hk : k ≠ k') (q q' : Int) : loadKey c k q ≠ loadKey c k' q' := fun h =>
  hk (by rw [← loadKey_kitchen c k q, h, loadKey_kitchen])

/-! ### One cell changed, and a run of them -/

theorem cellAt_modifyCell (hw : s.planner.load.wf noLoad) (k k' : Nat) (f : LoadCell → LoadCell) (q q' : Int) :
    cellAt (modifyCell k f q s) k' q' =
      if loadKey (plannerDay s) k' q' = loadKey (plannerDay s) k q then f (cellAt s k q) else cellAt s k' q' :=
  Table.get_modify hw _ _ f

/-- A run of `n` quanta of kitchen `k` from `b` on changed, the one at offset `i` by `f i`. -/
def modifyRun (k : Nat) (f : Nat → LoadCell → LoadCell) (b : Int) (n : Nat) (s : State) : State :=
  (List.range n).foldl (fun s (i : Nat) => modifyCell k (f i) (b + i) s) s

theorem LoadOnly.modifyRun (k : Nat) (f : Nat → LoadCell → LoadCell) (b : Int) (n : Nat) (s : State) :
    LoadOnly s (modifyRun k f b n s) :=
  foldl (fun _ _ => modifyCell ..) _ s

theorem modifyRun_succ (k : Nat) (f : Nat → LoadCell → LoadCell) (b : Int) (n : Nat) (s : State) :
    modifyRun k f b (n + 1) s = modifyCell k (f n) (b + n) (modifyRun k f b n s) := by
  simp [modifyRun, List.range_succ]

/-- A run within the horizon changes its own quanta, each once. -/
theorem cellAt_modifyRun (hw : s.planner.load.wf noLoad) (k : Nat) (f : Nat → LoadCell → LoadCell) {b : Int} {n : Nat}
    (h0 : 0 ≤ b) (h1 : b + n ≤ 2304) {q : Int} (hq0 : 0 ≤ q) (hq1 : q ≤ 2303) (k' : Nat) :
    cellAt (modifyRun k f b n s) k' q =
      if k' = k ∧ b ≤ q ∧ q < b + n then f (q - b).toNat (cellAt s k' q) else cellAt s k' q := by
  induction n with
  | zero =>
    rw [if_neg (by omega)]
    rfl
  | succ n ih =>
    have hrun := LoadOnly.modifyRun k f b n s
    simp only [modifyRun_succ, cellAt_modifyCell (hrun.wf hw), loadKey_inj hq0 hq1 (by omega : 0 ≤ b + n)
      (by omega : b + n ≤ 2303), ih (by omega)]
    by_cases hlast : k' = k ∧ q = b + n
    · obtain ⟨rfl, rfl⟩ := hlast
      have hn : (b + n - b).toNat = n := by omega
      rw [if_pos ⟨rfl, rfl⟩, if_pos ⟨rfl, by omega, by omega⟩, ih (by omega), if_neg (by omega), hn]
    · rw [if_neg hlast]
      refine if_congr ?_ rfl rfl
      omega

/-- A run leaves every other kitchen. -/
theorem cellAt_modifyRun_other (hw : s.planner.load.wf noLoad) {k k' : Nat} (hk : k' ≠ k)
    (f : Nat → LoadCell → LoadCell) (b : Int) (n : Nat) (q : Int) :
    cellAt (modifyRun k f b n s) k' q = cellAt s k' q := by
  induction n with
  | zero => rfl
  | succ n ih =>
    rw [modifyRun_succ, cellAt_modifyCell ((LoadOnly.modifyRun k f b n s).wf hw), if_neg (loadKey_ne hk _ _), ih]

/-- A run whose changes keep the shares leaves every share. -/
theorem prep_modifyRun (hw : s.planner.load.wf noLoad) (k : Nat) {f : Nat → LoadCell → LoadCell}
    (hf : ∀ i c, (f i c).prep = c.prep) (b : Int) (n : Nat) (k' : Nat) (q : Int) :
    (cellAt (modifyRun k f b n s) k' q).prep = (cellAt s k' q).prep := by
  induction n with
  | zero => rfl
  | succ n ih =>
    rw [modifyRun_succ, cellAt_modifyCell ((LoadOnly.modifyRun k f b n s).wf hw)]
    split
    · rename_i he
      rw [hf, ← ih, cellAt, cellAt, he]
    · exact ih

/-! ### Windows and cart spans as runs (R86) -/

theorem mem_windowQuanta {w : Int} {n : Nat} {q : Int} : q ∈ windowQuanta w n ↔ w ≤ q ∧ q < w + n := by
  simp only [windowQuanta, List.mem_map, List.mem_range]
  exact ⟨fun ⟨i, hi, he⟩ => by omega, fun h => ⟨(q - w).toNat, by omega, by omega⟩⟩

theorem mem_cartQuanta {d : Int} {m : Nat} {q : Int} : q ∈ cartQuanta d m ↔ d ≤ q ∧ q ≤ d + 2 * m + 1 := by
  simp only [cartQuanta, List.mem_map, List.mem_range]
  exact ⟨fun ⟨i, hi, he⟩ => by omega, fun h => ⟨(q - d).toNat, by omega, by omega⟩⟩

theorem modifyCells_window (k : Nat) (f : LoadCell → LoadCell) (w : Int) (n : Nat) (s : State) :
    modifyCells k f (windowQuanta w n) s = modifyRun k (fun _ => f) w n s := by
  rw [modifyCells, windowQuanta, List.foldl_map]
  rfl

theorem modifyCells_carts (k : Nat) (f : LoadCell → LoadCell) (d : Int) (m : Nat) (s : State) :
    modifyCells k f (cartQuanta d m) s = modifyRun k (fun _ => f) d (2 * m + 2) s := by
  rw [modifyCells, cartQuanta, List.foldl_map]
  rfl

/-- A window within the horizon changed. -/
theorem cellAt_window (hw : s.planner.load.wf noLoad) (k : Nat) (f : LoadCell → LoadCell) {w : Int} {n : Nat}
    (h0 : 0 ≤ w) (h1 : w + n ≤ 2304) {q : Int} (hq0 : 0 ≤ q) (hq1 : q ≤ 2303) (k' : Nat) :
    cellAt (modifyCells k f (windowQuanta w n) s) k' q =
      if k' = k ∧ q ∈ windowQuanta w n then f (cellAt s k' q) else cellAt s k' q := by
  simp only [modifyCells_window, cellAt_modifyRun hw k _ h0 h1 hq0 hq1, mem_windowQuanta]

/-- A cart span within the horizon changed. -/
theorem cellAt_carts (hw : s.planner.load.wf noLoad) (k : Nat) (f : LoadCell → LoadCell) {d : Int} {m : Nat}
    (h0 : 0 ≤ d) (h1 : d + 2 * m + 1 ≤ 2303) {q : Int} (hq0 : 0 ≤ q) (hq1 : q ≤ 2303) (k' : Nat) :
    cellAt (modifyCells k f (cartQuanta d m) s) k' q =
      if k' = k ∧ q ∈ cartQuanta d m then f (cellAt s k' q) else cellAt s k' q := by
  rw [modifyCells_carts, cellAt_modifyRun hw k _ h0 (by push_cast; omega) hq0 hq1]
  refine if_congr ?_ rfl rfl
  rw [mem_cartQuanta]
  push_cast
  omega

/-! ### The mark test (R79) -/

/-- A mark test keeps the use, and clears the mark where it is within the limits. -/
theorem testMark_eq (lim : Limits) (c : LoadCell) : testMark lim c =
    ⟨c.prep, c.carts, if c.prep ≤ lim.capacity ∧ c.carts ≤ lim.carts then false else c.mark⟩ := by
  unfold testMark
  split <;> rfl

theorem testMark_twice (lim : Limits) (c : LoadCell) : testMark lim (testMark lim c) = testMark lim c := by
  simp only [testMark_eq]
  split <;> rfl

/-! ### The load of an order (R79, R90, R95, R110) -/

/-- The cart span of an order lies within the horizon. -/
def CartsInHorizon (s : State) (o : Order) : Prop :=
  0 ≤ pidx s o.departure ∧ pidx s o.departure + 2 * o.transit + 1 ≤ 2303

/-- The window of an order lies within the horizon. -/
def WindowInHorizon (s : State) (o : Order) : Prop := 0 ≤ pidx s o.window ∧ pidx s o.window + o.len ≤ 2304

section Placement

variable {o : Order} {q : Int}

/-- An order's load put into the Load Table. -/
theorem cellAt_placeLoad (hw : s.planner.load.wf noLoad) (hc : CartsInHorizon s o) (hwin : WindowInHorizon s o)
    (hq0 : 0 ≤ q) (hq1 : q ≤ 2303) (k : Nat) : cellAt (placeLoad o s) k q =
      ⟨(cellAt s k q).prep + (if k = o.kitchen ∧ pidx s o.window ≤ q ∧ q < pidx s o.window + o.len then
          share o.load o.len (q - pidx s o.window).toNat else 0),
        (cellAt s k q).carts + (if k = o.kitchen ∧ pidx s o.departure ≤ q ∧
          q ≤ pidx s o.departure + 2 * o.transit + 1 then 1 else 0),
        (cellAt s k q).mark⟩ := by
  have hshares := LoadOnly.modifyRun o.kitchen
    (fun i c => { c with prep := c.prep + share o.load o.len i }) (pidx s o.window) o.len s
  change cellAt (modifyCells o.kitchen _ (cartQuanta (pidx s o.departure) o.transit) (modifyRun o.kitchen
    (fun i c => { c with prep := c.prep + share o.load o.len i }) (pidx s o.window) o.len s)) k q = _
  rw [cellAt_carts (hshares.wf hw) _ _ hc.1 hc.2 hq0 hq1, cellAt_modifyRun hw _ _ hwin.1 hwin.2 hq0 hq1]
  simp only [mem_cartQuanta]
  split <;> split <;> rfl

/-- An order's load taken from the Load Table: what the table reads less the order's placement (R94, R95). -/
theorem cellAt_removeLoad (hw : s.planner.load.wf noLoad) (hc : CartsInHorizon s o) (hwin : WindowInHorizon s o)
    (hq0 : 0 ≤ q) (hq1 : q ≤ 2303) (k : Nat) : cellAt (removeLoad o s) k q = readCell s (some o) k q := by
  have hshares := LoadOnly.modifyRun o.kitchen
    (fun i c => { c with prep := c.prep - share o.load o.len i }) (pidx s o.window) o.len s
  change cellAt (modifyCells o.kitchen _ (cartQuanta (pidx s o.departure) o.transit) (modifyRun o.kitchen
    (fun i c => { c with prep := c.prep - share o.load o.len i }) (pidx s o.window) o.len s)) k q = _
  rw [cellAt_carts (hshares.wf hw) _ _ hc.1 hc.2 hq0 hq1, cellAt_modifyRun hw _ _ hwin.1 hwin.2 hq0 hq1, readCell]
  by_cases hk : k = o.kitchen
  · have hin : (0 ≤ q - pidx s o.window ∧ q - pidx s o.window < o.len) ↔
        (pidx s o.window ≤ q ∧ q < pidx s o.window + o.len) := by omega
    simp only [hk, true_and, if_true, hin, orderCarts]
    split <;> split <;> rfl
  · simp only [hk, Ne.symm hk, false_and, if_false]

/-- The marks on the quanta of an order tested. -/
theorem cellAt_testOrderMarks (hw : s.planner.load.wf noLoad) (hc : CartsInHorizon s o) (hwin : WindowInHorizon s o)
    (hq0 : 0 ≤ q) (hq1 : q ≤ 2303) (k : Nat) : cellAt (testOrderMarks o s) k q =
      if k = o.kitchen ∧ (q ∈ orderCarts s o ∨ q ∈ orderWindow s o) then testMark (limitsAt s k) (cellAt s k q)
      else cellAt s k q := by
  have hwindow := LoadOnly.modifyCells o.kitchen (testMark (limitsAt s o.kitchen)) (orderWindow s o) s
  have hcarts := cellAt_carts (hwindow.wf hw) o.kitchen (testMark (limitsAt s o.kitchen)) hc.1 hc.2 hq0 hq1 k
  unfold testOrderMarks testMarks
  rw [hwindow.limitsAt]
  simp only [orderCarts, hcarts]
  rw [orderWindow, cellAt_window hw _ _ hwin.1 hwin.2 hq0 hq1]
  by_cases hk : k = o.kitchen
  · subst hk
    by_cases h1 : q ∈ cartQuanta (pidx s o.departure) o.transit <;>
      by_cases h2 : q ∈ windowQuanta (pidx s o.window) o.len <;> simp [h1, h2, testMark_twice]
  · simp [hk]

/-- An order's cart units taken from the Load Table, and the marks there tested (R110). -/
theorem cellAt_releaseCarts (hw : s.planner.load.wf noLoad) (hc : CartsInHorizon s o) (hq0 : 0 ≤ q) (hq1 : q ≤ 2303)
    (k : Nat) : cellAt (releaseCarts o s) k q =
      if k = o.kitchen ∧ q ∈ orderCarts s o then
        testMark (limitsAt s k) { cellAt s k q with carts := (cellAt s k q).carts - 1 }
      else cellAt s k q := by
  have htaken := LoadOnly.modifyCells o.kitchen (fun c => { c with carts := c.carts - 1 }) (orderCarts s o) s
  have hcarts := cellAt_carts (htaken.wf hw) o.kitchen (testMark (limitsAt s o.kitchen)) hc.1 hc.2 hq0 hq1 k
  unfold releaseCarts testMarks takeCarts
  rw [htaken.limitsAt]
  simp only [orderCarts] at hcarts ⊢
  rw [hcarts, cellAt_carts hw _ _ hc.1 hc.2 hq0 hq1]
  by_cases hp : k = o.kitchen ∧ q ∈ cartQuanta (pidx s o.departure) o.transit
  · obtain ⟨rfl, hq⟩ := hp
    simp [hq]
  · simp only [hp, if_false]

end Placement

/-! ### Every other kitchen, and the shares under a release -/

theorem cellAt_removeLoad_other (hw : s.planner.load.wf noLoad) {o : Order} {k : Nat} (hk : k ≠ o.kitchen) (q : Int) :
    cellAt (testOrderMarks o (removeLoad o s)) k q = cellAt s k q := by
  have hremove := LoadOnly.removeLoad o s
  unfold testOrderMarks testMarks orderWindow orderCarts
  rw [modifyCells_carts, modifyCells_window,
    cellAt_modifyRun_other ((LoadOnly.modifyRun ..).wf (hremove.wf hw)) hk,
    cellAt_modifyRun_other (hremove.wf hw) hk]
  unfold removeLoad takeCarts takeShares orderCarts
  rw [modifyCells_carts]
  exact (cellAt_modifyRun_other ((LoadOnly.modifyRun o.kitchen (fun i c => { c with prep := c.prep - share o.load o.len i })
    (Machine.pidx s o.window) o.len s).wf hw) hk ..).trans (cellAt_modifyRun_other hw hk ..)

theorem cellAt_releaseCarts_other (hw : s.planner.load.wf noLoad) {o : Order} {k : Nat} (hk : k ≠ o.kitchen) (q : Int) :
    cellAt (releaseCarts o s) k q = cellAt s k q := by
  unfold releaseCarts testMarks takeCarts orderCarts
  rw [modifyCells_carts, modifyCells_carts, cellAt_modifyRun_other ((LoadOnly.modifyRun ..).wf hw) hk,
    cellAt_modifyRun_other hw hk]

/-- Cart units released leave every share (R110). -/
theorem prep_releaseCarts (hw : s.planner.load.wf noLoad) (o : Order) (k : Nat) (q : Int) :
    (cellAt (releaseCarts o s) k q).prep = (cellAt s k q).prep := by
  unfold releaseCarts testMarks takeCarts orderCarts
  rw [modifyCells_carts, modifyCells_carts,
    prep_modifyRun ((LoadOnly.modifyRun ..).wf hw) _ fun _ c => by rw [testMark_eq]]
  exact prep_modifyRun (f := fun _ c => { c with carts := c.carts - 1 }) hw _ (fun _ _ => rfl) ..

/-! ### The load moved (R79, R90, R95, R110) -/

/-- The load moved is read off the cells. -/
theorem LoadMoved.of_cells {o : Order} {shares : Bool} {prep carts : Nat → Int → Nat}
    (h : LoadMoved u v o shares prep carts) (hc : ∀ k q, cellAt t k q = cellAt v k q) :
    LoadMoved u t o shares prep carts := by
  intro h0 h1 h2 k q hq0 hq1
  rw [hc]
  exact h h0 h1 h2 k q hq0 hq1

/-- An order's placement taken off, another put on, and the marks where it stood tested (R79, R95): `u` before, and `v`,
of the same day and limits, before the test. -/
theorem loadMoved_testOrderMarks {o : Order} {prep carts : Nat → Int → Nat} (hw : v.planner.load.wf noLoad)
    (hday : plannerDay v = plannerDay u) (hlim : ∀ k, limitsAt v k = limitsAt u k)
    (hcell : CartsInHorizon u o → WindowInHorizon u o → ∀ (k : Nat) (q : Int), 0 ≤ q → q ≤ 2303 → cellAt v k q =
      ⟨(readCell u (some o) k q).prep + prep k q, (readCell u (some o) k q).carts + carts k q, (cellAt u k q).mark⟩) :
    LoadMoved u (testOrderMarks o v) o true prep carts := by
  intro h0 h1 h2 k q hq0 hq1
  have hpidx : ∀ x, pidx v x = pidx u x := fun x => by rw [pidx, hday]; rfl
  have hcells := hcell ⟨h0, h1⟩ (h2 rfl) k q hq0 hq1
  rw [cellAt_testOrderMarks hw (by unfold CartsInHorizon; rw [hpidx]; exact ⟨h0, h1⟩)
    (by unfold WindowInHorizon; rw [hpidx]; exact h2 rfl) hq0 hq1, hlim, hcells]
  simp only [orderCarts, orderWindow, hpidx]
  by_cases hp : k = o.kitchen ∧ (q ∈ cartQuanta (pidx u o.departure) o.transit ∨ q ∈ windowQuanta (pidx u o.window) o.len)
  · rw [if_pos hp, testMark_eq]
    refine ⟨rfl, rfl, if_congr ?_ rfl rfl⟩
    obtain ⟨hk, hq⟩ := hp
    simp only [hk, hq, true_and]
  · rw [if_neg hp]
    refine ⟨rfl, rfl, (if_neg fun h => hp ⟨h.1, ?_⟩).symm⟩
    simpa using h.2.1

/-- The mark of a cell is read as it stands, whatever placement is left out (R94). -/
theorem mark_readCell (s : State) (own : Option Order) (k : Nat) (q : Int) :
    (readCell s own k q).mark = (cellAt s k q).mark := by
  unfold readCell
  cases own with
  | none => rfl
  | some o =>
    dsimp only
    split <;> rfl

/-- An order's load taken off and the marks tested: nothing put on. -/
theorem loadMoved_removed {o : Order} (hw : u.planner.load.wf noLoad) :
    LoadMoved u (testOrderMarks o (removeLoad o u)) o true nothingAdded nothingAdded :=
  have hv := LoadOnly.removeLoad o u
  loadMoved_testOrderMarks (hv.wf hw) hv.plannerDay hv.limitsAt fun hc hwin k q hq0 hq1 => by
    rw [cellAt_removeLoad hw hc hwin hq0 hq1, ← mark_readCell u (some o)]
    rfl

/-- An order's cart units taken off and the marks tested, its shares left (R110). -/
theorem loadMoved_released {o : Order} (hw : u.planner.load.wf noLoad) :
    LoadMoved u (releaseCarts o u) o false nothingAdded nothingAdded := by
  intro h0 h1 _ k q hq0 hq1
  rw [cellAt_releaseCarts hw ⟨h0, h1⟩ hq0 hq1]
  unfold readCell nothingAdded
  by_cases hp : k = o.kitchen ∧ q ∈ orderCarts u o
  · obtain ⟨rfl, hq⟩ := hp
    rw [if_pos ⟨rfl, hq⟩, testMark_eq]
    simp [hq]
  · rw [if_neg hp]
    refine ⟨by simp, ?_, (if_neg fun h => hp ⟨h.1, ?_⟩).symm⟩
    · by_cases hk : k = o.kitchen
      · have hq : q ∉ orderCarts u o := fun hq => hp ⟨hk, hq⟩
        simp [hk, hq]
      · simp [Ne.symm hk]
    · simpa using h.2.1

end Sys2Proof.Machine
end

