-- ==== Sys2Proof/Proofs/OrderPool.lean ====
section
/-! PROOFS. The pool of order records: the free list exact through every command (R80, R81, R90, R95, R105). -/

namespace Sys2Proof.Machine

/-! ### Where an order is found -/

theorem orderAt_of_live {s : State} {h : Handle} {o : Order} (ho : liveOrder s h = some o) :
    orderAt s h.index = some o := by
  rw [orderAt, liveOrder_iff.1 ho]

theorem mem_allOrders {s : State} {e : Nat × Order} :
    e ∈ allOrders s ↔ e.1 ∈ (List.range Config.kitchens).flatMap (production s) ∧ orderAt s e.1 = some e.2 := by
  obtain ⟨i, o⟩ := e
  simp only [allOrders, List.mem_filterMap, Option.map_eq_some_iff, Prod.mk.injEq]
  exact ⟨fun ⟨j, hj, x, hx, hi, ho⟩ => hi ▸ ho ▸ ⟨hj, hx⟩, fun ⟨hi, ho⟩ => ⟨i, hi, o, ho, rfl, rfl⟩⟩

/-- The order a receipt is matched to stands in a production list (R108). -/
theorem chosenOrder_mem {s : State} {room : Nat} {e : Nat × Order} (h : chosenOrder s room = some e) :
    e ∈ allOrders s := by
  refine List.foldlRecOn (motive := fun best => ∀ x, best = some x → x ∈ allOrders s) _ _
    (fun _ hx => by cases hx)
    (fun best hbest a ha x hx => ?_) e h
  split at hx
  · split at hx
    · split at hx
      · exact Option.some.inj hx ▸ ha
      · exact hbest x hx
    · exact Option.some.inj hx ▸ ha
  · exact hbest x hx

/-! ### The pool through each operation -/

/-- The order table is canonical and the order free list exact. -/
structure OrdersSound (s : State) : Prop where
  records : s.planner.records.wf ⟨0, none⟩
  pool : OrderPoolExact s

/-- The order records and the order free list stand from `s` to `t`. -/
def OrdersStay (s t : State) : Prop := t.planner.records = s.planner.records ∧ t.planner.free = s.planner.free

namespace OrdersSound

variable {s t : State} {i : Nat} {o o' : Order}

theorem stay (h : OrdersSound s) (hst : OrdersStay s t) : OrdersSound t := by
  obtain ⟨h1, h2⟩ := h
  obtain ⟨hr, hf⟩ := hst
  unfold OrderPoolExact orderAt orderRecord at h2
  constructor
  · rwa [hr]
  · unfold OrderPoolExact orderAt orderRecord
    rwa [hr, hf]

theorem same (h : OrdersSound s) (hp : t.planner = s.planner := by simp) : OrdersSound t :=
  h.stay ⟨by rw [hp], by rw [hp]⟩

theorem loadOnly (h : OrdersSound s) (hl : LoadOnly s t) : OrdersSound t :=
  h.stay ⟨by rw [hl.eq]; rfl, by rw [hl.eq]; rfl⟩

/-- A record that holds an order is a record of the pool, and not on the free list. -/
theorem live (h : OrdersSound s) (ho : orderAt s i = some o) : i < 768 ∧ i ∉ s.planner.free := by
  obtain ⟨_, hlt, hfree⟩ := h.pool
  refine ⟨hlt i (by rw [ho]; rfl), fun hi => ?_⟩
  rw [((hfree i).1 hi).2] at ho
  cases ho

/-- The order of a record replaced. -/
theorem setOrder (h : OrdersSound s) (ho : orderAt s i = some o) : OrdersSound (setOrder i o' s) := by
  obtain ⟨hi, hnot⟩ := h.live ho
  obtain ⟨hnd, hlt, hfree⟩ := h.pool
  have hat : ∀ j, orderAt (Machine.setOrder i o' s) j = if j = i then some o' else orderAt s j := fun j => by
    rw [orderAt, orderRecord_setOrder h.records]
    split <;> rfl
  refine ⟨Table.set_wf h.records _ _, hnd, fun j hj => ?_, fun j => ?_⟩
  · rw [hat] at hj
    split at hj
    · omega
    · exact hlt j hj
  · rw [hat]
    change j ∈ s.planner.free ↔ _
    split
    · rename_i e
      subst e
      simp [hnot]
    · exact hfree j

/-- An order freed. -/
theorem freeOrder (h : OrdersSound s) (ho : orderAt s i = some o) (o' : Order) (e : Option EventRecord) :
    OrdersSound (freeOrder i o' e s) := by
  obtain ⟨hi, hnot⟩ := h.live ho
  obtain ⟨hnd, hlt, hfree⟩ := h.pool
  have hat : ∀ j, orderAt (Machine.freeOrder i o' e s) j = if j = i then none else orderAt s j := fun j => by
    rw [orderAt, orderRecord_freeOrder h.records]
    split <;> rfl
  have hlist : (Machine.freeOrder i o' e s).planner.free = s.planner.free ++ [i] := by rw [freeOrder_eq]; rfl
  refine ⟨?_, ?_, fun j hj => ?_, fun j => ?_⟩
  · rw [freeOrder_eq]
    exact Table.set_wf h.records _ _
  · rw [hlist]
    exact hnd.append (List.nodup_singleton i) (by simpa using hnot)
  · rw [hat] at hj
    split at hj
    · cases hj
    · exact hlt j hj
  · rw [hlist, hat, List.mem_append, List.mem_singleton, hfree]
    split
    · rename_i e
      simp [e, hi]
    · rename_i e
      simp [e]

/-- The head record of the free list given an order (R81, R90). -/
theorem allocate {rest : List Nat} (h : OrdersSound s) (hf : s.planner.free = i :: rest) (o : Order) :
    OrdersSound (Machine.setOrder i o { s with planner := { s.planner with free := rest } }) := by
  obtain ⟨hnd, hlt, hfree⟩ := h.pool
  rw [hf] at hnd hfree
  obtain ⟨hi, hnd⟩ := List.nodup_cons.1 hnd
  have hat : ∀ j, orderAt (Machine.setOrder i o { s with planner := { s.planner with free := rest } }) j =
      if j = i then some o else orderAt s j := fun j => by
    rw [orderAt, orderRecord_setOrder (s := { s with planner := { s.planner with free := rest } }) h.records]
    split <;> rfl
  refine ⟨Table.set_wf h.records _ _, hnd, fun j hj => ?_, fun j => ?_⟩
  · rw [hat] at hj
    split at hj
    · rename_i e
      exact e ▸ ((hfree i).1 (by simp)).1
    · exact hlt j hj
  · rw [hat]
    change j ∈ rest ↔ _
    split
    · rename_i e
      simp [e, hi]
    · rename_i e
      rw [← hfree j, List.mem_cons, or_iff_right e]

theorem ite {p : Prop} [Decidable p] {u : State} (h : p → OrdersSound t) (h' : ¬ p → OrdersSound u) :
    OrdersSound (if p then t else u) := by
  split
  · exact h ‹_›
  · exact h' ‹_›

theorem foldl {α : Type} {f : State → α → State} (hf : ∀ t a, OrdersSound t → OrdersSound (f t a)) (xs : List α)
    (h : OrdersSound s) : OrdersSound (xs.foldl f s) :=
  List.foldlRecOn xs f h fun _ ht a _ => hf _ a ht

/-! ### What leaves the records and the free list -/

theorem sendEngine (h : OrdersSound s) (w : EngineWork) : OrdersSound (sendEngine w s) := h.same

theorem finish (h : OrdersSound s) (r : Result) (body : List Field) : OrdersSound (finish r body s) := h.same

theorem postEvent (h : OrdersSound s) (r : EventRecord) : OrdersSound (postEvent r s) := h.same

theorem displayNotice (h : OrdersSound s) (i : Nat) (o : Order) : OrdersSound (displayNotice i o s) := h.same

theorem linkNotice (h : OrdersSound s) (i : Nat) (o : Order) : OrdersSound (linkNotice i o s) := h.same

theorem answerPanel (h : OrdersSound s) (src : PanelSrc) (kind : Nat) (code : PanelCode) (time : Option CTime) :
    OrdersSound (answerPanel src kind code time s) := h.same rfl

theorem refuseOrder (h : OrdersSound s) (r : Result) : OrdersSound (refuseOrder r s) :=
  (h.same (t := count Counters.cateringRefusal s)).finish _ _

theorem setProduction (h : OrdersSound s) (k : Nat) (l : List Nat) : OrdersSound (setProduction k l s) :=
  h.stay ⟨rfl, rfl⟩

theorem nextPlacing (h : OrdersSound s) : OrdersSound (nextPlacing s) := h.stay ⟨rfl, rfl⟩

theorem setJob (h : OrdersSound s) (j : Option Job) : OrdersSound (setJob j s) := h.stay ⟨rfl, rfl⟩

theorem openOrderEpisode (h : OrdersSound s) (room : Nat) : OrdersSound (openOrderEpisode room s) :=
  ite (fun _ => h) fun _ => h.stay ⟨by simp, by simp⟩

/-! ### The operations on an order -/

theorem cancelOrder (h : OrdersSound s) (ho : orderAt s i = some o') (e : Option EventRecord) :
    OrdersSound (cancelOrder i o e s) := by
  have hl := (LoadOnly.removeLoad o s).trans (.testOrderMarks o _)
  exact (h.loadOnly hl).freeOrder (o := o') (by rw [hl.eq]; exact ho) ..

theorem wasteOrder (h : OrdersSound s) (ho : orderAt s i = some o') : OrdersSound (wasteOrder i o s) := by
  have hl := LoadOnly.releaseCarts o s
  exact ((h.loadOnly hl).setOrder (o := o') (by rw [hl.eq]; exact ho)).linkNotice ..

theorem swapOrder (h : OrdersSound s) (ho : orderAt s i = some o') (j : Job) (p : Placement) :
    OrdersSound (swapOrder i o j p s) := by
  have hl := (LoadOnly.removeLoad o s).trans (.placeLoad (placedOrder s j p o.booking o.confirmed) _)
  have h1 := (h.loadOnly hl).setProduction o.kitchen
    ((production (Machine.placeLoad (placedOrder s j p o.booking o.confirmed) (Machine.removeLoad o s))
      o.kitchen).filter (· ≠ i))
  have h2 := h1.setOrder (o := o') (o' := placedOrder s j p o.booking o.confirmed) (by rw [hl.eq]; exact ho)
  exact (h2.nextPlacing.setProduction ..).loadOnly (.testOrderMarks o _)

theorem advanceOrder (h : OrdersSound s) (ho : orderAt s i = some o') (st : OrderState) (kind : EventKind) :
    OrdersSound (advanceOrder i o st kind s) := ((h.setOrder ho).postEvent _).displayNotice ..

theorem deliverOrder (h : OrdersSound s) (ho : orderAt s i = some o') : OrdersSound (deliverOrder i o s) :=
  (h.setOrder ho).displayNotice ..

/-! ### The planner's work -/

theorem doAdmissionComputation (h : OrdersSound s) (x : Handle) (serving : CTime) (room n : Nat)
    (ls : List OrderLine) : OrdersSound (doAdmissionComputation x serving room n ls s) :=
  ite (fun _ => h.sendEngine _) fun _ => ite (fun _ => (h.openOrderEpisode _).sendEngine _) fun _ =>
    ite (fun _ => h.sendEngine _) fun _ => h.setJob _

theorem commitAdmission (h : OrdersSound s) (j : Job) (p : Placement) : OrdersSound (commitAdmission j p s) := by
  unfold Machine.commitAdmission
  split
  · exact (h.openOrderEpisode _).sendEngine _
  · exact (((h.allocate ‹_› _).nextPlacing.loadOnly (.placeLoad ..)).setProduction ..).sendEngine _

theorem doAdmissionCompletion (h : OrdersSound s) (j : Job) : OrdersSound (doAdmissionCompletion j s) := by
  unfold Machine.doAdmissionCompletion
  split
  · exact h.commitAdmission ..
  · exact h.sendEngine _

theorem noFit (h : OrdersSound s) (ho : orderAt s i = some o') (x : Handle) (drop : Bool) (r : Reasons) :
    OrdersSound (noFit x i o drop r s) :=
  ite (fun _ => (h.cancelOrder ho _).sendEngine _) fun _ => h.sendEngine _

theorem doRefitComputation (h : OrdersSound s) (x oh : Handle) (serving : CTime) (room : Nat) (drop : Bool) :
    OrdersSound (doRefitComputation x oh serving room drop s) := by
  unfold Machine.doRefitComputation
  split
  · exact h.sendEngine _
  · have ho := orderAt_of_live ‹_›
    split
    · exact ite (fun _ => h.noFit ho ..) fun _ => h.setJob _
    · exact ite (fun _ => (h.wasteOrder ho).sendEngine _) fun _ => h.sendEngine _
    · exact ite (fun _ => (h.setOrder ho).sendEngine _) fun _ => h.sendEngine _

theorem doRefitCompletion (h : OrdersSound s) (j : Job) (oh : Handle) (drop : Bool) :
    OrdersSound (doRefitCompletion j oh drop s) := by
  unfold Machine.doRefitCompletion
  split
  · exact h.sendEngine _
  · have ho := orderAt_of_live ‹_›
    split
    · exact (h.swapOrder ho ..).sendEngine _
    · exact h.noFit ho ..

theorem doKitchenChange (h : OrdersSound s) (k cap carts : Nat) : OrdersSound (doKitchenChange k cap carts s) := by
  have h1 : OrdersSound (remark k ⟨cap, carts⟩ { s with planner := { s.planner with
      limits := s.planner.limits.set ⟨0, 0⟩ k ⟨cap, carts⟩ } }) := h.stay ⟨rfl, rfl⟩
  exact (ite (fun _ => h1.same) fun _ => h1 : OrdersSound (reportOvercommit k (markedKeys s k) _)).finish _ _

/-- One row of R102, tried on an order that is there. -/
theorem walkRow {row : Int → Nat → Order → State → State} {now : Int} (h : OrdersSound s)
    (hr : ∀ o, orderAt s i = some o → OrdersSound (row now i o s)) : OrdersSound (walkRow row now i s) := by
  unfold Machine.walkRow
  split
  · exact hr _ ‹_›
  · exact h

theorem walkOrder (h : OrdersSound s) (i : Nat) : OrdersSound (walkOrder i s) := by
  have h1 := h.walkRow (row := walkWasted) (now := plannerIdx s) (i := i) fun _ ho =>
    ite (fun _ => h.freeOrder ho ..) fun _ => h
  have h2 := h1.walkRow (row := walkProduction) (now := plannerIdx s) (i := i) fun _ ho =>
    ite (fun _ => h1.advanceOrder ho ..) fun _ => h1
  have h3 := h2.walkRow (row := walkDispatch) (now := plannerIdx s) (i := i) fun _ ho =>
    ite (fun _ => h2.advanceOrder ho ..) fun _ => h2
  have h4 := h3.walkRow (row := walkUnconfirmed) (now := plannerIdx s) (i := i) fun _ ho =>
    ite (fun _ => (h3.setOrder ho).postEvent _) fun _ => h3
  exact h4.walkRow fun _ ho => ite (fun _ => h4.freeOrder ho ..) fun _ => h4

theorem doPlannerBoundary (h : OrdersSound s) (b : Boundary) : OrdersSound (doPlannerBoundary b s) := by
  have h1 : OrdersSound (setPlannerNow b.now s) := h.stay ⟨rfl, rfl⟩
  have h2 : OrdersSound (clearPastMarks (setPlannerNow b.now s)) := h1.foldl (fun _ _ h => h.loadOnly (.modifyCell ..)) _
  have h3 : OrdersSound (clearSlice b (clearPastMarks (setPlannerNow b.now s))) :=
    ite (fun _ => h2.stay ⟨rfl, rfl⟩) fun _ => h2
  exact h3.foldl (fun _ _ h => h.foldl (fun _ _ h => h.walkOrder _) _) _

theorem doRoomNotice (h : OrdersSound s) (x : Handle) (room : Nat) : OrdersSound (doRoomNotice x room s) := by
  unfold Machine.doRoomNotice
  split
  · exact h.setOrder (orderAt_of_live ‹_›)
  · exact h

theorem doCateringReceived (h : OrdersSound s) (src : PanelSrc) (room : Nat) (badge : Token) :
    OrdersSound (doCateringReceived src room badge s) := by
  unfold Machine.doCateringReceived
  split
  · rename_i i o hc
    have ho := (mem_allOrders.1 (chosenOrder_mem hc)).2
    exact ite (fun _ => ((h.postEvent _).deliverOrder (o' := o) (by simpa [orderAt, orderRecord] using ho)).answerPanel ..)
      fun _ => h.answerPanel ..
  · exact h.answerPanel ..

theorem doConfirmDelivery (h : OrdersSound s) (x : Handle) : OrdersSound (doConfirmDelivery x s) := by
  unfold Machine.doConfirmDelivery
  split
  · exact h.refuseOrder _
  · exact h.refuseOrder _
  · exact ite (fun _ => (h.deliverOrder (orderAt_of_live ‹_›)).finish _ _) fun _ => h.refuseOrder _

theorem replyCancel (h : OrdersSound s) (x : Handle) (o : Order) (body : List Field) :
    OrdersSound (replyCancel x o body s) :=
  ite (fun _ => h.same) fun _ => h.finish _ _

theorem doCancelOrder (h : OrdersSound s) (x : Handle) : OrdersSound (doCancelOrder x s) := by
  unfold Machine.doCancelOrder
  split
  · exact h.refuseOrder _
  · exact h.refuseOrder _
  · have ho := orderAt_of_live ‹_›
    split
    · exact (h.cancelOrder ho _).replyCancel ..
    · exact (h.wasteOrder ho).replyCancel ..
    · exact h.refuseOrder _

theorem doBookingHandoff (h : OrdersSound s) (x booking : Handle) (kind : HandoffKind) :
    OrdersSound (doBookingHandoff x booking kind s) := by
  unfold Machine.doBookingHandoff
  split
  · exact h
  · have ho := orderAt_of_live ‹_›
    dsimp only
    split
    · exact h.cancelOrder ho _
    · exact h.cancelOrder ho _
    · exact h.wasteOrder ho
    · exact h.wasteOrder ho
    · exact h.setOrder ho

theorem doQueryOrder (h : OrdersSound s) (x : Handle) : OrdersSound (doQueryOrder x s) := by
  unfold Machine.doQueryOrder
  split <;> exact h.finish _ _

theorem doReadLoad (h : OrdersSound s) (k : Nat) (first : CTime) (n : Nat) : OrdersSound (doReadLoad k first n s) :=
  ite (fun _ => h.finish _ _) fun _ => ite (fun _ => h.finish _ _) fun _ => ite (fun _ => h.finish _ _) fun _ =>
    h.finish _ _

theorem doReadProduction (h : OrdersSound s) (k : Nat) (c : Option (CTime × Nat)) (n : Nat) :
    OrdersSound (doReadProduction k c n s) :=
  ite (fun _ => h.finish _ _) fun _ => h.finish _ _

end OrdersSound

/-! ### Work that leaves the pool -/

namespace OrdersStay

variable {s t u : State}

theorem of_planner (h : t.planner = s.planner := by simp) : OrdersStay s t := ⟨by rw [h], by rw [h]⟩

theorem trans (h : OrdersStay s t) (h' : OrdersStay t u) : OrdersStay s u := ⟨h'.1.trans h.1, h'.2.trans h.2⟩

/-- Work that joins the planner's intake. -/
theorem of_gained (h : PlannerGained s t) : OrdersStay s t := by
  obtain ⟨ws, hw⟩ := h
  exact ⟨by rw [hw], by rw [hw]⟩

theorem ite {p : Prop} [Decidable p] (h : OrdersStay s t) (h' : OrdersStay s u) :
    OrdersStay s (if p then t else u) := by
  split
  · exact h
  · exact h'

theorem finishThen {f : State → State} (hf : ∀ u, (f u).planner = u.planner) (r : Result) (body : List Field)
    (s : State) : OrdersStay s (finishThen r body f s) := by
  refine of_planner ?_
  unfold Machine.finishThen
  split
  · rfl
  · exact hf _

theorem of_takePlanner {w : PlannerWork} (h : takePlanner w s = some t) : OrdersStay s t := by
  obtain ⟨_, _, rest, _, rfl⟩ := takePlanner_eq_some.1 h
  exact ⟨rfl, rfl⟩

theorem of_takeHost {r : HostRequest} (h : takeHost r s = some t) : OrdersStay s t := by
  obtain ⟨v, hv, rfl⟩ := Option.map_eq_some_iff.1 h
  change OrdersStay s v
  unfold takeFromOwner at hv
  split at hv
  · split at hv
    · cases hv; exact of_planner
    · cases hv
  · obtain ⟨_, rest, _, rfl⟩ := takeEngine_eq_some.1 hv; exact of_planner
  · exact of_takePlanner hv
  · obtain ⟨_, rest, _, rfl⟩ := takeLine_eq_some.1 hv; exact of_planner

/-- A step that takes a host request whose work leaves the pool. -/
theorem of_hostStep {r : HostRequest} {run : State → State} (h : hostStep r run s = .next t)
    (hr : ∀ u, OrdersStay u (run u)) : OrdersStay s t := by
  unfold hostStep at h
  cases ho : takeHost r s with
  | none => rw [ho] at h; cases h; exact of_planner
  | some u => rw [ho] at h; cases h; exact (of_takeHost ho).trans (hr u)

theorem of_lineRequest {n : Nat} (hl : lineOf? n = none) (run : Fin 4 → State → State) (s : State) :
    OrdersStay s (lineRequest n run s) := by
  unfold lineRequest
  rw [hl]
  exact of_planner

/-! ### The clock -/

theorem enterQuantum (s : State) : OrdersStay s (enterQuantum s) := by
  unfold Machine.enterQuantum
  split <;> exact ⟨rfl, rfl⟩

theorem settleClock (s : State) : OrdersStay s (settleClock s) := by
  have h1 : OrdersStay s (resumeDue s) := by unfold resumeDue; split <;> exact ⟨rfl, rfl⟩
  exact h1.trans (List.foldlRecOn (motive := OrdersStay (resumeDue s)) _ _ ⟨rfl, rfl⟩
    fun u hu _ _ => hu.trans (enterQuantum u))

theorem trimForward (k : Counting) (s : State) : OrdersStay s (trimForward k s) := by
  rw [trimForward_eq]
  exact ite (settleClock (setCount k s)) (settleClock (setCount k s))

theorem replyClock (r : Result) (s : State) : OrdersStay s (replyClock r s) := of_planner (by simp [Machine.replyClock])

theorem doSetClock (d q m : Nat) (s : State) : OrdersStay s (doSetClock d q m s) := by
  have hheld : ∀ x k u, OrdersStay u (reportHeld x k u) := fun _ _ _ => of_planner (by simp [reportHeld])
  have hcount : ∀ k, OrdersStay s (setCount k s) := fun k => of_planner rfl
  have hhold : ∀ x k, OrdersStay s (holdClock x k s) := fun x k => hheld x k { s with clock :=
    { s.clock with state := .held, count := some k, held := some x } }
  refine ite (replyClock ..) ?_
  dsimp only
  split
  · exact ite (replyClock ..) (ite (replyClock ..) (ite ((trimForward ..).trans (replyClock ..))
      (ite ((hcount _).trans (replyClock ..)) ((hhold ..).trans (replyClock ..)))))
  · exact ite (replyClock ..) (ite (replyClock ..) (ite ((trimForward ..).trans (replyClock ..))
      (ite (replyClock ..) (((hcount _).trans (hheld ..)).trans (replyClock ..)))))
  · exact trans (t := startClock ⟨⟨d, q⟩, m⟩ s) ⟨rfl, rfl⟩ (replyClock ..)

/-! ### The host link -/

theorem handTo (r : HostRequest) (s : State) : OrdersStay s (handTo r s) := by
  unfold Machine.handTo
  split <;> exact ⟨rfl, rfl⟩

theorem takeFrame (f : Frame) (s : State) : OrdersStay s (takeFrame f s) := by
  unfold Machine.takeFrame
  split
  · exact of_planner rfl
  · dsimp only
    split
    · exact of_planner rfl
    · exact of_planner rfl
    · exact handTo ..

theorem reportFrame (s : State) : OrdersStay s (reportFrame s) := by
  unfold Machine.reportFrame
  dsimp only
  split <;> exact of_planner

theorem doHostByte (b : Byte) (stop : Bool) (s : State) : OrdersStay s (doHostByte b stop s) := by
  have hhunt : ∀ u : State, OrdersStay u (huntByte b stop u) := fun u => ite (of_planner rfl) (of_planner rfl)
  unfold Machine.doHostByte
  split
  · exact hhunt s
  · split
    · exact hhunt _
    · unfold frameByte endFrame
      dsimp only
      split_ifs <;> exact of_planner rfl

theorem doLoadRoomEngineCheck (room : Nat) (e : RoomSpec) (s : State) :
    OrdersStay s (doLoadRoomEngineCheck room e s) := by
  unfold Machine.doLoadRoomEngineCheck
  split
  · exact of_planner
  · split
    · exact of_planner
    · rename_i x _ _ _
      have h1 : (displayLoad room (roomAt s room) x (dropLastEnd room x (setRoom room x s))).planner = s.planner := by
        rw [displayLoad_eq]
        unfold dropLastEnd
        split <;> rfl
      exact trans (of_planner h1) of_planner

end OrdersStay

/-! ### Every command -/

variable {c : Instr} {s t : State}

/-- A step of planner work keeps the pool when the work does. -/
theorem OrdersSound.plannerStep {w : PlannerWork} {run : State → State} (h : OrdersSound s)
    (hr : ∀ {u}, OrdersSound u → OrdersSound (run u)) (he : whenTaken (takePlanner w s) run s = .next t) :
    OrdersSound t := by
  cases ho : takePlanner w s with
  | none => rw [ho] at he; cases he; exact h
  | some u => rw [ho] at he; cases he; exact hr (h.stay (.of_takePlanner ho))

theorem OrdersSound.hostStep {r : HostRequest} {run : State → State} (h : OrdersSound s)
    (he : hostStep r run s = .next t) (hr : ∀ {u}, OrdersSound u → OrdersSound (run u)) : OrdersSound t := by
  unfold Machine.hostStep at he
  cases ho : takeHost r s with
  | none => rw [ho] at he; cases he; exact h
  | some u => rw [ho] at he; cases he; exact hr (h.stay (.of_takeHost ho))

/-- A command of the Catering Planner keeps the pool. -/
theorem exec_planner_orders (hc : isPlannerWork c = true) (hs : OrdersSound s) (h : exec c s = .next t) :
    OrdersSound t := by
  cases c with
  | roomNotice => exact hs.plannerStep (fun h => h.doRoomNotice ..) h
  | admissionComputation => exact hs.plannerStep (fun h => h.doAdmissionComputation ..) h
  | admissionCompletion =>
    simp only [exec, execAdmissionCompletion] at h
    split at h
    · split at h <;> cases h
      exacts [(hs.setJob none).doAdmissionCompletion _, hs]
    · cases h; exact hs
  | refitComputation => exact hs.plannerStep (fun h => h.doRefitComputation ..) h
  | refitCompletion =>
    simp only [exec, execRefitCompletion] at h
    split at h
    · split at h <;> cases h
      exacts [(hs.setJob none).doRefitCompletion .., hs]
    · cases h; exact hs
  | queryOrder => exact hs.hostStep h fun h => h.doQueryOrder ..
  | cancelOrder => exact hs.hostStep h fun h => h.doCancelOrder ..
  | confirmDelivery => exact hs.hostStep h fun h => h.doConfirmDelivery ..
  | readLoad => exact hs.hostStep h fun h => h.doReadLoad ..
  | readProduction => exact hs.hostStep h fun h => h.doReadProduction ..
  | kitchenChange => exact hs.plannerStep (fun h => h.doKitchenChange ..) h
  | bookingHandoff => exact hs.plannerStep (fun h => h.doBookingHandoff ..) h
  | plannerBoundaryWork => exact hs.plannerStep (fun h => h.doPlannerBoundary ..) h
  | cateringReceived => exact hs.plannerStep (fun h => h.doCateringReceived ..) h
  | _ => cases hc

/-- A command that is neither the planner's nor a reset leaves the pool. -/
theorem exec_ordersStay (hp : isPlannerWork c = false) (hr : isReset c = false) (h : exec c s = .next t) :
    OrdersStay s t := by
  by_cases he : isEngineWork c = true
  · exact .of_gained ((exec_writes_engine he h).planner nofun)
  cases hw : lineOfWork c with
  | some l => exact .of_gained ((exec_writes_line hw h).planner nofun)
  | none =>
    cases c with
    | identify => exact .of_hostStep h fun _ => .of_planner
    | readPolicy => exact .of_hostStep h fun _ => .of_planner
    | getStatus n => exact .of_hostStep h fun u => by unfold doGetStatus; split_ifs <;> exact .of_planner
    | readReports q n =>
      exact .of_hostStep h fun u =>
        .ite (.finishThen (f := clearOvf) (fun _ => rfl) _ _ (removeEvents n u)) <|
          .ite (.finishThen (f := clearOvf) (fun _ => rfl) _ _ (removeExceptions n u)) .of_planner
    | readCounters n =>
      exact .of_hostStep h fun u => .ite .of_planner (.finishThen (fun v => by split <;> rfl) _ _ u)
    | reset a b => exact .of_hostStep h fun u => by unfold doReset; split <;> exact .of_planner
    | setPolicy p => exact .of_hostStep h fun u => by unfold doSetPolicy; split <;> exact .of_planner
    | loadKitchen k e =>
      exact .of_hostStep h fun u => by unfold doLoadKitchen; split <;> [exact ⟨rfl, rfl⟩; exact .of_planner]
    | loadDistance k b x => exact .of_hostStep h fun u => by unfold doLoadDistance; split <;> exact .of_planner
    | loadMenuClass a w l n => exact .of_hostStep h fun u => by unfold doLoadMenuClass; split <;> exact .of_planner
    | loadRoom room e => exact .of_hostStep h fun u => by unfold doLoadRoom; split <;> exact .of_planner
    | readRoom => exact .of_hostStep h fun _ => .ite .of_planner .of_planner
    | readKitchen => exact .of_hostStep h fun _ => .ite .of_planner .of_planner
    | readDistance => exact .of_hostStep h fun _ => .ite .of_planner .of_planner
    | readMenuClass => exact .of_hostStep h fun _ => .ite .of_planner .of_planner
    | startChain => exact .of_hostStep h (.of_lineRequest hw _)
    | stopChain => exact .of_hostStep h (.of_lineRequest hw _)
    | chainMode => exact .of_hostStep h fun u => .ite .of_planner (.of_lineRequest hw _ u)
    | clearPanelFault => exact .of_hostStep h fun u => .ite (.of_lineRequest hw _ u) .of_planner
    | readChain => exact .of_hostStep h (.of_lineRequest hw _)
    | readPosition => exact .of_hostStep h fun u => .ite (.of_lineRequest hw _ u) .of_planner
    | readLineHealth => exact .of_hostStep h (.of_lineRequest hw _)
    | setClock d q m => exact .of_hostStep h fun u => (OrdersStay.settleClock u).trans (.doSetClock d q m _)
    | loadRoomEngineCheck room e =>
      simp only [exec, execLoadRoomEngineCheck] at h
      cases hu : takeEngine (.loadRoomCheck room e) s with
      | none => rw [hu] at h; cases h; exact .of_planner
      | some u =>
        rw [hu] at h
        cases h
        obtain ⟨_, rest, _, rfl⟩ := takeEngine_eq_some.1 hu
        exact .doLoadRoomEngineCheck room e { s with engine := { s.engine with intake := rest } }
    | hostByteReceived b stop =>
      simp only [exec, execHostByteReceived] at h
      split at h <;> cases h
      exacts [.doHostByte b stop s, .of_planner]
    | interByteGapExpiry =>
      simp only [exec, execInterByteGapExpiry] at h
      split at h <;> cases h <;> exact .of_planner rfl
    | validFrame f =>
      simp only [exec, execValidFrame] at h
      cases hu : nextFrame f s with
      | none => rw [hu] at h; cases h; exact .of_planner
      | some u =>
        rw [hu] at h
        cases h
        obtain ⟨_, _, _, rest, _, rfl⟩ := nextFrame_eq_some.1 hu
        exact (OrdersStay.reportFrame { s with link := { s.link with frames := rest, trimmed := none } }).trans
          (.takeFrame ..)
    | supervisionTimerExpiry =>
      simp only [exec, execSupervisionTimerExpiry, doSupervisionExpiry] at h
      split at h <;> cases h
      · split_ifs <;> exact .of_planner
      · exact .of_planner
    | scanStepExpiry =>
      simp only [exec, execScanStepExpiry] at h
      split at h <;> cases h <;> exact .of_planner rfl
    | timebaseTick =>
      simp only [exec, execTimebaseTick] at h
      split at h <;> cases h <;> exact .of_planner rfl
    | quantumEntry =>
      simp only [exec, execQuantumEntry] at h
      split at h <;> cases h
      exacts [.enterQuantum s, .of_planner]
    | heldQuantumReached =>
      simp only [exec, execHeldQuantumReached] at h
      split at h <;> cases h <;> exact .of_planner rfl
    | _ => simp_all [isEngineWork, isPlannerWork, lineOfWork, isReset]

/-- A reset brings the pool of power-on, or leaves it (R181, R182). -/
theorem exec_reset_orders (hr : isReset c = true) (hs : OrdersSound s) (h : exec c s = .next t) : OrdersSound t := by
  have hp : ∀ p k rate, OrdersSound (powerOnValues p k rate s) := fun p k rate =>
    OrdersSound.same (s := State.reset) ⟨Table.empty_wf _, reset_orderPool⟩ rfl
  cases c with
  | powerOn => cases h; exact hp ..
  | supplyLowReset =>
    simp only [exec, execSupplyLowReset] at h
    split at h <;> cases h
    exacts [hp .., hs.same rfl, hs, hs]
  | supplyRestored =>
    simp only [exec, execSupplyRestored] at h
    split at h <;> cases h
    exacts [hs.same rfl, hs, hs, hs]
  | crystalStable =>
    simp only [exec, execCrystalStable] at h
    split at h <;> cases h
    exacts [hp .., hs, hs, hs]
  | resetTakesEffect =>
    simp only [exec, execResetTakesEffect] at h
    split at h <;> cases h
    exacts [hp .., hs.stay ⟨rfl, rfl⟩, hs]
  | _ => cases hr

/-- Every command keeps the pool. -/
theorem exec_orders (hs : OrdersSound s) (h : exec c s = .next t) : OrdersSound t := by
  cases hp : isPlannerWork c with
  | true => exact exec_planner_orders hp hs h
  | false =>
    cases hr : isReset c with
    | true => exact exec_reset_orders hr hs h
    | false => exact hs.stay (exec_ordersStay hp hr h)

end Sys2Proof.Machine

section Statements

open Sys2Proof Sys2Proof.Machine

/-- Settles O50: the planner's operations write the records of orders, give the head of the free list an order or free
an order; every other command leaves the pool or resets it. -/
theorem orderPoolStaysExact : Obligations.OrderPoolStaysExact := by
  intro s t hs hpool h
  refine ⟨(step_keeps h).1.tables hs, ?_⟩
  unfold step at h
  split at h
  · cases h
    exact hpool
  · rename_i rest _
    have hw : OrdersSound (s.withPending rest) := OrdersSound.same (s := s) ⟨hs.orderRecords, hpool⟩ rfl
    exact (exec_orders hw h).pool

end Statements
end

