-- ==== Sys2Proof/Proofs/Search.lean ====
section
/-! PROOFS. The search for a placement: the valid shifts of a kitchen, the first that fits, and the reason and deficit of
a kitchen that gives none (R86 to R89, R92, R93). -/

namespace Sys2Proof.Machine

/-! ### Lists -/

/-- On a list along which a test, once failed, stays failed, the longest passing front part is all that passes. -/
theorem takeWhile_eq_filter {α : Type} {p : α → Bool} : ∀ {l : List α}, l.Pairwise (fun a b => p b = true → p a = true) →
    l.takeWhile p = l.filter p
  | [], _ => rfl
  | a :: l, h => by
    obtain ⟨hhead, htail⟩ := List.pairwise_cons.1 h
    by_cases ha : p a = true
    · rw [List.takeWhile_cons_of_pos ha, List.filter_cons_of_pos ha, takeWhile_eq_filter htail]
    · rw [List.takeWhile_cons_of_neg ha, List.filter_cons_of_neg ha, eq_comm, List.filter_eq_nil_iff]
      exact fun b hb hpb => ha (hhead b hb hpb)

section Extremes

variable {α : Type} [LinearOrder α]

/-- A fold by `min` gives the least of a list and a bound. -/
theorem foldl_min_least : ∀ (xs : List α) (a : α),
    (xs.foldl min a = a ∨ xs.foldl min a ∈ xs) ∧ xs.foldl min a ≤ a ∧ ∀ x ∈ xs, xs.foldl min a ≤ x
  | [], a => ⟨.inl rfl, le_rfl, nofun⟩
  | x :: xs, a => by
    obtain ⟨hmem, hle, hall⟩ := foldl_min_least xs (min a x)
    rw [List.foldl_cons]
    refine ⟨?_, hle.trans (min_le_left a x), fun y hy => ?_⟩
    · rcases hmem with he | hm
      · rw [he]
        rcases min_choice a x with h | h <;> rw [h] <;> simp
      · exact .inr (List.mem_cons_of_mem x hm)
    · rcases List.mem_cons.1 hy with rfl | hy
      · exact hle.trans (min_le_right a y)
      · exact hall y hy

/-- A fold by `max` gives the greatest of a list and a bound. -/
theorem foldl_max_greatest (xs : List α) (a : α) :
    (xs.foldl max a = a ∨ xs.foldl max a ∈ xs) ∧ a ≤ xs.foldl max a ∧ ∀ x ∈ xs, x ≤ xs.foldl max a :=
  foldl_min_least (α := αᵒᵈ) xs a

end Extremes

/-! ### Shares (R86) -/

theorem sum_share (P n : Nat) : ∀ m : Nat, ((List.range m).map (share P n)).sum = m * (P / n) + min m (P % n)
  | 0 => by simp
  | m + 1 => by
    rw [List.range_succ, List.map_append, List.sum_append, sum_share P n m, Nat.succ_mul]
    simp only [share, List.map_cons, List.map_nil, List.sum_cons, List.sum_nil]
    split <;> omega

/-- The shares of a window of positive length sum to the load. -/
theorem sum_share_window (P : Nat) {n : Nat} (hn : 0 < n) : ((List.range n).map (share P n)).sum = P := by
  rw [sum_share, min_eq_right (Nat.mod_lt P hn).le, Nat.div_add_mod]

/-! ### What fits a kitchen (R87, R88) -/

variable {s : State} {own : Option Order} {j : Job} {k n smax : Nat} {d w : Int}

theorem inOpening_iff {e : KitchenSpec} : inOpening e w n = true ↔
    ∀ i, i < n → (e.openFrom : Int) ≤ (w + i) % 288 ∧ (w + i) % 288 < e.openTo := by
  simp [inOpening, windowQuanta]

theorem windowFits_iff {load : Nat} : windowFits s own k load n w = true ↔ ∀ i, i < n →
    (readCell s own k (w + i)).mark = false ∧
    (readCell s own k (w + i)).prep + share load n i ≤ (limitsAt s k).capacity := by
  simp [windowFits]

theorem cartFeasible_iff {T : Nat} : cartFeasible s own k d T = true ↔ ∀ q : Int, d ≤ q → q ≤ d + 2 * T + 1 →
    q ≤ 2303 ∧ (readCell s own k q).mark = false ∧ (readCell s own k q).carts + 1 ≤ (limitsAt s k).carts := by
  simp only [cartFeasible, List.all_eq_true, mem_cartQuanta, Bool.and_eq_true, decide_eq_true_eq, Bool.not_eq_true',
    and_assoc, and_imp]

/-- The shifts examined are those that begin after now, later ones beginning earlier (R87, R89). -/
theorem examined_eq (s : State) (d : Int) (n smax : Nat) : examined s d n smax =
    (List.range (smax + 1)).filter (fun (sh : Nat) => decide (plannerIdx s < d - sh - n)) := by
  refine takeWhile_eq_filter (List.pairwise_lt_range.imp fun {a b} hab hb => ?_)
  rw [decide_eq_true_eq] at hb ⊢
  omega

/-- A shift is valid when it is within the largest, begins after now and lies in the opening (R87). -/
theorem mem_validShifts {sh : Nat} : sh ∈ validShifts s k d n smax ↔
    sh ≤ smax ∧ plannerIdx s < d - sh - n ∧ inOpening (kitchenAt s k) (d - sh - n) n = true := by
  rw [validShifts, examined_eq]
  simp only [List.mem_filter, List.mem_range, Nat.lt_succ_iff, decide_eq_true_eq, and_assoc]

/-- The first valid shift that fits is the least. -/
theorem find?_validShifts {f : Nat → Bool} {sh : Nat} (h : (validShifts s k d n smax).find? f = some sh) :
    sh ∈ validShifts s k d n smax ∧ f sh = true ∧ ∀ x, x < sh → x ∈ validShifts s k d n smax → f x = false := by
  refine ⟨List.mem_of_find?_eq_some h, List.find?_some h, fun x hx hmem => ?_⟩
  rw [validShifts, examined_eq, List.find?_filter, List.find?_filter, List.find?_range_eq_some] at h
  obtain ⟨-, -, hbefore⟩ := h
  have hno := hbefore x hx
  obtain ⟨-, hafter, hopen⟩ := mem_validShifts.1 hmem
  simpa [hafter, hopen] using hno

/-- A placement fits when its shift begins after now and in the opening, its window fits and its carts are free. -/
theorem fitsAt_iff {T sh : Nat} (hd : d = pidx s j.serving - T - 1) : FitsAt s own j k T sh ↔
    plannerIdx s < d - sh - j.len ∧ inOpening (kitchenAt s k) (d - sh - j.len) j.len = true ∧
    windowFits s own k j.load j.len (d - sh - j.len) = true ∧ cartFeasible s own k d T = true := by
  rw [inOpening_iff, windowFits_iff, cartFeasible_iff, hd]
  exact ⟨fun ⟨h1, h2, h3⟩ => ⟨h1, fun i hi => ⟨(h2 i hi).1, (h2 i hi).2.1⟩, fun i hi => (h2 i hi).2.2, h3⟩,
    fun ⟨h1, h2, h3, h4⟩ => ⟨h1, fun i hi => ⟨(h2 i hi).1, (h2 i hi).2, h3 i hi⟩, h4⟩⟩

/-! ### The deficit of PREP (R93) -/

/-- The largest excess of a window that does not fit is the excess of one of its quanta, and at least 1. -/
theorem shiftExcess_spec {load : Nat} (h : windowFits s own k load n w = false) :
    1 ≤ shiftExcess s own k load n w ∧ (∃ i, i < n ∧ shiftExcess s own k load n w = excess s own k load n w i) ∧
    ∀ i, i < n → excess s own k load n w i ≤ shiftExcess s own k load n w := by
  obtain ⟨hmem, _, hall⟩ := foldl_max_greatest ((List.range n).map (excess s own k load n w)) (-255)
  have hle : ∀ i, i < n → excess s own k load n w i ≤ shiftExcess s own k load n w := fun i hi =>
    hall _ (List.mem_map.2 ⟨i, List.mem_range.2 hi, rfl⟩)
  have hpos : ∃ i, i < n ∧ 1 ≤ excess s own k load n w i := by
    by_contra hno
    refine absurd (windowFits_iff.2 fun i hi => ?_) (by rw [h]; decide)
    have hlow : ¬ 1 ≤ excess s own k load n w i := fun h1 => hno ⟨i, hi, h1⟩
    unfold excess at hlow
    dsimp only at hlow
    split at hlow
    · omega
    · rename_i hmark
      exact ⟨by simpa using hmark, by omega⟩
  obtain ⟨i, hi, h1⟩ := hpos
  have hshift := h1.trans (hle i hi)
  refine ⟨hshift, ?_, hle⟩
  rcases hmem with he | hm
  · have he : shiftExcess s own k load n w = -255 := he
    omega
  · obtain ⟨i, hi, he⟩ := List.mem_map.1 hm
    exact ⟨i, List.mem_range.1 hi, he.symm⟩

/-- The deficit of a kitchen whose valid shifts all fail to fit: the least of their largest excesses, at most 4095. -/
theorem prepDeficit_spec {load : Nat} {shifts : List Nat}
    (h : ∀ sh ∈ shifts, windowFits s own k load n (d - sh - n) = false) :
    1 ≤ prepDeficit s own k load n d shifts ∧ prepDeficit s own k load n d shifts ≤ 4095 ∧
    (∀ sh ∈ shifts, ∃ i, i < n ∧ (prepDeficit s own k load n d shifts : Int) ≤ excess s own k load n (d - sh - n) i) ∧
    (prepDeficit s own k load n d shifts = 4095 ∨
      ∃ sh ∈ shifts, ∀ i, i < n → excess s own k load n (d - sh - n) i ≤ prepDeficit s own k load n d shifts) := by
  obtain ⟨hmem, htop, hall⟩ := foldl_min_least
    (shifts.map (fun (sh : Nat) => shiftExcess s own k load n (d - sh - n))) 4095
  obtain ⟨m, hm⟩ : ∃ m, m = (shifts.map (fun (sh : Nat) => shiftExcess s own k load n (d - sh - n))).foldl min 4095 :=
    ⟨_, rfl⟩
  have hdef : prepDeficit s own k load n d shifts = m.toNat := by rw [hm]; rfl
  rw [← hm] at hmem htop hall
  have hone : 1 ≤ m := by
    rcases hmem with he | he
    · omega
    · obtain ⟨sh, hsh, rfl⟩ := List.mem_map.1 he
      exact (shiftExcess_spec (h sh hsh)).1
  rw [hdef]
  refine ⟨by omega, by omega, fun sh hsh => ?_, ?_⟩
  · obtain ⟨_, ⟨i, hi, he⟩, _⟩ := shiftExcess_spec (h sh hsh)
    have hle := hall _ (List.mem_map.2 ⟨sh, hsh, rfl⟩)
    exact ⟨i, hi, by omega⟩
  · rcases hmem with he | he
    · exact .inl (by omega)
    · obtain ⟨sh, hsh, he⟩ := List.mem_map.1 he
      refine .inr ⟨sh, hsh, fun i hi => ?_⟩
      have hle := (shiftExcess_spec (h sh hsh)).2.2 i hi
      omega

/-! ### One kitchen tried -/

/-- A placement found on a kitchen: its first shift that fits. -/
theorem tryKitchen_placed {building : Nat} {p : Placement} (h : tryKitchen s own building j k = .placed p) :
    p.kitchen = k ∧ transitAt s k building = some p.transit ∧ p.departure = pidx s j.serving - p.transit - 1 ∧
    p.window = p.departure - p.shift - j.len ∧ p.shift ≤ j.smax ∧ FitsAt s own j k p.transit p.shift ∧
    ∀ sh, sh < p.shift → ¬ FitsAt s own j k p.transit sh := by
  unfold tryKitchen at h
  split at h
  · cases h
  · rename_i T hT
    dsimp only at h
    split_ifs at h with hlate hclosed hcarts
    split at h
    · rename_i sh hfind
      cases h
      obtain ⟨hmem, hfits, hleast⟩ := find?_validShifts hfind
      obtain ⟨hle, hafter, hopen⟩ := mem_validShifts.1 hmem
      have hc : cartFeasible s own k (pidx s j.serving - T - 1) T = true := by simpa using hcarts
      refine ⟨rfl, hT, rfl, rfl, hle, (fitsAt_iff rfl).2 ⟨hafter, hopen, hfits, hc⟩, fun x hx hfit => ?_⟩
      obtain ⟨hafter', hopen', hwin', _⟩ := (fitsAt_iff rfl).1 hfit
      have hno := hleast x hx (mem_validShifts.2 ⟨(hx.trans_le hle).le, hafter', hopen'⟩)
      rw [hwin'] at hno
      cases hno
    · cases h

/-- Why a kitchen that is reached, at departure `d`, gives no placement: the first of its tests that fails (R92). -/
inductive FailedAt (s : State) (own : Option Order) (j : Job) (k T : Nat) (d : Int) : Reason → Nat → Prop
  | tooLate (late : d - j.len ≤ plannerIdx s) : FailedAt s own j k T d .tooLate 0
  | closed (early : ¬ d - j.len ≤ plannerIdx s) (none : validShifts s k d j.len j.smax = []) :
    FailedAt s own j k T d .closed 0
  | carts (early : ¬ d - j.len ≤ plannerIdx s) (some : ∃ sh, sh ∈ validShifts s k d j.len j.smax)
    (busy : cartFeasible s own k d T = false) : FailedAt s own j k T d .carts 0
  | prep (early : ¬ d - j.len ≤ plannerIdx s) (some : ∃ sh, sh ∈ validShifts s k d j.len j.smax)
    (free : cartFeasible s own k d T = true)
    (full : ∀ sh ∈ validShifts s k d j.len j.smax, windowFits s own k j.load j.len (d - sh - j.len) = false) :
    FailedAt s own j k T d .prep (prepDeficit s own k j.load j.len d (validShifts s k d j.len j.smax))

theorem tryKitchen_failed {building : Nat} {r : Reason} {deficit : Nat}
    (h : tryKitchen s own building j k = .failed r deficit) :
    (transitAt s k building = none ∧ r = .unreachable ∧ deficit = 0) ∨
    ∃ T, transitAt s k building = some T ∧ FailedAt s own j k T (pidx s j.serving - T - 1) r deficit := by
  unfold tryKitchen at h
  split at h
  next hT =>
    cases h
    exact .inl ⟨hT, rfl, rfl⟩
  next T hT =>
    refine .inr ⟨T, hT, ?_⟩
    dsimp only at h
    split_ifs at h with hlate hclosed hcarts
    · cases h
      exact .tooLate hlate
    · cases h
      exact .closed hlate hclosed
    · cases h
      exact .carts hlate (List.exists_mem_of_ne_nil _ hclosed) (by simpa using hcarts)
    · split at h
      next => cases h
      next hnone =>
        cases h
        exact .prep hlate (List.exists_mem_of_ne_nil _ hclosed) (by simpa using hcarts) fun sh hsh => by
          simpa using List.find?_eq_none.1 hnone sh hsh

/-- Where a test fails, no shift fits. -/
theorem FailedAt.not_fitsAt {T sh : Nat} {r : Reason} {deficit : Nat} (h : FailedAt s own j k T d r deficit)
    (hd : d = pidx s j.serving - T - 1) (hle : sh ≤ j.smax) : ¬ FitsAt s own j k T sh := by
  intro hfit
  obtain ⟨hafter, hopen, hwindow, hcart⟩ := (fitsAt_iff hd).1 hfit
  have hvalid := mem_validShifts.2 ⟨hle, hafter, hopen⟩
  cases h with
  | tooLate late => omega
  | closed _ none =>
    rw [none] at hvalid
    cases hvalid
  | carts _ _ busy =>
    rw [hcart] at busy
    cases busy
  | prep _ _ _ full =>
    have hno := full sh hvalid
    rw [hwindow] at hno
    cases hno

/-- A cart span with a quantum that is past the horizon, marked or without a cart is not free. -/
theorem cartFeasible_of_bad {T : Nat} {q : Int} (h0 : d ≤ q) (h1 : q ≤ d + 2 * T + 1) (hbad : 2303 < q ∨
    (readCell s own k q).mark = true ∨ (limitsAt s k).carts < (readCell s own k q).carts + 1) :
    cartFeasible s own k d T = false := by
  by_contra hfree
  obtain ⟨hin, hmark, hcarts⟩ := cartFeasible_iff.1 (by simpa using hfree) q h0 h1
  rcases hbad with hb | hb | hb
  · omega
  · rw [hmark] at hb
    cases hb
  · omega

/-- The reason given is the first of R92 that holds, with the deficit of R93. -/
theorem FailedAt.refusedFor {building T : Nat} {r : Reason} {deficit : Nat} (h : FailedAt s own j k T d r deficit)
    (hT : transitAt s k building = some T) (hd : d = pidx s j.serving - T - 1) :
    RefusedFor s own j building k r deficit := by
  unfold RefusedFor
  rw [hT]
  intro dep valid exc hdep hv hexc
  rw [← hd] at hdep
  subst hdep
  obtain rfl : valid = (· ∈ validShifts s k dep j.len j.smax) := funext fun sh => propext <| by
    rw [hv, mem_validShifts, inOpening_iff]
  obtain rfl : exc = fun (sh : Nat) i => excess s own k j.load j.len (dep - sh - j.len) i := funext₂ fun sh i =>
    hexc sh i _ _ rfl rfl
  cases h with
  | tooLate late =>
    have hnone : ∀ sh, sh ∉ validShifts s k dep j.len j.smax := fun sh hsh => by
      obtain ⟨_, hafter, _⟩ := mem_validShifts.1 hsh
      omega
    exact ⟨fun _ => ⟨rfl, rfl⟩, fun early => absurd late (by omega), fun ⟨sh, hsh⟩ => absurd hsh (hnone sh),
      fun ⟨sh, hsh⟩ => absurd hsh (hnone sh)⟩
  | closed early none =>
    have hnone : ∀ sh, sh ∉ validShifts s k dep j.len j.smax := fun sh => by rw [none]; exact List.not_mem_nil
    exact ⟨fun late => absurd late early, fun _ _ => ⟨rfl, rfl⟩, fun ⟨sh, hsh⟩ => absurd hsh (hnone sh),
      fun ⟨sh, hsh⟩ => absurd hsh (hnone sh)⟩
  | carts early some busy =>
    obtain ⟨sh, hsh⟩ := some
    refine ⟨fun late => absurd late early, fun _ hn => absurd hsh (hn sh), fun _ _ => ⟨rfl, rfl⟩, fun _ hgood => ?_⟩
    rw [cartFeasible_iff.2 hgood] at busy
    cases busy
  | prep early some free full =>
    obtain ⟨sh, hsh⟩ := some
    refine ⟨fun late => absurd late early, fun _ hn => absurd hsh (hn sh), fun _ ⟨q, h0, h1, hbad⟩ => ?_,
      fun _ _ => ⟨rfl, prepDeficit_spec full⟩⟩
    rw [cartFeasible_of_bad h0 h1 hbad] at free
    cases free

/-- A kitchen that gives no placement has no shift that fits. -/
theorem not_fitsAt_of_failed {building T sh : Nat} {r : Reason} {deficit : Nat}
    (h : tryKitchen s own building j k = .failed r deficit) (hT : transitAt s k building = some T) (hle : sh ≤ j.smax) :
    ¬ FitsAt s own j k T sh := by
  obtain ⟨hn, _⟩ | ⟨T', hT', hfail⟩ := tryKitchen_failed h
  · exact absurd (hn.symm.trans hT) nofun
  · cases hT'.symm.trans hT
    exact hfail.not_fitsAt rfl hle

/-- A kitchen that gives no placement is refused for the reason of R92, with the deficit of R93. -/
theorem refusedFor_of_failed {building : Nat} {r : Reason} {deficit : Nat}
    (h : tryKitchen s own building j k = .failed r deficit) : RefusedFor s own j building k r deficit := by
  obtain ⟨hn, hr, hdeficit⟩ | ⟨T, hT, hfail⟩ := tryKitchen_failed h
  · rw [RefusedFor, hn]
    exact ⟨hr, hdeficit⟩
  · exact hfail.refusedFor hT rfl

/-! ### The search (R89, R92) -/

/-- A placement found by the search: on the primary kitchen, or on the alternate when the primary gives none. -/
theorem search_ok {p : Placement} (h : search s own j = .ok p) : ∃ e, roomAt s j.room = some e ∧
    (tryKitchen s own e.building j e.primary = .placed p ∨ ∃ k r deficit, e.alternate = some k ∧
      tryKitchen s own e.building j e.primary = .failed r deficit ∧ tryKitchen s own e.building j k = .placed p) := by
  unfold search at h
  split at h
  · cases h
  · rename_i e he
    refine ⟨e, he, ?_⟩
    split at h
    · rename_i hp
      cases h
      exact .inl hp
    · rename_i hp
      split at h
      · cases h
      · rename_i k hk
        split at h
        · rename_i ha
          cases h
          exact .inr ⟨k, _, _, hk, hp, ha⟩
        · cases h

/-- A search that finds none: the primary kitchen gives none, nor the alternate, where there is one. -/
theorem search_error {r : Reasons} {e : RoomEntry} (h : search s own j = .error r) (he : roomAt s j.room = some e) :
    tryKitchen s own e.building j e.primary = .failed r.primary r.primaryDeficit ∧
    (e.alternate = none → r.alternate = .none ∧ r.alternateDeficit = 0) ∧
    ∀ k, e.alternate = some k → tryKitchen s own e.building j k = .failed r.alternate r.alternateDeficit := by
  unfold search at h
  rw [he] at h
  dsimp only at h
  split at h
  · cases h
  · rename_i hp
    split at h
    · rename_i hk
      cases h
      exact ⟨hp, fun _ => ⟨rfl, rfl⟩, fun k hk' => by rw [hk] at hk'; cases hk'⟩
    · rename_i k hk
      split at h
      · cases h
      · rename_i ha
        cases h
        refine ⟨hp, fun hn => absurd (hk.symm.trans hn) nofun, fun k' hk' => ?_⟩
        rw [hk] at hk'
        cases hk'
        exact ha

end Sys2Proof.Machine

section Statements

open Sys2Proof Sys2Proof.Machine

/-- Settles O44: the search tries the primary kitchen, then the alternate, and each kitchen gives the first of its valid
shifts that fits or the first reason that holds. -/
theorem placementIsFirstFit : Obligations.PlacementIsFirstFit := by
  refine ⟨fun s own j p h => ?_, fun s own j r e h he k T sh hk hT hle => ?_, fun s own j r e h he => ?_,
    fun s own j hroom => ?_, fun P n hn => ⟨sum_share_window P hn, fun i => rfl⟩⟩
  · obtain ⟨e, he, hp | ⟨k, r, deficit, hk, hfail, hp⟩⟩ := search_ok h
    · obtain ⟨hkit, hT, hdep, hwin, hle, hfit, hleast⟩ := tryKitchen_placed hp
      rw [← hkit] at hT hfit hleast
      exact ⟨e, he, .inl hkit, hT, hdep, hwin, hle, hfit, hleast, fun hne => absurd hkit hne⟩
    · obtain ⟨hkit, hT, hdep, hwin, hle, hfit, hleast⟩ := tryKitchen_placed hp
      rw [← hkit] at hT hfit hleast hk
      exact ⟨e, he, .inr hk, hT, hdep, hwin, hle, hfit, hleast, fun _ T sh hT hle => not_fitsAt_of_failed hfail hT hle⟩
  · obtain ⟨hprimary, _, halternate⟩ := search_error h he
    rcases hk with rfl | hk
    · exact not_fitsAt_of_failed hprimary hT hle
    · exact not_fitsAt_of_failed (halternate k hk) hT hle
  · obtain ⟨hprimary, hnone, halternate⟩ := search_error h he
    exact ⟨refusedFor_of_failed hprimary, hnone, fun k hk => refusedFor_of_failed (halternate k hk)⟩
  · unfold search
    rw [hroom]

end Statements
end

