-- ==== Sys2Proof/Proofs/Admission.lean ====
section
/-! PROOFS. An admission at the planner: the parameters of a computation, a placement found as an order and as load, and
the commit (R85, R86, R90, R92). -/

namespace Sys2Proof.Machine

variable {s t u v : State} {own : Option Order} {j : Job} {p : Placement}

/-! ### The parameters of a computation (R85, R87) -/

/-- The window length is the longest lead. -/
theorem windowLength_spec (s : State) (ls : List OrderLine) :
    (∀ l ∈ ls, (classAt s l.cls).lead ≤ windowLength s ls) ∧
    (if ls = [] then windowLength s ls = 0 else ∃ l ∈ ls, windowLength s ls = (classAt s l.cls).lead) := by
  obtain ⟨hmem, _, hall⟩ := foldl_max_greatest (ls.map (fun l => (classAt s l.cls).lead)) 0
  have hle : ∀ l ∈ ls, (classAt s l.cls).lead ≤ windowLength s ls := fun l hl => hall _ (List.mem_map.2 ⟨l, hl, rfl⟩)
  refine ⟨hle, ?_⟩
  split
  · rename_i he
    rw [he]
    rfl
  · rename_i hne
    rcases hmem with h0 | hm
    · obtain ⟨l, hl⟩ := List.exists_mem_of_ne_nil _ hne
      have h0 : windowLength s ls = 0 := h0
      exact ⟨l, hl, by have := hle l hl; omega⟩
    · obtain ⟨l, hl, he⟩ := List.mem_map.1 hm
      exact ⟨l, hl, he.symm⟩

/-- The largest shift is the least hold limit, at most 8. -/
theorem largestShift_spec (s : State) (ls : List OrderLine) :
    (∀ l ∈ ls, largestShift s ls ≤ (classAt s l.cls).holdLimit) ∧ largestShift s ls ≤ 8 ∧
    (largestShift s ls = 8 ∨ ∃ l ∈ ls, largestShift s ls = (classAt s l.cls).holdLimit) := by
  obtain ⟨hmem, hle, hall⟩ := foldl_min_least (ls.map (fun l => (classAt s l.cls).holdLimit)) 8
  refine ⟨fun l hl => hall _ (List.mem_map.2 ⟨l, hl, rfl⟩), hle, hmem.imp_right fun hm => ?_⟩
  obtain ⟨l, hl, he⟩ := List.mem_map.1 hm
  exact ⟨l, hl, he.symm⟩

theorem lineDefined_iff {l : OrderLine} : lineDefined s l = true ↔ l.cls ≤ 31 ∧ (classAt s l.cls).weight ≠ 0 := by
  simp [lineDefined]

theorem linesOk_iff {n : Nat} {ls : List OrderLine} : linesOk s n ls = true ↔ n = ls.length ∧ 1 ≤ n ∧ n ≤ 6 ∧
    ∀ l ∈ ls, l.cls ≤ 31 ∧ (classAt s l.cls).weight ≠ 0 ∧ 1 ≤ l.covers ∧ l.covers ≤ 250 := by
  simp only [linesOk, lineDefined, Bool.and_eq_true, decide_eq_true_eq, List.all_eq_true, and_assoc]

/-! ### A placement found (R86 to R88, R90) -/

/-- A placement found lies within the horizon: its window after now, before its departure; its cart span to the end. -/
theorem search_inHorizon (h : search s own j = .ok p) :
    0 ≤ p.window ∧ p.window + j.len ≤ p.departure ∧ p.departure + 2 * p.transit + 1 ≤ 2303 := by
  obtain ⟨_, _, _, _, hdep, hwin, _, hfit, _⟩ := placementIsFirstFit.1 s own j p h
  obtain ⟨hafter, _, hcarts⟩ := hfit
  have hnow := plannerIdx_nonneg s
  have hlast := (hcarts (p.departure + 2 * p.transit + 1) (by omega) (by omega)).1
  omega

/-- A time of the horizon is read back as its index (R1). -/
theorem horizonIndex_shiftTime (c : Nat) {q : Int} (h0 : 0 ≤ q) (h1 : q ≤ 2303) :
    horizonIndex c (shiftTime ⟨c, 0⟩ q) = q := by
  have hday : ((((c : Int) + (((0 : Nat) : Int) + q) / 288) % 65536).toNat % 65536 + 65536 - c % 65536) % 65536 =
      (q / 288).toNat := by omega
  simp only [horizonIndex, shiftTime, hday]
  rw [if_neg (by omega)]
  omega

/-- The load of a placement found, put into a Load Table of the same day (R90). -/
theorem cellAt_placedOrder (h : search s own j = .ok p) (hw : v.planner.load.wf noLoad)
    (hday : plannerDay v = plannerDay s) (b : Option Handle) (c : Bool) {q : Int} (hq0 : 0 ≤ q) (hq1 : q ≤ 2303)
    (k : Nat) : cellAt (placeLoad (placedOrder s j p b c) v) k q =
      ⟨(cellAt v k q).prep + (if k = p.kitchen ∧ p.window ≤ q ∧ q < p.window + j.len then
          share j.load j.len (q - p.window).toNat else 0),
        (cellAt v k q).carts + (if k = p.kitchen ∧ p.departure ≤ q ∧ q ≤ p.departure + 2 * p.transit + 1 then 1
          else 0),
        (cellAt v k q).mark⟩ := by
  obtain ⟨h1, h2, h3⟩ := search_inHorizon h
  have hwin : pidx v (placedOrder s j p b c).window = p.window := by
    rw [pidx, hday]
    exact horizonIndex_shiftTime _ h1 (by omega)
  have hdep : pidx v (placedOrder s j p b c).departure = p.departure := by
    rw [pidx, hday]
    exact horizonIndex_shiftTime _ (by omega) (by omega)
  have hcell := cellAt_placeLoad (o := placedOrder s j p b c) (q := q) hw
    (by rw [CartsInHorizon, hdep]; exact ⟨by omega, h3⟩)
    (by rw [WindowInHorizon, hwin]; exact ⟨h1, by change p.window + j.len ≤ 2304; omega⟩) hq0 hq1 k
  rw [hwin, hdep] at hcell
  exact hcell

/-! ### The pool-empty episode (R81) -/

/-- A refused allocation: the episode open, with one record when it was closed. -/
theorem openOrderEpisode_eq (room : Nat) (s : State) : openOrderEpisode room s =
    { (if s.planner.episode = true then s else postException (.orderPoolEmpty room) (plannerNow s) s) with
      planner := { s.planner with episode := true } } := by
  unfold openOrderEpisode
  split
  · rename_i he
    rw [← he]
  · exact postException_of_same (v := { s with planner := { s.planner with episode := true } }) (u := s) rfl rfl |>.trans
      (by rw [postException_of_same (v := s) (u := s) rfl rfl])

/-! ### The commit (R90) -/

/-- The state in which record `i`, the head of the free list, has just been given an order. -/
def orderMade (i : Nat) (rest : List Nat) (o : Order) (s : State) : State :=
  nextPlacing (setOrder i o { s with planner := { s.planner with free := rest } })

theorem orderRecord_orderMade (h : s.planner.records.wf ⟨0, none⟩) (i : Nat) (rest : List Nat) (o : Order) (x : Nat) :
    orderRecord (orderMade i rest o s) x = if x = i then ⟨(orderRecord s i).gen, some o⟩ else orderRecord s x :=
  orderRecord_setOrder (s := { s with planner := { s.planner with free := rest } }) h i x o

/-- The commit on a free list that has a head: the record, the load, the list and the answer. -/
theorem commitAdmission_cons {i : Nat} {rest : List Nat} (hf : s.planner.free = i :: rest) (j : Job) (p : Placement) :
    commitAdmission j p s =
      let o := placedOrder s j p (some j.booking) false
      let x := enterProduction p.kitchen i (placeLoad o (orderMade i rest o s))
      answerAdmission j.booking
        (.admitted (orderHandle x i) p.kitchen p.shift o.window o.departure j.load j.len) x := by
  unfold commitAdmission
  rw [hf]
  rfl

/-- The state after a commit, given its Load Table and its production list. -/
theorem committed_eq (i k : Nat) (rest l : List Nat) (o : Order) (L : Table LoadCell) (w : EngineWork) (s : State) :
    sendEngine w (setProduction k l (withLoad L (orderMade i rest o s))) = { s with
      planner := { s.planner with
        load := L
        records := s.planner.records.set ⟨0, none⟩ i ⟨(orderRecord s i).gen, some o⟩
        lists := s.planner.lists.set [] k l
        free := rest
        placing := s.planner.placing + 1 }
      engine := { s.engine with intake := s.engine.intake ++ [w] } } := by
  simp only [sendEngine, setProduction, withLoad, orderMade, nextPlacing, setOrder, orderRecord]

/-- A commit writes the head record, one production list and the placement's load, and answers (R90). -/
theorem commitAdmission_spec {i : Nat} {rest : List Nat} {o : Order} (hs : TablesCanonical s)
    (hsearch : search s own j = .ok p) (hf : s.planner.free = i :: rest)
    (ho : o = placedOrder s j p (some j.booking) false) (ht : t = commitAdmission j p s) :
    (∀ x, orderRecord t x = if x = i then ⟨(orderRecord s i).gen, some o⟩ else orderRecord s x) ∧
    (∀ k, production t k = if k = p.kitchen then insertBy (windowIdx t) i (production s p.kitchen)
      else production s k) ∧
    (∀ (k : Nat) (q : Int), 0 ≤ q → q ≤ 2303 → cellAt t k q =
      ⟨(cellAt s k q).prep + (if k = p.kitchen ∧ p.window ≤ q ∧ q < p.window + j.len then
          share j.load j.len (q - p.window).toNat else 0),
        (cellAt s k q).carts + (if k = p.kitchen ∧ p.departure ≤ q ∧ q ≤ p.departure + 2 * p.transit + 1 then 1
          else 0),
        (cellAt s k q).mark⟩) ∧
    t = { s with
      planner := { s.planner with
        load := t.planner.load
        records := t.planner.records
        lists := t.planner.lists
        free := rest
        placing := s.planner.placing + 1 }
      engine := { s.engine with intake := s.engine.intake ++ [.admissionAnswer j.booking
        (.admitted ⟨i, (orderRecord s i).gen⟩ p.kitchen p.shift o.window o.departure j.load j.len)] } } := by
  have hrecord := orderRecord_orderMade hs.orderRecords i rest o
  have hgen : (orderRecord (orderMade i rest o s) i).gen = (orderRecord s i).gen := by rw [hrecord, if_pos rfl]
  have hcell : ∀ (k : Nat) (q : Int), 0 ≤ q → q ≤ 2303 → _ := fun k q h0 h1 =>
    cellAt_placedOrder (v := orderMade i rest o s) hsearch hs.loadTable rfl (some j.booking) false h0 h1 k
  have hL := (LoadOnly.placeLoad o (orderMade i rest o s)).eq
  generalize (placeLoad o (orderMade i rest o s)).planner.load = L at hL
  have hhandle : orderHandle (enterProduction p.kitchen i (withLoad L (orderMade i rest o s))) i =
      ⟨i, (orderRecord s i).gen⟩ := congrArg (Handle.mk i) hgen
  rw [← ho, hL] at hcell
  rw [commitAdmission_cons hf] at ht
  dsimp only at ht
  rw [← ho, hL, hhandle, answerAdmission, enterProduction] at ht
  have heq := ht.trans (committed_eq ..)
  refine ⟨fun x => ?_, fun k => ?_, fun k q h0 h1 => ?_, ?_⟩
  · rw [ht]
    exact hrecord x
  · have hidx : windowIdx t = windowIdx (withLoad L (orderMade i rest o s)) := by rw [ht]; rfl
    rw [hidx, heq]
    exact Table.get_set hs.productionLists p.kitchen k _
  · rw [ht]
    exact hcell k q h0 h1
  · rw [heq]

/-- The step of an admission in flight. -/
theorem exec_admissionCompletion (hp : s.power = .running) (hj : s.planner.job = some j) (hk : j.kind = .admission) :
    exec .admissionCompletion s = .next (doAdmissionCompletion j (setJob none s)) := by
  rw [exec, execAdmissionCompletion, admissionJob, hj]
  dsimp only
  rw [if_pos hk]
  exact if_pos hp

end Sys2Proof.Machine

section Statements

open Sys2Proof Sys2Proof.Machine

/-- Settles O45: the checks are the branches of the request's work, the parameters those of a list's extremes, and the
commit one record, one list and the placement's load. -/
theorem admissionAtThePlanner : Obligations.AdmissionAtThePlanner := by
  refine ⟨fun h t0 room n ls s u ht good load hgood hload => ?_, fun j p i rest s u hp hj hk hs hu hsearch hf => ?_,
    fun j r s u hp hj hk hu hsearch => ?_⟩
  · have he : exec (.admissionComputation h t0 room n ls) s = .next (doAdmissionComputation h t0 room n ls u) := by
      rw [exec, execAdmissionComputation, ht, whenTaken_some]
    rw [← linesOk_iff] at hgood
    have htotal : totalLoad u ls = load := hload.symm
    have hempty : u.planner.free.isEmpty = true ↔ u.planner.free = [] := List.isEmpty_iff
    rw [hgood]
    unfold doAdmissionComputation at he
    refine ⟨fun hbad => ?_, fun hok hfree hlarge => ?_, fun hok hfree => ?_, fun hok hfree hfit => ?_⟩
    · rw [if_pos (by simpa using hbad)] at he
      exact he
    · rw [if_neg (by simpa using hok), if_neg (by simpa using hfree), htotal, if_pos hlarge] at he
      exact he
    · rw [if_neg (by simpa using hok), if_pos (hempty.2 hfree), openOrderEpisode_eq] at he
      refine ⟨_, he, ?_⟩
      have hengine : (if u.planner.episode = true then u
          else postException (.orderPoolEmpty room) (plannerNow u) u).engine = u.engine := by split <;> simp
      simp only [answerAdmission, sendEngine, hengine]
    · rw [if_neg (by simpa using hok), if_neg (by simpa using hfree), htotal, if_neg (by omega)] at he
      obtain ⟨hlead, hlen⟩ := windowLength_spec u ls
      obtain ⟨hhold, h8, hsmax⟩ := largestShift_spec u ls
      have hne : ls ≠ [] := fun hn => by
        obtain ⟨h1, h2, _⟩ := linesOk_iff.1 hok
        rw [h1, hn] at h2
        cases h2
      rw [if_neg hne] at hlen
      refine ⟨_, _, ?_, fun l hl => ⟨hlead l hl, hhold l hl⟩, hlen, h8, hsmax⟩
      rw [he, ← htotal]
      rfl
  · have hu' : setJob none s = u := hu.symm
    have hus : TablesCanonical u := hu' ▸ ((Writes.refl .planner s).setJob none).sound.tables hs
    have he := exec_admissionCompletion hp hj hk
    rw [hu', doAdmissionCompletion, hsearch] at he
    obtain ⟨o, ho⟩ : ∃ o, o = placedOrder u j p (some j.booking) false := ⟨_, rfl⟩
    obtain ⟨hrecord, hlists, hcells, hstate⟩ := commitAdmission_spec hus hsearch hf ho rfl
    exact ⟨_, o, he, ho, (hrecord i).trans (if_pos rfl), fun y hy => (hrecord y).trans (if_neg hy),
      (hlists p.kitchen).trans (if_pos rfl), fun k hk => (hlists k).trans (if_neg hk), hcells, hstate⟩
  · have hu' : setJob none s = u := hu.symm
    have he := exec_admissionCompletion hp hj hk
    rw [hu', doAdmissionCompletion, hsearch] at he
    exact he

end Statements
end

