-- ==== Sys2Proof/Proofs/OrderEndings.lean ====
section
/-! PROOFS. The two ways an order ends before its delivery: cancelled, its load taken off and its record freed, and
wasted, its shares kept and its cart units taken off (R79, R105, R110). -/

namespace Sys2Proof.Machine

variable {t u : State} {h : Handle} {o : Order} {e : Option EventRecord}

/-! ### Cancelled -/

/-- What the cancellation of the order of handle `h` leaves: the record free at its next generation, the order off its kitchen's list, its load off
that kitchen and the marks there tested, the link notice sent and the event posted. -/
structure OrderCancelled (h : Handle) (o : Order) (e : Option EventRecord) (u t : State) : Prop where
  record : orderRecord t h.index = ⟨(h.gen + 1) % 64, none⟩
  others : ∀ x, x ≠ h.index → orderRecord t x = orderRecord u x
  lists : ∀ k, production t k = if k = o.kitchen then (production u k).filter (· ≠ h.index) else production u k
  kitchens : ∀ (k : Nat) (q : Int), k ≠ o.kitchen → cellAt t k q = cellAt u k q
  load : LoadMoved u t o true nothingAdded nothingAdded
  eq : t = { u with
    planner := { u.planner with
      load := t.planner.load
      records := t.planner.records
      lists := t.planner.lists
      free := u.planner.free ++ [h.index]
      episode := false }
    engine := { u.engine with intake := u.engine.intake ++ linkNotices h o }
    reports := (postOutcome e u).reports
    counters := (postOutcome e u).counters }

/-- A cancellation as one equation, given the Load Table it leaves. -/
theorem cancelOrder_eq (i : Nat) (o : Order) (e : Option EventRecord) (u : State) : cancelOrder i o e u =
    { freedOrder i o (withLoad (testOrderMarks o (removeLoad o u)).planner.load u) with
      reports := (postOutcome e u).reports
      counters := (postOutcome e u).counters } := by
  have hL := ((LoadOnly.removeLoad o u).trans (.testOrderMarks o _)).eq
  unfold cancelOrder
  rw [freeOrder_eq_postOutcome]
  generalize (testOrderMarks o (removeLoad o u)).planner.load = L at hL
  rw [hL]
  exact postOutcome_of_same (v := freedOrder i o (withLoad L u)) (u := u) rfl rfl rfl

theorem cancelOrder_spec (hs : TablesCanonical u) (hh : orderHandle u h.index = h)
    (ht : t = cancelOrder h.index o e u) : OrderCancelled h o e u t := by
  have heq := ht.trans (cancelOrder_eq h.index o e u)
  have hgen : (orderRecord u h.index).gen = h.gen := congrArg Handle.gen hh
  have hcell : ∀ k q, cellAt t k q = cellAt (testOrderMarks o (removeLoad o u)) k q := fun k q => by
    have hL := ((LoadOnly.removeLoad o u).trans (.testOrderMarks o _)).eq
    rw [hL, heq]
    rfl
  have hrecord : ∀ x, orderRecord t x =
      if x = h.index then ⟨(h.gen + 1) % 64, none⟩ else orderRecord u x := fun x => by
    rw [heq, ← hgen]
    exact Table.get_set hs.orderRecords h.index x _
  refine ⟨by rw [hrecord, if_pos rfl], fun x hx => by rw [hrecord, if_neg hx], fun k => ?_,
    fun k q hk => by rw [hcell, cellAt_removeLoad_other hs.loadTable hk], (loadMoved_removed hs.loadTable).of_cells hcell,
    by rw [heq, freedOrder, freedPlanner, ← hh]; rfl⟩
  rw [heq]
  refine (Table.get_set hs.productionLists o.kitchen k _).trans ?_
  split
  · rename_i hk
    rw [hk]
    rfl
  · rfl

/-! ### Wasted -/

/-- What the waste of the order of handle `h` leaves: the order WASTED and without its link, its cart units off its kitchen and the marks there
tested, its shares standing, and the link notice sent. -/
structure OrderWasted (h : Handle) (o : Order) (u t : State) : Prop where
  record : orderRecord t h.index = ⟨h.gen, some { o with state := .wasted, booking := none }⟩
  others : ∀ x, x ≠ h.index → orderRecord t x = orderRecord u x
  kitchens : ∀ (k : Nat) (q : Int), k ≠ o.kitchen → cellAt t k q = cellAt u k q
  shares : ∀ (k : Nat) (q : Int), (cellAt t k q).prep = (cellAt u k q).prep
  load : LoadMoved u t o false nothingAdded nothingAdded
  eq : t = { u with
    planner := { u.planner with load := t.planner.load, records := t.planner.records }
    engine := { u.engine with intake := u.engine.intake ++ linkNotices h o } }

theorem wasteOrder_spec (hs : TablesCanonical u) (hh : orderHandle u h.index = h) (ht : t = wasteOrder h.index o u) :
    OrderWasted h o u t := by
  have hgen : (orderRecord u h.index).gen = h.gen := congrArg Handle.gen hh
  have hL := (LoadOnly.releaseCarts o u).eq
  have hother := fun (k : Nat) (q : Int) (hk : k ≠ o.kitchen) => cellAt_releaseCarts_other (s := u) hs.loadTable hk q
  have hshares := prep_releaseCarts hs.loadTable o
  have hmoved := loadMoved_released (o := o) hs.loadTable
  unfold wasteOrder at ht
  rw [linkNotice_eq] at ht
  generalize releaseCarts o u = v at *
  generalize v.planner.load = L at hL
  subst hL
  rw [orderHandle_setOrder (s := withLoad L u) hs.orderRecords, show orderHandle (withLoad L u) h.index = h from hh] at ht
  have hrecord : ∀ x, orderRecord t x = if x = h.index then
      ⟨h.gen, some { o with state := .wasted, booking := none }⟩ else orderRecord u x := fun x => by
    rw [ht, ← hgen]
    exact Table.get_set hs.orderRecords h.index x _
  have hcell : ∀ k q, cellAt t k q = cellAt (withLoad L u) k q := fun k q => by rw [ht]; rfl
  exact ⟨by rw [hrecord, if_pos rfl], fun x hx => by rw [hrecord, if_neg hx],
    fun k q hk => by rw [hcell, hother k q hk], fun k q => by rw [hcell, hshares], hmoved.of_cells hcell,
    by rw [ht]; rfl⟩

end Sys2Proof.Machine
end

