-- ==== Sys2Proof/Proofs/OrderWithdrawal.lean ====
section
/-! PROOFS. An order withdrawn by the host, or handed over with its freed booking (R101, R105, R110, R112). -/

namespace Sys2Proof.Machine

variable {s t u w : State} {h : Handle} {o : Order}

/-- The tables of the state in which the planner has taken a host request are canonical. -/
theorem TablesCanonical.of_takenByPlanner {r : HostRequest} (hs : TablesCanonical s) (ht : Taken r s u)
    (hr : ownerOf r = .planner) : TablesCanonical u :=
  (Writes.of_takeHost (b := .planner) (by rw [hr]; rfl) ht.2).sound.tables hs

/-- A request whose work is one catering refusal is answered, counted, and changes nothing else (R101). -/
theorem refused_of_refuseOrder {c : Instr} {r : Result} (hu : ∃ sl, u.link.slot = some sl)
    (he : exec c s = .next (refuseOrder r u)) : ∃ t, exec c s = .next t ∧ Answered u t r [] ∧ t = { u with
      link := t.link
      counters := { u.counters with cateringRefusals := saturate u.counters.cateringRefusals } } := by
  obtain ⟨sl, hsl⟩ := hu
  exact ⟨_, he, answered_finish (w := count Counters.cateringRefusal u) hsl rfl r [], finish_eq r [] _⟩

theorem orderFault_badField (hb : 767 < h.index ∨ 63 < h.gen) : orderFault u h = some .badField := if_pos hb

theorem orderFault_stale (hi : h.index ≤ 767) (hg : h.gen ≤ 63) (hn : liveOrder u h = none) :
    orderFault u h = some .staleHandle := by
  unfold orderFault
  rw [if_neg (by omega), hn]
  rfl

theorem orderFault_live (hi : h.index ≤ 767) (hg : h.gen ≤ 63) (ho : liveOrder u h = some o) :
    orderFault u h = none := by
  unfold orderFault
  rw [if_neg (by omega), ho]
  rfl

/-- The reply to a CancelOrder: at once, or after the engine has taken the link notice (R112). -/
theorem replyCancel_spec (hu : ∃ sl, u.link.slot = some sl) (hl : w.link = u.link) {body : List Field}
    (ht : t = replyCancel h o body w) : t = { w with link := t.link } ∧ (o.booking = none → Answered u t .ok body) ∧
      (o.booking ≠ none → t.link = { u.link with slot := u.link.slot.map (fun sl =>
        { sl with stage := .afterLink h body }) }) := by
  obtain ⟨sl, hsl⟩ := hu
  unfold replyCancel at ht
  split at ht <;> rename_i hb <;> rw [Option.isSome_iff_ne_none] at hb <;> subst ht
  · exact ⟨rfl, fun hn => absurd hn hb, fun _ => by rw [← hl]; rfl⟩
  · exact ⟨finish_eq .ok body w, fun _ => answered_finish hsl hl .ok body, fun hn => absurd hn hb⟩

/-- A CancelOrder of a live order is its work by the order's state. -/
theorem doCancelOrder_planned (hi : h.index ≤ 767) (hg : h.gen ≤ 63) (ho : liveOrder u h = some o)
    (hst : o.state = .planned) : doCancelOrder h u =
      replyCancel h o [.u8 (orderStateCode .cancelled)] (cancelOrder h.index o none u) := by
  simp only [doCancelOrder, orderFault_live hi hg ho, ho, hst]

theorem doCancelOrder_inProduction (hi : h.index ≤ 767) (hg : h.gen ≤ 63) (ho : liveOrder u h = some o)
    (hst : o.state = .inProduction) : doCancelOrder h u =
      replyCancel h o [.u8 (orderStateCode .wasted), .time (shiftTime o.window o.len)] (wasteOrder h.index o u) := by
  simp only [doCancelOrder, orderFault_live hi hg ho, ho, hst]

theorem doCancelOrder_later (hi : h.index ≤ 767) (hg : h.gen ≤ 63) (ho : liveOrder u h = some o)
    (h1 : o.state ≠ .planned) (h2 : o.state ≠ .inProduction) :
    doCancelOrder h u = refuseOrder .cateringCommitted u := by
  unfold doCancelOrder
  rw [orderFault_live hi hg ho, ho]
  dsimp only
  generalize o.state = st at h1 h2
  cases st with
  | planned => exact absurd rfl h1
  | inProduction => exact absurd rfl h2
  | wasted | dispatched | delivered | unconfirmed | closed | cancelled => rfl

/-- A hand-off of a live order whose booking has ended, or whose preparation has passed, clears the link alone. -/
theorem doBookingHandoff_unlink {b : Handle} {kind : HandoffKind} (ho : liveOrder u h = some o)
    (hk : kind = .ended ∨ (o.state ≠ .planned ∧ o.state ≠ .inProduction)) :
    doBookingHandoff h b kind u = setOrder h.index { o with booking := none } u := by
  unfold doBookingHandoff
  rw [ho]
  dsimp only
  rcases hk with rfl | ⟨h1, h2⟩
  · cases o.state <;> rfl
  · generalize o.state = st at h1 h2
    cases st with
    | planned => exact absurd rfl h1
    | inProduction => exact absurd rfl h2
    | wasted | dispatched | delivered | unconfirmed | closed | cancelled => rfl

/-- A hand-off of a PLANNED order whose booking was cancelled or released cancels it, with an event for a release
(R112). -/
theorem doBookingHandoff_planned {b : Handle} {kind : HandoffKind} (ho : liveOrder u h = some o)
    (hst : o.state = .planned) (hk : kind ≠ .ended) : ∃ e, doBookingHandoff h b kind u =
      cancelOrder h.index { o with booking := none } e u ∧ (kind = .cancelled → e = none) ∧
      (kind = .released → e = some ⟨.orderCancelled, plannerStamp u, o.room, h, .num 0, .handle b⟩) := by
  unfold doBookingHandoff
  rw [ho]
  dsimp only
  rw [hst]
  cases kind with
  | ended => exact absurd rfl hk
  | cancelled => exact ⟨_, rfl, fun _ => rfl, nofun⟩
  | released => exact ⟨_, rfl, nofun, fun _ => by rw [orderEvent, orderHandle_of_live ho]⟩

/-- A hand-off of an IN_PRODUCTION order whose booking was cancelled or released wastes it (R110). -/
theorem doBookingHandoff_inProduction {b : Handle} {kind : HandoffKind} (ho : liveOrder u h = some o)
    (hst : o.state = .inProduction) (hk : kind ≠ .ended) :
    doBookingHandoff h b kind u = wasteOrder h.index { o with booking := none } u := by
  unfold doBookingHandoff
  rw [ho]
  dsimp only
  rw [hst]
  cases kind with
  | ended => exact absurd rfl hk
  | cancelled | released => rfl

end Sys2Proof.Machine

section Statements

open Sys2Proof Sys2Proof.Machine

/-- Settles O47: the checks are the branches of the request's work, a PLANNED order is cancelled, and an IN_PRODUCTION
one wasted, by the equations of those two endings. -/
theorem orderWithdrawal : Obligations.OrderWithdrawal := by
  refine ⟨fun h s u ht hs refused hrefused => ?_, fun h b kind s u ht hs => ?_⟩
  · have hu := ht.slot
    have hus := hs.of_takenByPlanner ht rfl
    have he : exec (.cancelOrder h) s = .next (doCancelOrder h u) := ht.hostStep _
    have hrefuse : ∀ r, doCancelOrder h u = refuseOrder r u → refused r := fun r hr =>
      (hrefused r).2 (refused_of_refuseOrder hu (he.trans (by rw [hr])))
    refine ⟨fun hb => hrefuse _ ?_, fun hi hg hn => hrefuse _ ?_, fun o hi hg ho h1 h2 => hrefuse _ ?_,
      fun o hi hg ho hst => ?_, fun o hi hg ho hst => ?_⟩
    · rw [doCancelOrder, orderFault_badField hb]
    · rw [doCancelOrder, orderFault_stale hi hg hn]
    · rw [doCancelOrder_later hi hg ho h1 h2]
    · rw [doCancelOrder_planned hi hg ho hst] at he
      obtain ⟨w, hw⟩ : ∃ w, w = cancelOrder h.index o none u := ⟨_, rfl⟩
      obtain ⟨t, htt⟩ : ∃ t, t = replyCancel h o [.u8 (orderStateCode .cancelled)] w := ⟨_, rfl⟩
      have hc := cancelOrder_spec hus (orderHandle_of_live ho) hw
      obtain ⟨heq, hnow, hlater⟩ := replyCancel_spec hu (by rw [hc.eq]) htt
      rw [← hw, ← htt] at he
      refine ⟨t, he, ?_, ?_, ?_, ?_, ?_, ?_, hnow, hlater⟩
      all_goals rw [heq]
      · exact hc.record
      · exact hc.others
      · exact hc.lists
      · exact hc.kitchens
      · exact hc.load.of_cells fun _ _ => rfl
      · exact congrArg (fun x : State => { x with link := t.link }) hc.eq
    · rw [doCancelOrder_inProduction hi hg ho hst] at he
      obtain ⟨w, hw⟩ : ∃ w, w = wasteOrder h.index o u := ⟨_, rfl⟩
      obtain ⟨t, htt⟩ : ∃ t, t = replyCancel h o [.u8 (orderStateCode .wasted), .time (shiftTime o.window o.len)] w :=
        ⟨_, rfl⟩
      have hc := wasteOrder_spec hus (orderHandle_of_live ho) hw
      obtain ⟨heq, hnow, hlater⟩ := replyCancel_spec hu (by rw [hc.eq]) htt
      rw [← hw, ← htt] at he
      refine ⟨t, he, ?_, ?_, ?_, ?_, ?_, ?_, hnow, hlater⟩
      all_goals rw [heq]
      · exact hc.record
      · exact hc.others
      · exact hc.kitchens
      · exact hc.shares
      · exact hc.load.of_cells fun _ _ => rfl
      · exact congrArg (fun x : State => { x with link := t.link }) hc.eq
  · have hus := hs.of_takePlanner ht
    have he : exec (.bookingHandoff h b kind) s = .next (doBookingHandoff h b kind u) := by
      rw [exec, execBookingHandoff, ht, whenTaken_some]
    refine ⟨fun hn => ?_, fun o ho hst hk => ?_, fun o ho hst hk => ?_, fun o ho hk => ?_⟩
    · rw [he, doBookingHandoff, hn]
    · obtain ⟨e, hdo, hquiet, hposted⟩ := doBookingHandoff_planned (b := b) ho hst hk
      rw [hdo] at he
      have hc := cancelOrder_spec (o := { o with booking := none }) (e := e) hus (orderHandle_of_live ho) rfl
      refine ⟨_, he, hc.record, hc.others, hc.lists, hc.kitchens, hc.load, ?_, fun hk => ?_, fun hk x hx => ?_⟩
      · refine hc.eq.trans ?_
        rw [hc.eq]
        simp only [linkNotices, List.append_nil]
      · rw [hc.eq, hquiet hk]
        exact ⟨rfl, rfl⟩
      · rw [hc.eq, hposted hk, hx]
        exact ⟨rfl, rfl⟩
    · rw [doBookingHandoff_inProduction ho hst hk] at he
      have hc := wasteOrder_spec (o := { o with booking := none }) hus (orderHandle_of_live ho) rfl
      refine ⟨_, he, hc.record, hc.others, hc.kitchens, hc.shares, hc.load, hc.eq.trans ?_⟩
      simp only [linkNotices, List.append_nil]
    · rw [he, doBookingHandoff_unlink ho hk, setOrder, liveOrder_iff.1 ho]

end Statements
end

