-- ==== Sys2Proof/Proofs/Deliveries.lean ====
section
/-! PROOFS. A delivery confirmed by the host or received at a panel, and a room notice (R80, R107 to R109). -/

namespace Sys2Proof.Machine

variable {s t u : State} {i room : Nat} {o : Order}

/-! ### An order delivered -/

theorem deliverable_iff {st : OrderState} : deliverable st = true ↔ st = .dispatched ∨ st = .unconfirmed := by
  simp [deliverable]

/-- An order delivered: its record, and the display notice of a linked one (R107). -/
theorem deliverOrder_eq (h : u.planner.records.wf ⟨0, none⟩) (i : Nat) (o : Order) : deliverOrder i o u = { u with
    planner := { u.planner with
      records := u.planner.records.set ⟨0, none⟩ i
        ⟨(orderRecord u i).gen, some { o with state := .delivered, confirmed := true }⟩ }
    engine := { u.engine with intake := u.engine.intake ++ displayNotices (orderHandle u i) o } } := by
  unfold deliverOrder
  dsimp only
  rw [displayNotice_eq, orderHandle_setOrder h]
  rfl

/-- A receipt that delivers an order, after its event: the record, the display notice and the panel's answer (R108). -/
theorem answerPanel_deliverOrder (h : u.planner.records.wf ⟨0, none⟩) (hp : t.planner = u.planner)
    (he : t.engine = u.engine) (hl : t.lines = u.lines) (src : PanelSrc) (kind : Nat) (code : PanelCode)
    (time : Option CTime) (i : Nat) (o : Order) : answerPanel src kind code time (deliverOrder i o t) = { t with
      planner := { u.planner with
        records := u.planner.records.set ⟨0, none⟩ i
          ⟨(orderRecord u i).gen, some { o with state := .delivered, confirmed := true }⟩ }
      engine := { u.engine with intake := u.engine.intake ++ displayNotices (orderHandle u i) o }
      lines := u.lines.set src.line { u.lines.get src.line with
        intake := (u.lines.get src.line).intake ++ [.answer src.pos src.reqno ⟨kind, code, time⟩] } } := by
  rw [deliverOrder_eq (by rwa [hp])]
  simp only [answerPanel, sendLine, updLine, Line.arrive, orderHandle, orderRecord, hp, he, hl]

/-- A delivery confirmed by the host, of a live order (R107). -/
theorem doConfirmDelivery_live {h : Handle} (hi : h.index ≤ 767) (hg : h.gen ≤ 63) (ho : liveOrder u h = some o) :
    doConfirmDelivery h u = if o.state = .dispatched ∨ o.state = .unconfirmed then
      finish .ok [.time o.serving, .u16 o.room] (deliverOrder h.index o u) else refuseOrder .wrongState u := by
  simp only [doConfirmDelivery, orderFault_live hi hg ho, ho, deliverable_iff]

/-! ### The order a receipt is for (R108) -/

/-- An order of the room that is due by the next quantum. -/
def DueInRoom (s : State) (room : Nat) (o : Order) : Prop := o.room = room ∧ pidx s o.serving ≤ plannerIdx s + 1

/-- One step of the search for the latest: the candidate of the list that comes later takes the place. -/
def laterOf (s : State) (room : Nat) (best : Option (Nat × Order)) (e : Nat × Order) : Option (Nat × Order) :=
  if e.2.room = room ∧ pidx s e.2.serving ≤ plannerIdx s + 1 then
    match best with
    | some b => if laterOrder s b.2 e.2 then some e else best
    | none => some e
  else best

theorem chosenOrder_eq (s : State) (room : Nat) : chosenOrder s room = (allOrders s).foldl (laterOf s room) none := rfl

theorem laterOf_of_not {e : Nat × Order} (h : ¬ DueInRoom s room e.2) (best : Option (Nat × Order)) :
    laterOf s room best e = best := if_neg h

theorem laterOf_none {e : Nat × Order} (h : DueInRoom s room e.2) : laterOf s room none e = some e := if_pos h

theorem laterOf_some {e : Nat × Order} (h : DueInRoom s room e.2) (b : Nat × Order) :
    laterOf s room (some b) e = if laterOrder s b.2 e.2 then some e else some b := if_pos h

/-- With no candidate in the list nothing is chosen. -/
theorem foldl_laterOf_none {xs : List (Nat × Order)} (h : ∀ e ∈ xs, ¬ DueInRoom s room e.2) :
    xs.foldl (laterOf s room) none = none := by
  induction xs with
  | nil => rfl
  | cons e xs ih =>
    rw [List.foldl_cons, laterOf_of_not (h e List.mem_cons_self)]
    exact ih fun x hx => h x (List.mem_cons_of_mem _ hx)

/-- A candidate later than every other is kept once met, and met is chosen. -/
theorem foldl_laterOf_latest {x : Nat × Order} (hx : DueInRoom s room x.2) {xs : List (Nat × Order)}
    (hlast : ∀ e ∈ xs, e ≠ x → DueInRoom s room e.2 → laterOrder s e.2 x.2 = true) (best : Option (Nat × Order))
    (hbest : best = some x ∨ (x ∈ xs ∧ ∀ b, best = some b → laterOrder s b.2 x.2 = true)) :
    xs.foldl (laterOf s room) best = some x := by
  have hasymm : ∀ e : Nat × Order, e = x ∨ laterOrder s e.2 x.2 = true → laterOrder s x.2 e.2 = false := by
    rintro e (rfl | h)
    · simp [laterOrder]
    · simp only [laterOrder, decide_eq_true_eq, decide_eq_false_iff_not] at h ⊢
      omega
  induction xs generalizing best with
  | nil =>
    rcases hbest with h | ⟨h, _⟩
    · exact h
    · cases h
  | cons e xs ih =>
    have htail := ih fun y hy => hlast y (List.mem_cons_of_mem _ hy)
    refine htail _ ?_
    by_cases hdue : DueInRoom s room e.2
    · rcases hbest with rfl | ⟨hmem, hbest⟩
      · left
        have he : laterOrder s x.2 e.2 = false := hasymm e <| (em (e = x)).imp_right fun hne =>
          hlast e List.mem_cons_self hne hdue
        rw [laterOf_some hdue, he]
        rfl
      · by_cases hex : e = x
        · left
          cases best with
          | none => rw [laterOf_none hdue, hex]
          | some b => rw [laterOf_some hdue, hex, hbest b rfl, if_pos rfl]
        · refine .inr ⟨(List.mem_cons.1 hmem).resolve_left (Ne.symm hex), fun b hb => ?_⟩
          have hel := hlast e List.mem_cons_self hex hdue
          cases best with
          | none =>
            rw [laterOf_none hdue] at hb
            cases hb
            exact hel
          | some c =>
            rw [laterOf_some hdue] at hb
            split at hb <;> cases hb
            · exact hel
            · exact hbest _ rfl
    · rw [laterOf_of_not hdue]
      refine hbest.imp_right fun ⟨hmem, hb⟩ => ⟨(List.mem_cons.1 hmem).resolve_left ?_, hb⟩
      rintro rfl
      exact hdue hx

/-- The order of the room with the latest serving quantum, and the highest placing number among equals, is chosen. -/
theorem chosenOrder_latest (ho : orderAt s i = some o) (hi : i ∈ (List.range 8).flatMap (production s))
    (hdue : DueInRoom s room o)
    (hlast : ∀ i' o', orderAt s i' = some o' → i' ∈ (List.range 8).flatMap (production s) → i' ≠ i →
      DueInRoom s room o' → laterOrder s o' o = true) : chosenOrder s room = some (i, o) := by
  rw [chosenOrder_eq]
  refine foldl_laterOf_latest (x := (i, o)) hdue (fun e he hne hd => ?_) none
    (.inr ⟨mem_allOrders.2 ⟨hi, ho⟩, nofun⟩)
  obtain ⟨hmem, hat⟩ := mem_allOrders.1 he
  refine hlast e.1 e.2 hat hmem (fun hei => hne ?_) hd
  rw [hei, ho] at hat
  exact Prod.ext hei (Option.some.inj hat).symm

/-- Without an order of the room that is due, none is chosen. -/
theorem chosenOrder_none (h : ∀ i o, orderAt s i = some o → i ∈ (List.range 8).flatMap (production s) →
    ¬ DueInRoom s room o) : chosenOrder s room = none := by
  rw [chosenOrder_eq]
  refine foldl_laterOf_none fun e he => ?_
  obtain ⟨hmem, hat⟩ := mem_allOrders.1 he
  exact h e.1 e.2 hat hmem

end Sys2Proof.Machine

section Statements

open Sys2Proof Sys2Proof.Machine

/-- Settles O48: each request's work by its branches, the order of a receipt being the latest of the fold that chooses
it. -/
theorem deliveryAndRoomNotices : Obligations.DeliveryAndRoomNotices := by
  refine ⟨fun h s u refused ht hs hrefused => ?_, fun src room badge s u ht hs => ?_, fun h room s u ht => ?_⟩
  · have hu := ht.slot
    have hus := hs.of_takenByPlanner ht rfl
    have he : exec (.confirmDelivery h) s = .next (doConfirmDelivery h u) := ht.hostStep _
    have hrefuse : ∀ r, doConfirmDelivery h u = refuseOrder r u → refused r := fun r hr =>
      (hrefused r).2 (refused_of_refuseOrder hu (he.trans (by rw [hr])))
    split
    next hbad => exact hrefuse _ (by rw [doConfirmDelivery, orderFault_badField hbad])
    next hgood =>
      have hi : h.index ≤ 767 := by omega
      have hg : h.gen ≤ 63 := by omega
      split
      next hn => exact hrefuse _ (by rw [doConfirmDelivery, orderFault_stale hi hg hn])
      next o ho =>
        have hdo := doConfirmDelivery_live hi hg ho
        split
        next hst =>
          rw [if_pos hst] at hdo
          obtain ⟨sl, hsl⟩ := hu
          have hw := deliverOrder_eq hus.orderRecords h.index o
          refine ⟨_, he.trans (by rw [hdo]), answered_finish hsl (by rw [hw]) .ok _, ?_⟩
          rw [finish_eq, hw, orderHandle_of_live ho, liveOrder_iff.1 ho]
          rfl
        next hst => exact hrefuse _ (by rw [hdo, if_neg hst])
  · have hus := hs.of_takePlanner ht
    have he : exec (.cateringReceived src room badge) s = .next (doCateringReceived src room badge u) := by
      rw [exec, execCateringReceived, ht, whenTaken_some]
    refine ⟨fun i o ho hi hroom hserving hlast => ?_, fun hnone => ?_⟩
    · have hc : chosenOrder u room = some (i, o) := chosenOrder_latest ho hi ⟨hroom, hserving⟩
        fun i' o' ho' hi' hne hdue => by
          obtain ⟨hr, hs'⟩ := hdue
          exact decide_eq_true (hlast i' o' ho' hi' hne hr hs')
      subst hroom
      simp only [doCateringReceived, hc, deliverable_iff] at he
      split
      next hst =>
        rw [if_pos hst] at he
        have hdone := answerPanel_deliverOrder (u := u) (t := postEvent (orderEvent .orderDelivered i o
          (.num (if o.state = .dispatched then 0 else 1)) (.token badge) u) u) hus.orderRecords (by simp) (by simp)
          (by simp) src kindReceived .accepted none i o
        exact he.trans (congrArg Host.Outcome.next hdone)
      next hst =>
        rw [if_neg hst] at he
        exact he
    · have hc : chosenOrder u room = none := chosenOrder_none fun i o ho hi ⟨hroom, hserving⟩ => by
        have := hnone i o ho hi hroom
        omega
      rw [he, doCateringReceived, hc]
      rfl
  · have he : exec (.roomNotice h room) s = .next (doRoomNotice h room u) := by
      rw [exec, execRoomNotice, ht, whenTaken_some]
    rw [he]
    split
    next o ho => simp only [doRoomNotice, ho, setOrder, liveOrder_iff.1 ho]
    next hn => rw [doRoomNotice, hn]

end Statements
end

