-- ==== Sys2Proof/Proofs/Refit.lean ====
section
/-! PROOFS. A refit at the planner: the answers by the order's state, the placement swapped, and the order cancelled when
none is found (R94 to R96). -/

namespace Sys2Proof.Machine

variable {s t u v : State} {j : Job} {p : Placement} {oh : Handle} {o : Order}

/-! ### The place in a production list (R83) -/

/-- An order enters a list behind every one of an earlier or equal window start, before the first of a later one. -/
theorem enteredAt_insertBy (t : State) (i : Nat) (l : List Nat) : EnteredAt t i l (insertBy (windowIdx t) i l) := by
  induction l with
  | nil => exact ⟨[], [], rfl, rfl, nofun, nofun⟩
  | cons x l ih =>
    rw [insertBy]
    split
    next hlt => exact ⟨[], x :: l, rfl, rfl, nofun, fun y hy => Option.some.inj hy ▸ hlt⟩
    next hge =>
      obtain ⟨before, after, hl, hl', hbefore, hafter⟩ := ih
      refine ⟨x :: before, after, by rw [hl, List.cons_append], by rw [hl', List.cons_append], fun y hy => ?_, hafter⟩
      rcases List.mem_cons.1 hy with rfl | hy
      · omega
      · exact hbefore y hy

/-! ### The placement swapped (R95) -/

/-- The order's placement taken off and the new one put on, the order rewritten and off its production list. -/
def refitted (i : Nat) (o : Order) (j : Job) (p : Placement) (s : State) : State :=
  nextPlacing (setOrder i (placedOrder s j p o.booking o.confirmed) (leaveProduction o.kitchen i
    (placeLoad (placedOrder s j p o.booking o.confirmed) (removeLoad o s))))

theorem swapOrder_eq (i : Nat) (o : Order) (j : Job) (p : Placement) (s : State) : swapOrder i o j p s =
    testOrderMarks o (enterProduction p.kitchen i (refitted i o j p s)) := rfl

/-- The rewriting of an order as one equation, given the Load Table it leaves. -/
theorem refitted_eq (i : Nat) (o : Order) (j : Job) (p : Placement) (s : State) : refitted i o j p s = { s with
    planner := { s.planner with
      load := (placeLoad (placedOrder s j p o.booking o.confirmed) (removeLoad o s)).planner.load
      records := s.planner.records.set ⟨0, none⟩ i
        ⟨(orderRecord s i).gen, some (placedOrder s j p o.booking o.confirmed)⟩
      lists := s.planner.lists.set [] o.kitchen ((production s o.kitchen).filter (· ≠ i))
      placing := s.planner.placing + 1 } } := by
  have hL := ((LoadOnly.removeLoad o s).trans (.placeLoad (placedOrder s j p o.booking o.confirmed) _)).eq
  unfold refitted
  generalize (placeLoad (placedOrder s j p o.booking o.confirmed) (removeLoad o s)).planner.load = L at hL ⊢
  rw [hL]
  simp only [nextPlacing, setOrder, leaveProduction, setProduction, withLoad, orderRecord, production]

theorem production_refitted (h : s.planner.lists.wf []) (i : Nat) (o : Order) (j : Job) (p : Placement) (k : Nat) :
    production (refitted i o j p s) k =
      if k = o.kitchen then (production s k).filter (· ≠ i) else production s k := by
  rw [refitted_eq]
  refine (Table.get_set h o.kitchen k _).trans ?_
  split
  next hk => rw [hk]
  next => rfl

/-- The mark test at the end changes the Load Table alone. -/
theorem swapOrder_loadOnly (i : Nat) (o : Order) (j : Job) (p : Placement) (s : State) :
    LoadOnly (enterProduction p.kitchen i (refitted i o j p s)) (swapOrder i o j p s) := .testOrderMarks ..

theorem orderRecord_swapOrder (h : s.planner.records.wf ⟨0, none⟩) (i : Nat) (o : Order) (j : Job) (p : Placement)
    (x : Nat) : orderRecord (swapOrder i o j p s) x =
      if x = i then ⟨(orderRecord s i).gen, some (placedOrder s j p o.booking o.confirmed)⟩ else orderRecord s x := by
  rw [(swapOrder_loadOnly i o j p s).eq, refitted_eq]
  exact Table.get_set h i x _

/-- The order leaves its list and enters that of its new kitchen. -/
theorem production_swapOrder (h : s.planner.lists.wf []) (i : Nat) (o : Order) (j : Job) (p : Placement) (k : Nat) :
    production (swapOrder i o j p s) k = if k = p.kitchen then
      insertBy (windowIdx (swapOrder i o j p s)) i (production (refitted i o j p s) k)
      else production (refitted i o j p s) k := by
  have hwf : (refitted i o j p s).planner.lists.wf [] := by
    rw [refitted_eq]
    exact Table.set_wf h ..
  have heq := (swapOrder_loadOnly i o j p s).eq
  generalize swapOrder i o j p s = t at heq ⊢
  generalize refitted i o j p s = x at hwf heq ⊢
  have hidx : windowIdx t = windowIdx x := by
    rw [heq]
    rfl
  rw [hidx, heq]
  refine (Table.get_set hwf p.kitchen k _).trans ?_
  split
  next hk => rw [hk]
  next => rfl

/-- The load of a swap: the old placement off, the new one on. -/
theorem loadMoved_swapOrder (hw : u.planner.load.wf noLoad) (hsearch : search u (some o) j = .ok p) (i : Nat) :
    LoadMoved u (swapOrder i o j p u) o true
      (fun k q => if k = p.kitchen ∧ p.window ≤ q ∧ q < p.window + j.len then
        share j.load j.len (q - p.window).toNat else 0)
      (fun k q => if k = p.kitchen ∧ p.departure ≤ q ∧ q ≤ p.departure + 2 * p.transit + 1 then 1 else 0) := by
  have hremoved := LoadOnly.removeLoad o u
  have hplaced := hremoved.trans (.placeLoad (placedOrder u j p o.booking o.confirmed) _)
  rw [swapOrder_eq, refitted_eq]
  refine loadMoved_testOrderMarks (hplaced.wf hw) rfl (fun _ => rfl) fun hc hwin k q hq0 hq1 => ?_
  have hplace := cellAt_placedOrder hsearch (hremoved.wf hw) hremoved.plannerDay o.booking o.confirmed hq0 hq1 k
  rw [cellAt_removeLoad hw hc hwin hq0 hq1, mark_readCell, hplaced.eq] at hplace
  exact hplace

/-- A swap writes the order's record, the two lists and the load, and takes the next placing number. -/
theorem swapOrder_frame (i : Nat) (o : Order) (j : Job) (p : Placement) (u : State) : swapOrder i o j p u = { u with
    planner := { u.planner with
      load := (swapOrder i o j p u).planner.load
      records := (swapOrder i o j p u).planner.records
      lists := (swapOrder i o j p u).planner.lists
      placing := u.planner.placing + 1 } } := by
  have htest := (swapOrder_loadOnly i o j p u).eq
  generalize swapOrder i o j p u = t at htest ⊢
  rw [htest, refitted_eq]
  simp only [withLoad, enterProduction, setProduction]

/-! ### No placement (R96) -/

theorem noFit_keep (b : Handle) (i : Nat) (o : Order) (r : Reasons) (u : State) : noFit b i o false r u = { u with
    engine := { u.engine with intake := u.engine.intake ++ [.refitAnswer b (.noFit r)] } } := rfl

/-- An order that does not fit, under DROP_CATERING, is cancelled, its link cleared first. -/
theorem noFit_drop (hs : TablesCanonical u) (ho : liveOrder u oh = some o) (b : Handle) (r : Reasons)
    (ht : t = noFit b oh.index o true r u) : orderRecord t oh.index = ⟨(oh.gen + 1) % 64, none⟩ ∧
    (∀ x, x ≠ oh.index → orderRecord t x = orderRecord u x) ∧
    (∀ k, production t k = if k = o.kitchen then (production u k).filter (· ≠ oh.index) else production u k) ∧
    LoadMoved u t o true nothingAdded nothingAdded ∧
    t = { u with
      planner := { u.planner with
        load := t.planner.load
        records := t.planner.records
        lists := t.planner.lists
        free := u.planner.free ++ [oh.index]
        episode := false }
      engine := { u.engine with intake := u.engine.intake ++ [.refitAnswer b (.dropped .cancelled)] } } := by
  obtain ⟨w, hw⟩ : ∃ w, w = cancelOrder oh.index { o with booking := none } none u := ⟨_, rfl⟩
  have hc := cancelOrder_spec hs (orderHandle_of_live ho) hw
  have ht : t = answerRefit b (.dropped .cancelled) w := by rw [ht, hw]; rfl
  subst ht
  refine ⟨hc.record, hc.others, hc.lists, hc.load.of_cells fun _ _ => rfl, ?_⟩
  refine (congrArg (answerRefit b (.dropped .cancelled)) hc.eq).trans ?_
  simp only [answerRefit, sendEngine, linkNotices, List.append_nil, postOutcome]

/-! ### The parameters and the lines (R87, R90, R92) -/

theorem lines_undefined_iff : (!(o.lines.all (lineDefined u))) = true ↔
    ∃ l ∈ o.lines, 31 < l.cls ∨ (classAt u l.cls).weight = 0 := by
  rw [Bool.not_eq_true', List.all_eq_false]
  refine exists_congr fun l => and_congr_right fun _ => ?_
  rw [lineDefined_iff, not_and_or, not_le, not_not]

theorem linesReasons_eq (u : State) (room : Nat) : linesReasons u room =
    ⟨.lines, 0, if (roomAt u room).bind RoomEntry.alternate = none then .none else .lines, 0⟩ := by
  unfold linesReasons
  cases (roomAt u room).bind RoomEntry.alternate <;> rfl

/-! ### The answer by the order's state (R94, R96) -/

section Answers

variable {b : Handle} {t0 : CTime} {room : Nat}

/-- Past PLANNED and without DROP_CATERING, the order stands. -/
theorem doRefitComputation_keep (ho : liveOrder u oh = some o) (hst : o.state ≠ .planned) :
    doRefitComputation b oh t0 room false u = answerRefit b .committed u := by
  rw [doRefitComputation, ho]
  dsimp only
  generalize o.state = st at hst
  cases st with
  | planned => exact absurd rfl hst
  | inProduction | wasted | dispatched | delivered | unconfirmed | closed | cancelled => rfl

/-- Past preparation and under DROP_CATERING, the link is dropped. -/
theorem doRefitComputation_unlink (ho : liveOrder u oh = some o) (h1 : o.state ≠ .planned)
    (h2 : o.state ≠ .inProduction) : doRefitComputation b oh t0 room true u =
      answerRefit b (.dropped o.state) (setOrder oh.index { o with booking := none } u) := by
  rw [doRefitComputation, ho]
  dsimp only
  generalize o.state = st at h1 h2
  cases st with
  | planned => exact absurd rfl h1
  | inProduction => exact absurd rfl h2
  | wasted | dispatched | delivered | unconfirmed | closed | cancelled => rfl

theorem doRefitComputation_waste (ho : liveOrder u oh = some o) (hst : o.state = .inProduction) :
    doRefitComputation b oh t0 room true u =
      answerRefit b (.dropped .wasted) (wasteOrder oh.index { o with booking := none } u) := by
  rw [doRefitComputation, ho]
  dsimp only
  rw [hst]
  rfl

/-- A PLANNED order whose lines are defined and whose load an order may have begins a computation. -/
theorem doRefitComputation_begin {drop : Bool} (ho : liveOrder u oh = some o) (hst : o.state = .planned)
    (hdef : ∀ l ∈ o.lines, l.cls ≤ 31 ∧ (classAt u l.cls).weight ≠ 0) (hle : totalLoad u o.lines ≤ 4095) :
    doRefitComputation b oh t0 room drop u = setJob (some (jobOf u (.refit oh drop) b t0 room o.lines)) u := by
  have hok : ¬ ((!(o.lines.all (lineDefined u))) = true ∨ 4095 < totalLoad u o.lines) := by
    rw [lines_undefined_iff]
    rintro (⟨l, hl, hbad⟩ | hbig)
    · obtain ⟨h1, h2⟩ := hdef l hl
      omega
    · omega
  rw [doRefitComputation, ho]
  dsimp only
  rw [hst]
  exact if_neg hok

/-- Another PLANNED order is answered LINES at once. -/
theorem doRefitComputation_lines {drop : Bool} (ho : liveOrder u oh = some o) (hst : o.state = .planned)
    (hbad : (∃ l ∈ o.lines, 31 < l.cls ∨ (classAt u l.cls).weight = 0) ∨ 4095 < totalLoad u o.lines) :
    doRefitComputation b oh t0 room drop u = noFit b oh.index o drop (linesReasons u room) u := by
  rw [← lines_undefined_iff] at hbad
  rw [doRefitComputation, ho]
  dsimp only
  rw [hst]
  exact if_pos hbad

end Answers

/-- The step of a refit in flight. -/
theorem exec_refitCompletion {drop : Bool} (hp : s.power = .running) (hj : s.planner.job = some j)
    (hk : j.kind = .refit oh drop) : exec .refitCompletion s = .next (doRefitCompletion j oh drop (setJob none s)) := by
  rw [exec, execRefitCompletion, refitJob, hj]
  dsimp only
  rw [hk]
  exact if_pos hp

end Sys2Proof.Machine

section Statements

open Sys2Proof Sys2Proof.Machine

/-- Settles O46: the answers are the branches of the request's work by the order's state; at the end of a computation a
placement found is swapped in, and without one the order stands or is cancelled. -/
theorem refitAtThePlanner : Obligations.RefitAtThePlanner := by
  refine ⟨fun b oh t0 room drop s u ht hs => ?_, fun j oh drop o s u hp hj hk hs hu ho => ⟨fun p hsearch => ?_,
    fun r hsearch => ?_⟩⟩
  · have hus := hs.of_takePlanner ht
    have he : exec (.refitComputation b oh t0 room drop) s = .next (doRefitComputation b oh t0 room drop u) := by
      rw [exec, execRefitComputation, ht, whenTaken_some]
    refine ⟨_, he, fun hn => ?_, fun o ho hst hd => ?_, fun o ho hst hst' hd => ?_, fun o ho hst hd => ?_,
      fun o load ho hst hload hdef hle => ?_, fun o load ho hst hload hbad => ?_⟩
    · rw [doRefitComputation, hn]
      rfl
    · subst hd
      rw [doRefitComputation_keep ho hst]
      rfl
    · subst hd
      rw [doRefitComputation_unlink ho hst hst', setOrder, liveOrder_iff.1 ho]
      rfl
    · subst hd
      obtain ⟨w, hw⟩ : ∃ w, w = wasteOrder oh.index { o with booking := none } u := ⟨_, rfl⟩
      have hc := wasteOrder_spec hus (orderHandle_of_live ho) hw
      rw [doRefitComputation_waste ho hst, ← hw]
      refine ⟨hc.record, hc.load.of_cells fun _ _ => rfl, (congrArg (answerRefit b (.dropped .wasted)) hc.eq).trans ?_⟩
      simp only [answerRefit, sendEngine, linkNotices, List.append_nil]
    · have htotal : totalLoad u o.lines = load := hload.symm
      obtain ⟨hlead, hlen⟩ := windowLength_spec u o.lines
      obtain ⟨hhold, h8, hsmax⟩ := largestShift_spec u o.lines
      refine ⟨_, _, ?_, fun l hl => ⟨hlead l hl, hhold l hl⟩, hlen, h8, hsmax⟩
      rw [← htotal] at hle ⊢
      exact doRefitComputation_begin ho hst hdef hle
    · have htotal : totalLoad u o.lines = load := hload.symm
      rw [← htotal] at hbad
      rw [doRefitComputation_lines ho hst hbad]
      refine ⟨fun hd => ?_, fun hd => ?_⟩
      · rw [hd, noFit_keep, linesReasons_eq]
      · rw [hd]
        exact noFit_drop hus ho b _ rfl
  all_goals
    have hu' : setJob none s = u := hu.symm
    have hus : TablesCanonical u := hu' ▸ ((Writes.refl .planner s).setJob none).sound.tables hs
    have he := exec_refitCompletion hp hj hk
    rw [hu', doRefitCompletion, ho] at he
    simp only [hsearch] at he
  · have hgen : (orderRecord u oh.index).gen = oh.gen := congrArg Handle.gen (orderHandle_of_live ho)
    have hrecord := orderRecord_swapOrder hus.orderRecords oh.index o j p
    have hlists := production_swapOrder hus.productionLists oh.index o j p
    have hmoved := loadMoved_swapOrder hus.loadTable hsearch oh.index
    have hframe := swapOrder_frame oh.index o j p u
    generalize swapOrder oh.index o j p u = w at he hrecord hlists hmoved hframe
    refine ⟨_, he, ?_, fun x hx => (hrecord x).trans (if_neg hx), fun k left hleft => ?_, hmoved.of_cells fun _ _ => rfl,
      congrArg (answerRefit j.booking
        (.fit p.kitchen p.shift (timeOfIdx u p.window) (timeOfIdx u p.departure))) hframe⟩
    · rw [← hgen]
      exact (hrecord oh.index).trans (if_pos rfl)
    · rw [hleft, ← production_refitted hus.productionLists oh.index o j p]
      split
      next hk =>
        have hentered := enteredAt_insertBy w oh.index (production (refitted oh.index o j p u) k)
        rw [← (hlists k).trans (if_pos hk)] at hentered
        exact hentered
      next hk => exact (hlists k).trans (if_neg hk)
  · refine ⟨_, he, fun hd => ?_, fun hd => ?_⟩
    · rw [hd, noFit_keep]
    · rw [hd]
      exact noFit_drop hus ho _ _ rfl

end Statements
end

