-- ==== Sys2Proof/Proofs/BoundaryLoad.lean ====
section
/-! PROOFS. The Load Table at a boundary: the mark of the quantum just ended and the slice of the day that left, cleared
(R75, R77). -/

namespace Sys2Proof.Machine

variable {s u : State} {b : Boundary}

/-! ### A table cleared in part -/

/-- A key that is cleared reads as the unlisted value, every other as before. -/
theorem Table.get_clear {α : Type} (t : Table α) (p : Nat → Bool) (d : α) (k : Nat) :
    (t.clear p).get d k = if p k = true then d else t.get d k := by
  obtain ⟨es⟩ := t
  unfold Table.clear Table.get
  dsimp only
  induction es with
  | nil => exact (ite_self d).symm
  | cons e es ih =>
    by_cases he : e.1 = k
    · by_cases hp : p k = true
      · simp [he, hp, ih]
      · simp [Table.lookup_cons, he, hp]
    · by_cases hp : p e.1 = true
      · simp [Table.lookup_cons, he, hp, ih]
      · simp [Table.lookup_cons, he, hp, ih]

/-! ### The keys of the eight days (R75) -/

/-- Two quanta of one day's reckoning share a key when they are of one kitchen and a whole horizon apart. -/
theorem loadKey_congr {c k k' : Nat} {h h' : Int} :
    loadKey c k h = loadKey c k' h' ↔ k = k' ∧ (h - h') % 2304 = 0 := by
  constructor
  · intro he
    refine ⟨by rw [← loadKey_kitchen c k h, he, loadKey_kitchen], ?_⟩
    rw [loadKey, loadKey, Config.horizon] at he
    omega
  · rintro ⟨rfl, hh⟩
    rw [loadKey, loadKey, Config.horizon]
    omega

/-- The slice of the seventh day to come is the last 288 quanta of the horizon. -/
theorem inSlice_loadKey {c k : Nat} {h : Int} (h0 : 0 ≤ h) (h1 : h ≤ 2303) :
    inSlice (c + 7) (loadKey c k h) = true ↔ 2016 ≤ h := by
  rw [inSlice, decide_eq_true_iff, loadKey, Config.horizon]
  omega

/-! ### The mark of the quantum just ended (R77) -/

theorem LoadOnly.plannerIdx {t : State} (h : LoadOnly s t) : plannerIdx t = plannerIdx s := by rw [h.eq]; rfl

theorem LoadOnly.clearPastMarks (s : State) : LoadOnly s (clearPastMarks s) :=
  foldl (fun _ _ => modifyCell ..) _ s

/-- The mark of the quantum before now is cleared at each of the first `n` kitchens. -/
theorem cellAt_clearMarks (hw : s.planner.load.wf noLoad) (n k : Nat) (h : Int) :
    cellAt ((List.range n).foldl
      (fun s (k : Nat) => modifyCell k (fun c => { c with mark := false }) (plannerIdx s - 1) s) s) k h =
      if k < n ∧ (h + 1 - plannerIdx s) % 2304 = 0 then { cellAt s k h with mark := false } else cellAt s k h := by
  induction n with
  | zero => rfl
  | succ n ih =>
    have hrun : LoadOnly s ((List.range n).foldl
        (fun s (k : Nat) => modifyCell k (fun c => { c with mark := false }) (plannerIdx s - 1) s) s) :=
      LoadOnly.foldl (fun _ _ => .modifyCell ..) _ s
    rw [List.range_succ, List.foldl_append]
    generalize (List.range n).foldl
      (fun s (k : Nat) => modifyCell k (fun c => { c with mark := false }) (plannerIdx s - 1) s) s = x at ih hrun ⊢
    rw [List.foldl_cons, List.foldl_nil, cellAt_modifyCell (hrun.wf hw), hrun.plannerIdx]
    by_cases hkey : loadKey (plannerDay x) k h = loadKey (plannerDay x) n (plannerIdx s - 1)
    · have hcell : cellAt x n (plannerIdx s - 1) = cellAt x k h := by rw [cellAt, ← hkey]; rfl
      obtain ⟨rfl, hh⟩ := loadKey_congr.1 hkey
      rw [if_pos hkey, hcell, ih, if_neg (by omega), if_pos (by omega)]
    · rw [if_neg hkey, ih]
      rw [loadKey_congr] at hkey
      refine if_congr ?_ rfl rfl
      omega

/-! ### The planner's now (R76) -/

theorem plannerNow_setPlannerNow (hc : u.clock.state ≠ .unset) (x : CTime) :
    plannerNow (setPlannerNow x u) = some x := if_neg hc

theorem plannerDay_setPlannerNow (hc : u.clock.state ≠ .unset) (x : CTime) :
    plannerDay (setPlannerNow x u) = x.day := by
  rw [plannerDay, plannerNow_setPlannerNow hc]
  rfl

/-- The planner's index of its now is the quantum of its day. -/
theorem plannerIdx_setPlannerNow (hc : u.clock.state ≠ .unset) (x : CTime) :
    plannerIdx (setPlannerNow x u) = x.quantum := by
  rw [plannerIdx, plannerNow_setPlannerNow hc, Option.map_some, Option.getD_some, pidx,
    plannerDay_setPlannerNow hc]
  simp [horizonIndex]

/-! ### The boundary's Load Table (R77) -/

/-- The state in which the walk begins: the planner's now set, and the Load Table cleared. -/
def boundaryStart (b : Boundary) (u : State) : State := clearSlice b (clearPastMarks (setPlannerNow b.now u))

theorem boundaryStart_loadOnly (b : Boundary) (u : State) : LoadOnly (setPlannerNow b.now u) (boundaryStart b u) := by
  refine (LoadOnly.clearPastMarks _).trans ?_
  unfold boundaryStart clearSlice
  split
  · exact ⟨rfl, (Table.clear_wf · _)⟩
  · exact .refl _

theorem boundaryStart_tables (hu : TablesCanonical u) (b : Boundary) : TablesCanonical (boundaryStart b u) := by
  obtain ⟨h1, h2, h3, h4, h5, h6, h7, h8, hload, h10, h11, h12, h13⟩ := hu
  have hstart := boundaryStart_loadOnly b u
  rw [hstart.eq]
  exact ⟨h1, h2, h3, h4, h5, h6, h7, h8, hstart.wf hload, h10, h11, h12, h13⟩

theorem boundaryStart_eq (b : Boundary) (u : State) : boundaryStart b u = { u with
    planner := { u.planner with now := some b.now, load := (boundaryStart b u).planner.load } } :=
  (boundaryStart_loadOnly b u).eq

/-- A cell of the table in which the walk begins. -/
theorem cellAt_boundaryStart (hw : u.planner.load.wf noLoad) (hc : u.clock.state ≠ .unset) {k : Nat} (hk : k < 8)
    (h : Int) : cellAt (boundaryStart b u) k h =
      if b.rollover = true ∧ inSlice (b.now.day + 7) (loadKey b.now.day k h) = true then noLoad
      else if (h + 1 - b.now.quantum) % 2304 = 0 then { cellAt (setPlannerNow b.now u) k h with mark := false }
      else cellAt (setPlannerNow b.now u) k h := by
  have hmarks := cellAt_clearMarks (s := setPlannerNow b.now u) hw 8 k h
  rw [plannerIdx_setPlannerNow hc] at hmarks
  simp only [hk, true_and] at hmarks
  rw [← hmarks]
  unfold boundaryStart clearSlice
  by_cases hr : b.rollover = true
  · have hday : plannerDay (clearPastMarks (setPlannerNow b.now u)) = b.now.day := by
      rw [(LoadOnly.clearPastMarks _).plannerDay, plannerDay_setPlannerNow hc]
    simp only [hr, if_true, true_and]
    refine (Table.get_clear _ _ noLoad _).trans ?_
    change (if inSlice (b.now.day + 7) (loadKey (plannerDay (clearPastMarks (setPlannerNow b.now u))) k h) = true
      then noLoad else cellAt (clearPastMarks (setPlannerNow b.now u)) k h) = _
    rw [hday]
    rfl
  · rw [if_neg hr, if_neg fun h => hr h.1]
    rfl

end Sys2Proof.Machine
end

