-- ==== Sys2Proof/Proofs/BoundaryRows.lean ====
section
/-! PROOFS. The rows of R102, each as one equation of the state, and what they make of an order one after another (R102
to R106). -/

namespace Sys2Proof.Machine

variable {s t u : State} {i : Nat} {o o' : Order} {now : Int}

/-! ### An order advanced (R103, R104) -/

/-- An order advanced: its record, the event and the display notice. -/
theorem advanceOrder_eq (h : s.planner.records.wf ⟨0, none⟩) (i : Nat) (o : Order) (st : OrderState) (kind : EventKind) :
    advanceOrder i o st kind s =
      { postEvent ⟨kind, plannerStamp s, o.room, orderHandle s i, .num o.kitchen, linkDatum o⟩
          (setOrder i { o with state := st } s) with
        engine := { s.engine with intake := s.engine.intake ++ displayNotices (orderHandle s i) o } } := by
  unfold advanceOrder orderEvent
  dsimp only
  rw [displayNotice_eq]
  have hframe := postEvent_frame ⟨kind, plannerStamp s, o.room, orderHandle s i, .num o.kitchen, linkDatum o⟩
    (setOrder i { o with state := st } s)
  generalize hw : postEvent ⟨kind, plannerStamp s, o.room, orderHandle s i, .num o.kitchen, linkDatum o⟩
    (setOrder i { o with state := st } s) = w
  have hplanner : w.planner = (setOrder i { o with state := st } s).planner := by rw [← hw]; simp
  have hengine : w.engine = s.engine := by rw [← hw]; simp [setOrder]
  have hhandle : orderHandle w i = orderHandle s i := by
    rw [orderHandle, orderRecord, hplanner]
    exact orderHandle_setOrder h i i _
  rw [hhandle, hengine]
  rfl

/-! ### What a row may change -/

/-- `t` is `s` but for the order records, the production lists, the pool, work that joins the engine's intake, and the
reports. -/
structure OrdersOnly (s t : State) : Prop where
  eq : t = { s with
    planner := { s.planner with
      records := t.planner.records
      lists := t.planner.lists
      free := t.planner.free
      episode := t.planner.episode }
    engine := { s.engine with intake := t.engine.intake }
    reports := t.reports
    counters := t.counters }
  gained : ∃ ws, t.engine.intake = s.engine.intake ++ ws
  tables : TablesCanonical s → TablesCanonical t

namespace OrdersOnly

theorem refl (s : State) : OrdersOnly s s := ⟨rfl, ⟨[], (List.append_nil _).symm⟩, id⟩

theorem trans (h : OrdersOnly s t) (h' : OrdersOnly t u) : OrdersOnly s u where
  eq := by
    have h1 := h.eq
    have h2 := h'.eq
    rw [h1] at h2
    exact h2
  gained := by
    obtain ⟨ws, hw⟩ := h.gained
    obtain ⟨ws', hw'⟩ := h'.gained
    exact ⟨ws ++ ws', by rw [hw', hw, List.append_assoc]⟩
  tables := h'.tables ∘ h.tables

theorem freeOrder (i : Nat) (o : Order) (e : Option EventRecord) (s : State) : OrdersOnly s (freeOrder i o e s) where
  eq := by rw [freeOrder_eq]; rfl
  gained := by rw [freeOrder_eq]; exact ⟨_, rfl⟩
  tables := ((Writes.refl .planner s).freeOrder ..).sound.tables

/-- A record rewritten, and an event posted. -/
theorem rewritten (i : Nat) (o : Order) (e : EventRecord) (s : State) :
    OrdersOnly s (postEvent e (setOrder i o s)) where
  eq := by rw [postEvent_of_same (v := setOrder i o s) (u := setOrder i o s) rfl rfl rfl]; rfl
  gained := ⟨[], by simp [setOrder]⟩
  tables := (((Writes.refl .planner s).setOrder ..).postEvent _).sound.tables

theorem displayNotice (i : Nat) (o : Order) (s : State) : OrdersOnly s (displayNotice i o s) where
  eq := by rw [displayNotice_eq]
  gained := by rw [displayNotice_eq]; exact ⟨_, rfl⟩
  tables := ((Writes.refl .planner s).displayNotice ..).sound.tables

theorem advanceOrder (i : Nat) (o : Order) (st : OrderState) (kind : EventKind) (s : State) :
    OrdersOnly s (advanceOrder i o st kind s) :=
  (rewritten ..).trans (.displayNotice ..)

/-- The indices are read off the rest of the state. -/
theorem pidx (h : OrdersOnly s t) (x : CTime) : pidx t x = pidx s x := by rw [h.eq]; rfl

theorem cellAt (h : OrdersOnly s t) (k : Nat) (q : Int) : cellAt t k q = cellAt s k q := by rw [h.eq]; rfl

theorem plannerIdx (h : OrdersOnly s t) : plannerIdx t = plannerIdx s := by rw [h.eq]; rfl

theorem afterRows (h : OrdersOnly s t) : afterRows t = afterRows s := by
  funext o
  simp only [Machine.afterRows, h.pidx, h.plannerIdx]

end OrdersOnly

/-! ### The rows as changes of an order (R102) -/

/-- Row 1: a WASTED order past its window is freed. -/
def afterWasted (s : State) (now : Int) (o : Order) : Option Order :=
  if o.state = .wasted ∧ pidx s o.window + o.len ≤ now then none else some o

/-- Row 2: production begins. -/
def afterProduction (s : State) (now : Int) (o : Order) : Option Order :=
  some (if o.state = .planned ∧ pidx s o.window = now then { o with state := .inProduction } else o)

/-- Row 3: the cart leaves. -/
def afterDispatch (s : State) (now : Int) (o : Order) : Option Order :=
  some (if o.state = .inProduction ∧ pidx s o.departure = now then { o with state := .dispatched } else o)

/-- Row 4: no receipt has come. -/
def afterUnconfirmed (s : State) (now : Int) (o : Order) : Option Order :=
  some (if o.state = .dispatched ∧ pidx s o.serving + 2 = now then { o with state := .unconfirmed } else o)

/-- Row 5: the cart has returned. -/
def afterClose (s : State) (now : Int) (o : Order) : Option Order :=
  if (o.state = .dispatched ∨ o.state = .delivered ∨ o.state = .unconfirmed) ∧
      pidx s o.departure + 2 * o.transit + 2 = now then none else some o

/-- The five rows one after another, at the planner's now. -/
theorem afterRows_eq (s : State) (o : Order) : afterRows s o =
    (((((afterWasted s (plannerIdx s) o).bind (afterProduction s (plannerIdx s))).bind
      (afterDispatch s (plannerIdx s))).bind (afterUnconfirmed s (plannerIdx s))).bind
      (afterClose s (plannerIdx s))) := by
  unfold afterRows afterWasted
  split <;> rfl

theorem OrdersOnly.afterProduction (h : OrdersOnly s t) : afterProduction t = afterProduction s := by
  funext now o
  simp only [Machine.afterProduction, h.pidx]

theorem OrdersOnly.afterDispatch (h : OrdersOnly s t) : afterDispatch t = afterDispatch s := by
  funext now o
  simp only [Machine.afterDispatch, h.pidx]

theorem OrdersOnly.afterUnconfirmed (h : OrdersOnly s t) : afterUnconfirmed t = afterUnconfirmed s := by
  funext now o
  simp only [Machine.afterUnconfirmed, h.pidx]

theorem OrdersOnly.afterClose (h : OrdersOnly s t) : afterClose t = afterClose s := by
  funext now o
  simp only [Machine.afterClose, h.pidx]

/-! ### The rows due on an order -/

def WastedDue (s : State) (o : Order) : Prop := o.state = .wasted ∧ pidx s o.window + o.len ≤ plannerIdx s

def ProductionDue (s : State) (o : Order) : Prop := o.state = .planned ∧ pidx s o.window = plannerIdx s

def DispatchDue (s : State) (o : Order) : Prop := o.state = .inProduction ∧ pidx s o.departure = plannerIdx s

def UnconfirmedDue (s : State) (o : Order) : Prop := o.state = .dispatched ∧ pidx s o.serving + 2 = plannerIdx s

def CloseDue (s : State) (o : Order) : Prop :=
  (o.state = .dispatched ∨ o.state = .delivered ∨ o.state = .unconfirmed) ∧
    pidx s o.departure + 2 * o.transit + 2 = plannerIdx s

/-- None of the rows is due on the order. -/
def NoRowDue (s : State) (o : Order) : Prop :=
  ¬ WastedDue s o ∧ ¬ ProductionDue s o ∧ ¬ DispatchDue s o ∧ ¬ UnconfirmedDue s o ∧ ¬ CloseDue s o

/-- A row of one state that is due on no order but those that are moved to another state is due on none after. -/
theorem not_due_of_moved {due : Order → Prop} {c : Prop} [Decidable c] {st q : OrderState}
    (ho : (if c then { o with state := st } else o) = o') (hq : ∀ x, due x → x.state = q) (hne : st ≠ q)
    (h : due o → c) : ¬ due o' := by
  intro hd
  rw [← ho] at hd
  split at hd
  next hc => exact hne (hq _ hd)
  next hc => exact hc (h hd)

/-- An order the rows leave has none of them due: each row moves it on to a state of the rows below its own. -/
theorem noRowDue_of_afterRows (h : afterRows s o = some o') : NoRowDue s o' := by
  unfold afterRows at h
  split at h
  next => cases h
  next h1 =>
    dsimp only at h
    generalize ho2 : (if o.state = .planned ∧ pidx s o.window = plannerIdx s then
      { o with state := .inProduction } else o) = o2 at h
    generalize ho3 : (if o2.state = .inProduction ∧ pidx s o2.departure = plannerIdx s then
      { o2 with state := .dispatched } else o2) = o3 at h
    generalize ho4 : (if o3.state = .dispatched ∧ pidx s o3.serving + 2 = plannerIdx s then
      { o3 with state := .unconfirmed } else o3) = o4 at h
    split at h <;> cases h
    next h5 =>
      have wasted2 : ¬ WastedDue s o2 := not_due_of_moved ho2 (fun _ => And.left) nofun (absurd · h1)
      have wasted3 : ¬ WastedDue s o3 := not_due_of_moved ho3 (fun _ => And.left) nofun (absurd · wasted2)
      have production2 : ¬ ProductionDue s o2 := not_due_of_moved ho2 (fun _ => And.left) nofun id
      have production3 : ¬ ProductionDue s o3 := not_due_of_moved ho3 (fun _ => And.left) nofun (absurd · production2)
      have dispatch3 : ¬ DispatchDue s o3 := not_due_of_moved ho3 (fun _ => And.left) nofun id
      exact ⟨not_due_of_moved ho4 (fun _ => And.left) nofun (absurd · wasted3),
        not_due_of_moved ho4 (fun _ => And.left) nofun (absurd · production3),
        not_due_of_moved ho4 (fun _ => And.left) nofun (absurd · dispatch3),
        not_due_of_moved ho4 (fun _ => And.left) nofun id, h5⟩

theorem afterRows_of_noRowDue (h : NoRowDue s o) : afterRows s o = some o := by
  obtain ⟨h1, h2, h3, h4, h5⟩ := h
  unfold WastedDue ProductionDue DispatchDue UnconfirmedDue CloseDue at *
  simp only [afterRows, if_neg h1, if_neg h2, if_neg h3, if_neg h4, if_neg h5]

/-! ### A record under a row -/

/-- The record of an order that a row changes or frees. -/
def rowRecord (f : Order → Option Order) (r : Record Order) : Record Order :=
  match r.body with
  | none => r
  | some o => match f o with
    | some o' => ⟨r.gen, some o'⟩
    | none => ⟨(r.gen + 1) % 64, none⟩

section

variable {f : Order → Option Order} {r : Record Order}

theorem rowRecord_of_none (h : r.body = none) : rowRecord f r = r := by
  rw [rowRecord, h]

theorem rowRecord_freed (h : r.body = some o) (hf : f o = none) : rowRecord f r = ⟨(r.gen + 1) % 64, none⟩ := by
  simp only [rowRecord, h, hf]

theorem rowRecord_kept (h : r.body = some o) (hf : f o = some o') : rowRecord f r = ⟨r.gen, some o'⟩ := by
  simp only [rowRecord, h, hf]

end

theorem rowRecord_bind (f g : Order → Option Order) (r : Record Order) :
    rowRecord (fun o => (f o).bind g) r = rowRecord g (rowRecord f r) := by
  cases hr : r.body with
  | none => rw [rowRecord_of_none hr, rowRecord_of_none hr, rowRecord_of_none hr]
  | some o =>
    cases hf : f o with
    | none =>
      rw [rowRecord_freed hr hf, rowRecord_of_none (r := ⟨(r.gen + 1) % 64, none⟩) rfl]
      exact rowRecord_freed hr (by rw [hf]; rfl)
    | some o' =>
      rw [rowRecord_kept hr hf]
      unfold rowRecord
      rw [hr]
      dsimp only
      rw [hf, Option.bind_some]

/-- The rows tried again change nothing. -/
theorem rowRecord_twice (s : State) (r : Record Order) :
    rowRecord (afterRows s) (rowRecord (afterRows s) r) = rowRecord (afterRows s) r := by
  cases hr : r.body with
  | none => rw [rowRecord_of_none hr, rowRecord_of_none hr]
  | some o =>
    cases hf : afterRows s o with
    | none => rw [rowRecord_freed hr hf, rowRecord_of_none (r := ⟨(r.gen + 1) % 64, none⟩) rfl]
    | some o' =>
      rw [rowRecord_kept hr hf]
      exact rowRecord_kept rfl (afterRows_of_noRowDue (noRowDue_of_afterRows hf))

/-- A row tried on record `i` takes `s` to `t`: the record becomes what `f` makes of its order, every other stands, and no
order but a freed one leaves its list. -/
structure RowTaken (i : Nat) (f : Order → Option Order) (s t : State) : Prop where
  only : OrdersOnly s t
  record : ∀ x, orderRecord t x = if x = i then rowRecord f (orderRecord s i) else orderRecord s x
  lists : ∀ k x, x ∈ production t k → x ∈ production s k
  kept : ∀ k x, x ≠ i → x ∈ production s k → x ∈ production t k

namespace RowTaken

variable {f g : Order → Option Order}

theorem trans (h : RowTaken i f s t) (h' : RowTaken i g t u) : RowTaken i (fun o => (f o).bind g) s u where
  only := h.only.trans h'.only
  record x := by
    rw [h'.record, h.record, h.record, if_pos rfl, rowRecord_bind]
    split <;> rfl
  lists k x hx := h.lists k x (h'.lists k x hx)
  kept k x hne hx := h'.kept k x hne (h.kept k x hne hx)

/-- An order the row leaves. -/
theorem stands (h : rowRecord f (orderRecord s i) = orderRecord s i) : RowTaken i f s s where
  only := .refl s
  record x := by
    rw [h]
    split
    next hx => rw [hx]
    next => rfl
  lists _ _ := id
  kept _ _ _ := id

/-- An order the row frees. -/
theorem freed (hs : TablesCanonical s) (ho : orderAt s i = some o) (hf : f o = none) (e : Option EventRecord) :
    RowTaken i f s (freeOrder i o e s) where
  only := .freeOrder ..
  record x := by rw [orderRecord_freeOrder hs.orderRecords, rowRecord_freed ho hf]
  lists k x hx := by
    rw [production_freeOrder hs.productionLists] at hx
    split at hx
    · exact List.mem_of_mem_filter hx
    · exact hx
  kept k x hne hx := by
    rw [production_freeOrder hs.productionLists]
    split
    · exact List.mem_filter.2 ⟨hx, decide_eq_true hne⟩
    · exact hx

/-- An order the row rewrites. -/
theorem rewritten (hs : TablesCanonical s) (ho : orderAt s i = some o) (hf : f o = some o') (ht : OrdersOnly s t)
    (hp : t.planner = (setOrder i o' s).planner) : RowTaken i f s t where
  only := ht
  record x := by
    rw [orderRecord, hp, rowRecord_kept ho hf]
    exact orderRecord_setOrder hs.orderRecords i x o'
  lists k x hx := by
    rw [production, hp] at hx
    exact hx
  kept k x _ hx := by
    rw [production, hp]
    exact hx

/-- A row that makes of an order what `f` makes of it does so of the record, whether or not an order is there. -/
theorem walkRow {row : Int → Nat → Order → State → State}
    (h : ∀ o, orderAt s i = some o → RowTaken i f s (row now i o s)) : RowTaken i f s (walkRow row now i s) := by
  unfold Machine.walkRow
  split
  next o ho => exact h o ho
  next hn => exact .stands (rowRecord_of_none hn)

theorem standing (ho : orderAt s i = some o) (hf : f o = some o) : RowTaken i f s s :=
  .stands ((rowRecord_kept ho hf).trans (congrArg (Record.mk _) (Eq.symm ho)))

theorem advanced (hs : TablesCanonical s) (ho : orderAt s i = some o) {st : OrderState}
    (hf : f o = some { o with state := st }) (kind : EventKind) : RowTaken i f s (advanceOrder i o st kind s) := by
  refine .rewritten hs ho hf (.advanceOrder ..) ?_
  rw [advanceOrder_eq hs.orderRecords]
  simp

theorem walkWasted (hs : TablesCanonical s) (ho : orderAt s i = some o) :
    RowTaken i (afterWasted s now) s (walkWasted now i o s) := by
  unfold Machine.walkWasted
  split
  next h => exact freed hs ho (if_pos h) _
  next h => exact standing ho (if_neg h)

theorem walkProduction (hs : TablesCanonical s) (ho : orderAt s i = some o) :
    RowTaken i (afterProduction s now) s (walkProduction now i o s) := by
  unfold Machine.walkProduction
  split
  next h => exact advanced hs ho (by rw [afterProduction, if_pos h]) _
  next h => exact standing ho (congrArg some (if_neg h))

theorem walkDispatch (hs : TablesCanonical s) (ho : orderAt s i = some o) :
    RowTaken i (afterDispatch s now) s (walkDispatch now i o s) := by
  unfold Machine.walkDispatch
  split
  next h => exact advanced hs ho (by rw [afterDispatch, if_pos h]) _
  next h => exact standing ho (congrArg some (if_neg h))

theorem walkUnconfirmed (hs : TablesCanonical s) (ho : orderAt s i = some o) :
    RowTaken i (afterUnconfirmed s now) s (walkUnconfirmed now i o s) := by
  unfold Machine.walkUnconfirmed
  split
  next h => exact rewritten hs ho (congrArg some (if_pos h)) (.rewritten ..) (by simp)
  next h => exact standing ho (congrArg some (if_neg h))

theorem walkClose (hs : TablesCanonical s) (ho : orderAt s i = some o) :
    RowTaken i (afterClose s now) s (walkClose now i o s) := by
  unfold Machine.walkClose
  split
  next h => exact freed hs ho (if_pos h) _
  next h => exact standing ho (if_neg h)

/-- The five rows tried in order take the record to what they make of its order. -/
theorem walkOrder (hs : TablesCanonical s) (i : Nat) : RowTaken i (afterRows s) s (walkOrder i s) := by
  have h1 := walkRow (s := s) (i := i) (now := plannerIdx s) (row := Machine.walkWasted) fun _ ho => walkWasted hs ho
  have hs1 := h1.only.tables hs
  have h2 := h1.trans (walkRow (row := Machine.walkProduction) (now := plannerIdx s) fun _ ho => walkProduction hs1 ho)
  have hs2 := h2.only.tables hs
  have h3 := h2.trans (walkRow (row := Machine.walkDispatch) (now := plannerIdx s) fun _ ho => walkDispatch hs2 ho)
  have hs3 := h3.only.tables hs
  have h4 := h3.trans (walkRow (row := Machine.walkUnconfirmed) (now := plannerIdx s) fun _ ho =>
    walkUnconfirmed hs3 ho)
  have hs4 := h4.only.tables hs
  have h5 := h4.trans (walkRow (row := Machine.walkClose) (now := plannerIdx s) fun _ ho => walkClose hs4 ho)
  have hf : afterRows s = _ := funext fun o => afterRows_eq s o
  rw [h1.only.afterProduction, h2.only.afterDispatch, h3.only.afterUnconfirmed, h4.only.afterClose] at h5
  rw [hf]
  exact h5

end RowTaken

end Sys2Proof.Machine
end

