-- ==== Sys2Proof/Proofs/BoundaryWalk.lean ====
section
/-! PROOFS. The walk of the production lists at a boundary: each order met is taken to what the rows make of it, once, and
no order is missed (R102). -/

namespace Sys2Proof.Machine

variable {s t u v x : State} {done : Nat → Prop}

/-! ### How far a walk has come -/

/-- `x` is a state of the walk from `v` in which the records of `done` have been met: those are as the rows leave them,
every other is as it was, and no record not yet met has left a list. -/
structure Walked (v : State) (done : Nat → Prop) (x : State) : Prop where
  only : OrdersOnly v x
  met : ∀ i, done i → orderRecord x i = rowRecord (afterRows v) (orderRecord v i)
  unmet : ∀ i, ¬ done i → orderRecord x i = orderRecord v i
  lists : ∀ k i, i ∈ production x k → i ∈ production v k
  kept : ∀ k i, ¬ done i → i ∈ production v k → i ∈ production x k

namespace Walked

theorem start (v : State) : Walked v (fun _ => False) v where
  only := .refl v
  met _ := False.elim
  unmet _ _ := rfl
  lists _ _ := id
  kept _ _ _ := id

theorem congr {done' : Nat → Prop} (h : Walked v done x) (hd : ∀ i, done' i ↔ done i) : Walked v done' x where
  only := h.only
  met i hi := h.met i ((hd i).1 hi)
  unmet i hi := h.unmet i fun hn => hi ((hd i).2 hn)
  lists := h.lists
  kept k i hi := h.kept k i fun hn => hi ((hd i).2 hn)

/-- One record met, for the first time or again. -/
theorem walkOrder (hv : TablesCanonical v) (h : Walked v done x) (j : Nat) :
    Walked v (fun i => done i ∨ i = j) (walkOrder j x) := by
  have htaken := RowTaken.walkOrder (h.only.tables hv) j
  have hrows := htaken.record
  rw [h.only.afterRows] at hrows
  refine ⟨h.only.trans htaken.only, fun i hi => ?_, fun i hi => ?_, fun k i hi => h.lists k i (htaken.lists k i hi),
    fun k i hi hm => ?_⟩
  · rw [hrows]
    split
    next hij =>
      subst hij
      by_cases hd : done i
      · rw [h.met i hd, rowRecord_twice]
      · rw [h.unmet i hd]
    next hij => exact h.met i (hi.resolve_right hij)
  · rw [not_or] at hi
    obtain ⟨hd, hij⟩ := hi
    rw [hrows, if_neg hij]
    exact h.unmet i hd
  · rw [not_or] at hi
    obtain ⟨hd, hij⟩ := hi
    exact htaken.kept k i hij (h.kept k i hd hm)

/-- A list walked from head to tail. -/
theorem walkList (hv : TablesCanonical v) (l : List Nat) (h : Walked v done x) :
    Walked v (fun i => done i ∨ i ∈ l) (l.foldl (fun y i => Machine.walkOrder i y) x) := by
  induction l generalizing done x with
  | nil => exact h.congr fun i => by simp
  | cons j l ih => exact (ih (h.walkOrder hv j)).congr fun i => by simp only [List.mem_cons, or_assoc]

/-- One kitchen walked: the orders of its list that had not been met are all still there. -/
theorem walkKitchen (hv : TablesCanonical v) (h : Walked v done x) (k : Nat) :
    Walked v (fun i => done i ∨ i ∈ production v k) (walkKitchen x k) :=
  (h.walkList hv (production x k)).congr fun i => by
    by_cases hd : done i
    · simp only [hd, true_or]
    · exact or_congr_right ⟨h.kept k i hd, h.lists k i⟩

/-- The first `n` kitchens walked. -/
theorem walkKitchens (hv : TablesCanonical v) (n : Nat) :
    Walked v (fun i => ∃ k, k < n ∧ i ∈ production v k) ((List.range n).foldl Machine.walkKitchen v) := by
  induction n with
  | zero => exact (start v).congr fun i => by simp
  | succ n ih =>
    rw [List.range_succ, List.foldl_append]
    refine (ih.walkKitchen hv n).congr fun i => ?_
    simp only [Nat.lt_succ_iff_lt_or_eq, or_and_right, exists_or, exists_eq_left]

/-- A record that held no order is as it was, met or not. -/
theorem record_of_none (h : Walked v done x) {i : Nat} (hn : orderAt v i = none) : orderRecord x i = orderRecord v i := by
  by_cases hd : done i
  · rw [h.met i hd, rowRecord_of_none hn]
  · exact h.unmet i hd

/-- An order met and still there has no row due. -/
theorem noRowDue_of_met (h : Walked v done x) {i : Nat} {o : Order} (hd : done i) (ho : orderAt x i = some o) :
    NoRowDue v o := by
  rw [orderAt, h.met i hd] at ho
  cases hb : (orderRecord v i).body with
  | none => exact absurd (ho.symm.trans ((congrArg Record.body (rowRecord_of_none hb)).trans hb)) nofun
  | some o' =>
    cases hf : afterRows v o' with
    | none =>
      rw [rowRecord_freed hb hf] at ho
      cases ho
    | some o'' =>
      rw [rowRecord_kept hb hf] at ho
      cases ho
      exact noRowDue_of_afterRows hf

end Walked

/-! ### The rows as equations of the state (R103 to R106) -/

theorem walkRow_of_order {row : Int → Nat → Order → State → State} {now : Int} {i : Nat} {o : Order}
    (ho : orderAt s i = some o) : walkRow row now i s = row now i o s := by
  rw [walkRow, ho]

/-- The link that an event carries is that of the order. -/
theorem linkDatum_eq (o : Order) : linkDatum o = match o.booking with
    | some k => .handle k
    | none => .none := by
  unfold linkDatum
  cases o.booking <;> rfl

end Sys2Proof.Machine

section Statements

open Sys2Proof Sys2Proof.Machine

/-- Settles O49: the Load Table by its cells, the walk by how far it has come, each row and the freeing of an order by
their equations. -/
theorem plannerBoundaryTakesEveryStepDue : Obligations.PlannerBoundaryTakesEveryStepDue := by
  refine ⟨fun b s u ht hs hclock hq => ?_, fun i y => rfl, fun i o now h link noted becomes y hy ho hh hlink hnoted hbecomes =>
    ?_, fun i o e y t hy ht => ?_⟩
  · have hus := hs.of_takePlanner ht
    have he : exec (.plannerBoundaryWork b) s = .next (doPlannerBoundary b u) := by
      rw [exec, execPlannerBoundaryWork, ht, whenTaken_some]
    have hv := boundaryStart_eq b u
    have hcell := fun (k : Nat) (hk : k < 8) => cellAt_boundaryStart (b := b) hus.loadTable hclock hk
    have hday : plannerDay (boundaryStart b u) = b.now.day := by
      rw [(boundaryStart_loadOnly b u).plannerDay, plannerDay_setPlannerNow hclock]
    have hidx : plannerIdx (boundaryStart b u) = b.now.quantum := by
      rw [(boundaryStart_loadOnly b u).plannerIdx, plannerIdx_setPlannerNow hclock]
    have hvs := boundaryStart_tables hus b
    generalize hvdef : boundaryStart b u = v at hv hcell hday hidx hvs
    have hwalk := Walked.walkKitchens hvs 8
    obtain ⟨t, htdef⟩ : ∃ t, t = (List.range 8).foldl walkKitchen v := ⟨_, rfl⟩
    rw [← htdef] at hwalk
    have hgained : EngineGained u t := by
      obtain ⟨ws, hws⟩ := hwalk.only.gained
      refine ⟨ws, ?_⟩
      rw [hwalk.only.eq, hv, hws, hv]
    have hrecord : ∀ i, orderRecord v i = orderRecord u i := fun i => by rw [hv]; rfl
    have hlists : ∀ k, production v k = production u k := fun k => by rw [hv]; rfl
    have hstart : cellAt (setPlannerNow b.now u) = cellAt { u with
      planner := { u.planner with now := some b.now } } := rfl
    refine ⟨t, v, by rw [he, htdef, ← hvdef]; rfl, hv, htdef, ?_, ?_, ?_, ?_, ?_, hgained, ?_, ?_, ?_, ?_,
      fun k hk => ?_, fun k h before hk h0 h1 hbefore => ?_, fun i o ho ⟨k, hk, hi⟩ => ?_, fun i hi => ?_,
      fun k hk i hi o ho => ?_⟩
    · rw [hwalk.only.eq]
    · rw [hwalk.only.eq, hv]
    · rw [hwalk.only.eq, hv]
    · rw [hwalk.only.eq, hv]
    · rw [hwalk.only.eq, hv]
      exact ⟨rfl, rfl, rfl, rfl, rfl, rfl, rfl, rfl, rfl, rfl, rfl⟩
    · rw [hwalk.only.eq, hv]
    · rw [hwalk.only.eq, hv]
    · rw [hwalk.only.eq, hv]
    · rw [hwalk.only.eq, hv]
    · rw [hwalk.only.cellAt, hcell k hk]
      split
      · rfl
      · rw [if_pos (by omega)]
    · rw [hwalk.only.cellAt, hcell k hk, hbefore, hstart]
      simp only [inSlice_loadKey h0 h1, noLoad]
    · rw [hwalk.met i ⟨k, hk, by rw [hlists]; exact hi⟩, hwalk.only.afterRows, hrecord]
      cases hf : afterRows v o with
      | none => exact rowRecord_freed ho hf
      | some o' => exact rowRecord_kept ho hf
    · rw [← hrecord]
      rcases hi with hn | hno
      · exact hwalk.record_of_none (by rw [orderAt, hrecord]; exact hn)
      · refine hwalk.unmet i fun ⟨k, hk, hm⟩ => hno k hk ?_
        rw [← hlists]
        exact hm
    · have hdue := hwalk.noRowDue_of_met ⟨k, hk, hwalk.lists k i hi⟩ ho
      unfold NoRowDue WastedDue ProductionDue DispatchDue UnconfirmedDue CloseDue at hdue
      simp only [hwalk.only.pidx, ← hidx]
      exact hdue
  · subst hh hlink hnoted
    have hwf := hy.orderRecords
    simp only [walkRow_of_order ho, hbecomes]
    refine ⟨rfl, ?_, ?_, ?_, ?_⟩
    · rw [walkProduction, advanceOrder_eq hwf, linkDatum_eq]
      rfl
    · rw [walkDispatch, advanceOrder_eq hwf, linkDatum_eq]
      rfl
    · rw [walkUnconfirmed, linkDatum_eq]
      rfl
    · rw [walkClose, linkDatum_eq]
      rfl
  · have hrecord := orderRecord_freeOrder hy.orderRecords i (o := o) (e := some e)
    refine ⟨?_, fun x hx => ?_, fun k => ?_, ?_⟩
    · rw [ht, hrecord, if_pos rfl]
    · rw [ht, hrecord, if_neg hx]
    · rw [ht]
      exact production_freeOrder hy.productionLists i k o (some e)
    · rw [ht, freeOrder_eq]
      rfl

end Statements
end

