-- ==== Sys2Proof/Proofs/LineLegality.lean ====
section
/-! PROOFS. What work at the panels' positions moves of a line, and the agreement of each line's timers with its chain
state through every command (R117, R123, R124, R127, R130, R131). -/

namespace Sys2Proof.Machine

/-! ### Work at the positions leaves the cycle and the chain state -/

/-- From `a` to `b` only the positions, the display update queue, the request number and CLEAR_ALL have moved. -/
def PanelsMoved (a b : Line) : Prop :=
  b = { a with positions := b.positions, queue := b.queue, reqno := b.reqno, clearAll := b.clearAll }

namespace PanelsMoved

variable {a b c : Line} {f : Filling}

theorem refl (a : Line) : PanelsMoved a a := rfl

theorem trans (h : PanelsMoved a b) (h' : PanelsMoved b c) : PanelsMoved a c :=
  Eq.trans h' (by rw [h])

theorem modifyAt (h : PanelsMoved a b) (p : Nat) (g : Position → Position) : PanelsMoved a (b.modifyAt p g) :=
  h.trans rfl

theorem modifyAll (h : PanelsMoved a b) (g : Nat → Position → Position) : PanelsMoved a (b.modifyAll g) :=
  List.foldlRecOn (motive := PanelsMoved a) _ _ h fun _ h p _ => h.modifyAt p (g p)

theorem setQueue (h : PanelsMoved a b) (q : List Nat) : PanelsMoved a { b with queue := q } := h.trans rfl

theorem enqueue (h : PanelsMoved a b) (p : Nat) : PanelsMoved a (b.enqueue p) := by
  rw [Line.enqueue_eq]
  exact h.setQueue _

theorem enqueueAll (h : PanelsMoved a b) (ps : List Nat) : PanelsMoved a (b.enqueueAll ps) :=
  List.foldlRecOn (motive := PanelsMoved a) _ _ h fun _ h p _ => h.enqueue p

/-! One deferred item, and a list of them (R119) -/

theorem displayRoom (h : PanelsMoved a b) (room : Nat) : PanelsMoved a (b.displayRoom room) := by
  cases hp : b.positionOf room with
  | none => rwa [Line.displayRoom_unbound hp]
  | some p =>
    rw [Line.displayRoom_bound hp]
    exact h.setQueue _

theorem applyDeferred (h : PanelsMoved a b) (d : Deferred) : PanelsMoved a (b.applyDeferred d) := by
  match d with
  | .binding p room => exact (h.modifyAt p _).enqueue p
  | .display room => exact h.displayRoom room
  | .clear (some p) => exact h.modifyAt p _
  | .clear none => exact (h.modifyAll fun _ q => clearedPosition q).trans rfl

theorem foldl_applyDeferred (h : PanelsMoved a b) (ds : List Deferred) :
    PanelsMoved a (ds.foldl (fun ln d => ln.applyDeferred d) b) :=
  List.foldlRecOn (motive := PanelsMoved a) _ _ h fun _ h d _ => h.applyDeferred d

/-- The deferred list applied leaves the list empty, and elsewhere what its items leave. -/
theorem applyDeferredList (a : Line) : PanelsMoved { a with deferred := [] } a.applyDeferredList :=
  (refl { a with deferred := [] }).foldl_applyDeferred a.deferred

/-! One uplink (R126) -/

theorem checkGeneration (h : PanelsMoved a b) (p : Nat) (x : Option Uplink) :
    PanelsMoved a (b.checkGeneration p x) := by
  rw [Line.checkGeneration_eq]
  exact (h.modifyAt p _).setQueue _

theorem newRequest (h : PanelsMoved a b) (p : Nat) (toggle : Bool) : PanelsMoved a (b.newRequest p toggle) :=
  h.trans rfl

theorem repeatRequest (h : PanelsMoved a b) (p : Nat) : PanelsMoved a (b.repeatRequest p) := by
  unfold Line.repeatRequest
  split
  · exact h.modifyAt p _
  · exact h

theorem storeAnswer (h : PanelsMoved a b) (p n : Nat) (x : PanelAnswer) : PanelsMoved a (b.storeAnswer p n x) := by
  unfold Line.storeAnswer
  dsimp only
  split
  · exact h.modifyAt p _
  · exact h

/-! The downlinks of a cycle (R165) -/

theorem placeReply (h : PanelsMoved a f.line) (p : Nat) : PanelsMoved a (placeReply f p).line := by
  unfold Machine.placeReply
  split
  · exact h.modifyAt p _
  · exact h

theorem placeDisplay (h : PanelsMoved a f.line) (s : State) (quiet : Bool) (p : Nat) :
    PanelsMoved a (placeDisplay s quiet f p).line := by
  unfold Machine.placeDisplay
  split
  · exact h.modifyAt p _
  · exact h.setQueue _

theorem placeBlank (h : PanelsMoved a f.line) (p : Nat) : PanelsMoved a (placeBlank f p).line := by
  unfold Machine.placeBlank
  split <;> exact h

theorem fillDownlinks (a : Line) (s : State) (quiet : Bool) : PanelsMoved a (fillDownlinks s quiet a).line := by
  have hreplies : PanelsMoved a (positionNumbers.foldl Machine.placeReply ⟨a, .empty⟩).line :=
    List.foldlRecOn (motive := fun f : Filling => PanelsMoved a f.line) _ _ (refl a) fun _ h p _ => h.placeReply p
  have hserved : PanelsMoved a (serveQueue s quiet (positionNumbers.foldl Machine.placeReply ⟨a, .empty⟩)).line :=
    List.foldlRecOn (motive := fun f : Filling => PanelsMoved a f.line) _ _ (hreplies.setQueue []) fun _ h p _ =>
      h.placeDisplay s quiet p
  unfold Machine.fillDownlinks
  dsimp only
  split
  · exact List.foldlRecOn (motive := fun f : Filling => PanelsMoved a f.line) _ _ hserved fun _ h p _ => h.placeBlank p
  · exact hserved

end PanelsMoved

/-! ### One line -/

/-- The chain states in which a cycle may be called for (R117, R124). -/
def Chain.cycles : Chain → Bool
  | .census | .running | .quiet => true
  | .offline | .draining | .faulted => false

/-- In the chain states that cycle, legality is the range of the tag and of the echo failures. -/
theorem LineLegal.of_cycles {a : Line} (hc : a.chain.cycles = true) (ht : a.tag ≤ 31) (he : a.echoFails ≤ 2) :
    LineLegal a :=
  ⟨by rintro (h | h | h) <;> simp [h, Chain.cycles] at hc, by rintro (h | h) <;> simp [h, Chain.cycles] at hc, ht, he⟩

/-- With both timers stopped, start due clear and no cycle in flight, so it is in every chain state. -/
theorem LineLegal.of_stopped {a : Line} (hp : a.pollTimer = none) (hd : a.startDue = false) (hf : a.inFlight = none)
    (hc : a.cycleTimer = none) (ht : a.tag ≤ 31) (he : a.echoFails ≤ 2) : LineLegal a :=
  ⟨fun _ => ⟨hp, hd⟩, fun _ => ⟨hf, hc⟩, ht, he⟩

namespace LineLegal

variable {a b : Line}

theorem tag (h : LineLegal a) : a.tag ≤ 31 := h.2.2.1

theorem echoFails (h : LineLegal a) : a.echoFails ≤ 2 := h.2.2.2

theorem panelsMoved (h : LineLegal a) (hm : PanelsMoved a b) : LineLegal b := by
  rw [hm]
  exact h

theorem gained (h : LineLegal a) (hg : LineGained a b) : LineLegal b := by
  obtain ⟨ws, rfl⟩ := hg
  exact h

theorem reset : LineLegal Line.reset := of_stopped rfl rfl rfl rfl (Nat.zero_le _) (Nat.zero_le _)

/-- A cycle's end leaves the poll timer, start due and the chain state (R123). -/
theorem endCycle (h : LineLegal a) : LineLegal a.endCycle := by
  obtain ⟨hpoll, -, ht, he⟩ := h
  exact ⟨hpoll, fun _ => ⟨rfl, rfl⟩, ht, he⟩

theorem completeCycle (h : LineLegal a) (hops : Nat) : LineLegal (a.completeCycle hops) := by
  obtain ⟨hpoll, hcycle, ht, -⟩ := h.endCycle
  exact ⟨hpoll, hcycle, ht, Nat.zero_le 2⟩

theorem failCycle (h : LineLegal a) : LineLegal a.failCycle := by
  obtain ⟨hpoll, hcycle, ht, -⟩ := h.endCycle
  exact ⟨hpoll, hcycle, ht, Nat.min_le_left 2 _⟩

/-- A start in a chain state that cycles: the tag is taken modulo 32 (R120). -/
theorem send (h : LineLegal a) (hc : a.chain.cycles = true) (p : Policy) (k : CycleKind) (slots : Table Downlink) :
    LineLegal (a.send p k slots) :=
  of_cycles hc (Nat.le_of_lt_succ (Nat.mod_lt _ (by decide))) h.echoFails

theorem setStartDue (h : LineLegal a) (hc : a.chain.cycles = true) : LineLegal { a with startDue := true } :=
  of_cycles hc h.tag h.echoFails

/-- Entry into a chain state that cycles. -/
theorem setChain (h : LineLegal a) {c : Chain} (hc : c.cycles = true) : LineLegal { a with chain := c } :=
  of_cycles hc h.tag h.echoFails

theorem applyDeferredList (h : LineLegal a) : LineLegal a.applyDeferredList :=
  panelsMoved (a := { a with deferred := [] }) h (.applyDeferredList a)

theorem applyHeldClears (h : LineLegal a) : LineLegal a.applyHeldClears :=
  panelsMoved (a := { a with deferred := a.deferred.filter (fun d => !d.isClear) }) h
    ((PanelsMoved.refl _).foldl_applyDeferred _)

theorem applyOrDefer (h : LineLegal a) (d : Deferred) : LineLegal (a.applyOrDefer d) := by
  unfold Line.applyOrDefer
  split
  · exact h
  · exact h.panelsMoved ((PanelsMoved.refl a).applyDeferred d)

/-- Entry into OFFLINE stops both timers (R130). -/
theorem goOffline (h : LineLegal a) : LineLegal a.goOffline := by
  have hstopped : LineLegal a.stopPoll.endCycle := of_stopped rfl rfl rfl rfl h.tag h.echoFails
  have hmoved := (PanelsMoved.refl a.stopPoll.endCycle).modifyAll fun _ q => offlinePosition q
  unfold Line.goOffline
  dsimp only
  rw [hmoved]
  exact of_stopped rfl rfl rfl rfl h.tag h.echoFails

/-- Entry into DRAINING stops the poll timer (R130). -/
theorem drain (h : LineLegal a) : LineLegal a.drain :=
  ⟨fun _ => ⟨rfl, rfl⟩, fun hc => (by rcases hc with hc | hc <;> cases hc), h.tag, h.echoFails⟩

/-- Entry into FAULTED stops both timers (R131). -/
theorem goFaulted (h : LineLegal a) (c : FaultCause) : LineLegal (a.goFaulted c) := by
  have hmoved : PanelsMoved { a.stopPoll.endCycle with deferred := [] }
      (a.stopPoll.endCycle.darken.applyDeferredList.modifyAll
        (fun _ q => { q with health := .absent, cause := some .chain })) := by
    have hdark : PanelsMoved a.stopPoll.endCycle a.stopPoll.endCycle.darken := (PanelsMoved.refl _).modifyAll _
    have hempty : PanelsMoved { a.stopPoll.endCycle with deferred := [] }
        { a.stopPoll.endCycle.darken with deferred := [] } := by
      rw [hdark]
      rfl
    exact (hempty.trans (.applyDeferredList _)).modifyAll _
  unfold Line.goFaulted
  dsimp only
  rw [hmoved]
  exact of_stopped rfl rfl rfl rfl h.tag h.echoFails

theorem setCensus (h : LineLegal a) (n : Nat) : LineLegal (a.setCensus n) := by
  have hset := h.panelsMoved ((PanelsMoved.refl a).modifyAll (censusPosition n))
  unfold Line.setCensus
  generalize a.modifyAll (censusPosition n) = b at hset ⊢
  exact panelsMoved (a := { b with census := some n, queue := [] }) hset ((PanelsMoved.refl _).enqueueAll _)

theorem arriveIf (h : LineLegal a) (p : Bool) (w : LineWork) : LineLegal (a.arriveIf p w) := by
  unfold Line.arriveIf
  split
  · exact h.gained (Line.arrive_gained w a)
  · exact h

/-- A tick: a stopped timer stays stopped (R2). -/
theorem tick (h : LineLegal a) : LineLegal a.tick := by
  refine arriveIf (arriveIf ?_ _ _) _ _
  obtain ⟨hpoll, hcycle, ht, he⟩ := h
  refine ⟨fun hc => ?_, fun hc => ?_, ht, he⟩
  · obtain ⟨hp, hd⟩ := hpoll hc
    exact ⟨by simp [hp], hd⟩
  · obtain ⟨hf, hcy⟩ := hcycle hc
    exact ⟨hf, by simp [hcy]⟩

/-- A line after WARM (R137). -/
theorem warm (l : Fin 4) (rooms : Table (Option RoomEntry)) (a : Line) : LineLegal (Line.warm l rooms a) := by
  refine panelsMoved (a := { Line.reset with wire := a.wire, now := a.now, intake := a.intake.filter keepsLine }) reset ?_
  refine List.foldlRecOn (motive := PanelsMoved _) _ _ (PanelsMoved.refl _) fun _ h _ _ => ?_
  split
  · split
    · exact h.modifyAt _ _
    · exact h
  · exact h

end LineLegal

/-! ### The work of a controller -/

theorem reportAbsent_lines (l : Fin 4) (p : Nat) (s : State) : (reportAbsent l p s).lines = s.lines := by
  unfold reportAbsent
  dsimp only
  split
  · split <;> simp
  · rfl

theorem reportReturned_lines (l : Fin 4) (p : Nat) (s : State) : (reportReturned l p s).lines = s.lines := by
  unfold reportReturned
  dsimp only
  split <;> simp

theorem finish_lines (r : Result) (body : List Field) (s : State) : (finish r body s).lines = s.lines := by simp

theorem finishThen_lines {f : State → State} (hf : ∀ u, (f u).lines = u.lines) (r : Result) (body : List Field)
    (s : State) : (finishThen r body f s).lines = s.lines := by
  unfold finishThen
  split
  · rfl
  · exact hf _

namespace LinesLegal

variable {l : Fin 4} {s t : State}

theorem same (h : LinesLegal s) (e : t.lines = s.lines := by simp) : LinesLegal t := fun l => e ▸ h l

theorem gained (h : LinesLegal s) (hg : LinesGained s t) : LinesLegal t := fun l => (h l).gained (hg l)

theorem ite {c : Prop} [Decidable c] (h : c → LinesLegal s) (h' : ¬ c → LinesLegal t) :
    LinesLegal (if c then s else t) := by
  split
  · exact h ‹_›
  · exact h' ‹_›

theorem updLine (h : LinesLegal s) {f : Line → Line}
    (hf : LineLegal (s.lines.get l) → LineLegal (f (s.lines.get l))) : LinesLegal (updLine l f s) := fun m => by
  rw [updLine_get]
  split
  · exact hf (h l)
  · exact h m

/-- Work at the positions of a line. -/
theorem movePanels (h : LinesLegal s) {f : Line → Line} (hf : PanelsMoved (s.lines.get l) (f (s.lines.get l))) :
    LinesLegal (Machine.updLine l f s) := h.updLine fun h => h.panelsMoved hf

theorem foldl {α : Type} {f : State → α → State} (hf : ∀ {t} a, LinesLegal t → LinesLegal (f t a)) (xs : List α)
    (h : LinesLegal s) : LinesLegal (xs.foldl f s) :=
  List.foldlRecOn xs f h fun _ ht a _ => hf a ht

/-! #### Cycles -/

theorem startCensus (h : LinesLegal s) (hc : (s.lines.get l).chain.cycles = true) : LinesLegal (startCensus l s) :=
  h.updLine fun h => h.send hc _ _ _

theorem startOrdinary (h : LinesLegal s) (hc : (s.lines.get l).chain.cycles = true) :
    LinesLegal (startOrdinary l s) := by
  refine h.updLine (f := fun _ => Line.send _ _ _ _) fun h => ?_
  have hm := PanelsMoved.fillDownlinks (s.lines.get l) s (decide ((s.lines.get l).chain = .quiet))
  exact (h.panelsMoved hm).send (by rw [hm]; exact hc) _ _ _

theorem startCycle (h : LinesLegal s) : LinesLegal (startCycle l s) := by
  unfold Machine.startCycle
  split <;> rename_i hc
  · exact h.startCensus (by rw [hc]; rfl)
  · exact h.startOrdinary (by rw [hc]; rfl)
  · exact h.startOrdinary (by rw [hc]; rfl)
  all_goals exact h

theorem nextCycle (h : LinesLegal s) : LinesLegal (nextCycle l s) := ite (fun _ => h.startCycle) fun _ => h

/-- A cycle is called for only in the chain states that cycle, so start due is never set in DRAINING (R124). -/
theorem callCycle (h : LinesLegal s) (hc : (s.lines.get l).chain.cycles = true) : LinesLegal (callCycle l s) :=
  ite (fun _ => h.updLine fun h => h.setStartDue hc) fun _ => h.startCycle

theorem goOffline (h : LinesLegal s) : LinesLegal (Machine.updLine l Line.goOffline s) := h.updLine fun h => h.goOffline

theorem fault (h : LinesLegal s) (c : FaultCause) : LinesLegal (fault l c s) :=
  (h.updLine (l := l) fun h => h.goFaulted c).same (by simp [Machine.fault])

theorem applyDeferred (h : LinesLegal s) : LinesLegal (applyDeferred l s) := h.updLine fun h => h.applyDeferredList

theorem withHeldClear (h : LinesLegal s) {rest : State → State}
    (hr : ∀ {u}, LinesLegal u → LinesLegal (rest u)) : LinesLegal (withHeldClear l rest s) :=
  (hr h).same (by rw [Machine.withHeldClear, replyClear_eq])

theorem afterEcho (h : LinesLegal s) : LinesLegal (afterEcho l s) := by
  have hnext := ite (c := 2 ≤ (s.lines.get l).echoFails) (fun _ => h.fault (l := l) .echo)
    fun _ => (h.applyDeferred (l := l)).nextCycle (l := l)
  unfold Machine.afterEcho
  dsimp only
  split
  · exact h.applyDeferred.goOffline
  · exact hnext
  · exact hnext
  · exact hnext
  · exact h.applyDeferred
  · exact h.applyDeferred

theorem echoFailure (h : LinesLegal s) : LinesLegal (echoFailure l s) :=
  ((h.updLine (f := Line.failCycle) fun h => h.failCycle).same (count_lines _ _)).withHeldClear afterEcho

/-! #### The uplinks of a cycle -/

theorem updateHealth (h : LinesLegal s) (p : Nat) (x : Option Uplink) : LinesLegal (updateHealth l p x s) := by
  cases x with
  | none =>
    have hmiss := (h.movePanels ((PanelsMoved.refl (s.lines.get l)).modifyAt p (missedPosition s.policy.deglitch))).same
      (count_lines (Counters.miss l) _)
    exact ite (fun _ => hmiss.same (reportAbsent_lines l p _)) fun _ => hmiss
  | some x =>
    have hheard := h.movePanels ((PanelsMoved.refl (s.lines.get l)).modifyAt p heardPosition)
    exact ite (fun _ => hheard.same (reportReturned_lines l p _)) fun _ => hheard

theorem selfAnswer (h : LinesLegal s) (p : Nat) (x : Uplink) (c : PanelCode) : LinesLegal (selfAnswer l p x c s) :=
  h.movePanels ((PanelsMoved.refl _).modifyAt p _)

theorem handOn (h : LinesLegal s) (p room : Nat) (x : Uplink) : LinesLegal (handOn l p room x s) :=
  ite (fun _ => h.same) fun _ => ite (fun _ => h.same) fun _ => ite (fun _ => h.same) fun _ =>
    ite (fun _ => h.same) fun _ => ite (fun _ => h.same) fun _ =>
      ite (fun _ => (h.same (t := postException _ _ s)).selfAnswer p x _) fun _ => h.selfAnswer p x _

theorem judgeRequest (h : LinesLegal s) (p : Nat) (x : Uplink) : LinesLegal (judgeRequest l p x s) := by
  refine ite (fun _ => h) fun _ => ite (fun _ => h.movePanels ((PanelsMoved.refl _).repeatRequest p)) fun _ => ?_
  have hnew : LinesLegal (Machine.updLine l (Line.newRequest p x.toggle) s) :=
    h.movePanels ((PanelsMoved.refl _).newRequest p x.toggle)
  dsimp only
  split
  · exact hnew.handOn p _ x
  · exact (hnew.same (t := postException _ _ _)).selfAnswer p x _

theorem noticeOccupancy (h : LinesLegal s) (p : Nat) (x : Uplink) : LinesLegal (noticeOccupancy l p x s) := by
  unfold Machine.noticeOccupancy
  split
  · exact ite (fun _ => h.same) fun _ => h
  · exact h

theorem lightPosition (h : LinesLegal s) (p : Nat) (x : Uplink) : LinesLegal (lightPosition l p x s) := by
  unfold Machine.lightPosition
  split
  · exact ite (fun _ => h.movePanels (((PanelsMoved.refl _).modifyAt p _).enqueue p)) fun _ => h
  · exact h

theorem takeUplink (h : LinesLegal s) (full quiet : Bool) (bytes : List Byte) (p : Nat) :
    LinesLegal (takeUplink l full quiet bytes s p) := by
  have hopen := ite (c := (full && (s.lines.get l).boundAt p) = true) (fun _ =>
    (h.updateHealth (l := l) p (uplinkAt bytes p)).movePanels (l := l) ((PanelsMoved.refl _).checkGeneration p (uplinkAt bytes p)))
    fun _ => h
  unfold Machine.takeUplink
  dsimp only
  split
  · exact hopen
  · rename_i x _
    have hasked := (hopen.judgeRequest (l := l) p x).noticeOccupancy (l := l) p x
    exact ite (fun _ => hasked.lightPosition p x) fun _ => hasked

theorem takeUplinks (h : LinesLegal s) (bytes : List Byte) : LinesLegal (takeUplinks l bytes s) :=
  ite (fun _ => h.foldl (fun p h => h.takeUplink _ _ bytes p) _) fun _ => h

/-! #### The end of a cycle -/

theorem drainOrNext (h : LinesLegal s) : LinesLegal (drainOrNext l s) :=
  ite (fun _ => h.goOffline) fun _ => h.nextCycle

theorem completeOrdinary (h : LinesLegal s) (hops : Nat) (bytes : List Byte) :
    LinesLegal (completeOrdinary l hops bytes s) :=
  ((h.updLine fun h => h.completeCycle hops).takeUplinks bytes).withHeldClear fun h =>
    (h.updLine fun h => h.applyHeldClears).applyDeferred.drainOrNext

theorem reportCensus (h : LinesLegal s) (n : Nat) : LinesLegal (reportCensus l n s) :=
  foldl (fun p h => h.same (reportAbsent_lines l p _)) _ h

theorem enterRun (h : LinesLegal s) : LinesLegal (enterRun l s) :=
  h.updLine (f := fun ln => { ln with window := windowNow l s, chain := if windowNow l s then .quiet else .running })
    fun h => .of_cycles (by dsimp only; split <;> rfl) h.tag h.echoFails

theorem completeCensus (h : LinesLegal s) (hops : Nat) : LinesLegal (completeCensus l hops s) := by
  have hcomplete := h.updLine (l := l) fun h => h.completeCycle hops
  refine ite (fun _ => ?_) fun _ => ?_
  · exact (hcomplete.updLine (f := fun ln => { ln with census := some 0 }) id).withHeldClear fun h => h.fault .empty
  · exact ((hcomplete.updLine fun h => h.setCensus hops).reportCensus hops).withHeldClear fun h => h.applyDeferred.enterRun.nextCycle

theorem completeCycle (h : LinesLegal s) (k : CycleKind) (hops : Nat) (bytes : List Byte) :
    LinesLegal (completeCycle l k hops bytes s) := by
  cases k with
  | ordinary => exact h.completeOrdinary hops bytes
  | census =>
    exact ite (fun _ => h.completeCensus hops) fun _ =>
      (h.updLine fun h => h.endCycle).withHeldClear fun h => h.applyDeferred.drainOrNext

theorem doFrame (h : LinesLegal s) (bytes : List Byte) : LinesLegal (doFrame l bytes s) := by
  unfold Machine.doFrame
  split
  · exact h
  · split
    · exact h.completeCycle _ _ bytes
    · exact h.echoFailure

theorem doCycleTimeout (h : LinesLegal s) : LinesLegal (doCycleTimeout l s) :=
  ite (fun _ => h.echoFailure) fun _ => h

theorem doPollExpiry (h : LinesLegal s) : LinesLegal (doPollExpiry l s) := by
  unfold Machine.doPollExpiry
  split <;> rename_i hc
  · exact h.callCycle (by rw [hc]; rfl)
  · exact h.callCycle (by rw [hc]; rfl)
  · exact h.callCycle (by rw [hc]; rfl)
  all_goals exact h

theorem doWirePulled (h : LinesLegal s) : LinesLegal (doWirePulled l s) :=
  ite (fun hc => h.callCycle (by rw [hc]; rfl)) fun _ => h

/-! #### Boundaries and host requests -/

theorem enterRunning (h : LinesLegal s) : LinesLegal (enterRunning l s) := by
  have hmoved : PanelsMoved { s.lines.get l with chain := .running }
      (Line.enqueueAll (s.lines.get l).boundPositions { (s.lines.get l).darken with chain := .running }) := by
    have hdark : PanelsMoved (s.lines.get l) (s.lines.get l).darken := (PanelsMoved.refl _).modifyAll _
    refine PanelsMoved.enqueueAll ?_ _
    rw [hdark]
    rfl
  refine callCycle (h.updLine fun h => (h.setChain rfl).panelsMoved hmoved) ?_
  rw [updLine_get, if_pos rfl, hmoved]
  rfl

theorem takeEdge (h : LinesLegal s) (w : Bool) : LinesLegal (takeEdge l w s) := by
  have hwindow : LinesLegal (Machine.updLine l (fun ln => { ln with window := w }) s) := h.updLine id
  exact ite (fun _ => hwindow.updLine fun h => h.setChain rfl) fun _ => ite (fun _ => hwindow.enterRunning) fun _ => hwindow

theorem doControllerBoundary (h : LinesLegal s) (b : Boundary) : LinesLegal (doControllerBoundary l b s) := by
  have hlit : LinesLegal (Machine.updLine l (fun ln => Line.expireLit b.now { ln with now := some b.now }) s) :=
    h.updLine fun h => LineLegal.panelsMoved (a := { s.lines.get l with now := some b.now }) h
      ((PanelsMoved.refl _).modifyAll _)
  exact ite (fun _ => hlit) fun _ => hlit.takeEdge _

theorem replyChain (h : LinesLegal s) : LinesLegal (replyChain l s) := h.same (by simp [Machine.replyChain])

theorem doStartChain (h : LinesLegal s) : LinesLegal (doStartChain l s) := by
  have hstart : LinesLegal (Machine.replyChain l (Machine.startCensus l (Machine.updLine l
      (fun ln => { ln with echoFails := 0, chain := .census, entered := none }) s))) :=
    (startCensus (h.updLine (f := fun ln => { ln with echoFails := 0, chain := .census, entered := none })
      fun h => .of_cycles rfl h.tag (Nat.zero_le 2)) (by rw [updLine_get, if_pos rfl]; rfl)).replyChain
  unfold Machine.doStartChain
  split
  · exact hstart
  · exact hstart
  all_goals exact h.same

theorem doStopChain (h : LinesLegal s) : LinesLegal (doStopChain l s) := by
  have hstop := ite (c := (s.lines.get l).inFlight.isSome = true)
    (fun _ => (h.updLine (l := l) fun h => h.drain).replyChain (l := l))
    fun _ => (h.goOffline (l := l)).replyChain (l := l)
  unfold Machine.doStopChain
  split
  · exact hstop
  · exact hstop
  · exact hstop
  · exact h.goOffline.replyChain
  · exact h.same
  · exact h.same

theorem doChainMode (h : LinesLegal s) (mode : Nat) : LinesLegal (doChainMode mode l s) := by
  unfold Machine.doChainMode
  split
  · exact ite (fun _ => h.replyChain) fun _ => ite (fun _ => h.same) fun _ =>
      (h.updLine fun h => h.setChain rfl).replyChain
  · exact ite (fun _ => h.enterRunning.replyChain) fun _ => h.replyChain
  all_goals exact h.same

theorem doClearPanelFault (h : LinesLegal s) (target : Option Nat) : LinesLegal (doClearPanelFault target l s) := by
  have hclear : LinesLegal (clearNow l target s) :=
    (h.movePanels ((PanelsMoved.refl _).applyDeferred (.clear target))).same (by simp [clearNow]; rfl)
  have hrun := ite (c := (s.lines.get l).inFlight.isSome = true)
    (fun _ => h.updLine (l := l) (f := fun ln => { ln with deferred := ln.deferred ++ [.clear target] }) id)
    fun _ => hclear
  unfold Machine.doClearPanelFault
  split
  · exact hrun
  · exact hrun
  all_goals exact h.same

/-! ### Steps that take work -/

theorem of_takeLine {w : LineWork} (h : LinesLegal s) (ht : takeLine l w s = some t) : LinesLegal t := by
  obtain ⟨_, rest, _, rfl⟩ := takeLine_eq_some.1 ht
  exact h.updLine (f := fun ln => { ln with intake := rest }) id

theorem of_takeHost {r : HostRequest} (h : LinesLegal s) (ht : takeHost r s = some t) : LinesLegal t := by
  obtain ⟨v, hv, rfl⟩ := Option.map_eq_some_iff.1 ht
  refine LinesLegal.same (s := v) ?_
  unfold takeFromOwner at hv
  split at hv
  · split at hv
    · cases hv; exact h
    · cases hv
  · obtain ⟨_, rest, _, rfl⟩ := takeEngine_eq_some.1 hv; exact h
  · obtain ⟨_, _, rest, _, rfl⟩ := takePlanner_eq_some.1 hv; exact h
  · exact h.of_takeLine hv

theorem hostStep {r : HostRequest} {run : State → State} (h : LinesLegal s) (he : hostStep r run s = .next t)
    (hr : ∀ {u}, LinesLegal u → LinesLegal (run u)) : LinesLegal t := by
  unfold Machine.hostStep at he
  cases ho : takeHost r s with
  | none => rw [ho] at he; cases he; exact h
  | some u => rw [ho] at he; cases he; exact hr (h.of_takeHost ho)

theorem lineStep {w : LineWork} {run : State → State} (h : LinesLegal s)
    (he : whenTaken (takeLine l w s) run s = .next t) (hr : ∀ {u}, LinesLegal u → LinesLegal (run u)) :
    LinesLegal t := by
  cases ho : takeLine l w s with
  | none => rw [ho] at he; cases he; exact h
  | some u => rw [ho] at he; cases he; exact hr (h.of_takeLine ho)

theorem pinEvent {w : LineWork} {run : State → State} (h : LinesLegal s) (he : pinEvent l w run s = .next t)
    (hr : ∀ {u}, LinesLegal u → LinesLegal (run u)) : LinesLegal t := by
  unfold Machine.pinEvent at he
  split at he
  · split at he
    · rename_i ht
      cases he; exact hr (h.of_takeLine ht)
    · split at he <;> cases he
      · exact hr h
      · exact h.updLine id
  · cases he; exact h

/-- A request that names a line, or none. -/
theorem lineRequest {n : Nat} {run : Fin 4 → State → State} (h : LinesLegal s)
    (hr : ∀ l, LinesLegal (run l s)) : LinesLegal (lineRequest n run s) := by
  unfold Machine.lineRequest
  split
  · exact hr _
  · exact h.same

/-! ### The clock and the host link -/

theorem withBoundaries (h : LinesLegal s) (bs : List Boundary) : LinesLegal (withBoundaries bs s) :=
  h.gained fun l => ⟨bs.map .boundary, by simp [Machine.withBoundaries]⟩

theorem enterQuantum (h : LinesLegal s) : LinesLegal (enterQuantum s) := by
  cases hn : s.clock.now with
  | none => exact h.same (by simp [Machine.enterQuantum, hn])
  | some now =>
    rw [enterQuantum_eq hn]
    exact (h.same (t := { s with clock := _ }) rfl).withBoundaries _

theorem settleClock (h : LinesLegal s) : LinesLegal (settleClock s) :=
  foldl (fun _ h => h.enterQuantum) _ (ite (fun _ => h.same) fun _ => h)

theorem trimForward (h : LinesLegal s) (k : Counting) : LinesLegal (trimForward k s) := by
  have hsettled := (h.same (t := setCount k s)).settleClock
  rw [trimForward_eq]
  exact ite (fun _ => hsettled) fun _ => hsettled.same

theorem replyClock (h : LinesLegal s) (r : Result) : LinesLegal (replyClock r s) := h.same (by simp [Machine.replyClock])

theorem doSetClock (h : LinesLegal s) (d q m : Nat) : LinesLegal (doSetClock d q m s) := by
  have hcount : ∀ k, LinesLegal (setCount k s) := fun _ => h.same
  have hheld : ∀ {u} x k, LinesLegal u → LinesLegal (reportHeld x k u) := fun _ _ h => h.same (by simp [reportHeld])
  have hhold : ∀ x k, LinesLegal (holdClock x k s) := fun _ _ => hheld _ _ (h.same rfl)
  refine ite (fun _ => h.replyClock _) fun _ => ?_
  dsimp only
  split
  · exact ite (fun _ => h.replyClock _) fun _ => ite (fun _ => h.replyClock _) fun _ =>
      ite (fun _ => (h.trimForward _).replyClock _) fun _ => ite (fun _ => (hcount _).replyClock _) fun _ =>
        (hhold _ _).replyClock _
  · exact ite (fun _ => h.replyClock _) fun _ => ite (fun _ => h.replyClock _) fun _ =>
      ite (fun _ => (h.trimForward _).replyClock _) fun _ => ite (fun _ => h.replyClock _) fun _ =>
        (hheld _ _ (hcount _)).replyClock _
  · refine replyClock (fun l => ?_) _
    simp only [startClock, Quad.get_map]
    exact h l

theorem doTick (h : LinesLegal s) : LinesLegal (doTick s) := fun l => by
  simp only [Machine.doTick, Quad.get_map]
  exact (h l).tick

theorem handTo (h : LinesLegal s) (r : HostRequest) : LinesLegal (handTo r s) := by
  unfold Machine.handTo
  split
  · exact h
  · exact h
  · exact h
  · exact h.updLine id

theorem enterSlot (h : LinesLegal s) (f : Frame) (r : HostRequest) : LinesLegal (enterSlot f r s) :=
  handTo (s := { s with link := { s.link with slot := some ⟨f.kind, f.tag, r, .handed⟩ } }) h r

theorem takeFrame (h : LinesLegal s) (f : Frame) : LinesLegal (takeFrame f s) := by
  unfold Machine.takeFrame
  split
  · exact h
  · dsimp only
    split
    · exact h
    · exact h
    · exact enterSlot (s := sentReplies s) h f _

theorem doHostByte (h : LinesLegal s) (b : Byte) (stop : Bool) : LinesLegal (doHostByte b stop s) := by
  have hhunt : ∀ {u : State}, LinesLegal u → LinesLegal (huntByte b stop u) := fun h => ite (fun _ => h) fun _ => h
  unfold Machine.doHostByte
  split
  · exact hhunt h
  · exact ite (fun _ => hhunt (u := dropFrame s) h) fun _ =>
      ite (fun _ => h) fun _ => ite (fun _ => ite (fun _ => h) fun _ => h) fun _ => h

theorem reportFrame (h : LinesLegal s) : LinesLegal (reportFrame s) := by
  unfold Machine.reportFrame
  dsimp only
  split
  · exact h.same
  · exact h

theorem doLoadRoomEngineCheck (h : LinesLegal s) (room : Nat) (e : RoomSpec) :
    LinesLegal (doLoadRoomEngineCheck room e s) := by
  unfold Machine.doLoadRoomEngineCheck
  split
  · exact h.same
  · split
    · exact h.same
    · rename_i x _ _ _
      have hroom : LinesLegal (dropLastEnd room x (setRoom room x s)) := ite (fun _ => h) fun _ => h
      have hshown := displayLoad_writes (Writes.refl .engine (dropLastEnd room x (setRoom room x s))) room
        (roomAt s room) x
      exact (hroom.gained fun l => hshown.lines l nofun).same

theorem powerOnValues (p : Power) (k : ResetCause) (rate : Fin 4) (s : State) :
    LinesLegal (powerOnValues p k rate s) := fun l => by
  simp only [Machine.powerOnValues, Quad.get_map]
  exact LineLegal.reset

theorem warmReset (s : State) : LinesLegal (warmReset s) := fun l => by
  fin_cases l <;> exact LineLegal.warm _ _ _

end LinesLegal

/-! ### Every command -/

variable {c : Instr} {l : Fin 4} {s t : State}

/-- A command of a Panel Line Controller keeps the lines legal. -/
theorem exec_line_legal (hc : lineOfWork c = some l) (hs : LinesLegal s) (h : exec c s = .next t) : LinesLegal t := by
  cases c with
  | startChain => exact hs.hostStep h fun h => h.lineRequest fun _ => h.doStartChain
  | stopChain => exact hs.hostStep h fun h => h.lineRequest fun _ => h.doStopChain
  | chainMode => exact hs.hostStep h fun h => .ite (fun _ => h.same) fun _ => h.lineRequest fun _ => h.doChainMode _
  | clearPanelFault =>
    exact hs.hostStep h fun h => .ite (fun _ => h.lineRequest fun _ => h.doClearPanelFault _) fun _ => h.same
  | readChain => exact hs.hostStep h fun h => h.lineRequest fun _ => h.same (finish_lines ..)
  | readPosition =>
    exact hs.hostStep h fun h => .ite (fun _ => h.lineRequest fun _ => h.same (finish_lines ..)) fun _ => h.same
  | readLineHealth => exact hs.hostStep h fun h => h.lineRequest fun _ => h.same (finish_lines ..)
  | controllerBoundaryWork => exact hs.lineStep h fun h => h.doControllerBoundary _
  | pollTimerExpiry => exact hs.lineStep h fun h => h.doPollExpiry
  | attentionWirePulled m =>
    simp only [exec, execAttentionWirePulled] at h
    split at h
    · rename_i ht
      cases h; exact (hs.of_takeLine ht).doWirePulled
    · split at h
      · cases h; exact hs
      · exact LinesLegal.pinEvent (s := setWire m true s) (hs.updLine id) h fun h => h.doWirePulled
  | attentionWireReleased => cases h; exact hs.updLine id
  | cycleReturn => exact hs.pinEvent h fun h => h.doFrame _
  | cycleTimeout => exact hs.lineStep h fun h => h.doCycleTimeout
  | panelAnswer => exact hs.lineStep h fun h => h.movePanels ((PanelsMoved.refl _).storeAnswer _ _ _)
  | displayUpdateRequest => exact hs.lineStep h fun h => h.updLine fun h => h.applyOrDefer _
  | bindingChange => exact hs.lineStep h fun h => h.updLine fun h => h.applyOrDefer _
  | _ => cases hc

/-- The steps of the clock keep the lines legal (R2 to R9). -/
theorem exec_clock_legal (hm : movesClock c = true) (hs : LinesLegal s) (h : exec c s = .next t) : LinesLegal t := by
  cases c with
  | timebaseTick =>
    simp only [exec, execTimebaseTick] at h
    split at h <;> cases h
    exacts [hs.doTick, hs]
  | quantumEntry =>
    simp only [exec, execQuantumEntry] at h
    split at h <;> cases h
    exacts [hs.enterQuantum, hs]
  | heldQuantumReached =>
    simp only [exec, execHeldQuantumReached] at h
    split at h <;> cases h
    exacts [hs.same, hs]
  | setClock d q m => exact hs.hostStep h fun h => h.settleClock.doSetClock d q m
  | _ => cases hm

/-- A reset, and every step of the supply, leaves lines that are legal (R181, R182). -/
theorem exec_reset_legal (hr : isReset c = true) (hs : LinesLegal s) (h : exec c s = .next t) : LinesLegal t := by
  cases c with
  | powerOn => cases h; exact .powerOnValues _ _ _ s
  | supplyLowReset =>
    simp only [exec, execSupplyLowReset] at h
    split at h <;> cases h
    exacts [.powerOnValues _ _ _ s, hs, hs, hs]
  | supplyRestored =>
    simp only [exec, execSupplyRestored] at h
    split at h <;> cases h
    exacts [hs, hs, hs, hs]
  | crystalStable =>
    simp only [exec, execCrystalStable] at h
    split at h <;> cases h
    exacts [.powerOnValues _ _ _ s, hs, hs, hs]
  | resetTakesEffect =>
    simp only [exec, execResetTakesEffect] at h
    split at h <;> cases h
    exacts [.powerOnValues _ _ _ s, .warmReset s, hs]
  | _ => cases hr

/-- Every command keeps the lines legal: the work of the engine and the planner sends them work and no more. -/
theorem exec_legal (hs : LinesLegal s) (h : exec c s = .next t) : LinesLegal t := by
  by_cases he : isEngineWork c = true
  · exact hs.gained fun l => (exec_writes_engine he h).lines l nofun
  by_cases hp : isPlannerWork c = true
  · exact hs.gained fun l => (exec_writes_planner hp h).lines l nofun
  by_cases hm : movesClock c = true
  · exact exec_clock_legal hm hs h
  by_cases hr : isReset c = true
  · exact exec_reset_legal hr hs h
  cases hw : lineOfWork c with
  | some l => exact exec_line_legal hw hs h
  | none =>
    have hnone : ∀ {n : Nat} {run : Fin 4 → State → State} {u : State}, lineOf? n = none → LinesLegal u →
        LinesLegal (lineRequest n run u) := fun hl h => by
      unfold lineRequest
      rw [hl]
      exact h.same
    cases c with
    | identify => exact hs.hostStep h fun h => h.same
    | readPolicy => exact hs.hostStep h fun h => h.same
    | getStatus n => exact hs.hostStep h fun h => .ite (fun _ => h.same) fun _ => h.same (by split <;> simp)
    | readReports q n =>
      exact hs.hostStep h fun {u} h =>
        .ite (fun _ => h.same (finishThen_lines (f := clearOvf) (fun _ => rfl) _ _ (removeEvents n u))) fun _ =>
          .ite (fun _ => h.same (finishThen_lines (f := clearOvf) (fun _ => rfl) _ _ (removeExceptions n u))) fun _ => h.same
    | readCounters n =>
      exact hs.hostStep h fun {u} h =>
        .ite (fun _ => h.same) fun _ => h.same (finishThen_lines (fun v => by split <;> rfl) _ _ u)
    | reset a b => exact hs.hostStep h fun h => h.same (by unfold doReset; split <;> simp)
    | setPolicy p => exact hs.hostStep h fun h => h.same (by unfold doSetPolicy; split <;> simp)
    | loadKitchen k e => exact hs.hostStep h fun h => .ite (fun _ => h) fun _ => h.same
    | loadDistance k b x => exact hs.hostStep h fun h => .ite (fun _ => h.same) fun _ => h.same
    | loadMenuClass a w l n => exact hs.hostStep h fun h => .ite (fun _ => h.same) fun _ => h.same
    | loadRoom room e => exact hs.hostStep h fun h => .ite (fun _ => h.same) fun _ => h.same
    | readRoom => exact hs.hostStep h fun h => .ite (fun _ => h.same) fun _ => h.same
    | readKitchen => exact hs.hostStep h fun h => .ite (fun _ => h.same) fun _ => h.same
    | readDistance => exact hs.hostStep h fun h => .ite (fun _ => h.same) fun _ => h.same
    | readMenuClass => exact hs.hostStep h fun h => .ite (fun _ => h.same) fun _ => h.same
    | startChain => exact hs.hostStep h fun h => hnone hw h
    | stopChain => exact hs.hostStep h fun h => hnone hw h
    | chainMode => exact hs.hostStep h fun h => .ite (fun _ => h.same) fun _ => hnone hw h
    | clearPanelFault => exact hs.hostStep h fun h => .ite (fun _ => hnone hw h) fun _ => h.same
    | readChain => exact hs.hostStep h fun h => hnone hw h
    | readPosition => exact hs.hostStep h fun h => .ite (fun _ => hnone hw h) fun _ => h.same
    | readLineHealth => exact hs.hostStep h fun h => hnone hw h
    | loadRoomEngineCheck room e =>
      simp only [exec, execLoadRoomEngineCheck] at h
      cases hu : takeEngine (.loadRoomCheck room e) s with
      | none => rw [hu] at h; cases h; exact hs
      | some u =>
        rw [hu] at h
        cases h
        obtain ⟨_, rest, _, rfl⟩ := takeEngine_eq_some.1 hu
        exact LinesLegal.doLoadRoomEngineCheck (s := { s with engine := { s.engine with intake := rest } }) hs room e
    | hostByteReceived b stop =>
      simp only [exec, execHostByteReceived] at h
      split at h <;> cases h
      exacts [hs.doHostByte b stop, hs]
    | interByteGapExpiry =>
      simp only [exec, execInterByteGapExpiry] at h
      split at h <;> cases h <;> exact hs
    | validFrame f =>
      simp only [exec, execValidFrame] at h
      cases hu : nextFrame f s with
      | none => rw [hu] at h; cases h; exact hs
      | some u =>
        rw [hu] at h
        cases h
        obtain ⟨_, _, _, rest, _, rfl⟩ := nextFrame_eq_some.1 hu
        exact (LinesLegal.reportFrame (s := { s with link := { s.link with frames := rest, trimmed := none } }) hs).takeFrame f
    | supervisionTimerExpiry =>
      simp only [exec, execSupervisionTimerExpiry, doSupervisionExpiry] at h
      split at h <;> cases h
      · exact hs.same (by split_ifs <;> simp)
      · exact hs
    | scanStepExpiry =>
      simp only [exec, execScanStepExpiry] at h
      split at h <;> cases h <;> exact hs
    | _ => simp_all [isEngineWork, isPlannerWork, lineOfWork, isReset, movesClock]

end Sys2Proof.Machine

section Statements

open Sys2Proof Sys2Proof.Machine

/-- Settles O58: work at the positions leaves what legality reads, a cycle is called for only in the chain states that
cycle, and entry into OFFLINE, DRAINING and FAULTED stops the timers that must stand. -/
theorem linesStayLegal : Obligations.LinesStayLegal := by
  intro s t hs h
  unfold step at h
  split at h
  · cases h
    exact hs
  · rename_i rest _
    exact exec_legal (s := s.withPending rest) hs h

end Statements
end

