-- ==== Sys2Proof/Proofs/ChainRequests.lean ====
section
/-! PROOFS. The start of a cycle, and the host requests that move a chain: StartChain, StopChain, ChainMode and
ClearPanelFault (R120, R124, R128, R130, R133, R145 to R147). -/

namespace Sys2Proof.Machine

variable {c : Instr} {l : Fin 4} {a b : Line} {s t u : State}

/-! ### The start of a cycle (R120, R124) -/

/-- A cycle of kind `k` is the one a line in chain state `c` starts. -/
def StartsKind (k : CycleKind) (c : Chain) : Prop :=
  (k = .census ∧ c = .census) ∨ (k = .ordinary ∧ (c = .running ∨ c = .quiet))

/-- A census cycle that starts is the start of R120, R121 and R128. -/
theorem send_census_cycleStarted (s : State) (a : Line) : CycleStarted s .census a (a.send s.policy .census .empty) := by
  rintro _ rfl
  rfl

/-- A cycle starts, of the kind the chain state calls for, and changes its own line alone. -/
theorem startCycle_cycleStarted {k : CycleKind} (h : (s.lines.get l).Canonical)
    (hk : StartsKind k (s.lines.get l).chain) :
    ∃ b, startCycle l s = { s with lines := s.lines.set l b } ∧ CycleStarted s k (s.lines.get l) b := by
  unfold startCycle
  rcases hk with ⟨rfl, hc⟩ | ⟨rfl, hc | hc⟩ <;> rw [hc]
  · exact ⟨_, rfl, send_census_cycleStarted s _⟩
  · exact startOrdinary_cycleStarted h
  · exact startOrdinary_cycleStarted h

/-- A start called for on an idle line. -/
theorem callCycle_idle {k : CycleKind} (h : (s.lines.get l).Canonical) (hk : StartsKind k (s.lines.get l).chain)
    (hf : (s.lines.get l).inFlight = none) :
    ∃ b, callCycle l s = { s with lines := s.lines.set l b } ∧ CycleStarted s k (s.lines.get l) b := by
  rw [callCycle, if_neg (by simp [hf])]
  exact startCycle_cycleStarted h hk

/-- A start called for with a cycle in flight is due at its end. -/
theorem callCycle_busy (hf : (s.lines.get l).inFlight ≠ none) :
    callCycle l s = { s with lines := s.lines.set l { s.lines.get l with startDue := true } } :=
  if_pos (Option.isSome_iff_ne_none.2 hf)

/-- A started cycle leaves the chain state. -/
theorem CycleStarted.chain {k : CycleKind} (h : CycleStarted s k a b) : b.chain = a.chain := by
  rw [h _ rfl]

/-- So does the entry into RUNNING, with or without its cycle (R133). -/
theorem EnteredRunning.chain (h : EnteredRunning s a b) : b.chain = .running := by
  obtain ⟨d, hd, -, hbusy, hidle⟩ := h
  by_cases hf : a.inFlight = none
  · rw [(hidle hf).chain, hd]
  · rw [hbusy hf, hd]

/-! ### Requests taken by a line -/

/-- A request for a line that is taken runs the work of that line. -/
theorem Taken.lineStep {r : HostRequest} (ht : Taken r s u) (run : Fin 4 → State → State) :
    Machine.hostStep r (lineRequest l.val run) s = .next (run l u) := by
  rw [ht.hostStep, lineRequest_val]

/-- A request for a line leaves, when taken, a canonical line. -/
theorem Taken.line {r : HostRequest} (ht : Taken r s u) (ho : ownerOf r = .line l) (hs : TablesCanonical s) :
    (u.lines.get l).Canonical :=
  ((Writes.of_takeHost (by rw [ho]; rfl) ht.2).sound.tables hs).line l

/-- The line of a request that is in range owns it. -/
theorem lineOwner_val (l : Fin 4) : lineOwner l.val = .line l := by
  simp [lineOwner, lineOf?]

/-- A request that changes its line and is answered. -/
theorem replies_line {r : Result} {body : List Field} (hu : ∃ sl, u.link.slot = some sl)
    (he : exec c s = .next (finish r body { u with lines := u.lines.set l b })) :
    ∃ t, exec c s = .next t ∧ Answered u t r body ∧ t = { u with lines := u.lines.set l b, link := t.link } := by
  obtain ⟨sl, hsl⟩ := hu
  exact ⟨_, he, answered_finish (w := { u with lines := u.lines.set l b }) hsl rfl r body, finish_eq ..⟩

/-- The reply that gives the chain state in force. -/
theorem replyChain_line (l : Fin 4) (b : Line) (u : State) : replyChain l { u with lines := u.lines.set l b } =
    finish .ok [.u8 (chainCode b.chain)] { u with lines := u.lines.set l b } := by
  simp [replyChain]

/-- A request that changes its line and is answered with the chain state then in force. -/
theorem replies_chain (hu : ∃ sl, u.link.slot = some sl)
    (he : exec c s = .next (replyChain l { u with lines := u.lines.set l b })) :
    ∃ t, exec c s = .next t ∧ Answered u t .ok [.u8 (chainCode b.chain)] ∧
      t = { u with lines := u.lines.set l b, link := t.link } :=
  replies_line hu (he.trans (congrArg Host.Outcome.next (replyChain_line l b u)))

/-! ### Fields out of range -/

/-- A line number above 3, an unknown mode and a position outside 1 to 48 are answered BAD_FIELD, whatever the owner. -/
theorem chainRequest_badField {n m : Nat} {p : Option Nat} {r : HostRequest}
    (hr : r = .startChain n ∨ r = .stopChain n ∨ r = .chainMode n m ∨ r = .clearPanelFault n p)
    (ht : Taken r s u) (hbad : 3 < n ∨ (r = .chainMode n m ∧ 1 < m) ∨
      (r = .clearPanelFault n p ∧ ∃ x, p = some x ∧ ¬(1 ≤ x ∧ x ≤ 48))) :
    RepliesOnly (commandOf r) s u .badField [] := by
  refine repliesOnly_of_finish ht.slot ?_
  rcases hr with rfl | rfl | rfl | rfl
  · have hn : 3 < n := by simpa using hbad
    exact (ht.hostStep _).trans (congrArg Host.Outcome.next (lineRequest_big hn _ u))
  · have hn : 3 < n := by simpa using hbad
    exact (ht.hostStep _).trans (congrArg Host.Outcome.next (lineRequest_big hn _ u))
  · refine (ht.hostStep _).trans (congrArg Host.Outcome.next ?_)
    split
    · rfl
    · have hn : 3 < n := by
        rcases hbad with hn | ⟨-, hm⟩ | ⟨hr, -⟩
        · exact hn
        · contradiction
        · cases hr
      exact lineRequest_big hn _ u
  · refine (ht.hostStep _).trans (congrArg Host.Outcome.next ?_)
    split
    · rename_i hp
      have hn : 3 < n := by
        rcases hbad with hn | ⟨hr, -⟩ | ⟨-, x, rfl, hx⟩
        · exact hn
        · cases hr
        · simp only [Option.all_some, positionOk, decide_eq_true_eq] at hp
          contradiction
      exact lineRequest_big hn _ u
    · rfl

/-! ### The work of each request by chain state -/

/-- A StartChain starts a census in OFFLINE and FAULTED (R128). -/
theorem doStartChain_stopped (hc : (u.lines.get l).chain = .offline ∨ (u.lines.get l).chain = .faulted) :
    doStartChain l u = replyChain l { u with lines := u.lines.set l (Line.send u.policy .census .empty
      { u.lines.get l with chain := .census, echoFails := 0, entered := none }) } := by
  unfold doStartChain
  rcases hc with hc | hc <;> rw [hc] <;> simp [startCensus, updLine]

theorem doStartChain_refused (hc : ¬((u.lines.get l).chain = .offline ∨ (u.lines.get l).chain = .faulted)) :
    doStartChain l u = finish .chainState [] u := by
  unfold doStartChain
  split <;> simp_all

theorem doStopChain_refused (hc : (u.lines.get l).chain = .offline ∨ (u.lines.get l).chain = .draining) :
    doStopChain l u = finish .chainState [] u := by
  unfold doStopChain
  rcases hc with hc | hc <;> rw [hc]

/-- A StopChain drains a line with a cycle in flight (R130). -/
theorem doStopChain_busy (hc : (u.lines.get l).chain = .census ∨ (u.lines.get l).chain = .running ∨
      (u.lines.get l).chain = .quiet) (hf : (u.lines.get l).inFlight ≠ none) :
    doStopChain l u = replyChain l { u with lines := u.lines.set l (u.lines.get l).drain } := by
  unfold doStopChain
  rcases hc with hc | hc | hc <;> rw [hc] <;> exact if_pos (Option.isSome_iff_ne_none.2 hf)

/-- A StopChain takes an idle line, or a FAULTED one, OFFLINE at once (R130). -/
theorem doStopChain_idle (hc : (u.lines.get l).chain = .faulted ∨ (((u.lines.get l).chain = .census ∨
      (u.lines.get l).chain = .running ∨ (u.lines.get l).chain = .quiet) ∧ (u.lines.get l).inFlight = none)) :
    doStopChain l u = replyChain l { u with lines := u.lines.set l (u.lines.get l).goOffline } := by
  unfold doStopChain
  rcases hc with hc | ⟨hc, hf⟩
  · rw [hc]
    rfl
  · rcases hc with hc | hc | hc <;> rw [hc] <;> exact if_neg (by simp [hf])

theorem doChainMode_refused {m : Nat} (hr : (u.lines.get l).chain ≠ .running) (hq : (u.lines.get l).chain ≠ .quiet) :
    doChainMode m l u = finish .chainState [] u := by
  unfold doChainMode
  split
  · exact absurd ‹_› hr
  · exact absurd ‹_› hq
  all_goals rfl

/-- A ChainMode in RUNNING: RUN stands, QUIET needs the clock (R133). -/
theorem doChainMode_running {m : Nat} (hc : (u.lines.get l).chain = .running) : doChainMode m l u =
    if m = 0 then replyChain l u else if u.clock.state = .unset then finish .clockNotSet [] u
    else replyChain l { u with lines := u.lines.set l (u.lines.get l).enterQuiet } := by
  unfold doChainMode
  rw [hc]
  rfl

/-- A ChainMode in QUIET: RUN enters RUNNING, QUIET stands (R133). -/
theorem doChainMode_quiet {m : Nat} (hc : (u.lines.get l).chain = .quiet) : doChainMode m l u =
    if m = 0 then replyChain l (enterRunning l u) else replyChain l u := by
  unfold doChainMode
  rw [hc]

/-- A ChainMode whose mode is in range runs the work of its line. -/
theorem exec_chainMode {m : Nat} (ht : Taken (.chainMode l.val m) s u) (hm : m ≤ 1) :
    exec (.chainMode l.val m) s = .next (doChainMode m l u) := by
  refine (ht.hostStep _).trans ?_
  rw [if_neg (by omega), lineRequest_val]

/-- So does a ClearPanelFault whose position, if it names one, is in range. -/
theorem exec_clearPanelFault {target : Option Nat} (ht : Taken (.clearPanelFault l.val target) s u)
    (hp : ∀ x, target = some x → 1 ≤ x ∧ x ≤ 48) :
    exec (.clearPanelFault l.val target) s = .next (doClearPanelFault target l u) := by
  have hok : target.all positionOk = true := by
    cases target with
    | none => rfl
    | some x => exact decide_eq_true (hp x rfl)
  refine (ht.hostStep _).trans ?_
  rw [if_pos hok, lineRequest_val]

/-- A ClearPanelFault is for RUNNING and QUIET lines (R145). -/
theorem doClearPanelFault_refused {target : Option Nat} (hr : (u.lines.get l).chain ≠ .running)
    (hq : (u.lines.get l).chain ≠ .quiet) : doClearPanelFault target l u = finish .chainState [] u := by
  unfold doClearPanelFault
  split
  · exact absurd ‹_› hr
  · exact absurd ‹_› hq
  all_goals rfl

/-- With a cycle in flight the clear is held in the deferred list (R146). -/
theorem doClearPanelFault_busy {target : Option Nat}
    (hc : (u.lines.get l).chain = .running ∨ (u.lines.get l).chain = .quiet) (hf : (u.lines.get l).inFlight ≠ none) :
    doClearPanelFault target l u = { u with
      lines := u.lines.set l { u.lines.get l with deferred := (u.lines.get l).deferred ++ [.clear target] } } := by
  unfold doClearPanelFault
  rcases hc with hc | hc <;> rw [hc] <;> exact if_pos (Option.isSome_iff_ne_none.2 hf)

/-- On an idle line the clear is applied and answered at once (R145). -/
theorem doClearPanelFault_idle {target : Option Nat}
    (hc : (u.lines.get l).chain = .running ∨ (u.lines.get l).chain = .quiet) (hf : (u.lines.get l).inFlight = none) :
    doClearPanelFault target l u = finish .ok
      (clearFields ((u.lines.get l).applyClear target) target (u.lines.get l).returnedCount)
      { u with lines := u.lines.set l ((u.lines.get l).applyClear target) } := by
  have hnow : clearNow l target u = finish .ok
      (clearFields ((u.lines.get l).applyClear target) target (u.lines.get l).returnedCount)
      { u with lines := u.lines.set l ((u.lines.get l).applyClear target) } := by
    simp only [clearNow, updLine, Quad.get_set, if_true]
  rw [← hnow]
  unfold doClearPanelFault
  rcases hc with hc | hc <;> rw [hc] <;> exact if_neg (by simp [hf])

/-- The fields that answer a clear, counted over the positions 1 to 48 (R145). -/
theorem clearFields_eq (a b : Line) (target : Option Nat) : clearFields b target a.returnedCount =
    match target with
    | some p => [.u8 (healthCode (b.at p).health), u8Field ((b.at p).cause.map absenceCode), .u8 (b.at p).misses]
    | none => [.u8 ((List.range 48).filter (fun i => decide ((a.at (i + 1)).health = .returned))).length,
        .u8 ((List.range 48).filter (fun i => decide ((b.at (i + 1)).bound ≠ none ∧
          (b.at (i + 1)).health ≠ .present))).length] := by
  cases target with
  | some p => rfl
  | none => rw [← Line.returnedCount_eq, ← Line.boundOut_eq]; rfl

end Sys2Proof.Machine

section Statements

open Sys2Proof Sys2Proof.Machine

/-- Settles O51: each request is a check of its fields and one branch of its work by the chain state. -/
theorem chainRequests : Obligations.ChainRequests := by
  refine ⟨fun n m p c r s u hr hc ht hbad => hc ▸ chainRequest_badField hr ht hbad, fun l s u ht => ?_,
    fun l s u ht hs => ⟨fun hc => ?_, fun hc hf => ?_, fun hc => ?_⟩,
    fun l m s u ht hs hm => ⟨fun hr hq => ?_, fun hc h0 => ?_, fun hc h1 => ?_, fun hc h1 hk => ?_, fun hc h1 hk => ?_,
      fun hc h0 => ?_⟩,
    fun l target s u ht hs hp => ⟨fun hr hq => ?_, fun hc hf => ?_, fun hc hf => ?_⟩⟩
  · have he : exec (.startChain l.val) s = .next (doStartChain l u) := ht.lineStep doStartChain
    split
    · rename_i hc
      rw [doStartChain_stopped hc] at he
      obtain ⟨t, het, hans, hteq⟩ := replies_chain ht.slot he
      exact ⟨t, _, het, hans, hteq, send_census_cycleStarted u _⟩
    · rename_i hc
      rw [doStartChain_refused hc] at he
      exact repliesOnly_of_finish ht.slot he
  · have he : exec (.stopChain l.val) s = .next (doStopChain l u) := ht.lineStep doStopChain
    rw [doStopChain_refused hc] at he
    exact repliesOnly_of_finish ht.slot he
  · have he : exec (.stopChain l.val) s = .next (doStopChain l u) := ht.lineStep doStopChain
    rw [doStopChain_busy hc hf] at he
    obtain ⟨t, het, hans, hteq⟩ := replies_chain ht.slot he
    exact ⟨t, het, hans, hteq⟩
  · have he : exec (.stopChain l.val) s = .next (doStopChain l u) := ht.lineStep doStopChain
    have hoff := Line.goOffline_spec (ht.line (lineOwner_val l) hs)
    rw [doStopChain_idle hc] at he
    obtain ⟨t, het, hans, hteq⟩ := replies_chain ht.slot he
    exact ⟨t, _, het, hans, hteq, hoff.1⟩
  · have he := exec_chainMode ht hm
    rw [doChainMode_refused hr hq] at he
    exact repliesOnly_of_finish ht.slot he
  · have he := exec_chainMode ht hm
    rw [doChainMode_running hc, if_pos h0, replyChain, hc] at he
    exact repliesOnly_of_finish ht.slot he
  · have he := exec_chainMode ht hm
    rw [doChainMode_quiet hc, if_neg (by omega), replyChain, hc] at he
    exact repliesOnly_of_finish ht.slot he
  · have he := exec_chainMode ht hm
    rw [doChainMode_running hc, if_neg (by omega), if_pos hk] at he
    exact repliesOnly_of_finish ht.slot he
  · have he := exec_chainMode ht hm
    rw [doChainMode_running hc, if_neg (by omega), if_neg hk] at he
    obtain ⟨t, het, hans, hteq⟩ := replies_chain ht.slot he
    exact ⟨t, het, hans, hteq⟩
  · have he := exec_chainMode ht hm
    obtain ⟨b, hb, hrun⟩ := enterRunning_enteredRunning (l := l) (u := u) (y := u.lines) rfl
      (ht.line (lineOwner_val l) hs) rfl (fun _ => rfl) fun p _ _ => ⟨_, rfl⟩
    rw [doChainMode_quiet hc, if_pos h0, hb] at he
    obtain ⟨t, het, hans, hteq⟩ := replies_chain ht.slot he
    rw [hrun.chain] at hans
    exact ⟨t, b, het, hans, hteq, hrun⟩
  · have he := exec_clearPanelFault ht hp
    rw [doClearPanelFault_refused hr hq] at he
    exact repliesOnly_of_finish ht.slot he
  · have he := exec_clearPanelFault ht hp
    rwa [doClearPanelFault_busy hc hf] at he
  · have he := exec_clearPanelFault ht hp
    obtain ⟨⟨hrest, hat⟩, -⟩ := Line.applyDeferred_spec (.clear target) (ht.line (lineOwner_val l) hs)
    rw [doClearPanelFault_idle hc hf, clearFields_eq] at he
    obtain ⟨t, het, hans, hteq⟩ := replies_line ht.slot he
    refine ⟨t, _, het, hteq, hrest, fun p h1 h2 => (hat p).trans ?_, hans⟩
    simp only [h1, h2, and_true]
    exact if_congr (and_congr_left' Or.comm) rfl rfl

end Statements
end

