-- ==== Sys2Proof/Proofs/CycleCalls.lean ====
section
/-! PROOFS. What calls for a cycle: the poll timer's expiry, and in QUIET the attention wire when it is pulled
(R121, R124, R125). -/

namespace Sys2Proof.Machine

variable {l : Fin 4} {s t u : State}

/-! ### The poll timer's expiry (R124) -/

/-- The expiry of the poll timer, taken, runs its work. -/
theorem exec_pollTimerExpiry (h : takeLine l .pollExpiry s = some u) :
    exec (.pollTimerExpiry l) s = .next (doPollExpiry l u) := by
  rw [exec, execPollTimerExpiry, h, whenTaken_some]

/-- In OFFLINE, DRAINING and FAULTED an expiry does nothing. -/
theorem doPollExpiry_stopped (hc : (u.lines.get l).chain = .offline ∨ (u.lines.get l).chain = .draining ∨
    (u.lines.get l).chain = .faulted) : doPollExpiry l u = u := by
  unfold doPollExpiry
  rcases hc with hc | hc | hc <;> rw [hc]

/-- In CENSUS, RUNNING and QUIET it calls for a cycle. -/
theorem doPollExpiry_cycles (hc : (u.lines.get l).chain = .census ∨ (u.lines.get l).chain = .running ∨
    (u.lines.get l).chain = .quiet) : doPollExpiry l u = callCycle l u := by
  unfold doPollExpiry
  rcases hc with hc | hc | hc <;> rw [hc]

theorem StartsKind.cycles {k : CycleKind} {c : Chain} (h : StartsKind k c) : c = .census ∨ c = .running ∨ c = .quiet := by
  rcases h with ⟨-, h⟩ | ⟨-, h⟩
  · exact .inl h
  · exact .inr h

/-! ### The attention wire (R125) -/

/-- A pull that waited, taken at the head of the intake, runs its work (log 19). -/
theorem exec_attentionWirePulled_taken (h : takeLine l .wirePulled s = some u) :
    exec (.attentionWirePulled l) s = .next (doWirePulled l u) := by
  rw [exec, execAttentionWirePulled, h]

/-- A pull that none waited for: of a pulled wire no event, of a released one an event at the pin (log 19). -/
theorem exec_attentionWirePulled_fresh (h : takeLine l .wirePulled s = none) : exec (.attentionWirePulled l) s =
    if (s.lines.get l).wire then .next s else pinEvent l .wirePulled (doWirePulled l) (setWire l true s) := by
  rw [exec, execAttentionWirePulled, h]

theorem takeLine_of_empty {w : LineWork} (h : (s.lines.get l).intake = []) : takeLine l w s = none := by
  unfold takeLine
  rw [h, ite_self]

theorem takeLine_of_head_ne {w v : LineWork} {ws : List LineWork} (h : (s.lines.get l).intake = w :: ws) (hw : w ≠ v) :
    takeLine l v s = none := by
  unfold takeLine
  rw [h]
  simp [hw]

theorem takeLine_of_stopped {w : LineWork} (h : s.power ≠ .running) : takeLine l w s = none := if_neg h

/-- A pin event that comes while nothing waits is taken at once (log 19). -/
theorem pinEvent_idle {w : LineWork} (hp : s.power = .running) (hi : (s.lines.get l).intake = [])
    (run : State → State) : pinEvent l w run s = .next (run s) :=
  pinEvent_taken (.inr ⟨hp, hi, rfl⟩) run

/-- A pin event that comes behind other work joins the intake (log 19). -/
theorem pinEvent_waits {w v : LineWork} {ws : List LineWork} (hp : s.power = .running)
    (hi : (s.lines.get l).intake = w :: ws) (hw : w ≠ v) (run : State → State) : pinEvent l v run s = .next { s with
      lines := s.lines.set l { s.lines.get l with intake := w :: ws ++ [v] } } := by
  rw [pinEvent, if_pos hp, takeLine_of_head_ne hi hw]
  dsimp only
  rw [if_neg (by simp [hi]), sendLine, updLine, Line.arrive, hi]

/-- The work of a pull: in QUIET it calls for a cycle, elsewhere it is nothing. -/
theorem doWirePulled_quiet (hc : (u.lines.get l).chain = .quiet) : doWirePulled l u = callCycle l u := if_pos hc

theorem doWirePulled_other (hc : (u.lines.get l).chain ≠ .quiet) : doWirePulled l u = u := if_neg hc

/-- A line whose wire already stands pulled. -/
theorem setWire_self (h : (s.lines.get l).wire = true) : setWire l true s = s :=
  updLine_self (by rw [← h])

/-- The line whose wire has been pulled. -/
theorem setWire_get (l : Fin 4) (up : Bool) (s : State) :
    (setWire l up s).lines.get l = { s.lines.get l with wire := up } := by
  rw [setWire, updLine_get, if_pos rfl]

/-- A pull of a released wire while nothing waits: the level, and the work at once. -/
theorem exec_attentionWirePulled_idle (hp : s.power = .running) (hw : (s.lines.get l).wire = false)
    (hi : (s.lines.get l).intake = []) :
    exec (.attentionWirePulled l) s = .next (doWirePulled l (setWire l true s)) := by
  rw [exec_attentionWirePulled_fresh (takeLine_of_empty hi), if_neg (by simp [hw]),
    pinEvent_idle (s := setWire l true s) hp (by rwa [setWire_get])]

end Sys2Proof.Machine

section Statements

open Sys2Proof Sys2Proof.Machine

/-- Settles O52: each event is taken and calls for a cycle, or is nothing in its chain state; a call is a start on an idle
line, and start due on a busy one. -/
theorem cycleCalls : Obligations.CycleCalls := by
  refine ⟨fun l s u ht => ⟨fun hc => ?_, fun hc hf => ?_, fun k hk hf hs => ?_⟩,
    fun l s hp hw hi hs => ⟨fun hc => ?_, fun hc hf => ?_, fun hc hf => ?_⟩,
    fun l s u ht hs => ⟨fun hc => ?_, fun hc hf => ?_, fun hc hf => ?_⟩,
    fun l s hp => ?_, fun l w ws s hp hw hi hne => ?_, fun l s hw hi => ?_, fun l s => rfl⟩
  · rw [exec_pollTimerExpiry ht, doPollExpiry_stopped hc]
  · rw [exec_pollTimerExpiry ht, doPollExpiry_cycles hc, callCycle_busy hf]
  · rw [exec_pollTimerExpiry ht, doPollExpiry_cycles (StartsKind.cycles hk)]
    obtain ⟨b, hb, hstart⟩ := callCycle_idle (((Writes.of_takeLine ht).sound.tables hs).line l) hk hf
    exact ⟨b, congrArg _ hb, hstart⟩
  · rw [exec_attentionWirePulled_idle hp hw hi, doWirePulled_other (by rwa [setWire_get])]
    rfl
  · rw [exec_attentionWirePulled_idle hp hw hi, doWirePulled_quiet (by rwa [setWire_get]),
      callCycle_busy (by rwa [setWire_get]), setWire_get, setWire, updLine, Quad.set_set]
  · rw [exec_attentionWirePulled_idle hp hw hi, doWirePulled_quiet (by rwa [setWire_get])]
    obtain ⟨b, hb, hstart⟩ := callCycle_idle (k := .ordinary) (l := l) (s := setWire l true s)
      (by rw [setWire_get]; exact hs.line l) (by rw [setWire_get]; exact .inr ⟨rfl, .inr hc⟩) (by rwa [setWire_get])
    rw [setWire_get] at hstart
    refine ⟨b, ?_, cycleStarted_lines hstart⟩
    rw [hb, setWire, updLine, Quad.set_set]
  · rw [exec_attentionWirePulled_taken ht, doWirePulled_other hc]
  · rw [exec_attentionWirePulled_taken ht, doWirePulled_quiet hc, callCycle_busy hf]
  · rw [exec_attentionWirePulled_taken ht, doWirePulled_quiet hc]
    obtain ⟨b, hb, hstart⟩ := callCycle_idle (k := .ordinary) (((Writes.of_takeLine ht).sound.tables hs).line l)
      (.inr ⟨rfl, .inr hc⟩) hf
    exact ⟨b, congrArg _ hb, hstart⟩
  · have hpin : pinEvent l .wirePulled (doWirePulled l) (setWire l true s) = .next (setWire l true s) := if_neg hp
    rw [exec_attentionWirePulled_fresh (takeLine_of_stopped hp), hpin]
    split
    · rename_i hw
      exact congrArg Host.Outcome.next (setWire_self hw).symm
    · rfl
  · rw [exec_attentionWirePulled_fresh (takeLine_of_head_ne hi hne), if_neg (by simp [hw]),
      pinEvent_waits (s := setWire l true s) hp (by rwa [setWire_get]) hne, setWire_get, setWire, updLine, Quad.set_set]
  · have hnone : takeLine l .wirePulled s = none := by
      rw [← Option.not_isSome_iff_eq_none, Option.isSome_iff_exists]
      rintro ⟨u, hu⟩
      obtain ⟨_, ws, hws, _⟩ := takeLine_eq_some.1 hu
      exact hi ws hws
    rw [exec_attentionWirePulled_fresh hnone, if_pos hw]

end Statements
end

