-- ==== Sys2Proof/Proofs/CycleEnds.lean ====
section
/-! PROOFS. The two endings of a cycle: the frame that completes it, and the echo failure (R119, R123, R126, R127, R129 to
R132, R143 to R148). -/

namespace Sys2Proof.Machine

variable {l : Fin 4} {a b : Line} {s t u : State}

/-! ### What a run of deferred items, and an entry into FAULTED, leave of a line -/

/-- One deferred item is work at the positions (R119). -/
theorem DeferredApplied.panelsMoved {d : Deferred} (h : DeferredApplied d a b) : PanelsMoved a b := by
  cases d with
  | binding p room =>
    have hb : b = _ := h
    rw [hb]
    rfl
  | display room =>
    obtain ⟨hbound, hunbound⟩ := h
    cases hp : a.positionOf room with
    | none =>
      rw [hunbound (Line.positionOf_eq_none.1 hp)]
      exact .refl a
    | some p =>
      obtain ⟨⟨h1, h2⟩, hroom, hleast⟩ := Line.positionOf_eq_some.1 hp
      rw [hbound p h1 h2 hroom hleast]
      exact (PanelsMoved.refl a).setQueue _
  | clear target =>
    obtain ⟨hrest, -⟩ := h
    rw [hrest]
    rfl

theorem DeferredRun.panelsMoved : ∀ {ds : List Deferred} {a b : Line}, DeferredRun ds a b → PanelsMoved a b
  | [], _, _, h => by rw [show _ = _ from h]; exact .refl _
  | _ :: _, _, _, ⟨_, h, h'⟩ => h.panelsMoved.trans h'.panelsMoved

/-- The last hop count, the tag and the now of a line stand at its entry into FAULTED (R131). -/
theorem Faulted.stands {c : FaultCause} (h : Faulted c a b) : b.lastHop = a.lastHop ∧ b.tag = a.tag ∧ b.now = a.now := by
  obtain ⟨m, n, hm, -, hrun, hb, -⟩ := h
  rw [hb, hrun.panelsMoved, hm]
  exact ⟨rfl, rfl, rfl⟩

/-! ### Reports posted beside the lines -/

/-- From `s` to `t` reports have been posted, and nothing else moves. -/
def Posted (s t : State) : Prop := t = { s with reports := t.reports, counters := t.counters }

theorem Posted.refl (s : State) : Posted s s := rfl

theorem Posted.postException (h : Posted s t) (k : ExcKind) (now : Option CTime) : Posted s (postException k now t) := by
  have hpost : Posted t (Machine.postException k now t) := postException_of_same rfl rfl
  exact Eq.trans hpost (by rw [h])

/-- What a controller places in its downlinks depends on no line of the state and on no report. -/
theorem fillDownlinks_reports (s : State) (x : Quad Line) (R : Reports) (C : Counters) (quiet : Bool) (ln : Line) :
    fillDownlinks { s with lines := x, reports := R, counters := C } quiet ln = fillDownlinks s quiet ln := by
  have hplace : placeDisplay { s with lines := x, reports := R, counters := C } quiet = placeDisplay s quiet := rfl
  unfold fillDownlinks serveQueue
  rw [hplace]

/-- A cycle's start reads neither the other lines nor the reports. -/
theorem CycleStarted.of_posted {k : CycleKind} {v : State} {x : Quad Line} (hv : Posted s v)
    (h : CycleStarted { v with lines := x } k a b) : CycleStarted s k a b := by
  rw [hv] at h
  cases k with
  | census => exact h
  | ordinary =>
    rintro _ rfl
    exact h _ (fillDownlinks_reports s x _ _ _ a).symm

/-! ### The next cycle, and an entry into FAULTED -/

/-- The next cycle starts if start due is set, of the kind the chain state calls for (R124). -/
theorem nextCycle_cycleStarted {k : CycleKind} (h : (s.lines.get l).Canonical)
    (hk : StartsKind k (s.lines.get l).chain) : ∃ c, nextCycle l s = { s with lines := s.lines.set l c } ∧
      if (s.lines.get l).startDue = true then CycleStarted s k (s.lines.get l) c else c = s.lines.get l := by
  unfold nextCycle
  split
  · exact startCycle_cycleStarted h hk
  · exact ⟨s.lines.get l, by rw [Quad.set_get], rfl⟩

/-- The line of a state in which it has just been written. -/
theorem get_setLine (l : Fin 4) (a : Line) (s : State) :
    ({ s with lines := s.lines.set l a } : State).lines.get l = a := by
  rw [Quad.get_set, if_pos rfl]

/-- An entry into FAULTED: the line, and the one exception with what the line held before (R131). -/
theorem fault_spec (cause : FaultCause) (h : a.Canonical) (hnow : a.now = (s.lines.get l).now) :
    fault l cause { s with lines := s.lines.set l a } =
      { postException (.chainFault l cause a.lastHop a.tag) (lineNow l s) s with
        lines := s.lines.set l (a.goFaulted cause) } ∧ Faulted cause a (a.goFaulted cause) := by
  have hf := (Line.goFaulted_spec cause h).1
  obtain ⟨hhop, htag, hn⟩ := hf.stands
  refine ⟨?_, hf⟩
  have hline : updLine l (Line.goFaulted cause) { s with lines := s.lines.set l a } =
      { s with lines := s.lines.set l (a.goFaulted cause) } := by
    rw [updLine, get_setLine, Quad.set_set]
  have hln : lineNow l { s with lines := s.lines.set l (a.goFaulted cause) } = lineNow l s := by
    unfold lineNow
    rw [get_setLine, hn, hnow]
  rw [fault, hline]
  dsimp only
  rw [get_setLine, hhop, htag, hln, postException_lines_set]

/-! ### The frame taken (R123) -/

/-- With no cycle in flight a frame, or a timeout, changes nothing. -/
theorem doFrame_idle (h : (s.lines.get l).inFlight = none) (bytes : List Byte) : doFrame l bytes s = s := by
  rw [doFrame, h]

theorem doCycleTimeout_idle (h : (s.lines.get l).inFlight = none) : doCycleTimeout l s = s := if_neg (by simp [h])

/-- A whole frame with the start mark and the tag gives its hop count. -/
theorem returnedHops_whole {bytes : List Byte} {tag : Nat} (hlen : 1251 ≤ bytes.length)
    (hmark : (bytes.getD 0 0).toNat = 0xE7) (htag : (bytes.getD 1 0).toNat / 8 = tag) :
    returnedHops bytes tag = some (bytes.getD 2 0).toNat := if_pos ⟨hlen, hmark, htag⟩

/-- A frame too short, of another mark or of another tag gives none. -/
theorem returnedHops_mismatch {bytes : List Byte} {tag : Nat} (h : bytes.length < 1251 ∨
    (bytes.getD 0 0).toNat ≠ 0xE7 ∨ (bytes.getD 1 0).toNat / 8 ≠ tag) : returnedHops bytes tag = none := by
  refine if_neg fun ⟨hlen, hmark, htag⟩ => ?_
  rcases h with h | h | h
  · exact absurd hlen (Nat.not_le.2 h)
  · exact h hmark
  · exact h htag

/-- The frame of a census cycle completes it. -/
theorem doFrame_census {bytes : List Byte} {tag hops : Nat} (hin : (s.lines.get l).inFlight = some (tag, .census))
    (hret : returnedHops bytes tag = some hops) : doFrame l bytes s = completeCycle l .census hops bytes s := by
  rw [doFrame, hin]
  dsimp only
  rw [hret]

/-- A mismatch is an echo failure (R127). -/
theorem doFrame_mismatch {bytes : List Byte} {tag : Nat} {k : CycleKind}
    (hin : (s.lines.get l).inFlight = some (tag, k)) (hret : returnedHops bytes tag = none) :
    doFrame l bytes s = echoFailure l s := by
  rw [doFrame, hin]
  dsimp only
  rw [hret]

/-- The work on a frame leaves a canonical line to what follows. -/
theorem PinTaken.exec_cycleReturn {bytes : List Byte} {s₀ : State} (h : PinTaken l (.frame bytes) s₀ s) :
    exec (.cycleReturn l bytes) s₀ = .next (doFrame l bytes s) := pinEvent_taken h _

theorem PinTaken.tables {w : LineWork} {s₀ : State} (h : PinTaken l w s₀ s) (hs : TablesCanonical s₀) :
    TablesCanonical s := by
  rcases h with h | ⟨-, -, rfl⟩
  · exact (Writes.of_takeLine h).sound.tables hs
  · exact hs

/-! ### The return of an ordinary cycle (R126) -/

/-- The echo-failure counters stand while uplinks are taken. -/
@[simp] theorem postException_echoFailures (k : ExcKind) (now : Option CTime) (s : State) :
    (postException k now s).counters.echoFailures = s.counters.echoFailures := by
  unfold postException
  split <;> rfl

theorem reportAbsent_echoFailures (l : Fin 4) (p : Nat) (s : State) :
    (reportAbsent l p s).counters.echoFailures = s.counters.echoFailures := by
  unfold reportAbsent
  dsimp only
  split
  · split <;> simp
  · rfl

theorem reportReturned_echoFailures (l : Fin 4) (p : Nat) (s : State) :
    (reportReturned l p s).counters.echoFailures = s.counters.echoFailures := by
  unfold reportReturned
  dsimp only
  split <;> simp

theorem updateHealth_echoFailures (l : Fin 4) (p : Nat) (x : Option Uplink) (s : State) :
    (updateHealth l p x s).counters.echoFailures = s.counters.echoFailures := by
  cases x with
  | none =>
    unfold updateHealth
    dsimp only
    split
    · exact reportAbsent_echoFailures ..
    · rfl
  | some x =>
    unfold updateHealth
    dsimp only
    split
    · exact reportReturned_echoFailures ..
    · rfl

theorem handOn_echoFailures (l : Fin 4) (p room : Nat) (x : Uplink) (s : State) :
    (handOn l p room x s).counters.echoFailures = s.counters.echoFailures := by
  unfold handOn selfAnswer
  split_ifs <;> simp

theorem judgeRequest_echoFailures (l : Fin 4) (p : Nat) (x : Uplink) (s : State) :
    (judgeRequest l p x s).counters.echoFailures = s.counters.echoFailures := by
  unfold judgeRequest refuseUnbound selfAnswer
  dsimp only
  split
  · rfl
  · split
    · rfl
    · split
      · rw [handOn_echoFailures, updLine_counters]
      · simp

theorem takeUplink_echoFailures (l : Fin 4) (full quiet : Bool) (bytes : List Byte) (p : Nat) (s : State) :
    (takeUplink l full quiet bytes s p).counters.echoFailures = s.counters.echoFailures := by
  have hnotice : ∀ (x : Uplink) (u : State), (noticeOccupancy l p x u).counters = u.counters := fun x u => by
    unfold noticeOccupancy
    split <;> [split; skip] <;> rfl
  have hlight : ∀ (x : Uplink) (u : State), (lightPosition l p x u).counters = u.counters := fun x u => by
    unfold lightPosition
    split <;> [split; skip] <;> rfl
  unfold takeUplink
  dsimp only
  split <;> split_ifs <;>
    simp only [hlight, hnotice, judgeRequest_echoFailures, updLine_counters, updateHealth_echoFailures]

theorem takeUplinks_echoFailures (l : Fin 4) (bytes : List Byte) (s : State) :
    (takeUplinks l bytes s).counters.echoFailures = s.counters.echoFailures := by
  unfold takeUplinks
  dsimp only
  split
  · exact List.foldlRecOn (motive := fun u : State => u.counters.echoFailures = s.counters.echoFailures) _ _ rfl
      fun u hu p _ => (takeUplink_echoFailures ..).trans hu
  · rfl

/-- What an ordinary cycle's return leaves of its line, `n` being the line the deferred list leaves (R126). -/
theorem CycleStarted.stands {k : CycleKind} (h : CycleStarted s k a b) :
    b.lastHop = a.lastHop ∧ b.echoFails = a.echoFails ∧ b.deferred = a.deferred ∧
      b.inFlight = some ((a.tag + 1) % 32, k) := by
  rw [h _ rfl]
  exact ⟨rfl, rfl, rfl, rfl⟩

theorem WentOffline.stands (h : WentOffline a b) (hd : a.deferred = []) :
    b.lastHop = a.lastHop ∧ b.echoFails = a.echoFails ∧ b.deferred = [] ∧ b.chain = .offline := by
  obtain ⟨hb, -⟩ := h
  rw [hb, hd]
  exact ⟨rfl, rfl, rfl, rfl⟩

theorem ordinaryReturn {bytes : List Byte} {tag hops : Nat} {s₀ : State} (ht : PinTaken l (.frame bytes) s₀ s)
    (hs : (s.lines.get l).Canonical) (hret : returnedHops bytes tag = some hops)
    (hin : (s.lines.get l).inFlight = some (tag, .ordinary))
    (hc : (s.lines.get l).chain = .running ∨ (s.lines.get l).chain = .quiet ∨ (s.lines.get l).chain = .draining) :
    ∃ t, exec (.cycleReturn l bytes) s₀ = .next t ∧ (t.lines.get l).lastHop = some hops ∧
      (t.lines.get l).echoFails = 0 ∧ (t.lines.get l).deferred = [] ∧
      t.counters.echoFailures = s.counters.echoFailures ∧
      ((s.lines.get l).chain = .draining → (t.lines.get l).chain = .offline) ∧
      ((s.lines.get l).chain ≠ .draining → (t.lines.get l).chain = (s.lines.get l).chain ∧
        if (s.lines.get l).startDue = true then
          (t.lines.get l).inFlight = some (((s.lines.get l).tag + 1) % 32, .ordinary)
        else (t.lines.get l).inFlight = none) := by
  have hul : (updLine l (Line.completeCycle hops) s).lines.get l = (s.lines.get l).completeCycle hops := by
    rw [updLine_get, if_pos rfl]
  have hup : Uplinked l (updLine l (Line.completeCycle hops) s)
      (takeUplinks l bytes (updLine l (Line.completeCycle hops) s)) :=
    (Uplinked.refl (by rw [hul]; exact hs)).takeUplinks bytes
  have hecho := takeUplinks_echoFailures l bytes (updLine l (Line.completeCycle hops) s)
  obtain ⟨hframe, -, -, m, n, hm, hn, hrun, hdrain⟩ :=
    completeOrdinary_spec (s := s) (t := completeOrdinary l hops bytes s) rfl hup.line.canonical hup.link rfl
  refine ⟨_, exec_cycleReturn_ordinary ht hin hret, ?_⟩
  generalize takeUplinks l bytes (updLine l (Line.completeCycle hops) s) = v at *
  generalize completeOrdinary l hops bytes s = t at *
  have hrest := hup.line.rest
  rw [hul] at hrest
  have hvc : (v.lines.get l).chain = (s.lines.get l).chain := by rw [hrest]; rfl
  have hvd : (v.lines.get l).startDue = (s.lines.get l).startDue := by rw [hrest]; rfl
  have hnv : PanelsMoved { v.lines.get l with deferred := [] } n := hm.panelsMoved.trans hn.panelsMoved
  obtain ⟨hhop, hfails, hdef, htag, hchain, hflight⟩ : n.lastHop = some hops ∧ n.echoFails = 0 ∧ n.deferred = [] ∧
      n.tag = (s.lines.get l).tag ∧ n.chain = (s.lines.get l).chain ∧ n.inFlight = none := by
    rw [hnv, hrest]
    exact ⟨rfl, rfl, rfl, rfl, rfl, rfl⟩
  rw [hvc] at hrun hdrain
  rw [hvd] at hrun
  have hcount : t.counters.echoFailures = s.counters.echoFailures := by rw [hframe]; exact hecho
  by_cases hd : (s.lines.get l).chain = .draining
  · obtain ⟨h1, h2, h3, h4⟩ := (hdrain hd).stands hdef
    exact ⟨h1.trans hhop, h2.trans hfails, h3, hcount, fun _ => h4, fun hn => absurd hd hn⟩
  · have hgo := hrun (hc.imp_right fun h => h.resolve_right hd)
    split at hgo
    · obtain ⟨h1, h2, h3, h4⟩ := hgo.stands
      refine ⟨h1.trans hhop, h2.trans hfails, h3.trans hdef, hcount, fun hn => absurd hn hd,
        fun _ => ⟨hgo.chain.trans hchain, ?_⟩⟩
      rw [if_pos ‹_›, h4, htag]
    · rw [hgo]
      refine ⟨hhop, hfails, hdef, hcount, fun hn => absurd hn hd, fun _ => ⟨hchain, ?_⟩⟩
      rw [if_neg ‹_›, hflight]

/-! ### The return of a census cycle (R129, R130) -/

/-- The line a census of `n` hops leaves, before the deferred list is applied. -/
theorem Line.setCensus_spec (n : Nat) (h : a.Canonical) :
    a.setCensus n = { a with
      census := some n, queue := boundNumbers a, positions := (a.setCensus n).positions } ∧
    (a.setCensus n).Canonical ∧
    ∀ p, (a.setCensus n).at p = if 1 ≤ p ∧ p ≤ 48 then censusPosition n p (a.at p) else a.at p := by
  obtain ⟨hrest, hwf, hat⟩ := Line.modifyAll_spec (censusPosition n) h
  have hbound : ({ a.modifyAll (censusPosition n) with census := some n, queue := [] } : Line).boundPositions =
      boundNumbers a := Line.boundPositions_eq fun p => by
    refine (congrArg Position.bound (hat p)).trans ?_
    split <;> rfl
  have hset : a.setCensus n = { a.modifyAll (censusPosition n) with
      census := some n, queue := boundNumbers a } := by
    rw [Line.setCensus]
    dsimp only
    rw [hbound, Line.enqueueAll_eq _ (hbound ▸ Line.boundPositions_nodup _), List.nil_append,
      List.filter_eq_self.2 fun p _ => decide_eq_true List.not_mem_nil]
  rw [hset]
  refine ⟨?_, hwf, hat⟩
  rw [hrest]

/-- The report of a bound position that is ABSENT (R148). -/
theorem reportAbsent_eq {p room : Nat} {q : Position} {c : Cause} (hq : (s.lines.get l).at p = q)
    (hb : q.bound = some room) (hc : q.cause = some c) : reportAbsent l p s = if s.policy.absentReport = true then
      postException (.panelAbsent l p room c q.misses) (lineNow l s) s else s := by
  unfold reportAbsent
  simp only [hq, hb, hc]

/-- PANEL_ABSENT for one position above the census count, on a line `m` whose now is that of `s` (R148). -/
theorem reportAbsent_census {m : Line} {v : State} {p room : Nat} {q : Position} (hv : Posted s v)
    (hm : m.at p = { q with
      health := .absent, cause := some .census, misses := 0, toggle := none, last := .none, unack := none
      litUntil := none })
    (hb : q.bound = some room) (hnow : m.now = (s.lines.get l).now) :
    reportAbsent l p { v with lines := s.lines.set l m } = if s.policy.absentReport = true then
        { postException (.panelAbsent l p room .census 0) (lineNow l s) v with lines := s.lines.set l m }
      else { v with lines := s.lines.set l m } := by
  have hpolicy : v.policy = s.policy := by rw [hv]
  have hln : lineNow l { v with lines := s.lines.set l m } = lineNow l s := by
    unfold lineNow
    rw [Quad.get_set, if_pos rfl, hnow, hv]
  have hget : ({ v with lines := s.lines.set l m } : State).lines.get l = m := by rw [Quad.get_set, if_pos rfl]
  rw [reportAbsent_eq ((congrArg (fun b : Line => b.at p) hget).trans hm) hb rfl, hln, postException_lines_set]
  exact if_congr (iff_of_eq (congrArg (fun P : Policy => P.absentReport = true) hpolicy)) rfl rfl

/-- PANEL_ABSENT for the bound positions above a census count: the reports alone move (R129, R148). -/
theorem reportCensus_eq {n : Nat} {m : Line} {v : State}
    (hm : ∀ p, 1 ≤ p → p ≤ 48 → m.at p = censusPosition n p ((s.lines.get l).at p))
    (hnow : m.now = (s.lines.get l).now)
    (hv : v = (List.range 48).foldl (fun x i => match ((s.lines.get l).at (i + 1)).bound with
        | some room => if n < i + 1 ∧ s.policy.absentReport = true then
            postException (.panelAbsent l (i + 1) room .census 0) (lineNow l s) x else x
        | none => x) s) :
    Posted s v ∧ reportCensus l n { s with lines := s.lines.set l m } = { v with lines := s.lines.set l m } := by
  have hlist : reportCensus l n { s with lines := s.lines.set l m } = (List.range 48).foldl (fun y i =>
      if m.boundAt (i + 1) then if decide (n < i + 1) then reportAbsent l (i + 1) y else y else y)
      { s with lines := s.lines.set l m } := by
    rw [reportCensus, get_setLine, List.foldl_filter, Line.boundPositions, List.foldl_filter, positionNumbers,
      List.foldl_map]
    rfl
  rw [hlist, hv]
  refine (List.foldl_rel (r := fun y x => Posted s x ∧ y = { x with lines := s.lines.set l m }) ⟨.refl s, rfl⟩ ?_)
  rintro i hi _ x ⟨hx, rfl⟩
  have hat := hm (i + 1) (by omega) (by have := List.mem_range.1 hi; omega)
  have hbound : (m.at (i + 1)).bound = ((s.lines.get l).at (i + 1)).bound := by rw [hat]; rfl
  unfold Line.boundAt
  rw [hbound]
  cases hb : ((s.lines.get l).at (i + 1)).bound with
  | none => exact ⟨hx, rfl⟩
  | some room =>
    by_cases hn : n < i + 1
    · rw [censusPosition, if_neg (by omega), if_neg (by omega)] at hat
      simp only [hn, Option.isSome_some, if_true, decide_true, true_and, reportAbsent_census hx hat hb hnow]
      split
      · exact ⟨hx.postException _ _, rfl⟩
      · exact ⟨hx, rfl⟩
    · simp only [hn, decide_false, if_false, false_and]
      exact ⟨hx, rfl⟩

/-- The deferred list applied in a state whose line `l` is `a`. -/
theorem applyDeferred_line (l : Fin 4) (a : Line) (s : State) : applyDeferred l { s with lines := s.lines.set l a } =
    { s with lines := s.lines.set l a.applyDeferredList } := by
  rw [applyDeferred, updLine, get_setLine, Quad.set_set]

/-- The window a line finds at the end of its census (R129, R132). -/
theorem windowNow_eq {w : Bool} (hw : w = true ↔ ∃ now, lineNow l s = some now ∧
    inWindow s.policy.quietWindow now.quantum = true) : windowNow l s = w := by
  rw [Bool.eq_iff_iff, hw, windowNow]
  cases lineNow l s <;> simp

/-- Entry into RUNNING or QUIET behind a census, in a state whose line `l` is `a`. -/
theorem enterRun_line {w : Bool} (hw : windowNow l { s with lines := s.lines.set l a } = w) :
    enterRun l { s with lines := s.lines.set l a } = { s with
      lines := s.lines.set l { a with window := w, chain := if w = true then .quiet else .running } } := by
  rw [enterRun, hw, updLine, get_setLine, Quad.set_set]

/-- A census of one hop or more: the marks and the reports, the deferred list, RUNNING or QUIET by the window, and the
next cycle (R129). -/
theorem completeCensus_spec {hops : Nat} (h : (s.lines.get l).Canonical) (hh : hops ≠ 0) {v : State}
    (hv : v = (List.range 48).foldl (fun x i => match ((s.lines.get l).at (i + 1)).bound with
        | some room => if hops < i + 1 ∧ s.policy.absentReport = true then
            postException (.panelAbsent l (i + 1) room .census 0) (lineNow l s) x else x
        | none => x) s)
    {w : Bool} (hw : w = true ↔ ∃ now, lineNow l s = some now ∧ inWindow s.policy.quietWindow now.quantum = true)
    {m a : Line} (hm : ((s.lines.get l).completeCycle hops).setCensus hops = m)
    (ha : a = { m.applyDeferredList with window := w, chain := if w = true then .quiet else .running }) :
    Posted s v ∧ ∃ c,
      completeCensus l hops s = replyClear l m.heldClear m.returnedCount { v with lines := s.lines.set l c } ∧
      if a.startDue = true then CycleStarted s .ordinary a c else c = a := by
  obtain ⟨hmr, hmc, hma⟩ := Line.setCensus_spec (a := (s.lines.get l).completeCycle hops) hops h
  rw [hm] at hmr hmc hma
  have hmnow : m.now = (s.lines.get l).now := by rw [hmr]; rfl
  obtain ⟨hpost, hreport⟩ := reportCensus_eq (l := l) (fun p h1 h2 => (hma p).trans (if_pos ⟨h1, h2⟩)) hmnow hv
  have hvlines : v.lines = s.lines := by rw [hpost]
  have hwin : windowNow l { v with lines := v.lines.set l m.applyDeferredList } = w := by
    refine windowNow_eq ?_
    have hln : lineNow l { v with lines := v.lines.set l m.applyDeferredList } = lineNow l s := by
      unfold lineNow
      rw [get_setLine, PanelsMoved.applyDeferredList m, ← hmnow, hpost]
    rw [hln, hw, hpost]
  have hmarked : updLine l (Line.setCensus hops) (updLine l (Line.completeCycle hops) s) =
      { s with lines := s.lines.set l m } := by
    simp only [updLine, Quad.get_set, if_true, Quad.set_set, hm]
  have hget := get_setLine l a v
  obtain ⟨c, hc, hnext⟩ := nextCycle_cycleStarted (k := .ordinary) (l := l) (s := { v with lines := v.lines.set l a })
    (by rw [hget, ha]; exact (Line.applyDeferredList_spec hmc).2)
    (by
      rw [hget, ha]
      refine .inr ⟨rfl, ?_⟩
      cases w
      · exact .inl rfl
      · exact .inr rfl)
  rw [hget] at hnext
  refine ⟨hpost, c, ?_, ?_⟩
  · rw [completeCensus, if_neg hh, hmarked, hreport, withHeldClear, ← hvlines, get_setLine, applyDeferred_line,
      enterRun_line hwin, ← ha, hc, Quad.set_set]
  · split
    · rw [if_pos ‹_›] at hnext
      exact hnext.of_posted hpost
    · rwa [if_neg ‹_›] at hnext

/-- A census of no hop faults the chain (R129, R131). -/
theorem completeCensus_empty (h : (s.lines.get l).Canonical)
    (ha : a = { (s.lines.get l).completeCycle 0 with census := some 0 }) :
    completeCensus l 0 s = replyClear l a.heldClear a.returnedCount
      { postException (.chainFault l .empty (some 0) (s.lines.get l).tag) (lineNow l s) s with
        lines := s.lines.set l (a.goFaulted .empty) } ∧ Faulted .empty a (a.goFaulted .empty) := by
  subst ha
  obtain ⟨hfault, hf⟩ := fault_spec (l := l) (s := s)
    (a := { (s.lines.get l).completeCycle 0 with census := some 0 }) .empty h rfl
  refine ⟨?_, hf⟩
  have hmarked : updLine l (fun ln => { ln with census := some 0 }) (updLine l (Line.completeCycle 0) s) =
      { s with lines := s.lines.set l { (s.lines.get l).completeCycle 0 with census := some 0 } } := by
    simp only [updLine, Quad.get_set, if_true, Quad.set_set]
  rw [completeCensus, if_pos rfl, hmarked, withHeldClear, get_setLine, hfault]
  rfl

/-- The deferred list applied and the line taken OFFLINE, in a state whose line `l` is `a` (R119, R130). -/
theorem goOffline_deferred (h : a.Canonical) (s : State) :
    updLine l Line.goOffline (applyDeferred l { s with lines := s.lines.set l a }) =
      { s with lines := s.lines.set l a.applyDeferredList.goOffline } ∧
    DeferredRun a.deferred { a with deferred := [] } a.applyDeferredList ∧
    WentOffline a.applyDeferredList a.applyDeferredList.goOffline := by
  obtain ⟨hrun, hn⟩ := Line.applyDeferredList_spec h
  refine ⟨?_, hrun, (Line.goOffline_spec hn).1⟩
  rw [applyDeferred_line, updLine, get_setLine, Quad.set_set]

/-- The end of a cycle in DRAINING. -/
theorem drainOrNext_draining (hc : a.chain = .draining) (s : State) :
    drainOrNext l (applyDeferred l { s with lines := s.lines.set l a }) =
      updLine l Line.goOffline (applyDeferred l { s with lines := s.lines.set l a }) := by
  refine if_pos ?_
  rw [applyDeferred_line, get_setLine, PanelsMoved.applyDeferredList a, ← hc]

/-- A census cycle that returns in DRAINING: nothing of the census is applied (R130, log 32). -/
theorem completeCycle_draining (hc : (s.lines.get l).chain = .draining) (hops : Nat) (bytes : List Byte)
    (ha : a = (s.lines.get l).endCycle) : completeCycle l .census hops bytes s =
      replyClear l a.heldClear a.returnedCount
        (updLine l Line.goOffline (applyDeferred l { s with lines := s.lines.set l a })) := by
  rw [← drainOrNext_draining (by rw [ha]; exact hc), ha, completeCycle, if_neg (by rw [hc]; decide), withHeldClear,
    updLine, get_setLine]

/-! ### An echo failure (R127) -/

/-- An echo failure in DRAINING. -/
theorem afterEcho_draining (hc : (s.lines.get l).chain = .draining) :
    afterEcho l s = updLine l Line.goOffline (applyDeferred l s) := by
  unfold afterEcho
  dsimp only
  rw [hc]

/-- An echo failure in CENSUS, RUNNING and QUIET: the second in a row faults the chain. -/
theorem afterEcho_cycles {k : CycleKind} (hk : StartsKind k (s.lines.get l).chain) : afterEcho l s =
    if 2 ≤ (s.lines.get l).echoFails then fault l .echo s else nextCycle l (applyDeferred l s) := by
  unfold afterEcho
  dsimp only
  rcases hk.cycles with hc | hc | hc <;> rw [hc]

/-- What follows an echo failure leaves the link. -/
theorem afterEcho_link (l : Fin 4) (s : State) : (afterEcho l s).link = s.link := by
  have hcycles : (if 2 ≤ (s.lines.get l).echoFails then fault l .echo s
      else nextCycle l (applyDeferred l s)).link = s.link := by
    split
    · simp [fault]
    · obtain ⟨c, hc⟩ := nextCycle_line l (applyDeferred l s)
      rw [hc]
      rfl
  unfold afterEcho
  dsimp only
  split
  · rfl
  · exact hcycles
  · exact hcycles
  · exact hcycles
  · rfl
  · rfl

/-- The first echo failure in a row: the deferred list, and the next cycle if start due is set (R124, R127). -/
theorem afterEcho_first {k : CycleKind} (h : a.Canonical) (hk : StartsKind k a.chain) (he : a.echoFails < 2)
    (s : State) : ∃ c, afterEcho l { s with lines := s.lines.set l a } = { s with lines := s.lines.set l c } ∧
      if a.startDue = true then CycleStarted s k a.applyDeferredList c else c = a.applyDeferredList := by
  have hmoved := PanelsMoved.applyDeferredList a
  have hget := get_setLine l a.applyDeferredList s
  obtain ⟨c, hc, hnext⟩ := nextCycle_cycleStarted (k := k) (l := l)
    (s := { s with lines := s.lines.set l a.applyDeferredList })
    (by rw [hget]; exact (Line.applyDeferredList_spec h).2) (by rw [hget, hmoved]; exact hk)
  have hdue : a.applyDeferredList.startDue = a.startDue := by rw [hmoved]
  rw [hget, hdue] at hnext
  refine ⟨c, ?_, ?_⟩
  · rw [afterEcho_cycles (by rwa [get_setLine]), get_setLine, if_neg (Nat.not_le.2 he), applyDeferred_line, hc,
      Quad.set_set]
  · split
    · rw [if_pos ‹_›] at hnext
      exact hnext.of_posted (.refl s)
    · rwa [if_neg ‹_›] at hnext

/-- The second echo failure in a row (R127, R131). -/
theorem afterEcho_second {k : CycleKind} (h : a.Canonical) (hk : StartsKind k a.chain) (he : 2 ≤ a.echoFails)
    (hnow : a.now = (s.lines.get l).now) : afterEcho l { s with lines := s.lines.set l a } =
      { postException (.chainFault l .echo a.lastHop a.tag) (lineNow l s) s with
        lines := s.lines.set l (a.goFaulted .echo) } ∧ Faulted .echo a (a.goFaulted .echo) := by
  rw [afterEcho_cycles (by rwa [get_setLine]), get_setLine, if_pos he]
  exact fault_spec .echo h hnow

/-- An echo failure counts, ends the cycle, and answers a clear held behind what follows (R127). -/
theorem echoFailure_eq {x : State} (ha : a = (u.lines.get l).failCycle)
    (hx : x = { u with counters := Counters.echo l u.counters }) : echoFailure l u =
      replyClear l a.heldClear a.returnedCount (afterEcho l { x with lines := x.lines.set l a }) := by
  subst ha hx
  rw [echoFailure, withHeldClear]
  dsimp only
  rw [count_lines, updLine_get, if_pos rfl]
  rfl

/-- The command that ends a cycle without its frame: the timeout, or a frame that does not match (R123). -/
theorem exec_echoFailure {c : Instr} {tag : Nat} {k : CycleKind} (hin : (u.lines.get l).inFlight = some (tag, k))
    (hc : (c = .cycleTimeout l ∧ takeLine l .cycleExpiry s = some u) ∨
      ∃ bytes, c = .cycleReturn l bytes ∧ PinTaken l (.frame bytes) s u ∧
        (bytes.length < 1251 ∨ (bytes.getD 0 0).toNat ≠ 0xE7 ∨ (bytes.getD 1 0).toNat / 8 ≠ tag)) :
    exec c s = .next (echoFailure l u) := by
  rcases hc with ⟨rfl, ht⟩ | ⟨bytes, rfl, ht, hbad⟩
  · rw [exec, execCycleTimeout, ht, whenTaken_some, doCycleTimeout, if_pos (by rw [hin]; rfl)]
  · rw [ht.exec_cycleReturn, doFrame_mismatch hin (returnedHops_mismatch hbad)]

end Sys2Proof.Machine

section Statements

open Sys2Proof Sys2Proof.Machine

/-- A piece of work whose last step answers the clear held on `a`: the rest of the state is what the work leaves in `w`,
and the clear is answered with what stands then (R146). -/
theorem replyClear_frame {l : Fin 4} {a b : Line} {s v w t : State} (hlink : v.link = s.link)
    (hw : w = { v with lines := s.lines.set l b }) (ht : t = replyClear l a.heldClear a.returnedCount w) :
    t = { v with lines := s.lines.set l b, link := t.link } ∧ t.lines.get l = b ∧
      HeldClearAnswered l a.deferred a s t := by
  have hframe : t = { w with link := t.link } := by rw [ht]; exact replyClear_eq ..
  subst hw
  refine ⟨hframe, ?_, ?_⟩
  · rw [hframe]
    exact (Quad.get_set ..).trans (if_pos rfl)
  · rw [ht]
    exact heldClearAnswered_replyClear hlink

/-- Settles O53: a frame completes its cycle, a mismatch or a timeout fails it; each ending is the line's own change, the
deferred list applied, and the reply of a held clear behind what follows. -/
theorem cycleEnds : Obligations.CycleEnds := by
  refine ⟨fun l bytes w ws s hp hi hw => pinEvent_waits hp hi hw _, fun l bytes s u ht hin => ?_, fun l s u ht hin => ?_,
    fun l bytes tag hops s₀ s ht hs hlen hmark htag hhops => ?_, fun l c s u tag k hs hin hc x a hx ha => ?_⟩
  · rw [ht.exec_cycleReturn, doFrame_idle hin]
  · rw [exec, execCycleTimeout, ht, whenTaken_some, doCycleTimeout_idle hin]
  · have hcan := hs.line l
    have hret := hhops ▸ returnedHops_whole hlen hmark htag
    refine ⟨fun hin hc => ordinaryReturn ht hcan hret hin hc, fun hin hc hh v hv w hw => ?_, fun hin hc hh => ?_,
      fun hin hc => ?_⟩
    · have he := ht.exec_cycleReturn
      rw [doFrame_census hin hret, completeCycle, if_pos hc] at he
      obtain ⟨hmr, hmc, hma⟩ := Line.setCensus_spec (a := (s.lines.get l).completeCycle hops) hops hcan
      generalize hm : ((s.lines.get l).completeCycle hops).setCensus hops = m at hmr hmc hma
      have hmd : m.deferred = (s.lines.get l).deferred := by rw [hmr]; rfl
      obtain ⟨hrun, -⟩ := Line.applyDeferredList_spec hmc
      obtain ⟨hpost, c, hcensus, hnext⟩ := completeCensus_spec hcan hh hv hw hm rfl
      have hdue : m.applyDeferredList.startDue = (s.lines.get l).startDue := by
        rw [PanelsMoved.applyDeferredList m, hmr]
        rfl
      rw [hdue] at hnext
      obtain ⟨hframe, hline, hheld⟩ := replyClear_frame (s := s) (v := v) (by rw [hpost]) (by rw [hpost]) hcensus
      rw [hmd] at hrun hheld
      rw [← hline] at hframe hnext
      exact ⟨_, { m with deferred := [] }, _, _, he, hframe, by rw [hmr]; rfl, hma, hrun, hheld, rfl, hnext⟩
    · subst hh
      have he := ht.exec_cycleReturn
      rw [doFrame_census hin hret, completeCycle, if_pos hc] at he
      obtain ⟨hcensus, hf⟩ := completeCensus_empty hcan rfl
      obtain ⟨hframe, -, hheld⟩ := replyClear_frame (s := s) (by simp) rfl hcensus
      exact ⟨_, _, _, _, he, rfl, hframe, rfl, hf, hheld⟩
    · have he := ht.exec_cycleReturn
      obtain ⟨hoff, hrun, hgone⟩ := goOffline_deferred (l := l) (a := (s.lines.get l).endCycle) hcan s
      have hdone := completeCycle_draining hc hops bytes rfl
      rw [hoff] at hdone
      rw [doFrame_census hin hret] at he
      obtain ⟨hframe, -, hheld⟩ := replyClear_frame rfl rfl hdone
      exact ⟨_, _, _, _, he, hframe, rfl, hrun, hgone, hheld⟩
  · have hcan : (u.lines.get l).Canonical := by
      rcases hc with ⟨-, ht⟩ | ⟨_, -, ht, -⟩
      · exact ((Writes.of_takeLine ht).sound.tables hs).line l
      · exact (ht.tables hs).line l
    have hafter := echoFailure_eq ha hx
    have hac : a.Canonical := by rw [ha]; exact hcan
    have hxl : x.lines = u.lines := by rw [hx]
    have hxk : x.link = u.link := by rw [hx]
    have hheld : HeldClearAnswered l a.deferred a u (echoFailure l u) := by
      rw [hafter]
      exact heldClearAnswered_replyClear (by rw [afterEcho_link, hx])
    refine ⟨_, (echoFailure l u).lines.get l, exec_echoFailure hin hc, hheld, fun hd => ?_, fun kind hk =>
      ⟨fun h0 => ?_, fun h1 => ?_⟩⟩
    · obtain ⟨hoff, hrun, hgone⟩ := goOffline_deferred (l := l) hac x
      rw [afterEcho_draining (by rwa [get_setLine]), hoff, hxl] at hafter
      obtain ⟨hframe, hline, -⟩ := replyClear_frame hxk rfl hafter
      rw [hline]
      exact ⟨hframe, _, hrun, hgone⟩
    · obtain ⟨b, hb, hnext⟩ := afterEcho_first (l := l) hac hk (by rw [ha, h0]; exact Nat.lt_succ_self 1) x
      rw [hb, hxl] at hafter
      obtain ⟨hframe, hline, -⟩ := replyClear_frame hxk rfl hafter
      rw [hline]
      exact ⟨hframe, _, (Line.applyDeferredList_spec hac).1, hnext⟩
    · have htwo : 2 ≤ a.echoFails := by
        rw [ha]
        exact Nat.le_min.2 ⟨Nat.le_refl 2, Nat.succ_le_succ h1⟩
      have hnow : a.now = (x.lines.get l).now := by rw [ha, hxl]
      have hln : lineNow l x = lineNow l u := by rw [hx]; rfl
      obtain ⟨hfault, hf⟩ := afterEcho_second hac hk htwo hnow
      rw [hfault, hxl, hln] at hafter
      obtain ⟨hframe, hline, -⟩ := replyClear_frame (s := u) (by simpa using hxk) rfl hafter
      rw [hline]
      exact ⟨hf, hframe⟩

end Statements
end

