-- ==== Sys2Proof/Proofs/WireLayouts.lean ====
section
/-! PROOFS. The layouts of §10.8: numbers read back from their bytes, the 16 bytes of each report record, the 1251 bytes
of a frame sent to the panels, and where a reader finds an uplink slot (R120, R152, R172, R175, R184). -/

namespace Sys2Proof.Machine

open Sys2Proof.Laws.RequestFits

/-! ### Numbers and their bytes (R184) -/

/-- The two bytes of a number of 16 bits, high byte first, give it back. -/
theorem bytes16_value {n : Nat} (h : n ≤ 65535) :
    (BitVec.ofNat 8 (n / 256)).toNat * 256 + (BitVec.ofNat 8 n).toNat = n := by
  simp only [BitVec.toNat_ofNat]
  omega

/-- The three bytes of a number of 24 bits, high byte first, give it back. -/
theorem bytes24_value {n : Nat} (h : n < 16777216) :
    ((BitVec.ofNat 8 (n / 65536)).toNat * 256 + (BitVec.ofNat 8 (n / 256)).toNat) * 256 + (BitVec.ofNat 8 n).toNat =
      n := by
  simp only [BitVec.toNat_ofNat]
  omega

/-- The bytes of a word of 16 bits are its upper and its lower half. -/
theorem enc16_toNat (c : BitVec 16) : enc16 c.toNat = [c.extractLsb' 8 8, c.extractLsb' 0 8] := by
  have hi : BitVec.ofNat 8 (c.toNat / 256) = c.extractLsb' 8 8 :=
    BitVec.eq_of_toNat_eq (by simp [Nat.shiftRight_eq_div_pow])
  have lo : BitVec.ofNat 8 c.toNat = c.extractLsb' 0 8 := BitVec.eq_of_toNat_eq (by simp)
  simp only [enc16, hi, lo]

/-- The four bytes of a number are its digits to the base 256, the highest first. -/
theorem enc32_digits (n : Nat) : enc32 n = (List.range 4).map (fun i => BitVec.ofNat 8 (n / 256 ^ (3 - i))) := by
  have h : n / 65536 / 256 = n / 16777216 := Nat.div_div_eq_div_mul ..
  simp [enc32, enc16, List.range_succ, h]

/-- A time that may be absent: its day and its quantum, or 0xFF throughout. -/
theorem encTime?_eq (x : Option CTime) :
    encTime? x = match x with | some x => enc16 x.day ++ enc16 x.quantum | none => List.replicate 4 0xFF := by
  cases x <;> rfl

/-- A time is read back from its four bytes. -/
theorem timeAt_encTime {x : CTime} (hd : x.day ≤ 65535) (hq : x.quantum ≤ 65535) : timeAt (encTime x) 0 = x :=
  congrArg₂ CTime.mk (bytes16_value hd) (bytes16_value hq)

/-- A handle is read back from its bytes, whatever follows them. -/
theorem handleAt_encHandle {h : Handle} (rest : List Byte) (hi : h.index ≤ 65535) (hg : h.gen ≤ 255) :
    handleAt (encHandle h ++ rest) 0 = h :=
  congrArg₂ Handle.mk (bytes16_value hi) (Nat.mod_eq_of_lt (Nat.lt_succ_of_le hg))

/-- A token is read back from its four bytes. -/
theorem tokenAt_enc32 (x : Token) : tokenAt (enc32 x.toNat) 0 = x := by
  have hx : x.toNat < 4294967296 := x.isLt
  have hi : u16At (enc32 x.toNat) 0 = x.toNat / 65536 := bytes16_value (by omega)
  have lo : u16At (enc32 x.toNat) 2 = x.toNat % 65536 := by
    change (BitVec.ofNat 8 (x.toNat / 256)).toNat * 256 + (BitVec.ofNat 8 x.toNat).toNat = _
    simp only [BitVec.toNat_ofNat]
    omega
  rw [tokenAt, hi, lo, Nat.div_add_mod', BitVec.ofNat_toNat, BitVec.setWidth_eq]

/-! ### Reply frames (R172) -/

/-- A reply frame with its body's bytes and the five bytes before them named. -/
theorem Reply.wire_eq (r : Reply) {bs head : List Byte} (hbs : bs = r.body.flatMap Field.wire)
    (hhead : head = [BitVec.ofNat 8 (bs.length + 2), BitVec.ofNat 8 (r.kind + 0x80), BitVec.ofNat 8 r.tag, r.summary,
      BitVec.ofNat 8 (resultCode r.result)]) :
    r.wire = 0xA5 :: (head ++ bs ++
      [(crc16 (head ++ bs)).extractLsb' 8 8, (crc16 (head ++ bs)).extractLsb' 0 8]) := by
  subst hbs hhead
  rw [← enc16_toNat]
  rfl

/-! ### Report records (R175) -/

/-- A detail or an extra takes four bytes. -/
@[simp] theorem Datum.wire_length (d : Datum) : d.wire.length = 4 := by
  cases d <;> rfl

/-- Quantum, room and generation inside their bits of the packed word of an event record lose nothing. -/
theorem packed_eq {q r g : Nat} (hq : q ≤ 511) (hr : r ≤ 511) (hg : g ≤ 63) :
    q % 512 * 32768 + r % 512 * 64 + g % 64 = q * 32768 + r * 64 + g := by
  rw [Nat.mod_eq_of_lt (Nat.lt_succ_of_le hq), Nat.mod_eq_of_lt (Nat.lt_succ_of_le hr),
    Nat.mod_eq_of_lt (Nat.lt_succ_of_le hg)]

/-- The byte that carries an event's kind. -/
theorem eventCode_lt (k : EventKind) : eventCode k < 256 := by
  cases k <;> decide

@[simp] theorem EventRecord.wire_length (e : EventRecord) : e.wire.length = 16 := by
  simp [EventRecord.wire]

/-- The packed word of an event record, read back. -/
theorem EventRecord.wire_packed {e : EventRecord} (hq : e.now.quantum ≤ 511) (hr : e.room ≤ 511)
    (hg : e.subject.gen ≤ 63) : u24At e.wire 3 = e.now.quantum * 32768 + e.room * 64 + e.subject.gen := by
  rw [← packed_eq hq hr hg]
  exact bytes24_value (by omega)

/-- The arguments of an exception leave room for its kind and its stamp. -/
theorem ExcKind.args_length_le (k : ExcKind) : k.args.length ≤ 11 := by
  cases k with
  | chainFault l c h t => cases h <;> simp [ExcKind.args, enc16?, encAbsent]
  | bookingPoolEmpty r src => cases src <;> simp [ExcKind.args, encAbsent]
  | orderPoolEmpty r => simp [ExcKind.args, encAbsent]
  | _ => simp [ExcKind.args]

/-- The bytes of an exception record: kind, stamp, arguments, and zeros up to 16. -/
theorem ExcRecord.wire_eq (k : ExcKind) (now : Option CTime) :
    ExcRecord.wire ⟨k, now⟩ =
      enc8 k.code ++ encTime? now ++ k.args ++ List.replicate (11 - k.args.length) 0 := by
  have h : 16 - (1 + (4 + k.args.length)) = 11 - k.args.length := by omega
  simp [ExcRecord.wire, h]

@[simp] theorem ExcRecord.wire_length (e : ExcRecord) : e.wire.length = 16 := by
  have h := e.kind.args_length_le
  rw [show e = ⟨e.kind, e.now⟩ from rfl, ExcRecord.wire_eq]
  simp
  omega

/-! ### The slots of a frame sent to the panels (R120) -/

/-- A downlink slot takes 18 bytes. -/
@[simp] theorem Downlink.wire_length (d : Downlink) : d.wire.length = 18 := by
  cases d with
  | display d => simp [Downlink.wire, optLength _ _ 4 (fun _ => enc32_length _)]
  | reply r => simp [Downlink.wire]
  | _ => rfl

/-- In blocks of equal length `w`, laid one after another, the block of the element at place `i` stands at `i * w`. -/
theorem take_drop_flatMap {α β : Type} {f : α → List β} {w : Nat} (hf : ∀ a, (f a).length = w) :
    ∀ {l : List α} {i : Nat} {a : α}, l[i]? = some a → ((l.flatMap f).drop (i * w)).take w = f a
  | x :: l, 0, a, h => by
    obtain rfl : x = a := by simpa using h
    simp [hf]
  | x :: l, i + 1, a, h => by
    have ih := take_drop_flatMap hf (l := l) (i := i) (a := a) (by simpa using h)
    have hx : (f x).drop ((i + 1) * w) = [] := List.drop_eq_nil_of_le (by rw [hf, Nat.succ_mul]; omega)
    have hi : (i + 1) * w - w = i * w := by rw [Nat.succ_mul, Nat.add_sub_cancel]
    rw [List.flatMap_cons, List.drop_append, hx, hf, hi, List.nil_append, ih]

/-- The header byte of a frame that holds its tag and its three flags. -/
def OutFrame.flags (f : OutFrame) : Nat :=
  (if f.census then 4 else 0) + (if f.quiet then 2 else 0) + (if f.clearAll then 1 else 0)

theorem OutFrame.flags_lt (f : OutFrame) : f.flags < 8 := by
  rw [OutFrame.flags]
  split_ifs <;> decide

/-- The flags stand in bits 2, 1 and 0. -/
theorem OutFrame.flags_testBit (f : OutFrame) :
    f.flags.testBit 2 = f.census ∧ f.flags.testBit 1 = f.quiet ∧ f.flags.testBit 0 = f.clearAll := by
  rw [OutFrame.flags]
  cases f.census <;> cases f.quiet <;> cases f.clearAll <;> decide

/-- The 48 downlink slots of a frame. -/
def OutFrame.slots (f : OutFrame) : List Byte :=
  (List.range 48).flatMap (fun i => (f.downlinks.get .empty (i + 1)).wire)

theorem OutFrame.slots_length (f : OutFrame) : f.slots.length = 864 := by
  simp [OutFrame.slots, List.length_flatMap]

/-- A frame is its three header bytes, the downlink slots, and zeros in the uplink slots. -/
theorem OutFrame.wire_eq (f : OutFrame) :
    f.wire = [0xE7, BitVec.ofNat 8 (f.tag * 8 + f.flags), 0] ++ f.slots ++ List.replicate 384 0 := by
  simp only [OutFrame.wire, OutFrame.flags, OutFrame.slots, enc8, Config.positions, Nat.add_assoc]
  rfl

/-- A frame sent is 1251 bytes. -/
theorem OutFrame.wire_length (f : OutFrame) : f.wire.length = 1251 := by
  rw [OutFrame.wire_eq, List.length_append, List.length_append, OutFrame.slots_length, List.length_replicate]
  rfl

/-- The second byte of a frame, as a number. -/
theorem OutFrame.byteAt_one {f : OutFrame} (h : f.tag ≤ 31) : byteAt f.wire 1 = f.tag * 8 + f.flags := by
  have hlt := f.flags_lt
  rw [OutFrame.wire_eq]
  exact Nat.mod_eq_of_lt (by omega)

/-- The three low bits of the second byte are the flags'. -/
theorem OutFrame.flag_bit {f : OutFrame} (h : f.tag ≤ 31) {i : Nat} (hi : i < 3) :
    (f.wire.getD 1 0).getLsbD i = f.flags.testBit i := by
  have hb : byteAt f.wire 1 = 2 ^ 3 * f.tag + f.flags := by rw [OutFrame.byteAt_one h]; omega
  rw [← BitVec.testBit_toNat, ← byteAt, hb, Nat.testBit_two_pow_mul_add _ f.flags_lt, if_pos hi]

/-- Behind its header a frame holds the downlink slots, then the zeros. -/
theorem OutFrame.drop_header (f : OutFrame) (n : Nat) :
    f.wire.drop (3 + n) = (f.slots ++ List.replicate 384 0).drop n := by
  rw [OutFrame.wire_eq, ← List.drop_drop]
  rfl

/-- Behind the downlink slots a frame holds zeros only. -/
theorem OutFrame.drop_slots (f : OutFrame) (n : Nat) : f.wire.drop (867 + n) = List.replicate (384 - n) 0 := by
  have hn : 867 + n = 3 + (f.slots.length + n) := by rw [OutFrame.slots_length]; omega
  rw [hn, OutFrame.drop_header, ← List.drop_drop, List.drop_left, List.drop_replicate]

/-- The downlink slot of a position. -/
theorem OutFrame.downlink_slot (f : OutFrame) {p : Nat} (h1 : 1 ≤ p) (h48 : p ≤ 48) :
    (f.wire.drop (3 + (p - 1) * 18)).take 18 = (f.downlinks.get .empty p).wire := by
  have hfits : (p - 1) * 18 + 18 ≤ f.slots.length := by rw [OutFrame.slots_length]; omega
  have hslot : (f.slots.drop ((p - 1) * 18)).take 18 = (f.downlinks.get .empty (p - 1 + 1)).wire :=
    take_drop_flatMap (fun _ => Downlink.wire_length _) (List.getElem?_range (by omega))
  rw [Nat.sub_add_cancel h1] at hslot
  rw [OutFrame.drop_header, List.drop_append_of_le_length (by omega),
    List.take_append_of_le_length (by rw [List.length_drop]; omega), hslot]

/-- The uplink slot of a position holds zeros in a frame sent. -/
theorem OutFrame.uplink_slot (f : OutFrame) {p : Nat} (h1 : 1 ≤ p) (h48 : p ≤ 48) :
    (f.wire.drop (867 + (p - 1) * 8)).take 8 = List.replicate 8 0 := by
  rw [OutFrame.drop_slots, List.take_replicate, Nat.min_eq_left (by omega)]

/-! ### Uplink slots (R152) -/

/-- A reader finds the uplink slot of a position at its offset. -/
theorem uplinkAt_eq (bytes : List Byte) {p at_ : Nat} (h : at_ = 867 + (p - 1) * 8) :
    uplinkAt bytes p = if (bytes.getD at_ 0).getLsbD 7 = true then
      some ⟨(bytes.getD at_ 0).getLsbD 6, (bytes.getD at_ 0).getLsbD 5, byteAt bytes (at_ + 1),
        (bytes.getD at_ 0).getLsbD 0, byteAt bytes (at_ + 2), tokenAt bytes (at_ + 3), byteAt bytes (at_ + 7)⟩
    else none := by
  subst h
  simp [uplinkAt, tokenAt, u16At, byteAt, Nat.add_assoc]

/-- No position of a frame sent is marked answered. -/
theorem OutFrame.uplinkAt_wire (f : OutFrame) {p : Nat} (h1 : 1 ≤ p) (h48 : p ≤ 48) : uplinkAt f.wire p = none := by
  have hzero : f.wire.getD (867 + (p - 1) * 8) 0 = 0 := by
    have hget := congrArg (·.getD 0 0) (f.uplink_slot h1 h48)
    simpa using hget
  rw [uplinkAt_eq _ rfl, hzero]
  rfl

end Sys2Proof.Machine

section Statements

open Sys2Proof Sys2Proof.Machine Sys2Proof.Laws.RequestFits

/-- Settles O60: each layout is read off its encoder, with the numbers read back by the lemmas above. -/
theorem wireLayouts : Obligations.WireLayouts := by
  unfold Obligations.WireLayouts
  refine ⟨fun r _ _ hbs hhead => r.wire_eq hbs hhead, by decide,
    ⟨fun _ => rfl, fun _ => rfl, fun _ => rfl, fun _ => rfl, fun m => ⟨rfl, m.isLt⟩, fun _ => rfl, fun _ => rfl,
      fun _ => rfl, fun _ => rfl, fun _ => rfl, fun _ => rfl⟩,
    by decide, by decide, fun e hd hq hr hg hi => ?event, ⟨rfl, enc32_digits, fun _ _ => rfl, fun x hd hq => ?time,
      fun x => ⟨rfl, tokenAt_enc32 x⟩, fun h hi hg => ?handle⟩, fun k now code args hk => ?exception,
    fun f htag => ?frame, ⟨rfl, rfl, fun d => ?display, fun r => ?reply⟩, fun bytes p at_ _ _ h => uplinkAt_eq bytes h⟩
  case event =>
    exact ⟨e.wire_length, Nat.mod_eq_of_lt (eventCode_lt e.kind), bytes16_value hd, EventRecord.wire_packed hq hr hg,
      bytes16_value hi, rfl⟩
  case time => exact ⟨rfl, timeAt_encTime hd hq⟩
  case handle => exact ⟨rfl, handleAt_encHandle [0] hi hg, rfl⟩
  case exception =>
    obtain ⟨rfl, rfl⟩ : code = k.code ∧ args = k.args := by
      rw [← Prod.mk.injEq, hk]
      cases k with
      | chainFault l c h t => cases c <;> cases h <;> rfl
      | panelReturned l p r c => cases c <;> rfl
      | bookingPoolEmpty r src => cases src <;> rfl
      | _ => rfl
    refine ⟨?_, ExcRecord.wire_length _⟩
    rw [ExcRecord.wire_eq]
    cases now <;> rfl
  case frame =>
    have htagbyte : byteAt f.wire 1 / 8 = f.tag := by
      have hlt := f.flags_lt
      rw [OutFrame.byteAt_one htag]
      omega
    obtain ⟨hcensus, hquiet, hclear⟩ := f.flags_testBit
    exact ⟨f.wire_length, rfl, htagbyte, (OutFrame.flag_bit htag (by decide)).trans hcensus,
      (OutFrame.flag_bit htag (by decide)).trans hquiet, (OutFrame.flag_bit htag (by decide)).trans hclear, rfl,
      fun p h1 h48 => ⟨f.downlink_slot h1 h48, f.uplink_slot h1 h48, f.uplinkAt_wire h1 h48⟩⟩
  case display =>
    refine congrArg₂ (· ++ ·) (congrArg₂ (· ++ ·) (congrArg₂ (· ++ ·) (congrArg₂
      (fun s i => [2, s, i, BitVec.ofNat 8 d.generation] ++ enc16 d.label.toNat) ?shown ?indicator) ?token)
      ?currentEnd) ?nextStart
    case shown => cases d.shown <;> rfl
    case indicator => cases d.indicator <;> rfl
    case token => cases d.token <;> rfl
    case currentEnd => exact encTime?_eq d.currentEnd
    case nextStart => exact encTime?_eq d.nextStart
  case reply =>
    refine congrArg (· ++ List.replicate 10 0) (congrArg₂ (· ++ ·)
      (congrArg₂ (fun c b => [3, c, BitVec.ofNat 8 r.kind, b]) ?code ?toggle) (encTime?_eq r.time))
    case code => cases r.code <;> rfl
    case toggle => cases r.toggle <;> rfl

end Statements
end

