-- ==== Sys2Proof/Proofs/PanelHealth.lean ====
section
/-! PROOFS. The health update of a bound position: the tables of R140 and R141, the miss counter, and the records of
R148. -/

namespace Sys2Proof.Machine

variable {l : Fin 4} {p room : Nat} {a q : Position} {s : State}

/-! ### The tables of R140 and R141 -/

/-- The table of R140 for a deglitch of 2 or more: the first miss of a PRESENT position never makes it ABSENT. -/
theorem missedPosition_of_two_le {d : Nat} (hd : 2 ≤ d) (q : Position) : missedPosition d q =
    match q.health with
    | .present => { q with health := .suspect, misses := 1 }
    | .suspect => if d ≤ q.misses + 1 then
        { q with health := .absent, cause := some .misses, misses := q.misses + 1 }
        else { q with misses := q.misses + 1 }
    | .returned => if d ≤ q.misses + 1 then
        { q with health := .absent, cause := some .misses, misses := q.misses + 1 }
        else { q with misses := q.misses + 1 }
    | .absent => { q with misses := min 15 (q.misses + 1) }
    | .unknown => q := by
  unfold missedPosition
  cases q.health with
  | present => exact if_neg (by omega)
  | _ => rfl

/-- A position that a miss makes ABSENT is so with cause MISSES (R140). -/
theorem missedPosition_cause {d : Nat} (hq : q.health ≠ .absent) (ha : (missedPosition d q).health = .absent) :
    (missedPosition d q).cause = some .misses := by
  unfold missedPosition at ha ⊢
  cases hh : q.health with
  | absent => exact absurd hh hq
  | unknown => simp [hh] at ha
  | present | suspect | returned =>
    simp only [hh] at ha ⊢
    split at ha
    · rw [if_pos ‹_›]
    · cases ha

/-- An ABSENT position that is heard keeps its cause (R141). -/
theorem heardPosition_cause (hq : q.health = .absent) : (heardPosition q).cause = q.cause := by
  rw [heardPosition, hq]

/-! ### One position written -/

/-- Position `p` of line `l` replaced by `a`. -/
def writePosition (l : Fin 4) (p : Nat) (a : Position) (s : State) : State :=
  { s with lines := s.lines.set l { s.lines.get l with positions := (s.lines.get l).positions.set .reset p a } }

theorem updLine_modifyAt (l : Fin 4) (p : Nat) (f : Position → Position) (s : State) :
    updLine l (Line.modifyAt p f) s = writePosition l p (f ((s.lines.get l).at p)) s := rfl

theorem writePosition_at (h : (s.lines.get l).Canonical) : ((writePosition l p a s).lines.get l).at p = a := by
  rw [writePosition, get_setLine]
  exact (Table.get_set h p p a).trans (if_pos rfl)

theorem lineNow_writePosition (l : Fin 4) (p : Nat) (a : Position) (s : State) :
    lineNow l (writePosition l p a s) = lineNow l s := by
  rw [lineNow, writePosition, get_setLine, lineNow]

/-! ### What a posted exception adds -/

theorem postException_of_room {k : ExcKind} {now : Option CTime} (h : s.reports.exceptions.length < 32) :
    (postException k now s).reports.exceptions = s.reports.exceptions ++ [⟨k, now⟩] := by
  rw [postException, if_pos (show _ < Config.exceptionQueue from h)]

/-- The miss counters stand while an exception is posted, the queue having room or not. -/
theorem postException_misses (k : ExcKind) (now : Option CTime) (s : State) :
    (postException k now s).counters.misses = s.counters.misses := by
  unfold postException
  split <;> rfl

/-! ### The health update (R139) -/

/-- A miss at a bound position: the position written, the miss counted, and the record of R148 when the miss makes
the position ABSENT. -/
theorem updateHealth_missed (h : (s.lines.get l).Canonical) (hq : (s.lines.get l).at p = q) (hb : q.bound = some room)
    (ha : a = missedPosition s.policy.deglitch q) : updateHealth l p none s =
      if q.health ≠ .absent ∧ a.health = .absent ∧ s.policy.absentReport = true then
        postException (.panelAbsent l p room .misses a.misses) (lineNow l s)
          (count (Counters.miss l) (writePosition l p a s))
      else count (Counters.miss l) (writePosition l p a s) := by
  have hat : ((count (Counters.miss l) (writePosition l p a s)).lines.get l).at p = a := writePosition_at h
  have hnow : lineNow l (count (Counters.miss l) (writePosition l p a s)) = lineNow l s :=
    lineNow_writePosition l p a s
  unfold updateHealth
  dsimp only
  rw [updLine_modifyAt, hq, ← ha, hat]
  by_cases habsent : q.health ≠ .absent ∧ a.health = .absent
  · obtain ⟨hne, habs⟩ := habsent
    have hcause : a.cause = some .misses := by
      subst ha
      exact missedPosition_cause hne habs
    have hbound : a.bound = some room := by rw [ha, missedPosition_bound, hb]
    rw [if_pos ⟨hne, habs⟩, reportAbsent_eq hat hbound hcause, hnow]
    exact if_congr ⟨fun hp => ⟨hne, habs, hp⟩, fun ⟨_, _, hp⟩ => hp⟩ rfl rfl
  · rw [if_neg habsent, if_neg fun ⟨hne, habs, _⟩ => habsent ⟨hne, habs⟩]

/-- A heard uplink at a bound position: the position written, and the record of R148 when it was ABSENT. -/
theorem updateHealth_heard (x : Uplink) (h : (s.lines.get l).Canonical) (hq : (s.lines.get l).at p = q)
    (hb : q.bound = some room) (ha : a = heardPosition q) : updateHealth l p (some x) s =
      if q.health = .absent then
        postException (.panelReturned l p room q.cause) (lineNow l s) (writePosition l p a s)
      else writePosition l p a s := by
  unfold updateHealth
  dsimp only
  rw [updLine_modifyAt, hq, ← ha]
  split
  next habs =>
    have hbound : a.bound = some room := by rw [ha, heardPosition_bound, hb]
    have hcause : a.cause = q.cause := by rw [ha, heardPosition_cause habs]
    unfold reportReturned
    simp only [writePosition_at h, hbound, hcause, lineNow_writePosition]
  next => rfl

end Sys2Proof.Machine

section Statements

open Sys2Proof Sys2Proof.Machine

/-- Settles O54: each of the two updates is one write of the position and at most one record, read off the equations
above. -/
theorem healthUpdates : Obligations.HealthUpdates := by
  unfold Obligations.HealthUpdates
  rintro l p room d q s ⟨_, _, _, _, _, _, _, _, _, _, _, _, hlines⟩ hq hb hd htwo
  refine ⟨fun a ha => ?missed, fun x a ha => ?heard⟩
  case missed =>
    replace ha := ha.trans (missedPosition_of_two_le htwo q).symm
    rw [hd] at ha
    rw [updateHealth_missed (hlines l) hq.symm hb ha]
    refine ⟨?lines, ?misses, fun habs hne hpolicy hroom => ?posted, fun hnone => ?silent⟩
    case lines => split <;> simp [writePosition]
    case misses =>
      have hcount : (count (Counters.miss l) (writePosition l p a s)).counters.misses.get l =
          saturate (s.counters.misses.get l) := (Quad.get_set ..).trans (if_pos rfl)
      split
      · rw [postException_misses, hcount]
      · exact hcount
    case posted =>
      rw [if_pos ⟨hne, habs, hpolicy⟩]
      exact postException_of_room hroom
    case silent =>
      rw [if_neg]
      · rfl
      · rintro ⟨hne, habs, hpolicy⟩
        simp [hne, habs, hpolicy] at hnone
  case heard =>
    rw [updateHealth_heard x (hlines l) hq.symm hb ha]
    refine ⟨?lines, ?misses, fun habs hroom => ?posted, fun hne => ?silent⟩
    case lines => split <;> simp [writePosition]
    case misses =>
      split
      · exact postException_misses ..
      · rfl
    case posted =>
      rw [if_pos habs]
      exact postException_of_room hroom
    case silent =>
      rw [if_neg hne]
      rfl

end Statements
end

