-- ==== Sys2Proof/Proofs/SummaryAndStatus.lean ====
section
/-! PROOFS. The summary byte, bit by bit, and the requests that read the part's identity, its status, its reports and its
counters (R173, R176 to R180). -/

namespace Sys2Proof.Machine

/-! ### The summary byte (R173) -/

/-- Bit `i` of the summary byte is its condition. -/
def summaryFlag (s : State) : Nat → Bool
  | 7 => !s.reports.events.isEmpty
  | 6 => !s.reports.exceptions.isEmpty
  | 5 => s.reports.ovf
  | 4 => s.lines.l0.panelOut || s.lines.l1.panelOut || s.lines.l2.panelOut || s.lines.l3.panelOut
  | 3 => !s.planner.marked.isEmpty
  | 2 => s.clock.flag
  | 1 => s.rst
  | 0 => decide (0 < s.superv.provisional)
  | _ => false

theorem summary_getLsbD (s : State) {i : Nat} (hi : i < 8) : s.summary.getLsbD i = summaryFlag s i := by
  simp only [State.summary, BitVec.getLsbD_or, bit8_getLsbD, Nat.reduceLT, hi]
  interval_cases i <;> simp [summaryFlag]

/-- Some listed entry of a canonical table has a property exactly when some key reads a value that has it, the property
being none of the unlisted value's. -/
theorem Table.any_entries {α : Type} [DecidableEq α] {t : Table α} {d : α} (h : t.wf d) {p : α → Bool}
    (hd : p d = false) : t.entries.any (fun e => p e.2) = true ↔ ∃ k, p (t.get d k) = true := by
  rw [List.any_eq_true]
  constructor
  · rintro ⟨e, he, hp⟩
    exact ⟨e.1, by rwa [Table.get, Table.lookup_of_mem d _ e h.1 he]⟩
  · rintro ⟨k, hp⟩
    exact ⟨_, Table.mem_of_get h.1 fun hn => by simp [hn, hd] at hp, hp⟩

/-- The condition PANEL of one line (R149). -/
theorem Line.panelOut_iff {a : Line} (h : a.Canonical) :
    a.panelOut = true ↔ ∃ p, (a.at p).bound.isSome = true ∧ (a.at p).health ≠ .present := by
  refine (Table.any_entries (p := fun q : Position => q.bound.isSome && decide (q.health ≠ .present)) h rfl).trans ?_
  simp only [Bool.and_eq_true, decide_eq_true_eq]
  rfl

/-- Some overcommit mark exists exactly when some quantum reads as marked (R78). -/
theorem marked_isEmpty {s : State} (h : s.planner.load.wf noLoad) :
    (!s.planner.marked.isEmpty) = true ↔ ∃ key, (s.planner.load.get noLoad key).mark = true := by
  refine Iff.trans ?_ (Table.any_entries (p := LoadCell.mark) h rfl)
  simp [Planner.marked]

theorem Clock.flag_iff (c : Clock) : c.flag = true ↔ c.state = .unset ∨ c.state = .held := by
  unfold Clock.flag
  cases c.state <;> decide

/-! ### Replies (R172) -/

theorem finishThen_some {s : State} {sl : Slot} (hs : s.link.slot = some sl) (r : Result) (b : List Field)
    (f : State → State) :
    finishThen r b f s = flushBusy (f (buildReply sl.kind sl.tag r b (clearSlot s))) := by
  rw [finishThen, hs]

/-- A request whose owner, after its reply, changes what the link does not hold. -/
theorem finishThen_link {s u : State} {sl : Slot} {f : State → State} (hs : s.link.slot = some sl)
    (hu : s.link = u.link) (hf : ∀ v, (f v).link = v.link) (r : Result) (b : List Field) :
    RepliesWith u (finishThen r b f s) s.summary r b := by
  refine ⟨sl, hu ▸ hs, ?_⟩
  rw [finishThen_some hs]
  simp only [flushBusy_link, hf, buildReply_link, clearSlot_link, ← hu, List.append_assoc, List.singleton_append]
  rfl

/-- What the owner does behind its reply, done to the state; only the link tells of the replies. -/
theorem finishThen_state {s : State} {sl : Slot} {f : State → State} (hs : s.link.slot = some sl)
    (hf : ∀ (v : State) (L : Link), f { v with link := L } = { f v with link := L }) (r : Result) (b : List Field) :
    finishThen r b f s = { f s with link := (finishThen r b f s).link } := by
  rw [finishThen_some hs]
  generalize hv : buildReply sl.kind sl.tag r b (clearSlot s) = v
  have hvs : v = { s with link := v.link } := by rw [← hv]; rfl
  rw [hvs, hf]
  rfl

/-- The body of a ReadReports reply, its first byte the number of records returned (R176). -/
theorem reportFields_take {α : Type} (xs : List α) (f : α → Field) (n left : Nat) :
    reportFields left ((xs.take n).map f) = .u8 (min n xs.length) :: .u16 left :: (xs.take n).map f := by
  simp [reportFields]

end Sys2Proof.Machine

section Statements

open Sys2Proof Sys2Proof.Machine

/-- Settles O20: each bit of the byte is its condition, the tables' conditions read entry by entry. -/
theorem summaryByte : Obligations.SummaryByte := by
  refine ⟨fun s h => ?bits, fun _ _ _ _ _ => rfl, fun _ => rfl⟩
  have bit : ∀ i : Fin 8, s.summary.getLsbD i = true ↔ summaryFlag s i = true := fun i => by
    rw [summary_getLsbD s i.isLt]
  refine ⟨(bit 7).trans (by simp [summaryFlag]), (bit 6).trans (by simp [summaryFlag]), bit 5, (bit 4).trans ?panel,
    (bit 3).trans (marked_isEmpty h.loadTable), (bit 2).trans (Clock.flag_iff _), bit 1,
    (bit 0).trans decide_eq_true_iff⟩
  case panel =>
    have hline : ∀ l, (s.lines.get l).panelOut = true ↔
        ∃ p, ((s.lines.get l).at p).bound.isSome = true ∧ ((s.lines.get l).at p).health ≠ .present :=
      fun l => Line.panelOut_iff (h.line l)
    simp only [← hline, Fin.exists_fin_succ]
    simp [summaryFlag, Quad.get, or_assoc]

/-- Settles O17: the work of Identify is one reply. -/
theorem identifyReply : Obligations.IdentifyReply := fun _ _ ht =>
  repliesOnly_of_finish ht.slot (ht.hostStep _)

/-- Settles O18: each request is one reply, and what it changes before and behind that reply. -/
theorem statusReportsAndCountersRead : Obligations.StatusReportsAndCountersRead := by
  refine ⟨fun flags s u ht => ?status, fun queue n s u ht => ?reports, fun flags s u ht => ?counters⟩
  case status =>
    obtain ⟨sl, hsl⟩ := ht.slot
    have hexec : exec (.getStatus flags) s = .next (doGetStatus flags u) := ht.hostStep _
    split
    next hbig => exact repliesOnly_of_finish ht.slot (hexec.trans (by rw [doGetStatus, if_pos hbig]))
    next hsmall =>
      rw [doGetStatus, if_neg hsmall] at hexec
      generalize hw : (if flags = 1 then { u with rst := false } else u) = w at hexec
      have hwu : w = { u with rst := if flags = 1 then false else u.rst } := by
        rw [← hw]; split <;> rfl
      refine ⟨_, hexec, ?state, fun hflag => ?rst, ?answer⟩
      case state => rw [finish_eq, hwu]
      case rst =>
        rw [finish_summary, summary_getLsbD _ (by decide), summaryFlag, hwu, if_pos hflag]
      case answer =>
        have := answered_finish (w := w) hsl (by rw [hwu]) .ok (statusFields u)
        refine (congrArg (Answered u _ .ok) ?_).mp this
        unfold statusFields
        cases u.clock.count <;> rfl
  case reports =>
    obtain ⟨sl, hsl⟩ := ht.slot
    have hexec : exec (.readReports queue n) s = .next (doReadReports queue n u) := ht.hostStep _
    simp only [doReadReports, reportFields_take] at hexec
    split
    next hev =>
      rw [if_pos hev] at hexec
      refine ⟨_, hexec, finishThen_state (s := removeEvents n u) hsl (fun _ _ => rfl) .., ?_⟩
      exact finishThen_link (u := u) (f := clearOvf) (s := removeEvents n u) hsl rfl (fun _ => rfl) ..
    next hev =>
      rw [if_neg hev] at hexec
      split
      next hex =>
        rw [if_pos hex] at hexec
        refine ⟨_, hexec, finishThen_state (s := removeExceptions n u) hsl (fun _ _ => rfl) .., ?_⟩
        exact finishThen_link (u := u) (f := clearOvf) (s := removeExceptions n u) hsl rfl (fun _ => rfl) ..
      next hex =>
        rw [if_neg hex] at hexec
        exact repliesOnly_of_finish ht.slot hexec
  case counters =>
    obtain ⟨sl, hsl⟩ := ht.slot
    have hexec : exec (.readCounters flags) s = .next (doReadCounters flags u) := ht.hostStep _
    split
    next hbig => exact repliesOnly_of_finish ht.slot (hexec.trans (by rw [doReadCounters, if_pos hbig]))
    next hsmall =>
      rw [doReadCounters, if_neg hsmall] at hexec
      generalize hafter : (if flags = 1 then clearCounters else id) = after at hexec
      have hclear : ∀ v, after v = { v with counters := if flags = 1 then Counters.reset else v.counters } := by
        intro v
        rw [← hafter]
        split <;> rfl
      have hstate := finishThen_state (f := after) hsl (fun v L => by rw [hclear, hclear]) .ok (counterFields u.counters)
      have hanswer := finishThen_link (f := after) hsl rfl (fun v => by rw [hclear]) .ok (counterFields u.counters)
      rw [hclear] at hstate
      generalize finishThen _ _ after u = t at hexec hanswer hstate
      have hsummary : t.summary = u.summary := by rw [hstate]; rfl
      exact ⟨t, hexec, hstate, by rwa [Answered, hsummary]⟩

end Statements
end

