-- ==== Sys2Proof/Proofs/Resets.lean ====
section
/-! PROOFS. The start-up and the supply, the attention line, and a Reset answered and taking effect (R174, R180 to
R183). -/

namespace Sys2Proof.Machine

/-! ### The attention line (R174) -/

/-- A byte masked is not 0 exactly when some bit of it stands whose mask bit is clear. -/
theorem masked_ne_zero (b m : BitVec 8) :
    b &&& ~~~m ≠ 0 ↔ ∃ i : Nat, i < 8 ∧ b.getLsbD i = true ∧ m.getLsbD i = false := by
  rw [← not_iff_not, not_not]
  constructor
  · rintro h ⟨i, hi, hb, hm⟩
    have := congrArg (BitVec.getLsbD · i) h
    simp only [BitVec.getLsbD_and, BitVec.getLsbD_not, hi, hb, hm] at this
    simp at this
  · intro h
    refine BitVec.eq_of_getLsbD_eq fun i hi => ?_
    by_contra hn
    refine h ⟨i, hi, ?_⟩
    simpa [hi] using hn

theorem attention_iff (s : State) : s.attention = true ↔ s.power = .running ∧
    ∃ i : Nat, i < 8 ∧ s.summary.getLsbD i = true ∧ s.policy.attentionMask.getLsbD i = false := by
  rw [State.attention, Bool.and_eq_true, decide_eq_true_iff, decide_eq_true_iff, masked_ne_zero]

/-! ### The commands of the supply and of resets, by the phase they meet (R181, R182) -/

section Phases

variable {s : State} {c : ResetCause}

theorem exec_supplyLow_running (h : s.power = .running) :
    exec .supplyLowReset s = .next (powerOnValues (.heldLow .supplyLow) .supplyLow s.rate s) := by
  simp only [exec, execSupplyLowReset, h]

theorem exec_supplyLow_waiting (h : s.power = .waiting c) :
    exec .supplyLowReset s = .next { s with power := .heldLow c } := by
  simp only [exec, execSupplyLowReset, h]

theorem exec_supplyRestored_low (h : s.power = .heldLow c) :
    exec .supplyRestored s = .next { s with power := .waiting c } := by
  simp only [exec, execSupplyRestored, h]

theorem exec_crystalStable_waiting (h : s.power = .waiting c) (straps : Fin 4) :
    exec (.crystalStable straps) s = .next (powerOnValues .running c straps s) := by
  simp only [exec, execCrystalStable, h]

theorem exec_reset_full (h : s.power = .running) (hw : s.link.resetWait = some .full) :
    exec .resetTakesEffect s = .next (fullReset s) := by
  simp only [exec, execResetTakesEffect, h, hw]

theorem exec_reset_warm (h : s.power = .running) (hw : s.link.resetWait = some .warm) :
    exec .resetTakesEffect s = .next (warmReset s) := by
  simp only [exec, execResetTakesEffect, h, hw]

end Phases

/-! ### The bindings taken from the Room Table (R137) -/

/-- Whether an entry of the Room Table binds its room to position `p` of line `l` (R11). -/
def bindsTo (l : Fin 4) (p : Nat) (e : Nat × Option RoomEntry) : Bool :=
  decide (e.2.bind RoomEntry.binding = some ⟨l, p⟩)

/-- The room that a list of entries leaves bound to position `p` of line `l`: the last that names it. -/
def lastBound (l : Fin 4) (p : Nat) (es : List (Nat × Option RoomEntry)) : Option Nat :=
  ((es.filter (bindsTo l p)).getLast?).map Prod.fst

theorem lastBound_cons (l : Fin 4) (p : Nat) (e : Nat × Option RoomEntry) (es : List (Nat × Option RoomEntry)) :
    lastBound l p (e :: es) = (lastBound l p es).or (if bindsTo l p e = true then some e.1 else none) := by
  unfold lastBound
  rw [List.filter_cons]
  split
  · rw [List.getLast?_cons]
    cases (es.filter (bindsTo l p)).getLast? <;> rfl
  · rw [Option.or_none]

/-- One entry of the Room Table, as `bindFromRooms` walks it. -/
def bindEntry (l : Fin 4) (a : Line) (e : Nat × Option RoomEntry) : Line :=
  match e.2.bind RoomEntry.binding with
  | some b => if b.line = l then a.modifyAt b.pos (fun q => { q with bound := some e.1 }) else a
  | none => a

theorem bindEntry_spec (l : Fin 4) (e : Nat × Option RoomEntry) {a : Line} (h : a.Canonical) :
    bindEntry l a e = { a with positions := (bindEntry l a e).positions } ∧ (bindEntry l a e).Canonical ∧
    ∀ p, (bindEntry l a e).at p =
      { a.at p with bound := (if bindsTo l p e = true then some e.1 else none).or (a.at p).bound } := by
  unfold bindEntry bindsTo
  cases e.2.bind RoomEntry.binding with
  | none => exact ⟨rfl, h, fun p => by simp⟩
  | some b =>
    obtain ⟨m, q⟩ := b
    by_cases hm : m = l
    · subst hm
      simp only [↓reduceIte]
      refine ⟨rfl, h.modifyAt _ _, fun p => ?_⟩
      rw [Line.at_modifyAt h]
      by_cases hp : p = q
      · subst hp; simp
      · simp [hp, Ne.symm hp]
    · simp only [hm, ↓reduceIte]
      exact ⟨trivial, h, fun p => by simp [hm]⟩

/-- The entries walked: the rest of the line stands, and each position is bound to the last room that names it. -/
theorem foldl_bindEntry (l : Fin 4) : ∀ (es : List (Nat × Option RoomEntry)) {a : Line}, a.Canonical →
    es.foldl (bindEntry l) a = { a with positions := (es.foldl (bindEntry l) a).positions } ∧
    ∀ p, (es.foldl (bindEntry l) a).at p = { a.at p with bound := (lastBound l p es).or (a.at p).bound }
  | [], a, _ => ⟨rfl, fun p => rfl⟩
  | e :: es, a, h => by
    obtain ⟨hrest, hcan, hat⟩ := bindEntry_spec l e h
    obtain ⟨ihrest, ihat⟩ := foldl_bindEntry l es hcan
    rw [List.foldl_cons]
    refine ⟨ihrest.trans (by rw [hrest]), fun p => ?_⟩
    rw [ihat p, hat p, lastBound_cons, Option.or_assoc]

/-- A room left bound is one whose entry names the position. -/
theorem bindingOf_of_lastBound {s : State} (h : s.rooms.wf none) {l : Fin 4} {p r : Nat}
    (hr : lastBound l p s.rooms.entries = some r) : bindingOf s r = some ⟨l, p⟩ := by
  obtain ⟨e, he, rfl⟩ := Option.map_eq_some_iff.1 hr
  obtain ⟨hmem, hb⟩ := List.mem_filter.1 (List.mem_of_getLast? he)
  rw [bindingOf_of_mem h hmem]
  exact of_decide_eq_true hb

/-- A position left unbound is named by no room. -/
theorem bindingOf_ne_of_lastBound {s : State} (h : s.rooms.wf none) {l : Fin 4} {p : Nat}
    (hn : lastBound l p s.rooms.entries = none) (r : Nat) : bindingOf s r ≠ some ⟨l, p⟩ := fun hb => by
  have hfilter : (s.rooms.entries.filter (bindsTo l p)) = [] :=
    List.getLast?_eq_none_iff.1 (Option.map_eq_none_iff.1 hn)
  exact List.filter_eq_nil_iff.1 hfilter _ (mem_rooms_of_binding h hb) (decide_eq_true hb)

/-! ### What a reset leaves (R180 to R183) -/

/-- The link, the report queues and the counters empty, RST set with cause `k`, and the two masks as R183 gives them. -/
def FreshLinkAndReports (s t : State) (k : ResetCause) : Prop :=
  t.link.slot = none ∧ t.link.owed = [] ∧ t.link.rx = .hunting ∧
  t.reports.events = [] ∧ t.reports.exceptions = [] ∧ t.reports.ovf = false ∧
  t.counters = ⟨0, 0, 0, 0, 0, 0, ⟨0, 0, 0, 0⟩, ⟨0, 0, 0, 0⟩, 0⟩ ∧
  t.summary.getLsbD 7 = false ∧ t.summary.getLsbD 6 = false ∧
  t.rst = true ∧ t.summary.getLsbD 1 = true ∧ t.cause = k ∧
  (k ≠ .warm → t.policy.attentionMask = 0 ∧ t.policy.eventMask = 0x1FFF) ∧
  (k = .warm → t.policy.attentionMask = s.policy.attentionMask ∧ t.policy.eventMask = s.policy.eventMask)

theorem powerOnValues_fresh (p : Power) {k : ResetCause} (hk : k ≠ .warm) (rate : Fin 4) (s : State) :
    FreshLinkAndReports s (powerOnValues p k rate s) k :=
  ⟨rfl, rfl, rfl, rfl, rfl, rfl, rfl, summary_getLsbD _ (by decide), summary_getLsbD _ (by decide), rfl,
    summary_getLsbD _ (by decide), rfl, fun _ => ⟨rfl, rfl⟩, fun h => absurd h hk⟩

theorem warmReset_fresh (s : State) : FreshLinkAndReports s (warmReset s) .warm :=
  ⟨rfl, rfl, rfl, rfl, rfl, rfl, rfl, summary_getLsbD _ (by decide), summary_getLsbD _ (by decide), rfl,
    summary_getLsbD _ (by decide), rfl, fun h => absurd rfl h, fun _ => ⟨rfl, rfl⟩⟩

/-! ### The reset of a line across WARM (R137) -/

theorem warmReset_line (s : State) (l : Fin 4) :
    (warmReset s).lines.get l = Line.warm l s.rooms (s.lines.get l) := by
  fin_cases l <;> rfl

/-- A line before its bindings are taken from the Room Table. -/
def Line.unboundWarm (a : Line) : Line :=
  { Line.reset with wire := a.wire, now := a.now, intake := a.intake.filter keepsLine }

theorem Line.unboundWarm_canonical (a : Line) : a.unboundWarm.Canonical := Table.empty_wf _

theorem Line.warm_eq (l : Fin 4) (rooms : Table (Option RoomEntry)) (a : Line) :
    Line.warm l rooms a = { a.unboundWarm with positions := (Line.warm l rooms a).positions } :=
  (foldl_bindEntry l rooms.entries a.unboundWarm_canonical).1

theorem Line.warm_at (l : Fin 4) (rooms : Table (Option RoomEntry)) (a : Line) (p : Nat) :
    (Line.warm l rooms a).at p = { Position.reset with bound := lastBound l p rooms.entries } := by
  refine ((foldl_bindEntry l rooms.entries a.unboundWarm_canonical).2 p).trans ?_
  rw [show a.unboundWarm.at p = .reset from rfl, show Position.reset.bound = none from rfl, Option.or_none]

/-! ### A Reset in service (R181) -/

theorem resetScope_eq_none {scope confirm : Nat} (h : ¬ (confirm = 0xC4 ∧ scope ≤ 1)) :
    resetScope scope confirm = none := by
  unfold resetScope
  split
  · rfl
  · rw [if_neg (by omega), if_neg (by omega)]

theorem resetScope_eq_some {scope confirm : Nat} (h : confirm = 0xC4 ∧ scope ≤ 1) :
    resetScope scope confirm = some (if scope = 0 then .full else .warm) := by
  obtain ⟨hc, hs⟩ := h
  rw [resetScope, if_neg (not_not_intro hc)]
  split
  · rfl
  · rw [if_pos (by omega)]

end Sys2Proof.Machine

section Statements

open Sys2Proof Sys2Proof.Machine

/-- Settles O3: each command of the supply by the phase it meets. -/
theorem powerSequence : Obligations.PowerSequence := by
  exact ⟨fun _ => rfl, fun _ h => exec_supplyLow_running h, fun _ _ h => exec_supplyLow_waiting h,
    fun _ _ h => exec_supplyRestored_low h, fun _ _ straps h => exec_crystalStable_waiting h straps,
    fun s _ h => by simp [State.attention, h], attention_iff⟩

/-- Settles O5: the values of each reset that takes effect. -/
theorem resetLeavesLinkAndReports : Obligations.ResetLeavesLinkAndReports := by
  intro c s k h
  suffices ∃ t, exec c s = .next t ∧ FreshLinkAndReports s t k from this
  cases c with
  | powerOn =>
    cases h
    exact ⟨_, rfl, powerOnValues_fresh _ (by decide) _ s⟩
  | supplyLowReset =>
    obtain ⟨hp, rfl⟩ := h
    exact ⟨_, exec_supplyLow_running hp, powerOnValues_fresh _ (by decide) _ s⟩
  | crystalStable straps =>
    obtain ⟨hp, hk⟩ := h
    exact ⟨_, exec_crystalStable_waiting hp straps, powerOnValues_fresh _ (by rintro rfl; simp at hk) _ s⟩
  | resetTakesEffect =>
    obtain ⟨hp, ⟨hw, rfl⟩ | ⟨hw, rfl⟩⟩ := h
    · exact ⟨_, exec_reset_full hp hw, powerOnValues_fresh _ (by decide) _ s⟩
    · exact ⟨_, exec_reset_warm hp hw, warmReset_fresh s⟩
  | _ => exact h.elim

/-- Settles O4: the reply to a Reset, and the two scopes taking effect; the lines of WARM are bound from the Room
Table. -/
theorem resetScopes : Obligations.ResetScopes := by
  refine ⟨fun scope confirm s u ht => ?reply, fun s f hw => ?frames, fun s hp hw => ?full, fun s hp hw hcan => ?warm⟩
  case reply =>
    have hexec : exec (.reset scope confirm) s = .next (doReset scope confirm u) := ht.hostStep _
    split
    next h =>
      obtain ⟨sl, hsl⟩ := ht.slot
      refine ⟨sl, hsl, hexec.trans ?_⟩
      rw [doReset, resetScope_eq_some h]
      dsimp only
      rw [finish_eq, finish_link hsl]
    next h =>
      rw [doReset, resetScope_eq_none h] at hexec
      exact repliesOnly_of_finish ht.slot hexec
  case frames =>
    have hnone : nextFrame f s = none := by
      rw [nextFrame, if_neg fun h => hw h.2.1]
    simp only [exec, execValidFrame, hnone, whenTaken_none]
  case full => exact exec_reset_full hp hw
  case warm =>
    have hrooms := hcan.1
    refine ⟨warmReset s, exec_reset_warm hp hw, rfl, fun l => ?_⟩
    rw [warmReset_line]
    refine ⟨Line.warm_eq .., fun p => ?_⟩
    rw [Line.warm_at]
    exact ⟨rfl, fun r hr => bindingOf_of_lastBound hrooms hr, fun hn => bindingOf_ne_of_lastBound hrooms hn⟩

end Statements
end

