-- ==== Sys2Proof/Proofs/Receiver.lean ====
section
/-! PROOFS. The receiver of the host link, byte by byte and over a whole frame (R168, R169). -/

namespace Sys2Proof.Machine

variable {s : State} {got : List Byte} {b : Byte} {gap : Nat}

/-! ### One character (R168) -/

theorem exec_hostByte (h : s.power = .running) (b : Byte) (stop : Bool) :
    exec (.hostByteReceived b stop) s = .next (doHostByte b stop s) := if_pos h

theorem doHostByte_hunting (h : s.link.rx = .hunting) (b : Byte) (stop : Bool) :
    doHostByte b stop s = huntByte b stop s := by
  rw [doHostByte, h]

theorem doHostByte_late (h : s.link.rx = .inFrame got gap) (hg : 20 < gap) (b : Byte) (stop : Bool) :
    doHostByte b stop s = huntByte b stop (dropFrame s) := by
  rw [doHostByte, h]
  exact if_pos hg

theorem doHostByte_inFrame (h : s.link.rx = .inFrame got gap) (hg : gap ≤ 20) (b : Byte) (stop : Bool) :
    doHostByte b stop s = frameByte got b stop s := by
  rw [doHostByte, h]
  exact if_neg (Nat.not_lt.2 hg)

/-! ### Bytes by their place -/

theorem byteAt_eq_headD (bs : List Byte) : byteAt bs 0 = (bs.headD 0).toNat := by
  cases bs <;> rfl

theorem byteAt_append_left {i : Nat} (h : i < got.length) (bs : List Byte) : byteAt (got ++ bs) i = byteAt got i := by
  rw [byteAt, List.getD_append _ _ _ _ h, byteAt]

theorem byteAt_append_right {i : Nat} (h : got.length ≤ i) (bs : List Byte) :
    byteAt (got ++ bs) i = byteAt bs (i - got.length) := by
  rw [byteAt, List.getD_append_right _ _ _ _ h, byteAt]

/-! ### The last byte of a frame (R169) -/

/-- The CRC of a whole frame: the CRC-16 of all but its last two bytes, against those two. -/
theorem crcOk_append (hlen : got.length + 1 = byteAt (got ++ [b]) 0 + 5) : crcOk (got ++ [b]) =
    decide (crc16 (got.take (got.length - 1)) =
      BitVec.ofNat 16 ((got.getD (got.length - 1) 0).toNat * 256 + b.toNat)) := by
  have hn : byteAt (got ++ [b]) 0 + 3 = got.length - 1 := by omega
  have hlast : byteAt (got ++ [b]) (got.length - 1 + 1) = b.toNat := by
    rw [byteAt_append_right (by omega), show got.length - 1 + 1 - got.length = 0 by omega]
    rfl
  rw [crcOk, hn, u16At, hlast, byteAt_append_left (by omega), List.take_append_of_le_length (by omega)]
  rfl

/-- The frame that a whole run of bytes spells. -/
theorem frameOf_append (hlen : got.length + 1 = byteAt (got ++ [b]) 0 + 5) : frameOf (got ++ [b]) =
    ⟨(got.getD 1 0).toNat, (got.getD 2 0).toNat, (got.drop 3).take (got.length - 4)⟩ := by
  have hbody : byteAt (got ++ [b]) 0 = got.length - 4 := by omega
  rw [frameOf, byteAt_append_left (by omega), byteAt_append_left (by omega), hbody,
    List.drop_append_of_le_length (by omega), List.take_append_of_le_length (by simp; omega)]
  rfl

/-! ### A whole frame, byte by byte -/

/-- A byte taken within a frame, in time and with its stop bit, the length field in range. -/
theorem frameByte_taken (h : byteAt (got ++ [b]) 0 ≤ 240) : frameByte got b true s =
    if (got ++ [b]).length = wholeLength (got ++ [b]) then endFrame (got ++ [b]) s
    else setRx (.inFrame (got ++ [b]) 0) s :=
  if_neg (by simp; omega)

/-- What the last byte of a frame does is not told by the receiver before it. -/
theorem endFrame_setRx (got : List Byte) (r : Receiver) (s : State) : endFrame got (setRx r s) = endFrame got s := by
  unfold endFrame
  split <;> rfl

/-- A machine whose step answers a next state runs on from there. -/
theorem run_succ_of_step (M : Host.Core) {x y : M.State} (h : M.step x = .next y) (n : Nat) :
    M.run (n + 1) x = M.run n y := by
  rw [Host.Core.run, h]

theorem run_byte (h : s.power = .running) (b : Byte) (q : List Instr) (n : Nat) :
    Host.Core.run Sys2Proof.core (n + 1) (s.withPending (.hostByteReceived b true :: q)) =
      Host.Core.run Sys2Proof.core n (doHostByte b true (s.withPending q)) :=
  run_succ_of_step Sys2Proof.core (x := s.withPending (.hostByteReceived b true :: q))
    (y := doHostByte b true (s.withPending q)) (exec_hostByte (s := s.withPending q) h b true) n

/-- The rest of a frame, sent as the waiting commands: its last byte ends it. -/
theorem run_frameRest (w : List Byte) (hmax : byteAt w 0 ≤ 240) (hw : w.length = wholeLength w) :
    ∀ (bs : List Byte) {got : List Byte} {s : State}, w = got ++ bs → bs ≠ [] → s.power = .running →
      s.link.rx = .inFrame got 0 →
      Host.Core.run Sys2Proof.core bs.length (s.withPending (bs.map (fun b => .hostByteReceived b true))) =
        .next (endFrame w (s.withPending []))
  | [], _, _, _, hne, _, _ => absurd rfl hne
  | b :: bs, got, s, hgot, _, hp, hrx => by
    have hsplit : w = (got ++ [b]) ++ bs := by rw [hgot, List.append_assoc]; rfl
    have hhead : byteAt (got ++ [b]) 0 = byteAt w 0 := by
      rw [hsplit, byteAt_append_left (got := got ++ [b]) (by simp)]
    have hbyte : ∀ q, doHostByte b true (s.withPending q) = frameByte got b true (s.withPending q) :=
      fun q => doHostByte_inFrame (s := s.withPending q) hrx (Nat.zero_le _) b true
    rw [List.map_cons, List.length_cons, run_byte hp, hbyte, frameByte_taken (by omega)]
    cases bs with
    | nil =>
      rw [List.append_nil] at hsplit
      rw [← hsplit, if_pos hw]
      rfl
    | cons c cs =>
      have hshort : (got ++ [b]).length ≠ wholeLength (got ++ [b]) := by
        rw [wholeLength, hhead]
        rw [wholeLength] at hw
        have := congrArg List.length hsplit
        simp only [List.length_append, List.length_cons] at this hw ⊢
        omega
      rw [if_neg hshort]
      have ih := run_frameRest w hmax hw (c :: cs) (s := setRx (.inFrame (got ++ [b]) 0) s) hsplit nofun hp rfl
      refine Eq.trans ih ?_
      exact congrArg Host.Outcome.next (endFrame_setRx w (.inFrame (got ++ [b]) 0) (s.withPending []))

/-- The bytes of a request frame behind its start byte: the length, the kind, the tag and the body. -/
def frameInner (f : Frame) : List Byte := enc8 f.body.length ++ enc8 f.kind ++ enc8 f.tag ++ f.body

/-- The bytes of a request frame behind its start byte. -/
def frameBytes (f : Frame) : List Byte := frameInner f ++ enc16 (crc16 (frameInner f)).toNat

theorem frameWire_eq (f : Frame) : frameWire f = 0xA5 :: frameBytes f := rfl

theorem frameInner_length (f : Frame) : (frameInner f).length = f.body.length + 3 := by
  simp [frameInner, Laws.RequestFits.enc8_length]
  omega

variable {f : Frame}

theorem frameBytes_head (h : frameOk f = true) : byteAt (frameBytes f) 0 = f.body.length := by
  simp only [frameOk, Bool.and_eq_true, decide_eq_true_eq] at h
  obtain ⟨_, hlen⟩ := h
  exact Nat.mod_eq_of_lt (by omega)

theorem frameBytes_length (h : frameOk f = true) : (frameBytes f).length = wholeLength (frameBytes f) := by
  rw [wholeLength, frameBytes_head h, frameBytes, List.length_append, frameInner_length,
    Laws.RequestFits.enc16_length]

theorem crcOk_frameBytes (h : frameOk f = true) : crcOk (frameBytes f) = true := by
  have hn : byteAt (frameBytes f) 0 + 3 = (frameInner f).length := by rw [frameBytes_head h, frameInner_length]
  have hcrc : u16At (frameBytes f) (frameInner f).length = (crc16 (frameInner f)).toNat := by
    rw [u16At, frameBytes, byteAt_append_right le_rfl, byteAt_append_right (by omega), Nat.sub_self,
      Nat.add_sub_cancel_left]
    exact bytes16_value (by have := (crc16 (frameInner f)).isLt; omega)
  rw [crcOk, hn, hcrc, frameBytes, List.take_left, BitVec.ofNat_toNat, BitVec.setWidth_eq, decide_eq_true rfl]

theorem frameOf_frameBytes (h : frameOk f = true) : frameOf (frameBytes f) = f := by
  have hbody : ((frameBytes f).drop 3).take f.body.length = f.body := List.take_left
  rw [frameOf, frameBytes_head h, hbody]
  simp only [frameOk, byteOk, Bool.and_eq_true, decide_eq_true_eq] at h
  obtain ⟨⟨hkind, htag⟩, _⟩ := h
  exact congrArg₂ (fun k g => Frame.mk k g f.body) (Nat.mod_eq_of_lt hkind) (Nat.mod_eq_of_lt htag)

end Sys2Proof.Machine

section Statements

open Sys2Proof Sys2Proof.Machine

/-- Settles O12, by induction on the bytes behind the start byte: the last of them ends a frame whose CRC matches. -/
theorem hostFrameReceived : Obligations.HostFrameReceived := by
  intro f s hf hp hrx
  have hmax : byteAt (frameBytes f) 0 ≤ 240 := by
    rw [frameBytes_head hf]
    simp only [frameOk, Bool.and_eq_true, decide_eq_true_eq] at hf
    exact hf.2
  have hne : frameBytes f ≠ [] := List.ne_nil_of_length_pos (by rw [frameBytes_length hf, wholeLength]; omega)
  rw [frameWire_eq, List.map_cons, List.length_cons, run_byte hp]
  have hstart : ∀ q, doHostByte 0xA5 true (s.withPending q) = (setRx (.inFrame [] 0) s).withPending q := fun q => by
    rw [doHostByte_hunting (s := s.withPending q) hrx]
    rfl
  rw [hstart]
  refine (run_frameRest (frameBytes f) hmax (frameBytes_length hf) (frameBytes f) (s := setRx (.inFrame [] 0) s)
    rfl hne hp rfl).trans
    ?_
  rw [endFrame, if_pos (crcOk_frameBytes hf), frameOf_frameBytes hf]
  exact congrArg (fun r => Host.Outcome.next ({ s with
    pending := [], link := { s.link with rx := r, frames := s.link.frames ++ [f] } } : State)) hrx.symm

/-- Settles O14: each character by the receiver's condition and the gap before it. -/
theorem receiverDropsBadFrames : Obligations.ReceiverDropsBadFrames := by
  refine ⟨by decide +kernel, fun b stop s hp hrx => ?hunting, fun b stop got gap s hp hrx hg => ?inFrame,
    fun got gap s hp hrx hg => ?expiry, fun got gap b stop s hp hrx hg => ?late⟩
  case hunting => rw [exec_hostByte hp, doHostByte_hunting hrx]; rfl
  case inFrame =>
    rw [exec_hostByte hp, doHostByte_inFrame hrx hg, frameByte, ← byteAt_eq_headD]
    refine congrArg Host.Outcome.next (if_congr Iff.rfl rfl ?_)
    rw [wholeLength, List.length_append, List.length_singleton]
    refine ite_congr rfl (fun hlen => ?_) fun _ => rfl
    simp only [endFrame, crcOk_append hlen, frameOf_append hlen, decide_eq_true_eq]
    rfl
  case expiry =>
    have : gapExpired s.link.rx = true := by rw [hrx]; exact decide_eq_true hg
    exact if_pos ⟨hp, this⟩
  case late =>
    rw [exec_hostByte hp, doHostByte_late hrx hg, huntByte]
    split
    next => rfl
    next => rfl

end Statements
end

