-- ==== Sys2Proof/Proofs/RequestCoding.lean ====
section
/-! PROOFS. Every request read back from the bytes that carry it: first each kind of field, then the bodies that several
requests share, then each request by its kind (R170, R184). -/

namespace Sys2Proof.Machine

variable {bs : List Byte} {i : Nat}

/-! ### Values and their bytes (R184) -/

theorem byte_value {n : Nat} (h : byteOk n = true) : (BitVec.ofNat 8 n).toNat = n :=
  Nat.mod_eq_of_lt (of_decide_eq_true h)

theorem half_value {n : Nat} (h : halfOk n = true) :
    (BitVec.ofNat 8 (n / 256)).toNat * 256 + (BitVec.ofNat 8 n).toNat = n :=
  bytes16_value (Nat.le_of_lt_succ (of_decide_eq_true h))

theorem time_value {x : CTime} (h : timeFieldOk x = true) : timeAt (encTime x) 0 = x := by
  obtain ⟨hd, hq⟩ := Bool.and_eq_true_iff.1 h
  exact congrArg₂ CTime.mk (half_value hd) (half_value hq)

theorem handle_value {x : Handle} (h : handleFieldOk x = true) : handleAt (encHandle x) 0 = x := by
  obtain ⟨hi, hg⟩ := Bool.and_eq_true_iff.1 h
  exact congrArg₂ Handle.mk (half_value hi) (byte_value hg)

/-! ### Absent fields (R184) -/

theorem byteAt_lt (bs : List Byte) (i : Nat) : byteAt bs i < 256 := BitVec.isLt _

theorem absentAt_one : absentAt bs i 1 = true ↔ byteAt bs i = 255 := by simp [absentAt]

theorem absentAt_add (bs : List Byte) (i w w' : Nat) :
    absentAt bs i (w + w') = (absentAt bs i w && absentAt bs (i + w) w') := by
  simp only [absentAt, List.range_add, List.all_append, List.all_map, Function.comp_def, Nat.add_assoc]

theorem absentAt_pair : absentAt bs i 2 = true ↔ (byteAt bs i, byteAt bs (i + 1)) = (255, 255) := by
  rw [absentAt_add bs i 1 1, Bool.and_eq_true, absentAt_one, absentAt_one, Prod.mk.injEq]

theorem absentAt_half : absentAt bs i 2 = true ↔ u16At bs i = 65535 := by
  have h0 := byteAt_lt bs i
  have h1 := byteAt_lt bs (i + 1)
  rw [absentAt_pair, Prod.mk.injEq, u16At]
  omega

theorem absentAt_halves : absentAt bs i 4 = true ↔ (u16At bs i, u16At bs (i + 2)) = (65535, 65535) := by
  rw [absentAt_add bs i 2 2, Bool.and_eq_true, absentAt_half, absentAt_half, Prod.mk.injEq]

theorem absentAt_time : absentAt bs i 4 = true ↔ timeAt bs i = ⟨65535, 65535⟩ := by
  rw [absentAt_halves, timeAt, Prod.mk.injEq, CTime.mk.injEq]

theorem absentAt_place : absentAt bs i 6 = true ↔ (timeAt bs i, u16At bs (i + 4)) = (⟨65535, 65535⟩, 65535) := by
  rw [absentAt_add bs i 4 2, Bool.and_eq_true, absentAt_time, absentAt_half, Prod.mk.injEq]

/-- An optional field is read back, when its bytes spell the value or else the one value `d` that stands for its
absence. -/
theorem optAt_eq {α : Type} {w : Nat} {o : Option α} {v d : α} (ha : absentAt bs i w = true ↔ v = d)
    (ho : ∀ x ∈ o, x ≠ d) (hv : v = o.getD d) : optAt bs i w v = o := by
  subst hv
  unfold optAt
  cases o with
  | none => exact if_pos (ha.2 rfl)
  | some x => exact if_neg fun h => ho x rfl (ha.1 h)

theorem enc8?_eq (o : Option Nat) : enc8? o = enc8 (o.getD 255) := by
  cases o <;> rfl

theorem encTime?_eq_getD (o : Option CTime) : encTime? o = encTime (o.getD ⟨65535, 65535⟩) := by
  cases o <;> rfl

theorem byteOk_getD {o : Option Nat} (h : o.all (fun k => decide (k < 255)) = true) : byteOk (o.getD 255) = true := by
  cases o with
  | none => rfl
  | some k =>
    have : k < 255 := of_decide_eq_true h
    exact decide_eq_true (show k < 256 by omega)

/-- An optional number of one byte is read back (R184). -/
theorem optByte_value {o : Option Nat} (h : o.all (fun k => decide (k < 255)) = true)
    (hb : byteAt bs i = (BitVec.ofNat 8 (o.getD 255)).toNat) : optAt bs i 1 (byteAt bs i) = o := by
  refine optAt_eq absentAt_one (fun x hx => ?_) (hb.trans (byte_value (byteOk_getD h)))
  cases hx
  exact Nat.ne_of_lt (of_decide_eq_true h)

/-! ### The bodies that requests share -/

/-- A request of one body length. -/
theorem ofLength_eq {n : Nat} {r r' : HostRequest} (hlen : bs.length = n) (hr : r = r') :
    ofLength bs n r = .request r' := by
  rw [ofLength, if_pos hlen, hr]

/-- The fields of a Hold or a Book, whatever follows them. -/
theorem bookReq_value {q : BookReq} (h : bookReqOk q = true) (rest : List Byte) :
    (⟨u16At (encBookReq q ++ rest) 0, timeAt (encBookReq q ++ rest) 2, timeAt (encBookReq q ++ rest) 6,
      u16At (encBookReq q ++ rest) 10, tokenAt (encBookReq q ++ rest) 12⟩ : BookReq) = q := by
  simp only [bookReqOk, Bool.and_eq_true] at h
  obtain ⟨⟨⟨hroom, hstart⟩, hfin⟩, hn⟩ := h
  cases q
  rw [BookReq.mk.injEq]
  exact ⟨half_value hroom, time_value hstart, time_value hfin, half_value hn, tokenAt_enc32 _⟩

theorem moveReq_value {q : MoveReq} (h : moveReqOk q = true) :
    (⟨handleAt (encMoveReq q) 0, u16At (encMoveReq q) 3, timeAt (encMoveReq q) 5, timeAt (encMoveReq q) 9,
      u16At (encMoveReq q) 13, byteAt (encMoveReq q) 15⟩ : MoveReq) = q := by
  simp only [moveReqOk, Bool.and_eq_true] at h
  obtain ⟨⟨⟨⟨⟨hbooking, hroom⟩, hstart⟩, hfin⟩, hn⟩, hflags⟩ := h
  cases q
  rw [MoveReq.mk.injEq]
  exact ⟨handle_value hbooking, half_value hroom, time_value hstart, time_value hfin, half_value hn, byte_value hflags⟩

theorem findReq_value {q : FindReq} (h : findReqOk q = true) :
    (⟨optAt (encFindReq q) 0 1 (byteAt (encFindReq q) 0), timeAt (encFindReq q) 1, timeAt (encFindReq q) 5,
      u16At (encFindReq q) 9, tokenAt (encFindReq q) 11, byteAt (encFindReq q) 15, byteAt (encFindReq q) 16⟩ :
      FindReq) = q := by
  simp only [findReqOk, Bool.and_eq_true] at h
  obtain ⟨⟨⟨⟨⟨hbuilding, hstart⟩, hfin⟩, hn⟩, hhold⟩, hflags⟩ := h
  cases q
  rw [FindReq.mk.injEq, encFindReq, enc8?_eq]
  exact ⟨optByte_value hbuilding rfl, time_value hstart, time_value hfin, half_value hn, tokenAt_enc32 _,
    byte_value hhold, byte_value hflags⟩

/-- The two bytes of a binding, or of none. -/
theorem encBinding_eq (o : Option (Nat × Nat)) : (o.map (fun b => enc8 b.1 ++ enc8 b.2)).getD (encAbsent 2) =
    enc8 (o.getD (255, 255)).1 ++ enc8 (o.getD (255, 255)).2 := by
  cases o <;> rfl

/-- The entry of a LoadRoom behind its room number. -/
theorem roomSpec_value {e : RoomSpec} (h : roomSpecOk e = true) (room : Nat) :
    roomSpecAt (enc16 room ++ encRoomSpec e) = e := by
  simp only [roomSpecOk, Bool.and_eq_true] at h
  obtain ⟨⟨⟨⟨⟨⟨hbuilding, hseats⟩, hturn⟩, hprimary⟩, halternate⟩, hbinding⟩, hservice⟩ := h
  cases e with
  | mk building seats turnaround primary alternate binding service label =>
  rw [roomSpecAt, RoomSpec.mk.injEq, encRoomSpec, enc8?_eq, encBinding_eq]
  refine ⟨byte_value hbuilding, half_value hseats, byte_value hturn, byte_value hprimary, optByte_value halternate rfl,
    ?_, byte_value hservice, ?_⟩
  · cases binding with
    | none => exact optAt_eq absentAt_pair nofun rfl
    | some b =>
      simp only [Option.all_some, Bool.and_eq_true, decide_eq_true_eq] at hbinding
      obtain ⟨⟨hline, hpos⟩, hne⟩ := hbinding
      exact optAt_eq absentAt_pair (fun x hx => by cases hx; exact hne)
        (congrArg₂ Prod.mk (byte_value hline) (byte_value hpos))
  · exact (congrArg (BitVec.ofNat 16) (bytes16_value (Nat.le_of_lt_succ label.isLt))).trans
      (by rw [BitVec.ofNat_toNat, BitVec.setWidth_eq])

/-- The value of a SetPolicy, and the number of bytes that carry it. -/
theorem policy_value {p : PolicyReq} (h : policyReqOk p = true) (hp : p ≠ .unreadable) :
    ((encPolicy p).length = 2 ∨ (encPolicy p).length = 3 ∨ (encPolicy p).length = 5) ∧
      policyAt (encPolicy p) = p := by
  cases p with
  | grace n => exact ⟨.inl rfl, congrArg PolicyReq.grace (byte_value h)⟩
  | holdLimit n => exact ⟨.inl rfl, congrArg PolicyReq.holdLimit (byte_value h)⟩
  | absentAction n => exact ⟨.inl rfl, congrArg PolicyReq.absentAction (byte_value h)⟩
  | absentReport n => exact ⟨.inl rfl, congrArg PolicyReq.absentReport (byte_value h)⟩
  | autoCheckIn n => exact ⟨.inl rfl, congrArg PolicyReq.autoCheckIn (byte_value h)⟩
  | walkupMax n => exact ⟨.inl rfl, congrArg PolicyReq.walkupMax (byte_value h)⟩
  | deglitch n => exact ⟨.inl rfl, congrArg PolicyReq.deglitch (byte_value h)⟩
  | pollInterval n => exact ⟨.inl rfl, congrArg PolicyReq.pollInterval (byte_value h)⟩
  | quietPoll n => exact ⟨.inl rfl, congrArg PolicyReq.quietPoll (byte_value h)⟩
  | supervision n => exact ⟨.inl rfl, congrArg PolicyReq.supervision (byte_value h)⟩
  | scanRange f l =>
    obtain ⟨hf, hl⟩ := Bool.and_eq_true_iff.1 h
    exact ⟨.inr (.inr rfl), congrArg₂ PolicyReq.scanRange (half_value hf) (half_value hl)⟩
  | scanStep n => exact ⟨.inr (.inl rfl), congrArg PolicyReq.scanStep (half_value h)⟩
  | quietWindow w =>
    cases w with
    | none => exact ⟨.inr (.inr rfl), congrArg PolicyReq.quietWindow (optAt_eq absentAt_halves nofun rfl)⟩
    | some w =>
      simp only [policyReqOk, Option.all_some, Bool.and_eq_true, decide_eq_true_eq] at h
      obtain ⟨⟨hfrom, hto⟩, hne⟩ := h
      exact ⟨.inr (.inr rfl), congrArg PolicyReq.quietWindow (optAt_eq absentAt_halves
        (fun x hx => by cases hx; exact hne) (congrArg₂ Prod.mk (half_value hfrom) (half_value hto)))⟩
  | attentionMask m => exact ⟨.inl rfl, rfl⟩
  | eventMask m =>
    refine ⟨.inr (.inl rfl), congrArg PolicyReq.eventMask ?_⟩
    exact (congrArg (BitVec.ofNat 16) (bytes16_value (Nat.le_of_lt_succ m.isLt))).trans
      (by rw [BitVec.ofNat_toNat, BitVec.setWidth_eq])
  | unreadable => exact absurd rfl hp

/-- The continuation of a QueryRoom, behind a room and a day. -/
theorem optTime_value {room day : Nat} {o : Option CTime}
    (h : o.all (fun x => timeFieldOk x && decide (x ≠ ⟨65535, 65535⟩)) = true)
    (hbs : bs = enc16 room ++ enc16 day ++ encTime (o.getD ⟨65535, 65535⟩)) : optAt bs 4 4 (timeAt bs 4) = o := by
  subst hbs
  cases o with
  | none => exact optAt_eq absentAt_time nofun (time_value (x := ⟨65535, 65535⟩) (by decide))
  | some x =>
    simp only [Option.all_some, Bool.and_eq_true, decide_eq_true_eq] at h
    obtain ⟨hx, hne⟩ := h
    exact optAt_eq absentAt_time (fun y hy => by cases hy; exact hne) (time_value hx)

/-- The six bytes of a continuation in a production list, or of none. -/
theorem encPlace_eq (o : Option (CTime × Nat)) : (o.map (fun p => encTime p.1 ++ enc16 p.2)).getD (encAbsent 6) =
    encTime (o.getD (⟨65535, 65535⟩, 65535)).1 ++ enc16 (o.getD (⟨65535, 65535⟩, 65535)).2 := by
  cases o <;> rfl

/-- The continuation of a ReadProduction, behind a kitchen. -/
theorem optPlace_value {k : Nat} {o : Option (CTime × Nat)} {rest : List Byte}
    (h : o.all (fun p => timeFieldOk p.1 && halfOk p.2 && decide (p ≠ (⟨65535, 65535⟩, 65535))) = true)
    (hbs : bs = enc8 k ++ (encTime (o.getD (⟨65535, 65535⟩, 65535)).1 ++
      enc16 (o.getD (⟨65535, 65535⟩, 65535)).2) ++ rest) : optAt bs 1 6 (timeAt bs 1, u16At bs 5) = o := by
  subst hbs
  cases o with
  | none =>
    exact optAt_eq absentAt_place nofun
      (congrArg₂ Prod.mk (time_value (x := ⟨65535, 65535⟩) (by decide)) (half_value (n := 65535) (by decide)))
  | some x =>
    simp only [Option.all_some, Bool.and_eq_true, decide_eq_true_eq] at h
    obtain ⟨⟨hx, hn⟩, hne⟩ := h
    exact optAt_eq absentAt_place (fun y hy => by cases hy; exact hne) (congrArg₂ Prod.mk (time_value hx) (half_value hn))

/-- The lines of an order, two bytes each. -/
theorem orderLines_value : ∀ {ls : List OrderLine}, (∀ l ∈ ls, byteOk l.cls = true ∧ byteOk l.covers = true) →
    orderLinesAt (ls.flatMap (fun l => enc8 l.cls ++ enc8 l.covers)) = ls
  | [], _ => rfl
  | ⟨c, n⟩ :: ls, h => by
    obtain ⟨hc, hn⟩ := h _ List.mem_cons_self
    have ih := orderLines_value fun l hl => h l (List.mem_cons_of_mem _ hl)
    exact congrArg₂ List.cons (congrArg₂ OrderLine.mk (byte_value hc) (byte_value hn)) ih

end Sys2Proof.Machine

section Statements

open Sys2Proof Sys2Proof.Machine

/-- Settles O13, request by request: each operand is read back from its bytes, at its place in the body. -/
theorem requestRoundTrip : Obligations.RequestRoundTrip := by
  intro r tag h hp
  cases r with
  | identify => exact ofLength_eq rfl rfl
  | getStatus n => exact ofLength_eq rfl (congrArg HostRequest.getStatus (byte_value h))
  | readReports a b =>
    obtain ⟨ha, hb⟩ := Bool.and_eq_true_iff.1 h
    exact ofLength_eq rfl (congrArg₂ HostRequest.readReports (byte_value ha) (byte_value hb))
  | readCounters n => exact ofLength_eq rfl (congrArg HostRequest.readCounters (byte_value h))
  | reset a b =>
    obtain ⟨ha, hb⟩ := Bool.and_eq_true_iff.1 h
    exact ofLength_eq rfl (congrArg₂ HostRequest.reset (byte_value ha) (byte_value hb))
  | setClock d q m =>
    simp only [commandOf, Instr.wf, Bool.and_eq_true, decide_eq_true_eq] at h
    obtain ⟨⟨hd, hq⟩, hm⟩ := h
    refine ofLength_eq rfl ?_
    rw [HostRequest.setClock.injEq]
    exact ⟨half_value hd, half_value hq, bytes24_value hm⟩
  | setPolicy p =>
    obtain ⟨hlen, hvalue⟩ := policy_value h fun e => hp (congrArg HostRequest.setPolicy e)
    exact (if_pos hlen).trans (congrArg (fun p => Decoded.request (.setPolicy p)) hvalue)
  | readPolicy => exact ofLength_eq rfl rfl
  | loadRoom room e =>
    obtain ⟨hroom, he⟩ := Bool.and_eq_true_iff.1 h
    refine ofLength_eq ?_ (congrArg₂ HostRequest.loadRoom (half_value hroom) (roomSpec_value he room))
    change (enc16 room ++ encRoomSpec e).length = 13
    rw [encRoomSpec, enc8?_eq, encBinding_eq]
    rfl
  | readRoom room => exact ofLength_eq rfl (congrArg HostRequest.readRoom (half_value h))
  | loadKitchen k e =>
    simp only [commandOf, Instr.wf, kitchenSpecOk, Bool.and_eq_true] at h
    obtain ⟨hk, ⟨⟨hcapacity, hcarts⟩, hopen⟩, hclose⟩ := h
    cases e
    refine ofLength_eq rfl ?_
    rw [HostRequest.loadKitchen.injEq, KitchenSpec.mk.injEq]
    exact ⟨byte_value hk, byte_value hcapacity, byte_value hcarts, half_value hopen, half_value hclose⟩
  | readKitchen n => exact ofLength_eq rfl (congrArg HostRequest.readKitchen (byte_value h))
  | loadDistance k b x =>
    simp only [commandOf, Instr.wf, Bool.and_eq_true] at h
    obtain ⟨⟨hk, hb⟩, hx⟩ := h
    rw [requestFrame, encRequest, enc8?_eq]
    refine ofLength_eq rfl ?_
    rw [HostRequest.loadDistance.injEq]
    exact ⟨byte_value hk, byte_value hb, optByte_value hx rfl⟩
  | readDistance n => exact ofLength_eq rfl (congrArg HostRequest.readDistance (byte_value h))
  | loadMenuClass c w l n =>
    simp only [commandOf, Instr.wf, Bool.and_eq_true] at h
    obtain ⟨⟨⟨hc, hw⟩, hl⟩, hn⟩ := h
    refine ofLength_eq rfl ?_
    rw [HostRequest.loadMenuClass.injEq]
    exact ⟨byte_value hc, byte_value hw, byte_value hl, byte_value hn⟩
  | readMenuClass n => exact ofLength_eq rfl (congrArg HostRequest.readMenuClass (byte_value h))
  | hold q n =>
    obtain ⟨hq, hn⟩ := Bool.and_eq_true_iff.1 h
    exact ofLength_eq rfl (congrArg₂ HostRequest.hold (bookReq_value hq _) (byte_value hn))
  | book q =>
    refine ofLength_eq rfl (congrArg HostRequest.book ?_)
    have hvalue := bookReq_value (q := q) h []
    rwa [List.append_nil] at hvalue
  | confirm x => exact ofLength_eq rfl (congrArg HostRequest.confirm (handle_value h))
  | cancel x n =>
    obtain ⟨hx, hn⟩ := Bool.and_eq_true_iff.1 h
    exact ofLength_eq rfl (congrArg₂ HostRequest.cancel (handle_value hx) (byte_value hn))
  | endBooking x => exact ofLength_eq rfl (congrArg HostRequest.endBooking (handle_value h))
  | checkIn x badge =>
    exact ofLength_eq rfl (congrArg₂ HostRequest.checkIn (handle_value h) (tokenAt_enc32 badge))
  | move q => exact ofLength_eq rfl (congrArg HostRequest.move (moveReq_value h))
  | findRoom q =>
    exact ofLength_eq (Laws.RequestFits.encFindReq_length q) (congrArg HostRequest.findRoom (findReq_value h))
  | queryRoom room day x =>
    simp only [commandOf, Instr.wf, Bool.and_eq_true] at h
    obtain ⟨⟨hroom, hday⟩, hx⟩ := h
    rw [requestFrame, encRequest, encTime?_eq_getD]
    refine ofLength_eq rfl ?_
    rw [HostRequest.queryRoom.injEq]
    exact ⟨half_value hroom, half_value hday, optTime_value hx rfl⟩
  | queryBooking x => exact ofLength_eq rfl (congrArg HostRequest.queryBooking (handle_value h))
  | acceptProvisional x => exact ofLength_eq rfl (congrArg HostRequest.acceptProvisional (handle_value h))
  | placeOrder x n ls =>
    simp only [commandOf, Instr.wf, linesFieldOk, Bool.and_eq_true, decide_eq_true_eq, List.all_eq_true] at h
    obtain ⟨⟨hx, hn⟩, _, hls⟩ := h
    have hlen : (encRequest (.placeOrder x n ls)).2.length = 4 + 2 * ls.length := by
      simp only [encRequest, List.length_append, Laws.RequestFits.lines_length]
      rfl
    refine (if_pos ⟨by rw [requestFrame, hlen]; omega, by rw [requestFrame, hlen]; omega⟩).trans
      (congrArg Decoded.request ?_)
    rw [HostRequest.placeOrder.injEq]
    exact ⟨handle_value hx, byte_value hn, orderLines_value hls⟩
  | queryOrder x => exact ofLength_eq rfl (congrArg HostRequest.queryOrder (handle_value h))
  | cancelOrder x => exact ofLength_eq rfl (congrArg HostRequest.cancelOrder (handle_value h))
  | confirmDelivery x => exact ofLength_eq rfl (congrArg HostRequest.confirmDelivery (handle_value h))
  | readLoad k first n =>
    simp only [commandOf, Instr.wf, Bool.and_eq_true] at h
    obtain ⟨⟨hk, hfirst⟩, hn⟩ := h
    refine ofLength_eq rfl ?_
    rw [HostRequest.readLoad.injEq]
    exact ⟨byte_value hk, time_value hfirst, byte_value hn⟩
  | readProduction k x n =>
    simp only [commandOf, Instr.wf, Bool.and_eq_true] at h
    obtain ⟨⟨hk, hx⟩, hn⟩ := h
    rw [requestFrame, encRequest, encPlace_eq]
    refine ofLength_eq rfl ?_
    rw [HostRequest.readProduction.injEq]
    exact ⟨byte_value hk, optPlace_value hx rfl, byte_value hn⟩
  | startChain n => exact ofLength_eq rfl (congrArg HostRequest.startChain (byte_value h))
  | stopChain n => exact ofLength_eq rfl (congrArg HostRequest.stopChain (byte_value h))
  | chainMode a b =>
    obtain ⟨ha, hb⟩ := Bool.and_eq_true_iff.1 h
    exact ofLength_eq rfl (congrArg₂ HostRequest.chainMode (byte_value ha) (byte_value hb))
  | clearPanelFault n p =>
    obtain ⟨hn, hpos⟩ := Bool.and_eq_true_iff.1 h
    rw [requestFrame, encRequest, enc8?_eq]
    exact ofLength_eq rfl (congrArg₂ HostRequest.clearPanelFault (byte_value hn) (optByte_value hpos rfl))
  | readChain n => exact ofLength_eq rfl (congrArg HostRequest.readChain (byte_value h))
  | readPosition a b =>
    obtain ⟨ha, hb⟩ := Bool.and_eq_true_iff.1 h
    exact ofLength_eq rfl (congrArg₂ HostRequest.readPosition (byte_value ha) (byte_value hb))
  | readLineHealth n => exact ofLength_eq rfl (congrArg HostRequest.readLineHealth (byte_value h))

end Statements
end

