-- ==== Sys2Proof/Proofs/QuietWork.lean ====
section
/-! PROOFS. The operations of the blocks that leave the queue of waiting commands and the host link as they are: no work
but that of an answer builds a reply (R170, R172). -/

namespace Sys2Proof.Machine

@[simp] theorem State.pending_ite (p : Prop) [Decidable p] (s t : State) :
    (if p then s else t).pending = if p then s.pending else t.pending := apply_ite ..

@[simp] theorem State.link_ite (p : Prop) [Decidable p] (s t : State) :
    (if p then s else t).link = if p then s.link else t.link := apply_ite ..

/-- A list walked by quiet steps. -/
theorem foldl_quiet {α : Type} {f : State → α → State}
    (hf : ∀ t a, (f t a).pending = t.pending ∧ (f t a).link = t.link) (xs : List α) (s : State) :
    (xs.foldl f s).pending = s.pending ∧ (xs.foldl f s).link = s.link :=
  List.foldlRecOn (motive := fun t : State => t.pending = s.pending ∧ t.link = s.link) xs f ⟨rfl, rfl⟩
    fun _ ⟨hp, hl⟩ a _ => ⟨(hf _ a).1.trans hp, (hf _ a).2.trans hl⟩

/-! ### The Reservation Engine and the Campus Model -/

@[simp] theorem enterRoomList_quiet (r i : Nat) (s : State) :
    (enterRoomList r i s).pending = s.pending ∧ (enterRoomList r i s).link = s.link :=
  ⟨rfl, rfl⟩

@[simp] theorem leaveRoomList_quiet (r i : Nat) (s : State) :
    (leaveRoomList r i s).pending = s.pending ∧ (leaveRoomList r i s).link = s.link :=
  ⟨rfl, rfl⟩

@[simp] theorem enterHolds_quiet (h : Handle) (s : State) :
    (enterHolds h s).pending = s.pending ∧ (enterHolds h s).link = s.link :=
  ⟨rfl, rfl⟩

@[simp] theorem leaveHolds_quiet (h : Handle) (s : State) :
    (leaveHolds h s).pending = s.pending ∧ (leaveHolds h s).link = s.link :=
  ⟨rfl, rfl⟩

theorem allocate_quiet {b : Booking} {i : Nat} {s t : State} (h : allocate b s = some (i, t)) :
    t.pending = s.pending ∧ t.link = s.link := by
  unfold allocate at h
  split at h
  · cases h
  · cases h
    simp

@[simp] theorem freeBooking_quiet (i : Nat) (b : Booking) (out : Terminal) (s : State) :
    (freeBooking i b out s).pending = s.pending ∧ (freeBooking i b out s).link = s.link := by
  unfold freeBooking
  dsimp only
  split <;> simp

@[simp] theorem deferredOutcome_quiet (i : Nat) (s : State) :
    (deferredOutcome i s).pending = s.pending ∧ (deferredOutcome i s).link = s.link := by
  unfold deferredOutcome
  split <;> simp

@[simp] theorem evalAllDisplays_quiet (s : State) :
    (evalAllDisplays s).pending = s.pending ∧ (evalAllDisplays s).link = s.link :=
  foldl_quiet (by simp) ..

@[simp] theorem endNow_quiet (i : Nat) (b : Booking) (now : CTime) (s : State) :
    (endNow i b now s).pending = s.pending ∧ (endNow i b now s).link = s.link :=
  ⟨rfl, rfl⟩

@[simp] theorem endAndShow_quiet (room i : Nat) (b : Booking) (now : CTime) (s : State) :
    (endAndShow room i b now s).pending = s.pending ∧ (endAndShow room i b now s).link = s.link := by
  simp [endAndShow]

@[simp] theorem checkInNow_quiet (i : Nat) (b : Booking) (now : CTime) (s : State) :
    (checkInNow i b now s).pending = s.pending ∧ (checkInNow i b now s).link = s.link :=
  ⟨rfl, rfl⟩

@[simp] theorem commitMove_quiet (i : Nat) (b : Booking) (room : Nat) (sp : Span) (attendees : Nat) (s : State) :
    (commitMove i b room sp attendees s).pending = s.pending ∧
      (commitMove i b room sp attendees s).link = s.link := by
  simp [commitMove]

@[simp] theorem stageMove_quiet (q : MoveReq) (b : Booking) (order : Handle) (s : State) :
    (stageMove q b order s).pending = s.pending ∧ (stageMove q b order s).link = s.link := by
  simp [stageMove]

@[simp] theorem noticeRoom_quiet (b : Booking) (room : Nat) (s : State) :
    (noticeRoom b room s).pending = s.pending ∧ (noticeRoom b room s).link = s.link := by
  unfold noticeRoom
  split <;> simp

@[simp] theorem evalMove_quiet (old new : Nat) (s : State) :
    (evalMove old new s).pending = s.pending ∧ (evalMove old new s).link = s.link := by
  simp [evalMove]

@[simp] theorem clearMark_quiet (i : Nat) (f : Booking → Booking) (s : State) :
    (clearMark i f s).pending = s.pending ∧ (clearMark i f s).link = s.link := by
  unfold clearMark
  split <;> simp

@[simp] theorem settleAdmission_quiet (h : Handle) (link : Option Handle) (s : State) :
    (settleAdmission h link s).pending = s.pending ∧ (settleAdmission h link s).link = s.link := by
  simp [settleAdmission]

@[simp] theorem commitStaged_quiet (g : Staged) (keepOrder : Bool) (s : State) :
    (commitStaged g keepOrder s).pending = s.pending ∧ (commitStaged g keepOrder s).link = s.link := by
  unfold commitStaged
  split <;> simp

@[simp] theorem settleRefit_quiet (h : Handle) (old new : Nat) (s : State) :
    (settleRefit h old new s).pending = s.pending ∧ (settleRefit h old new s).link = s.link := by
  simp [settleRefit]

@[simp] theorem doDisplayNotice_quiet (h o : Handle) (s : State) :
    (doDisplayNotice h o s).pending = s.pending ∧ (doDisplayNotice h o s).link = s.link := by
  simp [doDisplayNotice]

@[simp] theorem expireHold_quiet (now : CTime) (h : Handle) (s : State) :
    (expireHold now h s).pending = s.pending ∧ (expireHold now h s).link = s.link := by
  unfold expireHold
  split <;> simp

@[simp] theorem endBookingAt_quiet (now : CTime) (i : Nat) (s : State) :
    (endBookingAt now i s).pending = s.pending ∧ (endBookingAt now i s).link = s.link := by
  unfold endBookingAt
  split <;> simp

@[simp] theorem passExpiries_quiet (now : CTime) (s : State) :
    (passExpiries now s).pending = s.pending ∧ (passExpiries now s).link = s.link :=
  foldl_quiet (by simp) ..

@[simp] theorem passEnds_quiet (now : CTime) (s : State) :
    (passEnds now s).pending = s.pending ∧ (passEnds now s).link = s.link := by
  exact foldl_quiet (fun _ _ => foldl_quiet (fun _ _ => endBookingAt_quiet ..) ..) ..

@[simp] theorem doEngineBoundary_quiet (b : Boundary) (s : State) :
    (doEngineBoundary b s).pending = s.pending ∧ (doEngineBoundary b s).link = s.link := by
  simp [doEngineBoundary]

@[simp] theorem doScanStep_quiet (s : State) :
    (doScanStep s).pending = s.pending ∧ (doScanStep s).link = s.link :=
  ⟨rfl, rfl⟩

@[simp] theorem doRoomVisit_quiet (r : Nat) (s : State) :
    (doRoomVisit r s).pending = s.pending ∧ (doRoomVisit r s).link = s.link := by
  unfold doRoomVisit
  split <;> simp

@[simp] theorem checkInReported_quiet (i : Nat) (b : Booking) (now : CTime) (source : Nat) (badge : Token) (s : State) :
    (checkInReported i b now source badge s).pending = s.pending ∧
      (checkInReported i b now source badge s).link = s.link := by
  simp [checkInReported]

@[simp] theorem doOccupancy_quiet (r : Nat) (s : State) :
    (doOccupancy r s).pending = s.pending ∧ (doOccupancy r s).link = s.link := by
  unfold doOccupancy
  split
  · split <;> simp
  · simp

@[simp] theorem answerPanel_quiet (src : PanelSrc) (kind : Nat) (code : PanelCode) (time : Option CTime) (s : State) :
    (answerPanel src kind code time s).pending = s.pending ∧ (answerPanel src kind code time s).link = s.link :=
  ⟨rfl, rfl⟩

@[simp] theorem refusePanel_quiet (src : PanelSrc) (kind : Nat) (t : Turned) (s : State) :
    (refusePanel src kind t s).pending = s.pending ∧ (refusePanel src kind t s).link = s.link := by
  simp [refusePanel]

@[simp] theorem admitWalkup_quiet (src : PanelSrc) (room len : Nat) (badge : Token) (code : PanelCode) (s : State) :
    (admitWalkup src room len badge code s).pending = s.pending ∧
      (admitWalkup src room len badge code s).link = s.link := by
  unfold admitWalkup
  dsimp only
  split
  · simp
  · next ha =>
    obtain ⟨hpending, hlink⟩ := allocate_quiet ha
    simp [hpending, hlink]

@[simp] theorem doWalkup_quiet (src : PanelSrc) (room len : Nat) (badge : Token) (s : State) :
    (doWalkup src room len badge s).pending = s.pending ∧ (doWalkup src room len badge s).link = s.link := by
  unfold doWalkup
  dsimp only
  split
  · simp
  · split <;> simp

@[simp] theorem doPanelCheckin_quiet (src : PanelSrc) (room : Nat) (badge : Token) (s : State) :
    (doPanelCheckin src room badge s).pending = s.pending ∧ (doPanelCheckin src room badge s).link = s.link := by
  unfold doPanelCheckin
  split <;> simp

@[simp] theorem doExtend_quiet (src : PanelSrc) (room k : Nat) (s : State) :
    (doExtend src room k s).pending = s.pending ∧ (doExtend src room k s).link = s.link := by
  unfold doExtend
  split
  · next i b now _ _ =>
    cases hcheck : checkExtend s i b (shiftTime b.fin k) with
    | none => simp [hcheck]
    | some t => simp [hcheck]
  · simp

@[simp] theorem doPanelEnd_quiet (src : PanelSrc) (room : Nat) (s : State) :
    (doPanelEnd src room s).pending = s.pending ∧ (doPanelEnd src room s).link = s.link := by
  unfold doPanelEnd
  split <;> simp

@[simp] theorem dropLastEnd_quiet (room : Nat) (e : Option RoomEntry) (s : State) :
    (dropLastEnd room e s).pending = s.pending ∧ (dropLastEnd room e s).link = s.link := by
  simp [dropLastEnd]

@[simp] theorem rebind_quiet (room : Nat) (old new : Option Binding) (s : State) :
    (rebind room old new s).pending = s.pending ∧ (rebind room old new s).link = s.link := by
  unfold rebind
  dsimp only
  cases old with
  | none => cases new <;> simp
  | some _ => cases new <;> simp

@[simp] theorem displayLoad_quiet (room : Nat) (old new : Option RoomEntry) (s : State) :
    (displayLoad room old new s).pending = s.pending ∧ (displayLoad room old new s).link = s.link := by
  simp [displayLoad]

/-! ### The Catering Planner -/

@[simp] theorem modifyCells_quiet (k : Nat) (f : LoadCell → LoadCell) (hs : List Int) (s : State) :
    (modifyCells k f hs s).pending = s.pending ∧ (modifyCells k f hs s).link = s.link :=
  foldl_quiet (by simp) ..

@[simp] theorem testMarks_quiet (k : Nat) (hs : List Int) (s : State) :
    (testMarks k hs s).pending = s.pending ∧ (testMarks k hs s).link = s.link := by
  simp [testMarks]

@[simp] theorem addShares_quiet (k load n : Nat) (w : Int) (s : State) :
    (addShares k load n w s).pending = s.pending ∧ (addShares k load n w s).link = s.link :=
  foldl_quiet (by simp) ..

@[simp] theorem takeShares_quiet (k load n : Nat) (w : Int) (s : State) :
    (takeShares k load n w s).pending = s.pending ∧ (takeShares k load n w s).link = s.link :=
  foldl_quiet (by simp) ..

@[simp] theorem addCarts_quiet (k : Nat) (hs : List Int) (s : State) :
    (addCarts k hs s).pending = s.pending ∧ (addCarts k hs s).link = s.link := by
  simp [addCarts]

@[simp] theorem takeCarts_quiet (k : Nat) (hs : List Int) (s : State) :
    (takeCarts k hs s).pending = s.pending ∧ (takeCarts k hs s).link = s.link := by
  simp [takeCarts]

@[simp] theorem placeLoad_quiet (o : Order) (s : State) :
    (placeLoad o s).pending = s.pending ∧ (placeLoad o s).link = s.link := by
  simp [placeLoad]

@[simp] theorem releaseCarts_quiet (o : Order) (s : State) :
    (releaseCarts o s).pending = s.pending ∧ (releaseCarts o s).link = s.link := by
  simp [releaseCarts]

@[simp] theorem removeLoad_quiet (o : Order) (s : State) :
    (removeLoad o s).pending = s.pending ∧ (removeLoad o s).link = s.link := by
  simp [removeLoad]

@[simp] theorem testOrderMarks_quiet (o : Order) (s : State) :
    (testOrderMarks o s).pending = s.pending ∧ (testOrderMarks o s).link = s.link := by
  simp [testOrderMarks]

@[simp] theorem enterProduction_quiet (k i : Nat) (s : State) :
    (enterProduction k i s).pending = s.pending ∧ (enterProduction k i s).link = s.link :=
  ⟨rfl, rfl⟩

@[simp] theorem leaveProduction_quiet (k i : Nat) (s : State) :
    (leaveProduction k i s).pending = s.pending ∧ (leaveProduction k i s).link = s.link :=
  ⟨rfl, rfl⟩

@[simp] theorem freeOrder_quiet (i : Nat) (o : Order) (event : Option EventRecord) (s : State) :
    (freeOrder i o event s).pending = s.pending ∧ (freeOrder i o event s).link = s.link := by
  unfold freeOrder
  split <;> simp

@[simp] theorem cancelOrder_quiet (i : Nat) (o : Order) (event : Option EventRecord) (s : State) :
    (cancelOrder i o event s).pending = s.pending ∧ (cancelOrder i o event s).link = s.link := by
  simp [cancelOrder]

@[simp] theorem wasteOrder_quiet (i : Nat) (o : Order) (s : State) :
    (wasteOrder i o s).pending = s.pending ∧ (wasteOrder i o s).link = s.link := by
  simp [wasteOrder]

@[simp] theorem answerAdmission_quiet (h : Handle) (a : AdmissionAnswer) (s : State) :
    (answerAdmission h a s).pending = s.pending ∧ (answerAdmission h a s).link = s.link :=
  ⟨rfl, rfl⟩

@[simp] theorem openOrderEpisode_quiet (room : Nat) (s : State) :
    (openOrderEpisode room s).pending = s.pending ∧ (openOrderEpisode room s).link = s.link := by
  simp [openOrderEpisode]

@[simp] theorem doAdmissionComputation_quiet (h : Handle) (serving : CTime) (room count : Nat) (ls : List OrderLine)
    (s : State) :
    (doAdmissionComputation h serving room count ls s).pending = s.pending ∧
      (doAdmissionComputation h serving room count ls s).link = s.link := by
  simp [doAdmissionComputation]

@[simp] theorem commitAdmission_quiet (j : Job) (p : Placement) (s : State) :
    (commitAdmission j p s).pending = s.pending ∧ (commitAdmission j p s).link = s.link := by
  unfold commitAdmission
  split <;> simp

@[simp] theorem doAdmissionCompletion_quiet (j : Job) (s : State) :
    (doAdmissionCompletion j s).pending = s.pending ∧ (doAdmissionCompletion j s).link = s.link := by
  unfold doAdmissionCompletion
  split <;> simp

@[simp] theorem answerRefit_quiet (h : Handle) (a : RefitAnswer) (s : State) :
    (answerRefit h a s).pending = s.pending ∧ (answerRefit h a s).link = s.link :=
  ⟨rfl, rfl⟩

@[simp] theorem noFit_quiet (booking : Handle) (i : Nat) (o : Order) (drop : Bool) (r : Reasons) (s : State) :
    (noFit booking i o drop r s).pending = s.pending ∧ (noFit booking i o drop r s).link = s.link := by
  simp [noFit]

@[simp] theorem doRefitComputation_quiet (booking order : Handle) (serving : CTime) (room : Nat) (drop : Bool)
    (s : State) :
    (doRefitComputation booking order serving room drop s).pending = s.pending ∧
      (doRefitComputation booking order serving room drop s).link = s.link := by
  unfold doRefitComputation
  split
  · simp
  · split <;> simp

@[simp] theorem swapOrder_quiet (i : Nat) (o : Order) (j : Job) (p : Placement) (s : State) :
    (swapOrder i o j p s).pending = s.pending ∧ (swapOrder i o j p s).link = s.link := by
  simp [swapOrder]

@[simp] theorem doRefitCompletion_quiet (j : Job) (order : Handle) (drop : Bool) (s : State) :
    (doRefitCompletion j order drop s).pending = s.pending ∧ (doRefitCompletion j order drop s).link = s.link := by
  unfold doRefitCompletion
  split
  · simp
  · split <;> simp

@[simp] theorem remark_quiet (k : Nat) (lim : Limits) (s : State) :
    (remark k lim s).pending = s.pending ∧ (remark k lim s).link = s.link :=
  ⟨rfl, rfl⟩

@[simp] theorem reportOvercommit_quiet (k : Nat) (before : List Nat) (s : State) :
    (reportOvercommit k before s).pending = s.pending ∧ (reportOvercommit k before s).link = s.link := by
  simp [reportOvercommit]

@[simp] theorem clearPastMarks_quiet (s : State) :
    (clearPastMarks s).pending = s.pending ∧ (clearPastMarks s).link = s.link := by
  unfold clearPastMarks
  exact foldl_quiet (fun _ _ => by simp) ..

@[simp] theorem clearSlice_quiet (b : Boundary) (s : State) :
    (clearSlice b s).pending = s.pending ∧ (clearSlice b s).link = s.link := by
  simp [clearSlice]

@[simp] theorem advanceOrder_quiet (i : Nat) (o : Order) (st : OrderState) (kind : EventKind) (s : State) :
    (advanceOrder i o st kind s).pending = s.pending ∧ (advanceOrder i o st kind s).link = s.link := by
  simp [advanceOrder]

@[simp] theorem walkWasted_quiet (now : Int) (i : Nat) (o : Order) (s : State) :
    (walkWasted now i o s).pending = s.pending ∧ (walkWasted now i o s).link = s.link := by
  simp [walkWasted]

@[simp] theorem walkProduction_quiet (now : Int) (i : Nat) (o : Order) (s : State) :
    (walkProduction now i o s).pending = s.pending ∧ (walkProduction now i o s).link = s.link := by
  simp [walkProduction]

@[simp] theorem walkDispatch_quiet (now : Int) (i : Nat) (o : Order) (s : State) :
    (walkDispatch now i o s).pending = s.pending ∧ (walkDispatch now i o s).link = s.link := by
  simp [walkDispatch]

@[simp] theorem walkUnconfirmed_quiet (now : Int) (i : Nat) (o : Order) (s : State) :
    (walkUnconfirmed now i o s).pending = s.pending ∧ (walkUnconfirmed now i o s).link = s.link := by
  simp [walkUnconfirmed]

@[simp] theorem walkClose_quiet (now : Int) (i : Nat) (o : Order) (s : State) :
    (walkClose now i o s).pending = s.pending ∧ (walkClose now i o s).link = s.link := by
  simp [walkClose]

/-- One row of R102 tried at a record, when the row itself is quiet. -/
theorem walkRow_quiet {row : Int → Nat → Order → State → State}
    (hrow : ∀ now i o s, (row now i o s).pending = s.pending ∧ (row now i o s).link = s.link) (now : Int) (i : Nat)
    (s : State) : (walkRow row now i s).pending = s.pending ∧ (walkRow row now i s).link = s.link := by
  unfold walkRow
  split
  · exact hrow ..
  · exact ⟨rfl, rfl⟩

@[simp] theorem walkOrder_quiet (i : Nat) (s : State) :
    (walkOrder i s).pending = s.pending ∧ (walkOrder i s).link = s.link := by
  simp [walkOrder, walkRow_quiet]

@[simp] theorem walkKitchen_quiet (s : State) (k : Nat) :
    (walkKitchen s k).pending = s.pending ∧ (walkKitchen s k).link = s.link :=
  foldl_quiet (by simp) ..

@[simp] theorem walkOrders_quiet (s : State) :
    (walkOrders s).pending = s.pending ∧ (walkOrders s).link = s.link := by
  exact foldl_quiet (fun _ _ => walkKitchen_quiet ..) ..

@[simp] theorem doPlannerBoundary_quiet (b : Boundary) (s : State) :
    (doPlannerBoundary b s).pending = s.pending ∧ (doPlannerBoundary b s).link = s.link := by
  simp [doPlannerBoundary]

@[simp] theorem doRoomNotice_quiet (h : Handle) (room : Nat) (s : State) :
    (doRoomNotice h room s).pending = s.pending ∧ (doRoomNotice h room s).link = s.link := by
  unfold doRoomNotice
  split <;> simp

@[simp] theorem deliverOrder_quiet (i : Nat) (o : Order) (s : State) :
    (deliverOrder i o s).pending = s.pending ∧ (deliverOrder i o s).link = s.link := by
  simp [deliverOrder]

@[simp] theorem doCateringReceived_quiet (src : PanelSrc) (room : Nat) (badge : Token) (s : State) :
    (doCateringReceived src room badge s).pending = s.pending ∧
      (doCateringReceived src room badge s).link = s.link := by
  unfold doCateringReceived
  split <;> simp

@[simp] theorem doBookingHandoff_quiet (h booking : Handle) (kind : HandoffKind) (s : State) :
    (doBookingHandoff h booking kind s).pending = s.pending ∧ (doBookingHandoff h booking kind s).link = s.link := by
  unfold doBookingHandoff
  split
  · simp
  · dsimp only
    split <;> simp

/-! ### The Panel Line Controllers -/

@[simp] theorem reportAbsent_quiet (l : Fin 4) (p : Nat) (s : State) :
    (reportAbsent l p s).pending = s.pending ∧ (reportAbsent l p s).link = s.link := by
  unfold reportAbsent
  dsimp only
  split <;> simp

@[simp] theorem reportReturned_quiet (l : Fin 4) (p : Nat) (s : State) :
    (reportReturned l p s).pending = s.pending ∧ (reportReturned l p s).link = s.link := by
  unfold reportReturned
  dsimp only
  split <;> simp

@[simp] theorem updateHealth_quiet (l : Fin 4) (p : Nat) (u : Option Uplink) (s : State) :
    (updateHealth l p u s).pending = s.pending ∧ (updateHealth l p u s).link = s.link := by
  unfold updateHealth
  split <;> simp

@[simp] theorem selfAnswer_quiet (l : Fin 4) (p : Nat) (u : Uplink) (code : PanelCode) (s : State) :
    (selfAnswer l p u code s).pending = s.pending ∧ (selfAnswer l p u code s).link = s.link :=
  ⟨rfl, rfl⟩

@[simp] theorem handOn_quiet (l : Fin 4) (p room : Nat) (u : Uplink) (s : State) :
    (handOn l p room u s).pending = s.pending ∧ (handOn l p room u s).link = s.link := by
  simp [handOn]

@[simp] theorem refuseUnbound_quiet (l : Fin 4) (p : Nat) (u : Uplink) (s : State) :
    (refuseUnbound l p u s).pending = s.pending ∧ (refuseUnbound l p u s).link = s.link := by
  simp [refuseUnbound]

@[simp] theorem judgeRequest_quiet (l : Fin 4) (p : Nat) (u : Uplink) (s : State) :
    (judgeRequest l p u s).pending = s.pending ∧ (judgeRequest l p u s).link = s.link := by
  unfold judgeRequest
  dsimp only
  split
  · simp
  · split
    · simp
    · split <;> simp

@[simp] theorem noticeOccupancy_quiet (l : Fin 4) (p : Nat) (u : Uplink) (s : State) :
    (noticeOccupancy l p u s).pending = s.pending ∧ (noticeOccupancy l p u s).link = s.link := by
  unfold noticeOccupancy
  split <;> simp

@[simp] theorem lightPosition_quiet (l : Fin 4) (p : Nat) (u : Uplink) (s : State) :
    (lightPosition l p u s).pending = s.pending ∧ (lightPosition l p u s).link = s.link := by
  unfold lightPosition
  split <;> simp

@[simp] theorem takeUplink_quiet (l : Fin 4) (full quiet : Bool) (bytes : List Byte) (s : State) (p : Nat) :
    (takeUplink l full quiet bytes s p).pending = s.pending ∧ (takeUplink l full quiet bytes s p).link = s.link := by
  unfold takeUplink
  dsimp only
  split <;> simp

@[simp] theorem startCensus_quiet (l : Fin 4) (s : State) :
    (startCensus l s).pending = s.pending ∧ (startCensus l s).link = s.link :=
  ⟨rfl, rfl⟩

@[simp] theorem startOrdinary_quiet (l : Fin 4) (s : State) :
    (startOrdinary l s).pending = s.pending ∧ (startOrdinary l s).link = s.link :=
  ⟨rfl, rfl⟩

@[simp] theorem startCycle_quiet (l : Fin 4) (s : State) :
    (startCycle l s).pending = s.pending ∧ (startCycle l s).link = s.link := by
  unfold startCycle
  split <;> simp

@[simp] theorem nextCycle_quiet (l : Fin 4) (s : State) :
    (nextCycle l s).pending = s.pending ∧ (nextCycle l s).link = s.link := by
  simp [nextCycle]

@[simp] theorem callCycle_quiet (l : Fin 4) (s : State) :
    (callCycle l s).pending = s.pending ∧ (callCycle l s).link = s.link := by
  simp [callCycle]

@[simp] theorem fault_quiet (l : Fin 4) (cause : FaultCause) (s : State) :
    (fault l cause s).pending = s.pending ∧ (fault l cause s).link = s.link := by
  simp [fault]

@[simp] theorem applyDeferred_quiet (l : Fin 4) (s : State) :
    (applyDeferred l s).pending = s.pending ∧ (applyDeferred l s).link = s.link :=
  ⟨rfl, rfl⟩

@[simp] theorem afterEcho_quiet (l : Fin 4) (s : State) :
    (afterEcho l s).pending = s.pending ∧ (afterEcho l s).link = s.link := by
  unfold afterEcho
  dsimp only
  split <;> simp

@[simp] theorem takeUplinks_quiet (l : Fin 4) (bytes : List Byte) (s : State) :
    (takeUplinks l bytes s).pending = s.pending ∧ (takeUplinks l bytes s).link = s.link := by
  unfold takeUplinks
  dsimp only
  split
  · exact foldl_quiet (fun _ _ => takeUplink_quiet ..) ..
  · simp

@[simp] theorem drainOrNext_quiet (l : Fin 4) (s : State) :
    (drainOrNext l s).pending = s.pending ∧ (drainOrNext l s).link = s.link := by
  simp [drainOrNext]

@[simp] theorem reportCensus_quiet (l : Fin 4) (n : Nat) (s : State) :
    (reportCensus l n s).pending = s.pending ∧ (reportCensus l n s).link = s.link :=
  foldl_quiet (by simp) ..

@[simp] theorem enterRun_quiet (l : Fin 4) (s : State) :
    (enterRun l s).pending = s.pending ∧ (enterRun l s).link = s.link :=
  ⟨rfl, rfl⟩

@[simp] theorem doPollExpiry_quiet (l : Fin 4) (s : State) :
    (doPollExpiry l s).pending = s.pending ∧ (doPollExpiry l s).link = s.link := by
  unfold doPollExpiry
  split <;> simp

@[simp] theorem doWirePulled_silent (l : Fin 4) (s : State) :
    (doWirePulled l s).pending = s.pending ∧ (doWirePulled l s).link = s.link := by
  simp [doWirePulled]

@[simp] theorem setWire_quiet (l : Fin 4) (up : Bool) (s : State) :
    (setWire l up s).pending = s.pending ∧ (setWire l up s).link = s.link :=
  ⟨rfl, rfl⟩

@[simp] theorem enterRunning_quiet (l : Fin 4) (s : State) :
    (enterRunning l s).pending = s.pending ∧ (enterRunning l s).link = s.link := by
  simp [enterRunning]

@[simp] theorem takeEdge_quiet (l : Fin 4) (w : Bool) (s : State) :
    (takeEdge l w s).pending = s.pending ∧ (takeEdge l w s).link = s.link := by
  simp [takeEdge]

@[simp] theorem doControllerBoundary_quiet (l : Fin 4) (b : Boundary) (s : State) :
    (doControllerBoundary l b s).pending = s.pending ∧ (doControllerBoundary l b s).link = s.link := by
  simp [doControllerBoundary]

/-! ### The clock and the report queues -/

@[simp] theorem startClock_quiet (k : Counting) (s : State) :
    (startClock k s).pending = s.pending ∧ (startClock k s).link = s.link := ⟨rfl, rfl⟩

@[simp] theorem reportHeld_quiet (held : CTime) (k : Counting) (s : State) :
    (reportHeld held k s).pending = s.pending ∧ (reportHeld held k s).link = s.link := by
  simp [reportHeld]

@[simp] theorem holdClock_quiet (now : CTime) (k : Counting) (s : State) :
    (holdClock now k s).pending = s.pending ∧ (holdClock now k s).link = s.link := by
  simp [holdClock]

@[simp] theorem sendBoundary_quiet (b : Boundary) (s : State) :
    (sendBoundary b s).pending = s.pending ∧ (sendBoundary b s).link = s.link := by
  simp [sendBoundary]

@[simp] theorem enterQuantum_quiet (s : State) :
    (enterQuantum s).pending = s.pending ∧ (enterQuantum s).link = s.link := by
  unfold enterQuantum
  split <;> simp

@[simp] theorem resumeDue_quiet (s : State) :
    (resumeDue s).pending = s.pending ∧ (resumeDue s).link = s.link := by
  unfold resumeDue
  split <;> exact ⟨rfl, rfl⟩

@[simp] theorem enterDue_quiet (s : State) :
    (enterDue s).pending = s.pending ∧ (enterDue s).link = s.link := by
  unfold enterDue
  exact foldl_quiet (fun _ _ => enterQuantum_quiet _) ..

@[simp] theorem settleClock_quiet (s : State) :
    (settleClock s).pending = s.pending ∧ (settleClock s).link = s.link := by
  simp [settleClock]

/-! ### Link Supervision -/

@[simp] theorem doSupervisionExpiry_quiet (s : State) :
    (doSupervisionExpiry s).pending = s.pending ∧ (doSupervisionExpiry s).link = s.link := by
  unfold doSupervisionExpiry
  dsimp only
  split
  · exact ⟨rfl, rfl⟩
  · split <;> simp [takeExpiry]

theorem reportFrame_quiet (s : State) : (reportFrame s).pending = s.pending ∧ (reportFrame s).link = s.link := by
  unfold reportFrame
  dsimp only
  split <;> simp

end Sys2Proof.Machine
end

