-- ==== Sys2Proof/Proofs/OneReply.lean ====
section
/-! PROOFS. A request in service gets one reply (R170 to R172): the relation that every step but a reset and the taking
of a frame keeps, its rules for the building of replies, and one rule for each piece of work that answers a request. -/

namespace Sys2Proof.Machine

/-- What stays of the request in service until its reply: everything but the stage of its service. -/
def Slot.asked (sl : Slot) : Nat × Nat × HostRequest := (sl.kind, sl.tag, sl.req)

/-- The same request is in service from `s` to `t`, the same BUSY replies are owed, and none was built. -/
structure SameService (s t : State) : Prop where
  slot : t.link.slot.map Slot.asked = s.link.slot.map Slot.asked
  owed : t.link.owed = s.link.owed
  tx : t.link.tx = s.link.tx

/-- The request in service in `s` got its reply and every owed BUSY reply was built behind it. -/
def Served (s t : State) : Prop :=
  ∃ sl, s.link.slot = some sl ∧ t.link.slot = none ∧ t.link.owed = [] ∧
    ∃ (a b : BitVec 8) (r : Result) (body : List Field),
      t.link.tx = s.link.tx ++ ⟨sl.kind, sl.tag, a, r, body⟩ :: s.link.owed.map (fun e => ⟨e.1, e.2, b, .busy, []⟩)

/-- From `s` to `t` the queue of waiting commands stands, and at most the request in service got its reply. -/
structure AtMostOneReply (s t : State) : Prop where
  pending : t.pending = s.pending
  service : SameService s t ∨ Served s t

theorem SameService.refl (s : State) : SameService s s := ⟨rfl, rfl, rfl⟩

theorem SameService.trans {s t u : State} (h : SameService s t) (h' : SameService t u) : SameService s u :=
  ⟨h'.slot.trans h.slot, h'.owed.trans h.owed, h'.tx.trans h.tx⟩

theorem SameService.asked {s t : State} (h : SameService s t) {sl : Slot} (hs : s.link.slot = some sl) :
    ∃ sl', t.link.slot = some sl' ∧ sl'.kind = sl.kind ∧ sl'.tag = sl.tag ∧ sl'.req = sl.req := by
  have hmap := h.slot
  rw [hs, Option.map_some, Option.map_eq_some_iff] at hmap
  obtain ⟨sl', ht, hasked⟩ := hmap
  simp only [Slot.asked, Prod.mk.injEq] at hasked
  exact ⟨sl', ht, hasked⟩

theorem SameService.slot_none {s t : State} (h : SameService s t) (hs : s.link.slot = none) : t.link.slot = none := by
  simpa [hs] using h.slot

/-- A reply built after a stage of the service, and what happens to the link once the request has its reply. -/
theorem SameService.served {s t u : State} (h : SameService s t) (h' : Served t u) : Served s u := by
  obtain ⟨sl, hslot, hu, howed, a, b, r, body, htx⟩ := h'
  cases hs : s.link.slot with
  | none => rw [h.slot_none hs] at hslot; cases hslot
  | some sl₀ =>
    obtain ⟨sl', ht, hkind, htag, -⟩ := h.asked hs
    rw [hslot, Option.some.injEq] at ht
    subst ht
    exact ⟨sl₀, hs, hu, howed, a, b, r, body, by rw [htx, h.tx, h.owed, hkind, htag]⟩

theorem Served.same {s t u : State} (h : Served s t) (h' : SameService t u) : Served s u := by
  obtain ⟨sl, hslot, ht, howed, a, b, r, body, htx⟩ := h
  exact ⟨sl, hslot, h'.slot_none ht, h'.owed.trans howed, a, b, r, body, h'.tx.trans htx⟩

namespace AtMostOneReply

variable {s t u : State}

@[refl] theorem refl (s : State) : AtMostOneReply s s := ⟨rfl, .inl (.refl s)⟩

theorem trans (h : AtMostOneReply s t) (h' : AtMostOneReply t u) : AtMostOneReply s u := by
  refine ⟨h'.pending.trans h.pending, ?_⟩
  rcases h.service with hsame | hserved <;> rcases h'.service with hsame' | hserved'
  · exact .inl (hsame.trans hsame')
  · exact .inr (hsame.served hserved')
  · exact .inr (hserved.same hsame')
  · obtain ⟨_, _, hnone, _⟩ := hserved
    obtain ⟨_, hsome, _⟩ := hserved'
    rw [hnone] at hsome
    cases hsome

/-! ### Steps that build no reply -/

/-- A step that leaves the slot, the owed list and the replies. -/
theorem keep (h : AtMostOneReply s t) (hp : u.pending = t.pending) (hs : u.link.slot = t.link.slot)
    (ho : u.link.owed = t.link.owed) (ht : u.link.tx = t.link.tx) : AtMostOneReply s u :=
  h.trans ⟨hp, .inl ⟨by rw [hs], ho, ht⟩⟩

/-- A quiet step. -/
theorem quiet (h : AtMostOneReply s t) (hq : u.pending = t.pending ∧ u.link = t.link) : AtMostOneReply s u :=
  h.keep hq.1 (by rw [hq.2]) (by rw [hq.2]) (by rw [hq.2])

theorem setStage (h : AtMostOneReply s t) (st : Stage) : AtMostOneReply s (setStage st t) :=
  h.trans ⟨rfl, .inl ⟨Option.map_map .., rfl, rfl⟩⟩

theorem ite {c : Prop} [Decidable c] (h : c → AtMostOneReply s t) (h' : ¬ c → AtMostOneReply s u) :
    AtMostOneReply s (if c then t else u) := by
  split
  · exact h ‹_›
  · exact h' ‹_›

/-! ### Replies -/

/-- The reply to the request in service; `after`, done between it and the BUSY replies, builds none. -/
theorem finishThen (h : AtMostOneReply s t) {f : State → State}
    (hf : ∀ u, (f u).pending = u.pending ∧ (f u).link = u.link) (r : Result) (body : List Field) :
    AtMostOneReply s (finishThen r body f t) := by
  refine h.trans ?_
  unfold Machine.finishThen
  split
  · exact .refl t
  · rename_i sl hslot
    obtain ⟨hpending, hlink⟩ := hf (Machine.buildReply sl.kind sl.tag r body (Machine.clearSlot t))
    refine ⟨hpending, .inr ⟨sl, hslot, by simp [hlink], rfl, (Machine.clearSlot t).summary,
      (f (Machine.buildReply sl.kind sl.tag r body (Machine.clearSlot t))).summary, r, body, ?_⟩⟩
    simp [hlink]

theorem finish (h : AtMostOneReply s t) (r : Result) (body : List Field) : AtMostOneReply s (finish r body t) :=
  h.finishThen (fun _ => ⟨rfl, rfl⟩) r body

theorem refuseHost (h : AtMostOneReply s t) (r : Result) (body : List Field) : AtMostOneReply s (refuseHost r body t) :=
  (h.quiet (by simp)).finish r body

/-! ### The requests of the engine -/

theorem refuseTurned (h : AtMostOneReply s t) (room : Nat) (x : Turned) (body : List Field) :
    AtMostOneReply s (refuseTurned room x body t) :=
  (ite (fun _ => h.quiet (by simp)) fun _ => h).refuseHost _ _

/-- A request that names a booking: what its own work answers. -/
theorem withBooking (h : AtMostOneReply s t) (x : Handle) {run : Booking → State → State}
    (hr : ∀ b, AtMostOneReply s (run b t)) : AtMostOneReply s (withBooking x run t) := by
  unfold Machine.withBooking
  split
  · exact h.refuseHost _ _
  · exact h.refuseHost _ _
  · exact ite (fun _ => h.refuseHost _ _) fun _ => hr _

theorem createAndReply (h : AtMostOneReply s t) (b : Booking) (body : Handle → List Field) :
    AtMostOneReply s (createAndReply b body t) := by
  unfold Machine.createAndReply
  split
  · exact h
  · next ha => exact ((h.quiet (allocate_quiet ha)).quiet (u := evalDisplay ..) (by simp)).finish _ _

theorem doHold (h : AtMostOneReply s t) (q : BookReq) (n : Nat) : AtMostOneReply s (doHold q n t) := by
  unfold Machine.doHold
  refine ite (fun _ => h.refuseHost _ _) fun _ => ?_
  split
  · exact h.refuseTurned ..
  · exact h.createAndReply ..

theorem doBook (h : AtMostOneReply s t) (q : BookReq) : AtMostOneReply s (doBook q t) := by
  unfold Machine.doBook
  refine ite (fun _ => h.refuseHost _ _) fun _ => ?_
  split
  · exact h.refuseTurned ..
  · exact h.createAndReply ..

theorem doConfirm (h : AtMostOneReply s t) (x : Handle) : AtMostOneReply s (doConfirm x t) :=
  h.withBooking x fun _ => ite (fun _ => (h.quiet (by simp)).finish _ _) fun _ => h.refuseHost _ _

theorem doCancel (h : AtMostOneReply s t) (x : Handle) (n : Nat) : AtMostOneReply s (doCancel x n t) :=
  h.withBooking x fun _ =>
    ite (fun _ => h.refuseHost _ _) fun _ => ite (fun _ => h.refuseHost _ _) fun _ =>
      ite (fun _ => h.refuseHost _ _) fun _ => (h.quiet (by simp)).finish _ _

theorem doEnd (h : AtMostOneReply s t) (x : Handle) : AtMostOneReply s (doEnd x t) :=
  h.withBooking x fun _ => by
    split
    · exact h.refuseHost _ _
    · exact ite (fun _ => h.refuseHost _ _) fun _ => (h.quiet (by simp)).finish _ _

theorem doCheckIn (h : AtMostOneReply s t) (x : Handle) (badge : Token) : AtMostOneReply s (doCheckIn x badge t) :=
  h.withBooking x fun _ => by
    split
    · exact h.refuseHost _ _
    · exact ite (fun _ => (h.quiet (by simp)).finish _ _) fun _ => h.refuseHost _ _

theorem doMoveChecked (h : AtMostOneReply s t) (q : MoveReq) (b : Booking) :
    AtMostOneReply s (doMoveChecked q b t) := by
  refine ite (fun _ => h.finish _ _) fun _ => ?_
  split
  · exact ite (fun _ => (h.quiet (by simp)).finish _ _) fun _ => h.quiet (by simp)
  · exact (h.quiet (by simp)).finish _ _

theorem doMove (h : AtMostOneReply s t) (q : MoveReq) : AtMostOneReply s (doMove q t) :=
  h.withBooking _ fun _ => ite (fun _ => h.refuseHost _ _) fun _ => by
    split
    · exact h.refuseTurned ..
    · exact h.doMoveChecked ..

theorem doFindRoom (h : AtMostOneReply s t) (q : FindReq) : AtMostOneReply s (doFindRoom q t) := by
  refine ite (fun _ => h.refuseHost _ _) fun _ => ?_
  split
  · exact h.refuseTurned ..
  · split
    · exact h.refuseHost _ _
    · refine ite (fun _ => h.finish _ _) fun _ => ?_
      split
      · exact h.refuseTurned ..
      · exact h.createAndReply ..

theorem doQueryRoom (h : AtMostOneReply s t) (room day : Nat) (c : Option CTime) :
    AtMostOneReply s (doQueryRoom room day c t) :=
  ite (fun _ => h.refuseHost _ _) fun _ => ite (fun _ => h.refuseHost _ _) fun _ => h.finish _ _

theorem doQueryBooking (h : AtMostOneReply s t) (x : Handle) : AtMostOneReply s (doQueryBooking x t) := by
  unfold Machine.doQueryBooking
  split
  · exact h.finish _ _
  · exact h.refuseHost _ _
  · exact h.refuseHost _ _

theorem doAcceptProvisional (h : AtMostOneReply s t) (x : Handle) : AtMostOneReply s (doAcceptProvisional x t) :=
  h.withBooking x fun _ => ite (fun _ => (h.quiet (by simp)).finish _ _) fun _ => h.refuseHost _ _

theorem doPlaceOrder (h : AtMostOneReply s t) (x : Handle) (n : Nat) (ls : List OrderLine) :
    AtMostOneReply s (doPlaceOrder x n ls t) :=
  h.withBooking x fun _ =>
    ite (fun _ => h.refuseHost _ _) fun _ => ite (fun _ => h.refuseHost _ _) fun _ => h.quiet (by simp)

theorem doAdmissionAnswer (h : AtMostOneReply s t) (x : Handle) (a : AdmissionAnswer) :
    AtMostOneReply s (doAdmissionAnswer x a t) := by
  cases a with
  | admitted => exact (h.quiet (by simp)).finish _ _
  | refused => exact (h.quiet (by simp)).finish _ _

theorem refuseMove (h : AtMostOneReply s t) (x : Handle) (code : Result) (body : List Field) :
    AtMostOneReply s (refuseMove x code body t) := (h.quiet (by simp)).refuseHost _ _

theorem commitRefit (h : AtMostOneReply s t) (x : Handle) (keepOrder : Bool) (body : Staged → List Field) :
    AtMostOneReply s (commitRefit x keepOrder body t) := by
  unfold Machine.commitRefit
  split
  · exact (h.quiet (by simp)).finish _ _
  · exact (h.quiet (by simp)).finish _ _

theorem doRefitAnswer (h : AtMostOneReply s t) (x : Handle) (a : RefitAnswer) :
    AtMostOneReply s (doRefitAnswer x a t) := by
  cases a with
  | fit => exact h.commitRefit ..
  | dropped => exact h.commitRefit ..
  | noFit => exact h.refuseMove ..
  | committed => exact h.refuseMove ..

theorem replyAfterLink (h : AtMostOneReply s t) (o : Handle) : AtMostOneReply s (replyAfterLink o t) := by
  unfold Machine.replyAfterLink
  split
  · split
    · exact ite (fun _ => h.finish _ _) fun _ => h
    · exact h
  · exact h

theorem doLinkNotice (h : AtMostOneReply s t) (x o : Handle) : AtMostOneReply s (doLinkNotice x o t) := by
  refine replyAfterLink ?_ o
  split
  · exact ite (fun _ => h.quiet (by simp)) fun _ => h
  · exact h

/-! ### The requests of the planner -/

theorem doKitchenChange (h : AtMostOneReply s t) (k capacity carts : Nat) :
    AtMostOneReply s (doKitchenChange k capacity carts t) := (h.quiet (by simp)).finish _ _

theorem refuseOrder (h : AtMostOneReply s t) (r : Result) : AtMostOneReply s (refuseOrder r t) :=
  (h.quiet (by simp)).finish _ _

theorem doConfirmDelivery (h : AtMostOneReply s t) (x : Handle) : AtMostOneReply s (doConfirmDelivery x t) := by
  unfold Machine.doConfirmDelivery
  split
  · exact h.refuseOrder _
  · exact h.refuseOrder _
  · exact ite (fun _ => (h.quiet (by simp)).finish _ _) fun _ => h.refuseOrder _

theorem replyCancel (h : AtMostOneReply s t) (x : Handle) (o : Order) (body : List Field) :
    AtMostOneReply s (replyCancel x o body t) :=
  ite (fun _ => h.setStage _) fun _ => h.finish _ _

theorem doCancelOrder (h : AtMostOneReply s t) (x : Handle) : AtMostOneReply s (doCancelOrder x t) := by
  unfold Machine.doCancelOrder
  split
  · exact h.refuseOrder _
  · exact h.refuseOrder _
  · split
    · exact (h.quiet (by simp)).replyCancel ..
    · exact (h.quiet (by simp)).replyCancel ..
    · exact h.refuseOrder _

theorem doQueryOrder (h : AtMostOneReply s t) (x : Handle) : AtMostOneReply s (doQueryOrder x t) := by
  unfold Machine.doQueryOrder
  split
  · exact h.finish _ _
  · exact h.finish _ _
  · exact h.finish _ _

theorem doReadLoad (h : AtMostOneReply s t) (k : Nat) (first : CTime) (n : Nat) :
    AtMostOneReply s (doReadLoad k first n t) :=
  ite (fun _ => h.finish _ _) fun _ => ite (fun _ => h.finish _ _) fun _ =>
    ite (fun _ => h.finish _ _) fun _ => h.finish _ _

theorem doReadProduction (h : AtMostOneReply s t) (k : Nat) (c : Option (CTime × Nat)) (n : Nat) :
    AtMostOneReply s (doReadProduction k c n t) :=
  ite (fun _ => h.finish _ _) fun _ => h.finish _ _

/-! ### The requests of a line, and the end of its cycles -/

variable {l : Fin 4}

theorem replyClear (h : AtMostOneReply s t) (l : Fin 4) (held : Option (Option Nat)) (changed : Nat) :
    AtMostOneReply s (replyClear l held changed t) := by
  unfold Machine.replyClear
  split
  · exact h.finish _ _
  · exact h

theorem withHeldClear (l : Fin 4) {rest : State → State} (h : AtMostOneReply s (rest t)) :
    AtMostOneReply s (withHeldClear l rest t) := h.replyClear ..

theorem echoFailure (h : AtMostOneReply s t) (l : Fin 4) : AtMostOneReply s (echoFailure l t) :=
  withHeldClear l (h.quiet (by simp))

theorem completeOrdinary (h : AtMostOneReply s t) (l : Fin 4) (hops : Nat) (bytes : List Byte) :
    AtMostOneReply s (completeOrdinary l hops bytes t) := withHeldClear l (h.quiet (by simp))

theorem completeCensus (h : AtMostOneReply s t) (l : Fin 4) (hops : Nat) :
    AtMostOneReply s (completeCensus l hops t) :=
  ite (fun _ => withHeldClear l (h.quiet (by simp))) fun _ => withHeldClear l (h.quiet (by simp))

theorem completeCycle (h : AtMostOneReply s t) (l : Fin 4) (kind : CycleKind) (hops : Nat) (bytes : List Byte) :
    AtMostOneReply s (completeCycle l kind hops bytes t) := by
  cases kind with
  | ordinary => exact h.completeOrdinary ..
  | census => exact ite (fun _ => h.completeCensus ..) fun _ => withHeldClear l (h.quiet (by simp))

theorem doFrame (h : AtMostOneReply s t) (l : Fin 4) (bytes : List Byte) : AtMostOneReply s (doFrame l bytes t) := by
  unfold Machine.doFrame
  split
  · exact h
  · split
    · exact h.completeCycle ..
    · exact h.echoFailure l

theorem doCycleTimeout (h : AtMostOneReply s t) (l : Fin 4) : AtMostOneReply s (doCycleTimeout l t) :=
  ite (fun _ => h.echoFailure l) fun _ => h

theorem lineRequest (h : AtMostOneReply s t) (n : Nat) {run : Fin 4 → State → State}
    (hr : ∀ l, AtMostOneReply s (run l t)) : AtMostOneReply s (lineRequest n run t) := by
  unfold Machine.lineRequest
  split
  · exact hr _
  · exact h.finish _ _

theorem replyChain (h : AtMostOneReply s t) (l : Fin 4) : AtMostOneReply s (replyChain l t) := h.finish _ _

theorem doStartChain (h : AtMostOneReply s t) (l : Fin 4) : AtMostOneReply s (doStartChain l t) := by
  unfold Machine.doStartChain
  split
  · exact (h.quiet (by simp)).replyChain l
  · exact (h.quiet (by simp)).replyChain l
  all_goals exact h.finish _ _

theorem doStopChain (h : AtMostOneReply s t) (l : Fin 4) : AtMostOneReply s (doStopChain l t) := by
  have hstop := ite (c := (t.lines.get l).inFlight.isSome = true)
    (fun _ => (h.quiet (u := updLine l Line.drain t) (by simp)).replyChain l)
    (fun _ => (h.quiet (u := updLine l Line.goOffline t) (by simp)).replyChain l)
  unfold Machine.doStopChain
  split
  · exact hstop
  · exact hstop
  · exact hstop
  · exact (h.quiet (by simp)).replyChain l
  all_goals exact h.finish _ _

theorem doChainMode (h : AtMostOneReply s t) (mode : Nat) (l : Fin 4) : AtMostOneReply s (doChainMode mode l t) := by
  unfold Machine.doChainMode
  split
  · exact ite (fun _ => h.replyChain l) fun _ => ite (fun _ => h.finish _ _) fun _ => (h.quiet (by simp)).replyChain l
  · exact ite (fun _ => (h.quiet (by simp)).replyChain l) fun _ => h.replyChain l
  all_goals exact h.finish _ _

theorem clearNow (h : AtMostOneReply s t) (l : Fin 4) (target : Option Nat) : AtMostOneReply s (clearNow l target t) :=
  (h.quiet (by simp)).finish _ _

theorem doClearPanelFault (h : AtMostOneReply s t) (target : Option Nat) (l : Fin 4) :
    AtMostOneReply s (doClearPanelFault target l t) := by
  have hclear := ite (c := (t.lines.get l).inFlight.isSome = true)
    (fun _ => h.quiet (u := updLine l (fun ln => { ln with deferred := ln.deferred ++ [.clear target] }) t) (by simp))
    (fun _ => h.clearNow l target)
  unfold Machine.doClearPanelFault
  split
  · exact hclear
  · exact hclear
  all_goals exact h.finish _ _

/-! ### The loads -/

theorem doSetPolicy (h : AtMostOneReply s t) (r : PolicyReq) : AtMostOneReply s (doSetPolicy r t) := by
  unfold Machine.doSetPolicy
  split
  · exact h.finish _ _
  · exact (h.quiet (by simp)).finish _ _

theorem doLoadRoom (h : AtMostOneReply s t) (room : Nat) (e : RoomSpec) : AtMostOneReply s (doLoadRoom room e t) :=
  ite (fun _ => h.finish _ _) fun _ => h.quiet (by simp)

theorem doLoadRoomEngineCheck (h : AtMostOneReply s t) (room : Nat) (e : RoomSpec) :
    AtMostOneReply s (doLoadRoomEngineCheck room e t) := by
  unfold Machine.doLoadRoomEngineCheck
  split
  · exact h.finish _ _
  · split
    · exact h.finish _ _
    · exact (h.quiet (by simp)).finish _ _

theorem doLoadKitchen (h : AtMostOneReply s t) (k : Nat) (e : KitchenSpec) : AtMostOneReply s (doLoadKitchen k e t) :=
  ite (fun _ => h.quiet (by simp)) fun _ => h.finish _ _

theorem doLoadDistance (h : AtMostOneReply s t) (k b : Nat) (x : Option Nat) :
    AtMostOneReply s (doLoadDistance k b x t) :=
  ite (fun _ => h.finish _ _) fun _ => (h.quiet (by simp)).finish _ _

theorem doLoadMenuClass (h : AtMostOneReply s t) (c w a n : Nat) : AtMostOneReply s (doLoadMenuClass c w a n t) :=
  ite (fun _ => (h.quiet (by simp)).finish _ _) fun _ => h.finish _ _

/-! ### The clock -/

theorem settleClock (h : AtMostOneReply s t) : AtMostOneReply s (settleClock t) := h.quiet (by simp)

/-- A forward trim holds the frames that wait, and answers nothing itself (R7). -/
theorem trimForward (h : AtMostOneReply s t) (k : Counting) : AtMostOneReply s (trimForward k t) :=
  ite (fun _ => h.quiet (by simp)) fun _ =>
    (h.quiet (u := enterDue (resumeDue (Machine.setCount k t))) (by simp)).keep rfl rfl rfl rfl

theorem setRunning (h : AtMostOneReply s t) (k c : Counting) (now : CTime) :
    AtMostOneReply s (setRunning k c now t) :=
  ite (fun _ => h.finish _ _) fun _ => ite (fun _ => h.finish _ _) fun _ =>
    ite (fun _ => (h.trimForward k).finish _ _) fun _ =>
      ite (fun _ => (h.quiet (by simp)).finish _ _) fun _ => (h.quiet (by simp)).finish _ _

theorem setHeld (h : AtMostOneReply s t) (k c : Counting) (held : CTime) : AtMostOneReply s (setHeld k c held t) :=
  ite (fun _ => h.finish _ _) fun _ => ite (fun _ => h.finish _ _) fun _ =>
    ite (fun _ => (h.trimForward k).finish _ _) fun _ =>
      ite (fun _ => h.finish _ _) fun _ => (h.quiet (by simp)).finish _ _

theorem doSetClock (h : AtMostOneReply s t) (day q ms : Nat) : AtMostOneReply s (doSetClock day q ms t) := by
  refine ite (fun _ => h.finish _ _) fun _ => ?_
  dsimp only
  split
  · exact h.setRunning ..
  · exact h.setHeld ..
  · exact (h.quiet (by simp)).finish _ _

/-! ### The link: status, reports, Reset and the receiver -/

theorem doGetStatus (h : AtMostOneReply s t) (n : Nat) : AtMostOneReply s (doGetStatus n t) :=
  ite (fun _ => h.finish _ _) fun _ => (ite (fun _ => h.quiet (by simp)) fun _ => h).finish _ _

theorem doReadReports (h : AtMostOneReply s t) (q n : Nat) : AtMostOneReply s (doReadReports q n t) := by
  have hovf : ∀ u, (clearOvf u).pending = u.pending ∧ (clearOvf u).link = u.link := fun _ => ⟨rfl, rfl⟩
  exact ite (fun _ => (h.quiet (by simp)).finishThen hovf _ _) fun _ =>
    ite (fun _ => (h.quiet (by simp)).finishThen hovf _ _) fun _ => h.finish _ _

theorem doReadCounters (h : AtMostOneReply s t) (n : Nat) : AtMostOneReply s (doReadCounters n t) := by
  refine ite (fun _ => h.finish _ _) fun _ => h.finishThen (fun u => ?_) _ _
  split <;> exact ⟨rfl, rfl⟩

theorem doReset (h : AtMostOneReply s t) (scope confirm : Nat) : AtMostOneReply s (doReset scope confirm t) := by
  unfold Machine.doReset
  split
  · exact h.finish _ _
  · exact (h.finish _ _).keep rfl rfl rfl rfl

theorem dropFrame (h : AtMostOneReply s t) : AtMostOneReply s (dropFrame t) := h.keep rfl rfl rfl rfl

theorem huntByte (h : AtMostOneReply s t) (b : Byte) (stop : Bool) : AtMostOneReply s (huntByte b stop t) :=
  ite (fun _ => h.keep rfl rfl rfl rfl) fun _ => h

theorem frameByte (h : AtMostOneReply s t) (got : List Byte) (b : Byte) (stop : Bool) :
    AtMostOneReply s (frameByte got b stop t) :=
  ite (fun _ => h.dropFrame) fun _ =>
    ite (fun _ => ite (fun _ => h.keep rfl rfl rfl rfl) fun _ => h.dropFrame) fun _ => h.keep rfl rfl rfl rfl

theorem doHostByte (h : AtMostOneReply s t) (b : Byte) (stop : Bool) : AtMostOneReply s (doHostByte b stop t) := by
  unfold Machine.doHostByte
  split
  · exact h.huntByte ..
  · exact ite (fun _ => h.dropFrame.huntByte ..) fun _ => h.frameByte ..

end AtMostOneReply
end Sys2Proof.Machine
end

