-- ==== Sys2Proof/Proofs/EveryCommand.lean ====
section
/-! PROOFS. Every command answers a next state, and builds at most the reply of the request in service: the taking of
work, then one case for each command; and the statements on totality and on the one reply (R170 to R172). -/

namespace Sys2Proof.Machine

variable {c : Instr} {s t u : State}

/-! ### Taking work answers nothing -/

theorem takeEngine_quiet {w : EngineWork} (h : takeEngine w s = some u) : u.pending = s.pending ∧ u.link = s.link := by
  obtain ⟨_, _, _, rfl⟩ := takeEngine_eq_some.1 h
  exact ⟨rfl, rfl⟩

theorem takePlanner_quiet {w : PlannerWork} (h : takePlanner w s = some u) :
    u.pending = s.pending ∧ u.link = s.link := by
  obtain ⟨_, _, _, _, rfl⟩ := takePlanner_eq_some.1 h
  exact ⟨rfl, rfl⟩

theorem takeLine_quiet {l : Fin 4} {w : LineWork} (h : takeLine l w s = some u) :
    u.pending = s.pending ∧ u.link = s.link := by
  obtain ⟨_, _, _, rfl⟩ := takeLine_eq_some.1 h
  exact ⟨rfl, rfl⟩

theorem takeFromOwner_quiet {r : HostRequest} (h : takeFromOwner r s = some u) :
    u.pending = s.pending ∧ u.link = s.link := by
  unfold takeFromOwner at h
  split at h
  · split at h <;> cases h
    exact ⟨rfl, rfl⟩
  · exact takeEngine_quiet h
  · exact takePlanner_quiet h
  · exact takeLine_quiet h

/-- Outside RUNNING no owner takes a request (R182). -/
theorem takeFromOwner_eq_none (hs : s.power ≠ .running) (r : HostRequest) : takeFromOwner r s = none := by
  unfold takeFromOwner
  split <;> simp [takeEngine, takePlanner, takeLine, hs]

namespace AtMostOneReply

theorem of_whenTaken {o : Option State} {run : State → State} (ho : ∀ {u}, o = some u → AtMostOneReply s u)
    (hr : ∀ {u}, AtMostOneReply s u → AtMostOneReply s (run u)) (h : whenTaken o run s = .next t) :
    AtMostOneReply s t := by
  cases o with
  | none => cases h; rfl
  | some u => cases h; exact hr (ho rfl)

theorem engineStep {w : EngineWork} {run : State → State} (hr : ∀ {u}, AtMostOneReply s u → AtMostOneReply s (run u))
    (h : whenTaken (takeEngine w s) run s = .next t) : AtMostOneReply s t :=
  of_whenTaken (fun hu => (refl s).quiet (takeEngine_quiet hu)) hr h

theorem plannerStep {w : PlannerWork} {run : State → State}
    (hr : ∀ {u}, AtMostOneReply s u → AtMostOneReply s (run u))
    (h : whenTaken (takePlanner w s) run s = .next t) : AtMostOneReply s t :=
  of_whenTaken (fun hu => (refl s).quiet (takePlanner_quiet hu)) hr h

theorem lineStep {l : Fin 4} {w : LineWork} {run : State → State}
    (hr : ∀ {u}, AtMostOneReply s u → AtMostOneReply s (run u))
    (h : whenTaken (takeLine l w s) run s = .next t) : AtMostOneReply s t :=
  of_whenTaken (fun hu => (refl s).quiet (takeLine_quiet hu)) hr h

theorem hostStep {r : HostRequest} {run : State → State} (h : hostStep r run s = .next t)
    (hr : ∀ {u}, AtMostOneReply s u → AtMostOneReply s (run u)) : AtMostOneReply s t :=
  of_whenTaken (fun hu => by
    obtain ⟨v, hv, rfl⟩ := Option.map_eq_some_iff.1 hu
    exact ((refl s).quiet (takeFromOwner_quiet hv)).setStage _) hr h

/-- An event at a pin of a line (log 19). -/
theorem pinEvent {l : Fin 4} {w : LineWork} {run : State → State} {v : State} (hv : AtMostOneReply s v)
    (hr : ∀ {u}, AtMostOneReply s u → AtMostOneReply s (run u)) (h : pinEvent l w run v = .next t) :
    AtMostOneReply s t := by
  unfold Machine.pinEvent at h
  split at h
  · split at h
    · rename_i ht
      cases h
      exact hr (hv.quiet (takeLine_quiet ht))
    · split at h
      · cases h; exact hr hv
      · cases h; exact hv.quiet (by simp)
  · cases h; exact hv

/-- A step made on a condition. -/
theorem guarded {p : Prop} [Decidable p] (hu : AtMostOneReply s u)
    (h : (if p then Host.Outcome.next u else .next s : Host.Outcome State Fault Refusal) = .next t) :
    AtMostOneReply s t := by
  split at h <;> cases h
  · exact hu
  · rfl

end AtMostOneReply

/-! ### The commands of each block -/

theorem exec_oneReply_engine (hc : isEngineWork c = true) (h : exec c s = .next t) : AtMostOneReply s t := by
  cases c with
  | hold => exact .hostStep h fun h => h.doHold ..
  | book => exact .hostStep h fun h => h.doBook ..
  | confirm => exact .hostStep h fun h => h.doConfirm ..
  | cancel => exact .hostStep h fun h => h.doCancel ..
  | endBooking => exact .hostStep h fun h => h.doEnd ..
  | checkIn => exact .hostStep h fun h => h.doCheckIn ..
  | move => exact .hostStep h fun h => h.doMove ..
  | findRoom => exact .hostStep h fun h => h.doFindRoom ..
  | queryRoom => exact .hostStep h fun h => h.doQueryRoom ..
  | queryBooking => exact .hostStep h fun h => h.doQueryBooking ..
  | acceptProvisional => exact .hostStep h fun h => h.doAcceptProvisional ..
  | placeOrder => exact .hostStep h fun h => h.doPlaceOrder ..
  | engineTakesAdmissionAnswer => exact .engineStep (fun h => h.doAdmissionAnswer ..) h
  | engineTakesRefitAnswer => exact .engineStep (fun h => h.doRefitAnswer ..) h
  | linkNotice => exact .engineStep (fun h => h.doLinkNotice ..) h
  | displayNotice => exact .engineStep (fun h => h.quiet (doDisplayNotice_quiet ..)) h
  | engineBoundaryWork => exact .engineStep (fun h => h.quiet (doEngineBoundary_quiet ..)) h
  | roomVisit => exact .engineStep (fun h => h.quiet (doRoomVisit_quiet ..)) h
  | occupancyNotice => exact .engineStep (fun h => h.quiet (doOccupancy_quiet ..)) h
  | walkup => exact .engineStep (fun h => h.quiet (doWalkup_quiet ..)) h
  | panelCheckin => exact .engineStep (fun h => h.quiet (doPanelCheckin_quiet ..)) h
  | extend => exact .engineStep (fun h => h.quiet (doExtend_quiet ..)) h
  | panelEnd => exact .engineStep (fun h => h.quiet (doPanelEnd_quiet ..)) h
  | _ => cases hc

theorem exec_oneReply_planner (hc : isPlannerWork c = true) (h : exec c s = .next t) : AtMostOneReply s t := by
  have hjob : AtMostOneReply s (setJob none s) := (AtMostOneReply.refl s).quiet ⟨rfl, rfl⟩
  cases c with
  | roomNotice => exact .plannerStep (fun h => h.quiet (doRoomNotice_quiet ..)) h
  | admissionComputation => exact .plannerStep (fun h => h.quiet (doAdmissionComputation_quiet ..)) h
  | admissionCompletion =>
    simp only [exec, execAdmissionCompletion] at h
    split at h
    · exact .guarded (hjob.quiet (doAdmissionCompletion_quiet ..)) h
    · cases h; rfl
  | refitComputation => exact .plannerStep (fun h => h.quiet (doRefitComputation_quiet ..)) h
  | refitCompletion =>
    simp only [exec, execRefitCompletion] at h
    split at h
    · exact .guarded (hjob.quiet (doRefitCompletion_quiet ..)) h
    · cases h; rfl
  | queryOrder => exact .hostStep h fun h => h.doQueryOrder ..
  | cancelOrder => exact .hostStep h fun h => h.doCancelOrder ..
  | confirmDelivery => exact .hostStep h fun h => h.doConfirmDelivery ..
  | readLoad => exact .hostStep h fun h => h.doReadLoad ..
  | readProduction => exact .hostStep h fun h => h.doReadProduction ..
  | kitchenChange => exact .plannerStep (fun h => h.doKitchenChange ..) h
  | bookingHandoff => exact .plannerStep (fun h => h.quiet (doBookingHandoff_quiet ..)) h
  | plannerBoundaryWork => exact .plannerStep (fun h => h.quiet (doPlannerBoundary_quiet ..)) h
  | cateringReceived => exact .plannerStep (fun h => h.quiet (doCateringReceived_quiet ..)) h
  | _ => cases hc

/-- Every command but a reset and the taking of a frame builds at most the reply of the request in service. -/
theorem exec_oneReply (hc : isReset c = false) (hv : ∀ f, c ≠ .validFrame f) (h : exec c s = .next t) :
    AtMostOneReply s t := by
  by_cases he : isEngineWork c = true
  · exact exec_oneReply_engine he h
  by_cases hp : isPlannerWork c = true
  · exact exec_oneReply_planner hp h
  have h0 := AtMostOneReply.refl s
  cases c with
  | timebaseTick => exact .guarded (u := doTick s) (h0.keep rfl rfl rfl rfl) h
  | quantumEntry => exact .guarded (h0.quiet (by simp)) h
  | heldQuantumReached => exact .guarded (u := resume s) (h0.quiet ⟨rfl, rfl⟩) h
  | interByteGapExpiry => exact .guarded h0.dropFrame h
  | hostByteReceived => exact .guarded (h0.doHostByte ..) h
  | validFrame f => exact absurd rfl (hv f)
  | identify => exact .hostStep h fun h => h.finish ..
  | getStatus => exact .hostStep h fun h => h.doGetStatus _
  | readReports => exact .hostStep h fun h => h.doReadReports ..
  | readCounters => exact .hostStep h fun h => h.doReadCounters _
  | reset => exact .hostStep h fun h => h.doReset ..
  | setClock => exact .hostStep h fun h => h.settleClock.doSetClock ..
  | setPolicy => exact .hostStep h fun h => h.doSetPolicy _
  | readPolicy => exact .hostStep h fun h => h.finish ..
  | loadRoom => exact .hostStep h fun h => h.doLoadRoom ..
  | loadRoomEngineCheck => exact .engineStep (fun h => h.doLoadRoomEngineCheck ..) h
  | readRoom => exact .hostStep h fun h => .ite (fun _ => h.finish ..) fun _ => h.finish ..
  | loadKitchen => exact .hostStep h fun h => h.doLoadKitchen ..
  | readKitchen => exact .hostStep h fun h => .ite (fun _ => h.finish ..) fun _ => h.finish ..
  | loadDistance => exact .hostStep h fun h => h.doLoadDistance ..
  | readDistance => exact .hostStep h fun h => .ite (fun _ => h.finish ..) fun _ => h.finish ..
  | loadMenuClass => exact .hostStep h fun h => h.doLoadMenuClass ..
  | readMenuClass => exact .hostStep h fun h => .ite (fun _ => h.finish ..) fun _ => h.finish ..
  | controllerBoundaryWork => exact .lineStep (fun h => h.quiet (doControllerBoundary_quiet ..)) h
  | scanStepExpiry => exact .guarded (h0.quiet (by simp)) h
  | startChain => exact .hostStep h fun h => h.lineRequest _ h.doStartChain
  | stopChain => exact .hostStep h fun h => h.lineRequest _ h.doStopChain
  | chainMode => exact .hostStep h fun h => .ite (fun _ => h.finish ..) fun _ => h.lineRequest _ (h.doChainMode _)
  | clearPanelFault =>
    exact .hostStep h fun h => .ite (fun _ => h.lineRequest _ (h.doClearPanelFault _)) fun _ => h.finish ..
  | readChain => exact .hostStep h fun h => h.lineRequest _ fun _ => h.finish ..
  | readPosition => exact .hostStep h fun h => .ite (fun _ => h.lineRequest _ fun _ => h.finish ..) fun _ => h.finish ..
  | readLineHealth => exact .hostStep h fun h => h.lineRequest _ fun _ => h.finish ..
  | pollTimerExpiry => exact .lineStep (fun h => h.quiet (doPollExpiry_quiet ..)) h
  | attentionWirePulled l =>
    simp only [exec, execAttentionWirePulled] at h
    split at h
    · rename_i ht
      cases h
      exact (h0.quiet (takeLine_quiet ht)).quiet (doWirePulled_silent ..)
    · split at h
      · cases h; rfl
      · exact .pinEvent (h0.quiet (setWire_quiet l true s)) (fun h => h.quiet (doWirePulled_silent ..)) h
  | attentionWireReleased => cases h; exact h0.quiet (setWire_quiet ..)
  | cycleReturn => exact .pinEvent h0 (fun h => h.doFrame ..) h
  | cycleTimeout => exact .lineStep (fun h => h.doCycleTimeout _) h
  | panelAnswer => exact .lineStep (fun h => h.quiet (by simp)) h
  | displayUpdateRequest => exact .lineStep (fun h => h.quiet (by simp)) h
  | bindingChange => exact .lineStep (fun h => h.quiet (by simp)) h
  | supervisionTimerExpiry => exact .guarded (h0.quiet (doSupervisionExpiry_quiet s)) h
  | powerOn | supplyLowReset | supplyRestored | crystalStable | resetTakesEffect => cases hc
  | _ => simp_all [isEngineWork, isPlannerWork]

/-! ### Every command answers a next state -/

/-- An outcome is a next state, and one that is `s` itself unless the part runs. -/
def Answers (o : Host.Outcome State Fault Refusal) (s : State) : Prop :=
  ∃ t, o = .next t ∧ (s.power ≠ .running → t = s)

namespace Answers

theorem same (s : State) : Answers (.next s) s := ⟨s, rfl, fun _ => rfl⟩

theorem whenTaken {o : Option State} (hn : s.power ≠ .running → o = none) (run : State → State) :
    Answers (whenTaken o run s) s := by
  cases o with
  | none => exact same s
  | some u => exact ⟨run u, rfl, fun hs => by cases hn hs⟩

theorem engineStep (w : EngineWork) (run : State → State) : Answers (Machine.whenTaken (takeEngine w s) run s) s :=
  whenTaken (fun hs => if_neg hs) run

theorem plannerStep (w : PlannerWork) (run : State → State) :
    Answers (Machine.whenTaken (takePlanner w s) run s) s :=
  whenTaken (fun hs => if_neg fun h => hs h.1) run

theorem lineStep (l : Fin 4) (w : LineWork) (run : State → State) :
    Answers (Machine.whenTaken (takeLine l w s) run s) s :=
  whenTaken (fun hs => if_neg hs) run

theorem hostStep (r : HostRequest) (run : State → State) : Answers (hostStep r run s) s :=
  whenTaken (fun hs => by simp [takeHost, takeFromOwner_eq_none hs]) run

/-- A step made on a condition that holds only while the part runs. -/
theorem guarded {p : Prop} [Decidable p] (hp : p → s.power = .running) (u : State) :
    Answers (if p then .next u else .next s) s := by
  split
  · next h => exact ⟨u, rfl, fun hs => absurd (hp h) hs⟩
  · exact same s

theorem pinEvent (l : Fin 4) (w : LineWork) (run : State → State) : Answers (pinEvent l w run s) s := by
  unfold Machine.pinEvent
  split
  · next hrun =>
    split
    · exact ⟨_, rfl, fun hs => absurd hrun hs⟩
    · split
      · exact ⟨_, rfl, fun hs => absurd hrun hs⟩
      · exact ⟨_, rfl, fun hs => absurd hrun hs⟩
  · exact same s

end Answers

/-- A command that is no pin's answers a next state, and changes nothing while the part does not run (R182). -/
theorem exec_answers (hc : isPin c = false) (s : State) : Answers (exec c s) s := by
  cases c with
  | powerOn | supplyLowReset | supplyRestored | crystalStable | attentionWirePulled | attentionWireReleased => cases hc
  | timebaseTick | hostByteReceived => exact .guarded id _
  | quantumEntry | heldQuantumReached | interByteGapExpiry | scanStepExpiry | supervisionTimerExpiry =>
    exact .guarded And.left _
  | validFrame f => exact .whenTaken (fun hs => if_neg fun h => hs h.1) _
  | resetTakesEffect =>
    simp only [exec, execResetTakesEffect]
    split
    · next hrun _ => exact ⟨_, rfl, fun hs => absurd hrun hs⟩
    · next hrun _ => exact ⟨_, rfl, fun hs => absurd hrun hs⟩
    · exact .same s
  | admissionCompletion =>
    simp only [exec, execAdmissionCompletion]
    split
    · exact .guarded id _
    · exact .same s
  | refitCompletion =>
    simp only [exec, execRefitCompletion]
    split
    · exact .guarded id _
    · exact .same s
  | cycleReturn => exact .pinEvent ..
  | loadRoomEngineCheck | engineTakesAdmissionAnswer | engineTakesRefitAnswer | linkNotice | displayNotice
  | engineBoundaryWork | roomVisit | occupancyNotice | walkup | panelCheckin | extend | panelEnd =>
    exact .engineStep ..
  | roomNotice | admissionComputation | refitComputation | kitchenChange | bookingHandoff | plannerBoundaryWork
  | cateringReceived => exact .plannerStep ..
  | controllerBoundaryWork | pollTimerExpiry | cycleTimeout | panelAnswer | displayUpdateRequest | bindingChange =>
    exact .lineStep ..
  | _ => exact .hostStep ..

/-- A pin's command answers a next state. -/
theorem exec_pin_next (hc : isPin c = true) (s : State) : ∃ t, exec c s = .next t := by
  cases c with
  | powerOn | attentionWireReleased => exact ⟨_, rfl⟩
  | supplyLowReset =>
    simp only [exec, execSupplyLowReset]
    split <;> exact ⟨_, rfl⟩
  | supplyRestored =>
    simp only [exec, execSupplyRestored]
    split <;> exact ⟨_, rfl⟩
  | crystalStable =>
    simp only [exec, execCrystalStable]
    split <;> exact ⟨_, rfl⟩
  | attentionWirePulled l =>
    simp only [exec, execAttentionWirePulled]
    split
    · exact ⟨_, rfl⟩
    · split
      · exact ⟨_, rfl⟩
      · obtain ⟨t, ht, -⟩ := Answers.pinEvent (s := setWire l true s) l .wirePulled (doWirePulled l)
        exact ⟨t, ht⟩
  | _ => cases hc

theorem exec_next (c : Instr) (s : State) : ∃ t, exec c s = .next t := by
  cases hc : isPin c with
  | true => exact exec_pin_next hc s
  | false =>
    obtain ⟨t, ht, -⟩ := exec_answers hc s
    exact ⟨t, ht⟩

/-! ### The queue of waiting commands -/

theorem exec_reset_pending (hc : isReset c = true) (h : exec c s = .next t) : t.pending = s.pending := by
  cases c with
  | powerOn => cases h; rfl
  | supplyLowReset =>
    simp only [exec, execSupplyLowReset] at h
    split at h <;> cases h <;> rfl
  | supplyRestored =>
    simp only [exec, execSupplyRestored] at h
    split at h <;> cases h <;> rfl
  | crystalStable =>
    simp only [exec, execCrystalStable] at h
    split at h <;> cases h <;> rfl
  | resetTakesEffect =>
    simp only [exec, execResetTakesEffect] at h
    split at h <;> cases h <;> rfl
  | _ => cases hc

theorem takeFrame_pending (f : Frame) (s : State) : (takeFrame f s).pending = s.pending := by
  unfold takeFrame
  split
  · rfl
  · dsimp only
    split
    · rfl
    · rfl
    · simp [enterSlot, handTo_eq]

theorem exec_validFrame_pending {f : Frame} (h : exec (.validFrame f) s = .next t) : t.pending = s.pending := by
  simp only [exec, execValidFrame, whenTaken_next] at h
  cases hf : nextFrame f s with
  | none => rw [hf] at h; cases h; rfl
  | some u =>
    rw [hf] at h
    cases h
    obtain ⟨_, _, _, _, _, rfl⟩ := nextFrame_eq_some.1 hf
    simp [takeFrame_pending, reportFrame_quiet]

theorem exec_pending (h : exec c s = .next t) : t.pending = s.pending := by
  cases hr : isReset c with
  | true => exact exec_reset_pending hr h
  | false =>
    by_cases hv : ∃ f, c = .validFrame f
    · obtain ⟨f, rfl⟩ := hv
      exact exec_validFrame_pending h
    · exact (exec_oneReply hr (fun f hf => hv ⟨f, hf⟩) h).pending

/-- A frame taken while a request is in service: a BUSY reply is owed for it, or it is discarded (R171). -/
theorem exec_validFrame_busy {f : Frame} {sl : Slot} (hs : s.link.slot = some sl)
    (h : exec (.validFrame f) s = .next t) : t.link.slot = some sl ∧ t.link.tx = s.link.tx := by
  simp only [exec, execValidFrame, whenTaken_next] at h
  cases hf : nextFrame f s with
  | none => rw [hf] at h; cases h; exact ⟨hs, rfl⟩
  | some u =>
    rw [hf] at h
    cases h
    obtain ⟨_, _, _, _, _, rfl⟩ := nextFrame_eq_some.1 hf
    simp [takeFrame, reportFrame_link, hs, busyFrame]

end Sys2Proof.Machine

section Statements
open Sys2Proof Sys2Proof.Machine

/-- Settles O2: the outcome of each command by the way it takes its work, and the queue of waiting commands by
`exec_pending`. -/
theorem everyCommandAnswers : Obligations.EveryCommandAnswers := by
  refine ⟨fun c s => ?_, fun c s hs hc => ?_⟩
  · obtain ⟨t, ht⟩ := exec_next c s
    exact ⟨t, ht, exec_pending ht⟩
  · obtain ⟨t, ht, hidle⟩ := exec_answers hc s
    rw [ht, hidle hs]

/-- Settles O16: `exec_oneReply` for every command but the taking of a frame, which leaves a full slot alone. -/
theorem oneReplyPerRequest : Obligations.OneReplyPerRequest := by
  intro c s t sl hc hs h
  by_cases hv : ∃ f, c = .validFrame f
  · obtain ⟨f, rfl⟩ := hv
    obtain ⟨hslot, htx⟩ := exec_validFrame_busy hs h
    exact .inl ⟨sl, hslot, rfl, rfl, rfl, htx⟩
  · rcases (exec_oneReply hc (fun f hf => hv ⟨f, hf⟩) h).service with hsame | hserved
    · obtain ⟨sl', hslot, hkind, htag, hreq⟩ := hsame.asked hs
      exact .inl ⟨sl', hslot, hkind, htag, hreq, hsame.tx⟩
    · obtain ⟨sl', hslot, hnone, howed, hreply⟩ := hserved
      rw [hs, Option.some.injEq] at hslot
      subst hslot
      exact .inr ⟨hnone, howed, hreply⟩

end Statements
end

