-- ==== Sys2Proof/Proofs/SupervisionTimer.lean ====
section
/-! PROOFS. The supervision timer's expiries, by where the supervision counter stands (R185, R187). -/

namespace Sys2Proof.Machine

variable {s : State}

/-- An expiry that is there to be taken is taken (log 20). -/
theorem exec_supervisionTimerExpiry_due (hrun : s.power = .running) (hdue : 0 < s.superv.due) :
    exec .supervisionTimerExpiry s = .next (doSupervisionExpiry s) :=
  if_pos ⟨hrun, hdue⟩

/-- Short of the third expiry the counter advances, and nothing else follows. -/
theorem doSupervisionExpiry_advance (hn : s.superv.counter < 2) :
    doSupervisionExpiry s =
      { s with superv := { s.superv with counter := s.superv.counter + 1, due := s.superv.due - 1 } } := by
  have hstanding : ¬ 3 ≤ s.superv.counter := by omega
  have hthird : s.superv.counter + 1 ≠ 3 := by omega
  simp only [doSupervisionExpiry, if_neg hstanding, if_neg hthird, takeExpiry]

/-- The third expiry finds the host lost and posts HOST_LOST. -/
theorem doSupervisionExpiry_lost (hn : s.superv.counter = 2) :
    doSupervisionExpiry s = postException (.hostLost s.policy.supervision) s.clock.now { s with
      superv := { s.superv with counter := 3, link := .hostLost, due := s.superv.due - 1 } } := by
  have hstanding : ¬ 3 ≤ s.superv.counter := by omega
  have hthird : s.superv.counter + 1 = 3 := by omega
  simp only [doSupervisionExpiry, if_neg hstanding, if_pos hthird, takeExpiry]

/-- A counter that stands at 3 stays there: the expiry is only counted off. -/
theorem doSupervisionExpiry_standing (hn : 3 ≤ s.superv.counter) : doSupervisionExpiry s = takeExpiry s :=
  if_pos hn

end Sys2Proof.Machine

section Statements
open Sys2Proof Sys2Proof.Machine

/-- Settles O19: the expiry is taken, and where the counter stands picks the branch of its work. -/
theorem supervisionExpiry : Obligations.SupervisionExpiry := by
  intro s hrun hdue
  rw [exec_supervisionTimerExpiry_due hrun hdue]
  refine ⟨fun hadvance => ?_, fun hlost => ?_, fun hstanding => ?_⟩
  · rw [doSupervisionExpiry_advance hadvance]
  · rw [doSupervisionExpiry_lost hlost]
  · rw [doSupervisionExpiry_standing hstanding, takeExpiry]

end Statements
end
